-- ==== Sys2Proof/Word.lean ====
section
/-! DEFINITION. The machine's words: the widths the spec fixes, and nothing more. -/

namespace Sys2Proof

/-- A 64-bit scalar value (R28). -/
abbrev Word := BitVec 64

/-- A byte of memory (R210: a location is one byte). -/
abbrev Byte := BitVec 8

/-- A vector register or queue entry, 1,024 bits (R28). -/
abbrev VWord := BitVec 1024

/-- A local address (R28: A registers are 32 bits wide). -/
abbrev Addr := BitVec 32

/-- An HCW table entry (R54). -/
abbrev Entry := BitVec 256

end Sys2Proof
end

