-- ==== Sys2Proof/Machine/Table.lean ====
section
/-! DEFINITION. Sparse tables and byte memories as plain data: lists of key and value in rising key order. -/

namespace Sys2Proof.Machine

/-- A sparse table: keys rising, one entry a key. What an unlisted key holds is said at each read. -/
abbrev Table (α : Type) := List (Nat × α)

/-- The value of a key, `d` where the table lists none. -/
def tget {α : Type} (t : Table α) (d : α) (k : Nat) : α :=
  match t with
  | [] => d
  | (j, v) :: r => if j = k then v else tget r d k

/-- The table with `k` set to `v`. -/
def tput {α : Type} (t : Table α) (k : Nat) (v : α) : Table α :=
  match t with
  | [] => [(k, v)]
  | (j, w) :: r =>
    if j = k then (k, v) :: r
    else if k < j then (k, v) :: (j, w) :: r
    else (j, w) :: tput r k v

/-- The table without `k`. -/
def tdel {α : Type} (t : Table α) (k : Nat) : Table α :=
  t.filter (fun p => p.1 ≠ k)

/-- A table with `f` applied to every value it lists. -/
def tmap {α β : Type} (f : α → β) (t : Table α) : Table β :=
  t.map (fun p => (p.1, f p.2))

/-- Byte memory: addresses strictly rising, no entry equal to what an unlisted address reads as. -/
abbrev Memory := List Host.Cell

/-- What an address of memory that nothing has written reads as: DESIGN CHOICE 0 (log entry 1). -/
def unlistedByte : Byte := 0

/-- Reads one byte. -/
def mread (m : Memory) (a : Nat) : Byte :=
  match m with
  | [] => unlistedByte
  | (j, b) :: r => if j = a then b else mread r a

/-- Writes one byte and keeps the canonical form. -/
def mwrite (m : Memory) (a : Nat) (b : Byte) : Memory :=
  match m with
  | [] => if b = unlistedByte then [] else [(a, b)]
  | (j, c) :: r =>
    if j = a then (if b = unlistedByte then r else (a, b) :: r)
    else if a < j then (if b = unlistedByte then (j, c) :: r else (a, b) :: (j, c) :: r)
    else (j, c) :: mwrite r a b

/-- Every address of `m` is at least `lo`, addresses rise strictly and no entry is the unlisted byte. -/
def memWfFrom (lo : Nat) (m : Memory) : Bool :=
  match m with
  | [] => true
  | (j, b) :: r => decide (lo ≤ j) && decide (b ≠ unlistedByte) && memWfFrom (j + 1) r

/-- The canonical form of a memory. -/
def Memory.wf (m : Memory) : Bool := memWfFrom 0 m

/-- Reads `n` bytes from `a` as one little-endian number (R166). -/
def mreadN (m : Memory) (a : Nat) (n : Nat) : Nat :=
  match n with
  | 0 => 0
  | k + 1 => (mread m a).toNat + 256 * mreadN m (a + 1) k

/-- Writes the low `n` bytes of `v` from `a`, little-endian (R166). -/
def mwriteN (m : Memory) (a : Nat) (n : Nat) (v : Nat) : Memory :=
  match n with
  | 0 => m
  | k + 1 => mwriteN (mwrite m a (BitVec.ofNat 8 v)) (a + 1) k (v / 256)

/-- Bits `lo` to `lo + len - 1` of a number. -/
def bitsAt (w lo len : Nat) : Nat := w / 2 ^ lo % 2 ^ len

/-- One bit of a number. -/
def bitAt (w i : Nat) : Bool := w / 2 ^ i % 2 == 1

/-- A number of `n` bits read as two's complement. -/
def toSigned (n w : Nat) : Int :=
  let v := w % 2 ^ n
  if v < 2 ^ (n - 1) then (v : Int) else (v : Int) - 2 ^ n

/-- An integer as an `n`-bit pattern. -/
def ofSigned (n : Nat) (i : Int) : Nat := (i % (2 ^ n : Nat)).toNat

/-- Replaces bits `lo` to `lo + len - 1` of `w` by `v`. -/
def setBits (w lo len v : Nat) : Nat :=
  w - bitsAt w lo len * 2 ^ lo + v % 2 ^ len * 2 ^ lo

/-- ⌈a / b⌉. -/
def ceilDiv (a b : Nat) : Nat := (a + b - 1) / b

end Sys2Proof.Machine
end

