-- ==== Sys2Proof/Machine/Num.lean ====
section
/-! DEFINITION. Exact values, the element formats and rounding (R29 to R43). Raw bits are natural numbers here;
a value is an exact fraction, rounded once by the mode an operation names. -/

namespace Sys2Proof.Machine

/-- An exact fraction, not reduced; `den` is positive. -/
structure Q where
  num : Int
  den : Nat
  deriving DecidableEq, Repr

def qOfInt (i : Int) : Q := ⟨i, 1⟩
def qAdd (a b : Q) : Q :=
  if a.den = b.den then ⟨a.num + b.num, a.den⟩ else ⟨a.num * b.den + b.num * a.den, a.den * b.den⟩
def qNeg (a : Q) : Q := ⟨-a.num, a.den⟩
def qSub (a b : Q) : Q := qAdd a (qNeg b)
def qMul (a b : Q) : Q := ⟨a.num * b.num, a.den * b.den⟩
def qAbs (a : Q) : Q := ⟨a.num.natAbs, a.den⟩
def qLt (a b : Q) : Bool := decide (a.num * b.den < b.num * a.den)
def qLe (a b : Q) : Bool := decide (a.num * b.den ≤ b.num * a.den)
def qEq (a b : Q) : Bool := decide (a.num * b.den = b.num * a.den)
def qIsZero (a : Q) : Bool := a.num == 0
def qNegative (a : Q) : Bool := decide (a.num < 0)

/-- 2^e as a fraction. -/
def qPow2 (e : Int) : Q := if 0 ≤ e then ⟨2 ^ e.toNat, 1⟩ else ⟨1, 2 ^ (-e).toNat⟩

/-- 10^e as a fraction. -/
def qPow10 (e : Int) : Q := if 0 ≤ e then ⟨10 ^ e.toNat, 1⟩ else ⟨1, 10 ^ (-e).toNat⟩

/-- The five sticky flags of R44 as bits: NV 0, DZ 1, OF 2, UF 3, NX 4 (the order of FMT [20:16], R45). -/
abbrev Flags := BitVec 5
def flNone : Flags := 0
def flNV : Flags := 1
def flDZ : Flags := 2
def flOF : Flags := 4
def flUF : Flags := 8
def flNX : Flags := 16
def flIf (b : Bool) (f : Flags) : Flags := if b then f else 0

/-- A rounding mode (R40); a stochastic one carries the 24-bit draw h[31:8] of R43. -/
inductive RMode where
  | rn | rz | ru | rd
  | rs (draw : Nat)
  deriving DecidableEq, Repr

/-- ⌊log2 (n / d)⌋ for positive n and d. -/
def floorLog2 (n d : Nat) : Int :=
  let k : Int := (Nat.log2 n : Int) - (Nat.log2 d : Int)
  let ge : Bool := if 0 ≤ k then decide (d * 2 ^ k.toNat ≤ n) else decide (d ≤ n * 2 ^ (-k).toNat)
  if ge then k else k - 1

/-- Rounds the magnitude `n / d`, of sign `neg`, to an integer by `mode` (R40, R43). -/
def roundNat (mode : RMode) (neg : Bool) (n d : Nat) : Nat :=
  let fl := n / d
  let rem := n % d
  if rem = 0 then fl
  else match mode with
    | .rn => if 2 * rem < d then fl else if 2 * rem = d then (if fl % 2 = 0 then fl else fl + 1) else fl + 1
    | .rz => fl
    | .ru => if neg then fl else fl + 1
    | .rd => if neg then fl + 1 else fl
    | .rs draw =>
      if neg then (if draw < (d - rem) * 2 ^ 24 / d then fl else fl + 1)
      else (if draw < rem * 2 ^ 24 / d then fl + 1 else fl)

/-- Rounds `n / d` to a multiple of 2^e: the multiple, and whether it is exact. -/
def roundAt (mode : RMode) (neg : Bool) (n d : Nat) (e : Int) : Nat × Bool :=
  let (n', d') : Nat × Nat := if 0 ≤ e then (n, d * 2 ^ e.toNat) else (n * 2 ^ (-e).toNat, d)
  (roundNat mode neg n' d', n' % d' == 0)

/-- A binary format of R36 or R38: fraction bits, exponent field bits, bias, and whether it has subnormals. -/
structure FFmt where
  fbits : Nat
  ebits : Nat
  bias  : Nat
  sub   : Bool
  deriving DecidableEq, Repr

def fmtF : FFmt := ⟨23, 8, 127, true⟩
def fmtH : FFmt := ⟨10, 5, 15, true⟩
def fmtB : FFmt := ⟨7, 8, 127, true⟩
def fmtC : FFmt := ⟨24, 15, 16383, false⟩

/-- The exponent of the smallest normal. -/
def FFmt.emin (f : FFmt) : Int := 1 - (f.bias : Int)
/-- The exponent of the largest finite value. -/
def FFmt.emax (f : FFmt) : Int := (2 ^ f.ebits - 2 : Int) - f.bias
/-- The sign bit's position. -/
def FFmt.sbit (f : FFmt) : Nat := f.fbits + f.ebits
/-- The bits of an infinity. -/
def FFmt.infBits (f : FFmt) : Nat := (2 ^ f.ebits - 1) * 2 ^ f.fbits
/-- The bits of the largest finite value. -/
def FFmt.maxBits (f : FFmt) : Nat := f.infBits - 1
/-- The default NaN (R36, R38). -/
def FFmt.nanBits (f : FFmt) : Nat := f.infBits + 2 ^ (f.fbits - 1)

/-- A value read from a float format: a NaN keeps its sign and its payload, aligned at the top of a 24-bit
fraction so that a payload passes from format to format as R36 states. -/
inductive FV where
  | nan (neg : Bool) (pay : Nat)
  | inf (neg : Bool)
  | fin (neg : Bool) (mag : Q)
  deriving DecidableEq, Repr

def defNaN : FV := .nan false (2 ^ 23)
def fvZero (neg : Bool) : FV := .fin neg ⟨0, 1⟩
def fvOfQ (q : Q) : FV := .fin (qNegative q) (qAbs q)
/-- The signed exact value of a finite one (0 for the others). -/
def fvQ : FV → Q
  | .fin neg m => if neg then qNeg m else m
  | _ => ⟨0, 1⟩
def fvIsNaN : FV → Bool
  | .nan _ _ => true
  | _ => false
def fvIsInf : FV → Bool
  | .inf _ => true
  | _ => false
def fvIsZero : FV → Bool
  | .fin _ m => qIsZero m
  | _ => false
def fvNeg : FV → Bool
  | .nan s _ => s
  | .inf s => s
  | .fin s _ => s
/-- A NaN whose most significant fraction bit is 0 is signalling (R36). -/
def fvSignalling : FV → Bool
  | .nan _ p => !(bitAt p 23)
  | _ => false
/-- A NaN quieted (R36). -/
def fvQuiet : FV → FV
  | .nan s p => .nan s (if bitAt p 23 then p else p + 2 ^ 23)
  | v => v
def fvNegate : FV → FV
  | .nan s p => .nan (!s) p
  | .inf s => .inf (!s)
  | .fin s m => .fin (!s) m

/-- Reads a float pattern (R36, R38). Magnitudes of one format share one denominator. -/
def fdecode (f : FFmt) (w : Nat) : FV :=
  let neg := bitAt w f.sbit
  let e := bitsAt w f.fbits f.ebits
  let m := w % 2 ^ f.fbits
  if e = 2 ^ f.ebits - 1 then
    (if m = 0 then .inf neg else .nan neg (m * 2 ^ (24 - f.fbits)))
  else if e = 0 then
    (if f.sub then .fin neg ⟨m, 2 ^ (f.bias - 1 + f.fbits)⟩ else .fin neg ⟨0, 1⟩)
  else .fin neg ⟨((2 ^ f.fbits + m) * 2 ^ (e - 1) : Nat), 2 ^ (f.bias - 1 + f.fbits)⟩

/-- The pattern with its sign. -/
def withSign (f : FFmt) (neg : Bool) (w : Nat) : Nat := if neg then w + 2 ^ f.sbit else w

/-- A NaN's pattern in a format (R36): the top fraction bits kept, quieted. -/
def nanPattern (f : FFmt) (neg : Bool) (pay : Nat) : Nat :=
  let p := (if bitAt pay 23 then pay else pay + 2 ^ 23) / 2 ^ (24 - f.fbits)
  withSign f neg (f.infBits + p)

/-- Overflow under a mode (R36; R43: as under .rn when stochastic). -/
def overflowBits (f : FFmt) (mode : RMode) (neg : Bool) : Nat :=
  withSign f neg (match mode with
    | .rn => f.infBits
    | .rz => f.maxBits
    | .ru => if neg then f.maxBits else f.infBits
    | .rd => if neg then f.infBits else f.maxBits
    | .rs _ => f.infBits)

/-- The largest finite magnitude of a format. -/
def FFmt.maxQ (f : FFmt) : Q := qMul ⟨(2 ^ (f.fbits + 1) - 1 : Nat), 1⟩ (qPow2 (f.emax - f.fbits))

/-- The mode that governs a magnitude: stochastic rounding acts as .rn beyond the largest finite value (R43). -/
def effMode (f : FFmt) (mode : RMode) (n d : Nat) : RMode :=
  match mode with
  | .rs draw => if qLt f.maxQ ⟨n, d⟩ then .rn else .rs draw
  | m => m

/-- Rounds the exact magnitude `m`, of sign `neg`, into a format: the pattern and OF, UF, NX (R36, R39, R43). -/
def roundMag (f : FFmt) (mode0 : RMode) (neg : Bool) (m : Q) : Nat × Flags :=
  let n := m.num.natAbs
  let d := m.den
  if n = 0 then (withSign f neg 0, flNone)
  else
    let mode := effMode f mode0 n d
    let k := floorLog2 n d
    -- rounded to the precision with no lower limit on the exponent
    let (r0, ex0) := roundAt mode neg n d (k - f.fbits)
    let (r1, k1) : Nat × Int := if r0 = 2 ^ (f.fbits + 1) then (2 ^ f.fbits, k + 1) else (r0, k)
    if k1 < f.emin then
      if f.sub then
        let (r, ex) := roundAt mode neg n d (f.emin - f.fbits)
        -- r below 2^fbits is a subnormal pattern, 2^fbits the smallest normal: the same number either way
        (withSign f neg r, flIf (!ex) (flNX ||| flUF))
      else (withSign f neg 0, flNX ||| flUF)
    else if f.emax < k1 then (overflowBits f mode neg, flOF ||| flNX)
    else if k < f.emin then
      -- rounds, with unbounded exponent, to the smallest normal: not tiny (R36)
      if f.sub then
        let (r, ex) := roundAt mode neg n d (f.emin - f.fbits)
        (withSign f neg r, flIf (!ex) flNX)
      else (withSign f neg (2 ^ f.fbits), flIf (!ex0) flNX)
    else
      (withSign f neg ((k1 + f.bias).toNat * 2 ^ f.fbits + (r1 - 2 ^ f.fbits)), flIf (!ex0) flNX)

/-- Writes a value into a float format, rounding once (R36). A signalling NaN is quieted and sets NV. -/
def fencode (f : FFmt) (mode : RMode) (v : FV) : Nat × Flags :=
  match v with
  | .nan s p => (nanPattern f s p, flIf (!(bitAt p 23)) flNV)
  | .inf s => (withSign f s f.infBits, flNone)
  | .fin s m => roundMag f mode s m

/-! TD8 (R30 to R33). -/

/-- The magnitude of body b (0 < b ≤ 127), times 32 × 10^6, an integer (R30). -/
def td8Mag (b : Nat) : Nat :=
  let hi := bitAt b 6
  -- the run of bits equal to b[6]
  let rec run (fuel i : Nat) : Nat :=
    match fuel with
    | 0 => 0
    | k + 1 => if bitAt b i = hi then 1 + run k (i - 1) else 0
  let m := run 7 6
  if m = 7 then 10 ^ 6 * 32 * 10 ^ 6
  else
    let n := 6 - m
    let t := b % 2 ^ n
    -- (1 + 9 t / 2^n) × 10^k × 32 × 10^6
    if hi then (2 ^ n + 9 * t) * 10 ^ (m - 1) * 10 ^ 6 * 32 / 2 ^ n
    else (2 ^ n + 9 * t) * (32 / 2 ^ n) * 10 ^ (6 - m)

/-- The common denominator of TD8 magnitudes. -/
def td8Den : Nat := 32 * 10 ^ 6

/-- The value of a TD8 byte; NaR is the default NaN (R30, R31). -/
def td8Decode (x : Nat) : FV :=
  let b := x % 128
  let neg := bitAt x 7
  if b = 0 then (if neg then defNaN else fvZero false)
  else .fin neg ⟨td8Mag b, td8Den⟩

def td8IsNaR (x : Nat) : Bool := x % 256 == 128

/-- The largest body whose magnitude is not above n / d, searched downward (R33 step 4). -/
def td8Below (n d : Nat) (fuel : Nat) : Nat :=
  match fuel with
  | 0 => 0
  | k + 1 => if decide (td8Mag (k + 1) * d ≤ n * td8Den) then k + 1 else td8Below n d k

def td8MagOf (b : Nat) : Nat := if b = 0 then 0 else td8Mag b

/-- Encodes a value to TD8 (R33, R41, R43). -/
def td8Encode (mode : RMode) (v : FV) : Nat × Flags :=
  match v with
  | .nan _ p => (0x80, flIf (!(bitAt p 23)) flNV)
  | .inf s => (if s then 0xFF else 0x7F, flOF ||| flNX)
  | .fin neg q =>
    let n := q.num.natAbs
    let d := q.den
    if n = 0 then (0, flNone)
    else if 10 ^ 6 * d < n then (if neg then 0xFF else 0x7F, flOF ||| flNX)
    else
      let lo := td8Below n d 127
      let exact := decide (td8MagOf lo * d = n * td8Den)
      if exact then (if neg then lo + 128 else lo, flNone)
      else
        let hi := lo + 1
        -- (|v| - lo) / (hi - lo) = (n·D - lo·d) / ((hi - lo)·d)
        let rem := n * td8Den - td8MagOf lo * d
        let gap := (td8MagOf hi - td8MagOf lo) * d
        let pick := match mode with
          | .rn => if 2 * rem < gap then lo else if 2 * rem = gap then (if lo % 2 = 0 then lo else hi) else hi
          | .rz => lo
          | .ru => if neg then lo else hi
          | .rd => if neg then hi else lo
          | .rs draw =>
            if neg then (if draw < (gap - rem) * 2 ^ 24 / gap then lo else hi)
            else (if draw < rem * 2 ^ 24 / gap then hi else lo)
        if pick = 0 then (0, flNX ||| flUF) else (if neg then pick + 128 else pick, flNX)

/-! Format records (R34, R35). -/

/-- The block size of a record, 0 when the record is ill-formed (R34, R35). -/
def recBlock (r : Nat) : Nat :=
  if r % 16 = 0 then
    (match bitsAt r 4 4 with | 0 => 32 | 1 => 64 | 2 => 128 | _ => 0)
  else 0
/-- The signed decimal scale of a record. -/
def recD (r : Nat) : Int := toSigned 8 (bitsAt r 8 8)

/-! The mixing function (R42). -/

def mix (sHi sLo wHi wLo : BitVec 32) : BitVec 32 :=
  let h := wLo ^^^ sLo
  let h := h * 0x9E3779B1#32
  let h := h ^^^ (h >>> 15)
  let h := h ^^^ wHi ^^^ sHi
  let h := h * 0x85EBCA77#32
  h ^^^ (h >>> 13)

/-! Arithmetic with one rounding and the NaN rules of R36. -/

/-- The first NaN in operand order, quieted (R36), with NV when any operand is signalling. -/
def firstNaN (vs : List FV) : Option (FV × Flags) :=
  match vs.find? fvIsNaN with
  | some v => some (fvQuiet v, flIf (vs.any fvSignalling) flNV)
  | none => none

def roundRes (f : FFmt) (mode : RMode) (r : FV × Flags) : Nat × Flags :=
  let (w, fl) := fencode f mode r.1
  (w, r.2 ||| fl)

/-- The sign of an exact zero sum of operands of opposite sign (IEEE 754-2019, R36, R48). -/
def zeroSumNeg (mode : RMode) : Bool := match mode with
  | .rd => true
  | _ => false

/-- a + b exactly, with the special cases of IEEE 754-2019. -/
def addV (mode : RMode) (a b : FV) : FV × Flags :=
  match firstNaN [a, b] with
  | some r => r
  | none => match a, b with
    | .inf s, .inf t => if s = t then (.inf s, flNone) else (defNaN, flNV)
    | .inf s, _ => (.inf s, flNone)
    | _, .inf t => (.inf t, flNone)
    | a, b =>
      let q := qAdd (fvQ a) (fvQ b)
      if qIsZero q then
        (fvZero (if fvIsZero a && fvIsZero b && (fvNeg a == fvNeg b) then fvNeg a else zeroSumNeg mode), flNone)
      else (fvOfQ q, flNone)

/-- a × b exactly. -/
def mulV (a b : FV) : FV × Flags :=
  match firstNaN [a, b] with
  | some r => r
  | none =>
    let s := fvNeg a != fvNeg b
    if (fvIsInf a && fvIsZero b) || (fvIsZero a && fvIsInf b) then (defNaN, flNV)
    else if fvIsInf a || fvIsInf b then (.inf s, flNone)
    else (.fin s (qAbs (qMul (fvQ a) (fvQ b))), flNone)

/-- a × b + c with one rounding later; NaN operands taken in the order `nanOrder` names (R124, R225). A 0 × ∞
product gives the default NaN with NV unless the third operand `c` is a quiet NaN (R124); the circuit engine, for which R225 states
both the default NaN and the first NaN operand, and a signalling third operand are treated alike (log entry 75). -/
def fmaV (mode : RMode) (a b c : FV) (nanOrder : List FV) : FV × Flags :=
  let invalid := (fvIsInf a && fvIsZero b) || (fvIsZero a && fvIsInf b)
  match firstNaN nanOrder with
  | some (v, fl) => (v, fl ||| flIf invalid flNV)
  | none =>
    if invalid then (defNaN, flNV)
    else
      let p := (mulV a b).1
      addV mode p c

def fAdd (f : FFmt) (mode : RMode) (a b : FV) : Nat × Flags := roundRes f mode (addV mode a b)
def fSub (f : FFmt) (mode : RMode) (a b : FV) : Nat × Flags :=
  match firstNaN [a, b] with
  | some r => roundRes f mode r
  | none => roundRes f mode (addV mode a (fvNegate b))
def fMul (f : FFmt) (mode : RMode) (a b : FV) : Nat × Flags := roundRes f mode (mulV a b)
def fFma (f : FFmt) (mode : RMode) (a b c : FV) : Nat × Flags := roundRes f mode (fmaV mode a b c [a, b, c])

/-- a < b for values that are no NaN, −0 below +0 (R122). -/
def ltV (a b : FV) : Bool :=
  match a, b with
  | .inf s, .inf t => s && !t
  | .inf s, _ => s
  | _, .inf t => !t
  | a, b =>
    if fvIsZero a && fvIsZero b then fvNeg a && !(fvNeg b) else qLt (fvQ a) (fvQ b)

/-- The maximum or minimum of IEEE 754-2019: a NaN operand gives a NaN (R122). -/
def maxV (a b : FV) : FV × Flags :=
  match firstNaN [a, b] with
  | some r => r
  | none => (if ltV a b then b else a, flNone)
def minV (a b : FV) : FV × Flags :=
  match firstNaN [a, b] with
  | some r => r
  | none => (if ltV b a then b else a, flNone)

/-- FP32 of an exact value, to nearest-even (`round_rn_fp32`). -/
def rnF (q : Q) : Nat := (roundMag fmtF .rn (qNegative q) (qAbs q)).1

/-! Integers (R37). -/

/-- Rounds a signed fraction to an integer. -/
def roundInt (mode : RMode) (q : Q) : Int × Bool :=
  let neg := qNegative q
  let n := q.num.natAbs
  let r := roundNat mode neg n q.den
  (if neg then -(r : Int) else r, n % q.den == 0)

/-- The least and the greatest value of an integer type of `n` bits. -/
def intMin (sgn : Bool) (n : Nat) : Int := if sgn then -(2 ^ (n - 1) : Int) else 0
def intMax (sgn : Bool) (n : Nat) : Int := if sgn then 2 ^ (n - 1) - 1 else 2 ^ n - 1

/-- A float value as an integer pattern (R37): rounded to any integer by the mode, `.rs` too, and then clamped (log entry 57). -/
def toInt (mode : RMode) (sgn : Bool) (n : Nat) (v : FV) : Nat × Flags :=
  match v with
  | .nan _ _ => (0, flNV)
  | .inf s => (ofSigned n (if s then intMin sgn n else intMax sgn n), flNV)
  | .fin s m =>
    let (i, ex) := roundInt mode (if s then qNeg m else m)
    if i < intMin sgn n then (ofSigned n (intMin sgn n), flNV)
    else if intMax sgn n < i then (ofSigned n (intMax sgn n), flNV)
    else (ofSigned n i, flIf (!ex) flNX)

/-! Element types (R29). -/

def tyWidth (ty : Nat) : Nat := match ty with
  | 0 => 8 | 1 => 16 | 2 => 16 | 3 => 32 | 4 => 64
  | 5 => 8 | 6 => 16 | 7 => 32 | 8 => 64
  | 9 => 8 | 10 => 16 | 11 => 32 | 12 => 64
  | _ => 8
def tyIsInt (ty : Nat) : Bool := decide (5 ≤ ty ∧ ty ≤ 12)
def tySigned (ty : Nat) : Bool := decide (5 ≤ ty ∧ ty ≤ 8)
def tyFmt (ty : Nat) : FFmt := match ty with
  | 1 => fmtH | 2 => fmtB | 4 => fmtC | _ => fmtF

/-- Reads an element of any type as a value. NaR enters as the default NaN with NV (R31). -/
def tyDecode (ty : Nat) (w : Nat) : FV × Flags :=
  if ty = 0 then (td8Decode (w % 256), flIf (td8IsNaR (w % 256)) flNV)
  else if tyIsInt ty then
    (fvOfQ (qOfInt (if tySigned ty then toSigned (tyWidth ty) w else (w % 2 ^ tyWidth ty : Nat))), flNone)
  else (fdecode (tyFmt ty) w, flNone)

end Sys2Proof.Machine
end

