-- ==== Sys2Proof/Syntax.lean ====
section
/-! DEFINITION. The steps of the machine: one constructor of Instr for every row of spec/opcode_table.json.
A slot operation carries its slot and its fields (R56 to R69); a cellar instruction its fields (R299);
an event of the machine names the agent it belongs to, and, where it comes from outside, what it brings. -/

namespace Sys2Proof

/-- The two scalar slots (R58). -/
inductive ScalarUnit where
  | sa | sb
  deriving DecidableEq, Repr

/-- The two memory slots (R60). -/
inductive MemUnit where
  | ma | mb
  deriving DecidableEq, Repr

/-- The two vector slots (R64). -/
inductive VecUnit where
  | va | vb
  deriving DecidableEq, Repr

/-- The ten slots of a bundle (R8), in the order in which a step runs them. -/
inductive SlotName where
  | c | sa | sb | ma | mb | x | va | vb | mx | e
  deriving DecidableEq, Repr

/-- A destination field: a register index and a copy code (R20). -/
structure Dst where
  idx  : BitVec 4
  copy : BitVec 3
  deriving DecidableEq, Repr

/-- The fields of a vector slot other than its opcode (R64). -/
structure VecFields where
  tag : BitVec 3
  ty  : BitVec 4
  w   : BitVec 2
  vd  : BitVec 5
  va  : BitVec 5
  vb  : BitVec 5
  km  : BitVec 3
  md  : BitVec 3
  deriving DecidableEq, Repr

/-- One step of the machine (spec/opcode_table.json; R5: the statements of one operation take effect together). -/
inductive Instr where
  -- the bundle and the life of its results
  | issueWord (core ctx : Nat)
  | resultLanding (core ctx : Nat)
  | arrayRowExit (core : Nat)
  | drainingBranch (core ctx : Nat)
  | waitMet (core ctx : Nat)
  | waccWrap (core ctx : Nat)
  | budgetTrap (core ctx : Nat)
  -- nops
  | nop (u : SlotName)
  | memNop (u : MemUnit)
  -- control slot (R57)
  | prep (b : BitVec 3) (disp : BitVec 12)
  | prepr (b : BitVec 3) (s : BitVec 5)
  | xfer (bt : BitVec 3) (n1 : BitVec 2) (pb : BitVec 4) (pol : BitVec 4)
  | go (b : BitVec 3)
  | loop (lvl : BitVec 2) (s : BitVec 5)
  | ldelta (lvl : BitVec 2) (a : BitVec 4) (s : BitVec 5)
  | ldk (k : BitVec 3) (s : BitVec 5) (half : BitVec 1)
  | waitBarrier (b : BitVec 5)
  | waitQueue (q : BitVec 2)
  | waitTick (s : BitVec 5)
  | waitEngine (cls : BitVec 3)
  | budr (d : Dst)
  | trap (code : BitVec 8)
  | halt
  | tmark (s : BitVec 5)
  | hsig (s : BitVec 5)
  -- scalar slots (R58)
  | add (u : ScalarUnit) (t : BitVec 3) (d : Dst) (a b : BitVec 5)
  | sub (u : ScalarUnit) (t : BitVec 3) (d : Dst) (a b : BitVec 5)
  | and (u : ScalarUnit) (t : BitVec 3) (d : Dst) (a b : BitVec 5)
  | or (u : ScalarUnit) (t : BitVec 3) (d : Dst) (a b : BitVec 5)
  | xor (u : ScalarUnit) (t : BitVec 3) (d : Dst) (a b : BitVec 5)
  | andn (u : ScalarUnit) (t : BitVec 3) (d : Dst) (a b : BitVec 5)
  | shl (u : ScalarUnit) (t : BitVec 3) (d : Dst) (a b : BitVec 5)
  | shr (u : ScalarUnit) (t : BitVec 3) (d : Dst) (a b : BitVec 5)
  | sar (u : ScalarUnit) (t : BitVec 3) (d : Dst) (a b : BitVec 5)
  | rol (u : ScalarUnit) (t : BitVec 3) (d : Dst) (a b : BitVec 5)
  | min (u : ScalarUnit) (t : BitVec 3) (d : Dst) (a b : BitVec 5)
  | max (u : ScalarUnit) (t : BitVec 3) (d : Dst) (a b : BitVec 5)
  | minu (u : ScalarUnit) (t : BitVec 3) (d : Dst) (a b : BitVec 5)
  | maxu (u : ScalarUnit) (t : BitVec 3) (d : Dst) (a b : BitVec 5)
  | mul (u : ScalarUnit) (t : BitVec 3) (d : Dst) (a b : BitVec 5)
  | mulh (u : ScalarUnit) (t : BitVec 3) (d : Dst) (a b : BitVec 5)
  | mulhu (u : ScalarUnit) (t : BitVec 3) (d : Dst) (a b : BitVec 5)
  | clz (u : ScalarUnit) (t : BitVec 3) (d : Dst) (a : BitVec 5)
  | ctz (u : ScalarUnit) (t : BitVec 3) (d : Dst) (a : BitVec 5)
  | pcnt (u : ScalarUnit) (t : BitVec 3) (d : Dst) (a : BitVec 5)
  | sext (u : ScalarUnit) (t : BitVec 3) (d : Dst) (a b : BitVec 5)
  | zext (u : ScalarUnit) (t : BitVec 3) (d : Dst) (a b : BitVec 5)
  | cat7 (u : ScalarUnit) (t : BitVec 3) (d : Dst) (a b : BitVec 5)
  | cmp (u : ScalarUnit) (t : BitVec 3) (p : BitVec 4) (c : BitVec 3) (a b : BitVec 5)
  | cmpa (u : ScalarUnit) (t : BitVec 3) (p : BitVec 4) (c : BitVec 3) (a b : BitVec 5)
  | cmpo (u : ScalarUnit) (t : BitVec 3) (p : BitVec 4) (c : BitVec 3) (a b : BitVec 5)
  | prd (u : ScalarUnit) (t : BitVec 3) (d : Dst)
  | pwr (u : ScalarUnit) (t : BitVec 3) (a : BitVec 5)
  -- index slot (R63)
  | xadd (t : BitVec 3) (d : Dst) (a b : BitVec 5)
  | xsub (t : BitVec 3) (d : Dst) (a b : BitVec 5)
  | xshl (t : BitVec 3) (d : Dst) (a b : BitVec 5)
  | xshr (t : BitVec 3) (d : Dst) (a b : BitVec 5)
  | xand (t : BitVec 3) (d : Dst) (a b : BitVec 5)
  | xpcnt (t : BitVec 3) (d : Dst) (a : BitVec 5)
  | cadv (t : BitVec 3) (d : Dst) (a b : BitVec 5)
  | cadvp (t : BitVec 3) (d : Dst) (a b : BitVec 5)
  | aqp (t : BitVec 3) (a b : BitVec 5)
  | xlea (t : BitVec 3) (d : Dst) (a b : BitVec 5)
  | xmin (t : BitVec 3) (d : Dst) (a b : BitVec 5)
  | xmax (t : BitVec 3) (d : Dst) (a b : BitVec 5)
  | aqfree (t : BitVec 3) (d : Dst)
  | gatherRead (core ctx : Nat)
  | gatherDeliver (core ctx : Nat)
  -- vector slots (R65)
  | vadd (u : VecUnit) (f : VecFields)
  | vsub (u : VecUnit) (f : VecFields)
  | vmul (u : VecUnit) (f : VecFields)
  | vfma (u : VecUnit) (f : VecFields)
  | vmin (u : VecUnit) (f : VecFields)
  | vmax (u : VecUnit) (f : VecFields)
  | vexp2 (u : VecUnit) (f : VecFields)
  | vrsqrt (u : VecUnit) (f : VecFields)
  | vrecip (u : VecUnit) (f : VecFields)
  | vcvt (u : VecUnit) (f : VecFields)
  | vcmp (u : VecUnit) (f : VecFields)
  | vsel (u : VecUnit) (f : VecFields)
  | vrot (u : VecUnit) (f : VecFields)
  | vshuf (u : VecUnit) (f : VecFields)
  | vscan (u : VecUnit) (f : VecFields)
  | vscanx (u : VecUnit) (f : VecFields)
  | vred (u : VecUnit) (f : VecFields)
  | vredx (u : VecUnit) (f : VecFields)
  | vredn (u : VecUnit) (f : VecFields)
  | vcx (u : VecUnit) (f : VecFields)
  | vclmul (u : VecUnit) (f : VecFields)
  | vpcnt (u : VecUnit) (f : VecFields)
  | vand (u : VecUnit) (f : VecFields)
  | vor (u : VecUnit) (f : VecFields)
  | vxor (u : VecUnit) (f : VecFields)
  | vshl (u : VecUnit) (f : VecFields)
  | vshr (u : VecUnit) (f : VecFields)
  | vbc (u : VecUnit) (f : VecFields)
  | vabs (u : VecUnit) (f : VecFields)
  | vneg (u : VecUnit) (f : VecFields)
  -- matrix slot (R68)
  | lsh (t : BitVec 3) (lw : BitVec 2) (la : BitVec 3)
  | acc (t : BitVec 3) (b : BitVec 2)
  | acl (t : BitVec 3) (b : BitVec 2) (lw : BitVec 2) (la : BitVec 3)
  | psh (t : BitVec 3) (pa : BitVec 4)
  | psl (t : BitVec 3) (pa : BitVec 4) (lw : BitVec 2) (la : BitVec 3)
  | pac (t : BitVec 3) (pa : BitVec 4) (b : BitVec 2)
  | pal (t : BitVec 3) (pa : BitVec 4) (b : BitVec 2) (lw : BitVec 2) (la : BitVec 3)
  -- format and engine slot (R69)
  | fmtw (t : BitVec 3) (s : BitVec 5)
  | fmtr (t : BitVec 3) (g : BitVec 4)
  | rmode (t : BitVec 3) (m : BitVec 3)
  | afmt (t : BitVec 3) (ty : BitVec 4)
  | bfmt (t : BitVec 3) (ty : BitVec 4)
  | scal (t : BitVec 3) (v : BitVec 1)
  | fclr (t : BitVec 3) (m : BitVec 5)
  | gpsh (t : BitVec 3) (e : BitVec 3)
  | glat (t : BitVec 3) (e : BitVec 3)
  | gsr (t : BitVec 3) (e : BitVec 3)
  | eSub (t : BitVec 3) (a : BitVec 4)
  -- memory slots (R60 to R62)
  | ldI8 (u : MemUnit) (t : BitVec 3) (d : Dst) (a : BitVec 4) (o : BitVec 5)
  | ldN8 (u : MemUnit) (t : BitVec 3) (d : Dst) (a : BitVec 4) (o : BitVec 5)
  | ldI16 (u : MemUnit) (t : BitVec 3) (d : Dst) (a : BitVec 4) (o : BitVec 5)
  | ldN16 (u : MemUnit) (t : BitVec 3) (d : Dst) (a : BitVec 4) (o : BitVec 5)
  | ldI32 (u : MemUnit) (t : BitVec 3) (d : Dst) (a : BitVec 4) (o : BitVec 5)
  | ldN32 (u : MemUnit) (t : BitVec 3) (d : Dst) (a : BitVec 4) (o : BitVec 5)
  | ldI64 (u : MemUnit) (t : BitVec 3) (d : Dst) (a : BitVec 4) (o : BitVec 5)
  | st8 (u : MemUnit) (t : BitVec 3) (x : BitVec 5) (a : BitVec 4) (o : BitVec 5)
  | st16 (u : MemUnit) (t : BitVec 3) (x : BitVec 5) (a : BitVec 4) (o : BitVec 5)
  | st32 (u : MemUnit) (t : BitVec 3) (x : BitVec 5) (a : BitVec 4) (o : BitVec 5)
  | st64 (u : MemUnit) (t : BitVec 3) (x : BitVec 5) (a : BitVec 4) (o : BitVec 5)
  | vld (u : MemUnit) (t : BitVec 3) (w : BitVec 2) (v : BitVec 5) (a : BitVec 4) (o : BitVec 5)
  | vst (u : MemUnit) (t : BitVec 3) (w : BitVec 2) (v : BitVec 5) (a : BitVec 4) (o : BitVec 5)
  | ldTc (u : MemUnit) (t : BitVec 3) (d : Dst) (a : BitVec 4) (s : BitVec 5)
  | vldTc (u : MemUnit) (t : BitVec 3) (w : BitVec 2) (v : BitVec 5) (a : BitVec 4) (s : BitVec 5)
  | ldNb (u : MemUnit) (t : BitVec 3) (d : Dst) (a : BitVec 4) (s : BitVec 5)
  | vldNb (u : MemUnit) (t : BitVec 3) (w : BitVec 2) (v : BitVec 5) (a : BitVec 4) (s : BitVec 5)
  | stVa (u : MemUnit) (t : BitVec 3) (x : BitVec 5) (a : BitVec 4) (s : BitVec 5)
  | vstVa (u : MemUnit) (t : BitVec 3) (w : BitVec 2) (v : BitVec 5) (a : BitVec 4) (s : BitVec 5)
  | timedWrite (core : Nat)
  | amoAdd (u : MemUnit) (t : BitVec 3) (d : Dst) (a : BitVec 4) (s : BitVec 5)
  | amoAnd (u : MemUnit) (t : BitVec 3) (d : Dst) (a : BitVec 4) (s : BitVec 5)
  | amoOr (u : MemUnit) (t : BitVec 3) (d : Dst) (a : BitVec 4) (s : BitVec 5)
  | amoMax (u : MemUnit) (t : BitVec 3) (d : Dst) (a : BitVec 4) (s : BitVec 5)
  | amoSwp (u : MemUnit) (t : BitVec 3) (d : Dst) (a : BitVec 4) (s : BitVec 5)
  | fence (u : MemUnit) (t : BitVec 3) (scope : BitVec 3) (order : BitVec 2) (mask : BitVec 7)
  | fenceRelease (core ctx : Nat)
  | arrive (u : MemUnit) (t : BitVec 3) (b : BitVec 5)
  | signal (u : MemUnit) (t : BitVec 3) (mask : BitVec 7) (b : BitVec 5)
  | signalDrain (u : MemUnit) (t : BitVec 3) (mask : BitVec 7) (b : BitVec 5)
  | signalRelease (core ctx : Nat)
  | drain (t : BitVec 3) (b : BitVec 2) (ty : BitVec 4) (z : BitVec 1) (a : BitVec 4) (o : BitVec 5)
  | lda (u : MemUnit) (t : BitVec 3) (n : BitVec 4) (s : BitVec 5)
  | rda (u : MemUnit) (t : BitVec 3) (d : Dst) (a : BitVec 4)
  -- stores to windows landing, barriers and messages
  | hcwEntryWrite (core : Nat)
  | barrWrite (core : Nat)
  | releaseWordWrite (core : Nat)
  | registerWrite (host : Bool) (core : Nat) (off : Nat) (v : BitVec 64)
  | barrierComplete (core b : Nat)
  | barrierMirrorFlip (core b : Nat)
  | messageSend (core ctx : Nat)
  | messageDeliver (core ctx : Nat)
  -- engine commands
  | copyCommand (id : Nat)
  | gatherCommand (id : Nat)
  | circuitEvaluate (id : Nat)
  | parameterUpdate (id : Nat)
  | collectiveCommand (id : Nat)
  | cellarLaunch (id : Nat)
  | engineCommandEnd (id : Nat)
  | pageFetch (id : Nat)
  -- cellar instructions (R299)
  | ceNop (n : BitVec 12)
  | ceJset (d : BitVec 3) (imm : BitVec 24)
  | ceJadd (d : BitVec 3) (a : BitVec 3) (imm : BitVec 21)
  | ceBnz (d : BitVec 3) (target : BitVec 7)
  | ceWait (a : BitVec 3)
  | ceCfmt (wty : BitVec 2) (aty : BitVec 2) (ecc : BitVec 2)
  | ceAld (b : BitVec 3) (a : BitVec 3)
  | ceClr (m : BitVec 8)
  | ceWdot (a : BitVec 3) (b : BitVec 3) (s1 : BitVec 3) (e : BitVec 6)
  | ceWdotAdd (a : BitVec 3) (b : BitVec 3) (s1 : BitVec 3) (e : BitVec 6)
  | cePsc (a : BitVec 3) (b : BitVec 3) (c : BitVec 3) (e : BitVec 6) (w : BitVec 2)
  | ceScl (a : BitVec 3) (m : BitVec 8)
  | cePtop (c : BitVec 3) (k1 : BitVec 6) (d : BitVec 3) (f : BitVec 3)
  | ceOut (c : BitVec 3) (f : BitVec 3) (ty : BitVec 3) (z : BitVec 1)
  | ceEnd
  -- the DRAM timeline
  | refresh (tier ch pc : Nat)
  | refreshManagement (tier ch bank : Nat)
  | hostWindow (tier ch pc : Nat)
  | debtInterval (tier ch pc : Nat)
  | forcedRefresh (tier ch pc : Nat)
  | disturbReport (tier ch bank row : Nat) (corrupt : Bool)
  | hostMemWrite (off : Nat) (data : BitVec 512)
  | hostMemRead (off : Nat)
  -- streams and the supervisor
  | packetClose (q k : Nat) (v : BitVec 64)
  | streamNextPacket (q : Nat)
  | launch (q : Nat)
  | waitForTick (q : Nat)
  | signalHost (q : Nat)
  | loadCode (q : Nat)
  | loadCircuitObject (q : Nat)
  | loadTimeline (q : Nat)
  | endStream (q : Nat)
  | scfgWrite (q : Nat) (v : BitVec 64)
  | sstatWrite (q : Nat) (v : BitVec 64)
  | admission
  | launchRefuseLate (q : Nat)
  | launchStart (lx : Nat)
  | bankGrant (core : Nat)
  | haltBankRelease (core ctx : Nat)
  | contextRelease (core ctx : Nat)
  | scrubEnd (core : Nat)
  | preemption (lx : Nat)
  | restore (core ctx : Nat)
  | faultStop (core ctx : Nat)
  | serviceEnd (core ctx : Nat)
  | gangConfirm (lid modix : Nat)
  | gangAbort (lid modix : Nat)
  | cexmWrite (v : BitVec 64)
  -- time, links, security and service
  | plimWrite (v : BitVec 64)
  | tsetWrite (v : BitVec 64)
  | denWrite (v : BitVec 64)
  | syncSend
  | syncReceive (port : Nat) (stamp trip : BitVec 64) (part : BitVec 8)
  | coarseSet
  | stepChange
  | thermalTrip
  | governorWindow (pnow : BitVec 16) (tdie : BitVec 8)
  | linkFlitReceive (port : Nat) (flit : BitVec 960) (crc : BitVec 64)
  | boot
  | rollbackRaise (ty : Nat) (v : BitVec 64)
  | attestationRequest (v : BitVec 64)
  | retireCore (tgt : BitVec 8) (arg : BitVec 52)
  | retireCluster (tgt : BitVec 8) (arg : BitVec 52)
  | retireChannel (tgt : BitVec 8) (arg : BitVec 52)
  | spareARow (tgt : BitVec 8) (arg : BitVec 52)
  | retireALinkLane (tgt : BitVec 8) (arg : BitVec 52)
  | updatePupol (tgt : BitVec 8) (arg : BitVec 52)
  | updateCellarMicrocode (tgt : BitVec 8) (arg : BitVec 52)
  | retrainAPort (tgt : BitVec 8) (arg : BitVec 52)
  | copyATraceRing (tgt : BitVec 8) (arg : BitVec 52)
  | serviceQuietTick
  | serviceOperationDone
  | dramPatrolScrub (tier ch : Nat)
  | packetWordWrite (q k word size : Nat) (v : BitVec 64)
  | syncNotReceived
  | temperatureClassChange (tier stack : Nat) (hot : Bool)
  | gangConfirmationDeadline (lx : Nat)
  | deviceWriteCompletion
  | thermalTripEnd
  deriving DecidableEq, Repr

end Sys2Proof
end

