-- ==== Sys2Proof/Machine/State.lean ====
section
/-! DEFINITION. The state of one Fiesk F9 module as plain data, the reasons a step can stop, and the state after reset.
INVENTORY.md lists every piece with its rule and its reset value. -/

namespace Sys2Proof.Machine

/-! ## What stops a step -/

/-- The machine stands stuck: the spec gives such a step no effect. Faults of R268 are no stop: they are taken. -/
inductive Fault where
  /-- Raised by `step` when the issue latch holds a slot of a reserved form. R15 marks an entry with such a slot
  invalid and R71 keeps it from issuing, so no run reaches it. Safe. -/
  | reservedSlot
  /-- Raised by `step` when a running cellar engine meets a word of a reserved form. R287 refuses a plan that holds
  one, so no run reaches it. Safe. -/
  | reservedCellarWord
  deriving DecidableEq, Repr

/-- No meaning. -/
inductive Refusal where
  /-- Raised by `exec` for an instruction that has no meaning yet, named by its mnemonic in spec/opcode_table.json. Safe. -/
  | notModelled (mnemonic : String)
  deriving DecidableEq, Repr

/-! ## A context (R28, R88, R119, R278) -/

/-- Where a result in flight lands (R21, R271). Every landing replaces the bits its mask names. -/
inductive Dest where
  | slice (slices : BitVec 5) (idx : Nat)
  | latch (u : Nat)
  | vs
  | v (i : Nat)
  | k (i : Nat)
  | p
  | b (i : Nat)
  | a (i : Nat)
  | lc (n : Nat)
  | lsw (n : Nat)
  | delta (n a : Nat)
  | e (i : Nat)
  | fmt
  | gsel
  | hcw (ctx idx : Nat)
  /-- An array register by its offset in the window of R145. -/
  | areg (off : Nat)
  | wrow (latch row : Nat)
  /-- Flags alone. -/
  | none
  deriving DecidableEq, Repr

/-- A result in flight (R23, R272). `fid` is the number of the load that still owes the value, 0 when it is known.
`src`: 0 an advance of the bundle's header, 1 a slot's result, 2 a store to a register window, 3 a load (R22, R100, R149, R183). -/
structure Flight where
  fid    : Nat
  issued : Nat
  land   : Nat
  src    : Nat
  dest   : Dest
  value  : VWord
  mask   : VWord
  flags  : Flags
  deriving DecidableEq, Repr

/-- A row crossing the array (R151, R272): its segment results per column, in order. -/
structure RowOut where
  pushed : Nat
  exit  : Nat
  en    : Nat
  int   : Bool
  cols  : List (List (BitVec 32))
  flags : Flags
  deriving DecidableEq, Repr

/-- The condition of a wait with what it read at issue (R103). -/
inductive WaitCond where
  | barrier (b : Nat) (g0 : Bool)
  | queue (q : Nat)
  | tick (v : Word)
  | engine (cmds : List Nat)
  deriving DecidableEq, Repr

/-- What the wait of the bundle in the latch asks for; the set of an engine wait is read at the end of the bundle, when an
`e.sub` of the same bundle has acted (R103). -/
inductive WaitReq where
  | cond (c : WaitCond)
  | engine (cls : Nat)
  deriving DecidableEq, Repr

/-- A fence that holds the context back (R183): the commands of masked paths submitted before it. -/
structure FenceSt where
  scope : Nat
  order : Nat
  mask  : Nat
  issued : Nat
  /-- The first tick at which the next bundle may issue, when the fence stands in a draining bundle (R96, R183). -/
  notBefore : Nat
  cmds  : List Nat
  deriving DecidableEq, Repr

/-- A deferred signal (R182). -/
structure DefSignal where
  barrier  : Nat
  mask     : Nat
  drained  : Bool
  issued   : Nat
  cmds     : List Nat
  /-- It has released in the present tick; it counts until the tick ends (R182). -/
  released : Bool
  deriving DecidableEq, Repr

/-- An entry pushed onto the address queue whose data has not entered QG (R137 to R139). -/
structure AqEntry where
  addr   : Addr
  size   : Nat
  pushed : Nat
  data   : Option VWord
  deriving DecidableEq, Repr

/-- Results on their way to a queue of the context: the first tick a bundle sees the entry (R139, R229). -/
structure QPend where
  seen  : Nat
  entry : VWord
  deriving DecidableEq, Repr

/-- Where a context stands with its core's issue selector (R9). -/
inductive CtxStatus where
  /-- Holds no kernel. -/
  | empty
  /-- Waits for the banks of its kernel (R198). -/
  | banks
  /-- Ready since a tick; on an idle core it may issue from `since + delay` (R104). `counts`: its waiting ticks count for
  the budget until it issues (R106). -/
  | ready (since delay : Nat) (counts : Bool)
  /-- Holds the issue slot of its core: it issued the last bundle and has not blocked (R9). -/
  | issuing
  /-- Blocked in a wait issued at `issued` (R104). `met`: its condition was met while the context was in service or saved, which
  counts as met when it resumes (R105). -/
  | waiting (cond : WaitCond) (issued : Nat) (met : Bool)
  /-- In the empty ticks of a drain: the next bundle issues at `next` (R96). -/
  | draining (next : Nat)
  | fencing (fs : List FenceSt)
  /-- Its kernel has ended; to be released (R110). -/
  | halted
  deriving DecidableEq, Repr

/-- A fault or trap taken or to be taken (R267 to R269). -/
structure FaultRec where
  code : Nat
  kind : Nat
  addr : Word
  info : Word
  cmd  : Word
  deriving DecidableEq, Repr

/-- Supervisor service of a context (R275): its stop tick, when the supervisor begins (later than σ only in the pause of an
update, R346), and what it does at the end. -/
structure Service where
  sigma  : Nat
  begins : Nat
  endsAt : Nat
  /-- 0: resume; 1: kill the launch; 2: kill it and retry; 3: refill BUD and resume; 4: kill the context. -/
  action : Nat
  code   : Nat
  /-- The fault whose record is still to be written when the supervisor begins, with the others due with it, which MORE counts. -/
  owes   : Option (FaultRec × List FaultRec)
  deriving DecidableEq, Repr

/-- What the lead of a broadcast gang hands to a member (R263): a word with its index and outcome at the member's issue
tick, or, with `wait`, a waiting tick of the lead. `tick` is an offset while the gang is stopped. -/
structure BWord where
  tick    : Nat
  wait    : Bool
  word    : BitVec 16
  pc      : BitVec 16
  outcome : Nat
  deriving DecidableEq, Repr

/-- A context: four per core. -/
structure Ctx where
  status  : CtxStatus
  /-- The launch it belongs to, by index; 0: none. -/
  lx      : Nat
  rank    : Nat
  pc      : BitVec 16
  ibase   : BitVec 16
  ilim    : BitVec 17
  hcw     : Table Entry
  /-- Bit e is 1 when entry e is valid (R73). -/
  hcwValid : BitVec 512
  /-- Slice s (SA, SB, MA, MB, X as 0 to 4), register i at key 16 s + i. -/
  g       : Table Word
  vs      : Word
  latch   : Table Word
  v       : Table VWord
  k       : Table (BitVec 128)
  p       : BitVec 16
  bT      : Table (BitVec 16)
  bV      : BitVec 8
  /-- The first tick a B register whose prefetched words were rewritten is valid again (R91). -/
  bAgain  : Table Nat
  a       : Table Addr
  lc      : Table (BitVec 32)
  lsw     : Table (BitVec 16)
  /-- Level n, register a at key 16 n + a. -/
  delta   : Table (BitVec 32)
  e       : Table (BitVec 256)
  gsel    : BitVec 32
  lseed   : Word
  fmt     : BitVec 32
  bud     : Word
  wacc    : BitVec 8
  /-- A WACC wrap whose decrement of BUD is still to be made (R106). -/
  wrapDue : Bool
  drn     : Bool
  /-- Fences of a bundle whose wait blocked: they hold the context back when the wait is met (R104, R183). -/
  fenceLater : List FenceSt
  vwc     : BitVec 32
  qrseed  : Word
  qrpos   : Word
  aqocc   : Nat
  aq      : List AqEntry
  qg      : List VWord
  qc      : List VWord
  qcPend  : List QPend
  qm      : List VWord
  /-- Buffer k, word i at key 16 k + i. -/
  msgbuf  : Table Word
  estat   : Word
  signals : List DefSignal
  flights : List Flight
  /-- The fault record: eight words once the supervisor has written one (R269, R278). -/
  record  : List Word
  /-- Register entries of the shadow result buffer; `land` holds OFFSET (R272). -/
  shadow  : List Flight
  /-- Row entries of the shadow result buffer; `exit` holds the exit offset (R272). -/
  shadowRows : List RowOut
  /-- Commands accepted by e.sub since S (R269). -/
  subNo   : Nat
  refills : Nat
  /-- Faults of one code taken in a row by one bundle: the code and how many (R275). -/
  again   : Nat × Nat
  service : Option Service
  /-- Stops whose σ has not come: the tick and the fault (R267). -/
  stops   : List (Nat × FaultRec)
  /-- Pre-empted: stopped at σ, by the launch of this index (R262); 0: not. -/
  preBy   : Nat
  preAt   : Nat
  /-- It has issued no bundle since S (R261). -/
  fresh   : Bool
  /-- Broadcast (R263): 0 none, 1 the lead, 2 a member; a member's words to come, held while the gang is stopped. -/
  bcast   : Nat
  bq      : List BWord
  bheld   : Bool
  /-- The tick from which it is ready again in a drain or a fence whose issue slot a stop has taken from it; none while it holds the
  slot there (R9, R273). -/
  backAt  : Option Nat
  /-- The stop tick at which the entries of the shadow result buffer were caught (R271, R279). -/
  caughtAt : Nat
  deriving DecidableEq, Repr

def Ctx.reset : Ctx where
  status := .empty
  lx := 0
  rank := 0
  pc := 0
  ibase := 0
  ilim := 0
  hcw := []
  hcwValid := BitVec.allOnes 512
  g := []
  vs := 0
  latch := []
  v := []
  k := []
  p := 0
  bT := []
  bV := 0
  bAgain := []
  a := []
  lc := []
  lsw := []
  delta := []
  e := []
  gsel := 0
  lseed := 0
  fmt := 0
  bud := 0
  wacc := 0
  wrapDue := false
  drn := false
  fenceLater := []
  vwc := 0
  qrseed := 0
  qrpos := 0
  aqocc := 0
  aq := []
  qg := []
  qc := []
  qcPend := []
  qm := []
  msgbuf := []
  estat := 0
  signals := []
  flights := []
  record := []
  shadow := []
  shadowRows := []
  subNo := 0
  refills := 0
  again := (0, 0)
  service := none
  stops := []
  preBy := 0
  preAt := 0
  fresh := false
  bcast := 0
  bq := []
  bheld := false
  backAt := none
  caughtAt := 0

/-! ## A core -/

/-- The matrix array (R28, R145 to R148). -/
structure ArrayState where
  actl : BitVec 32
  aptr : BitVec 32
  dptr : BitVec 32
  lptr : BitVec 32
  awc  : BitVec 32
  drow : Table (BitVec 32)
  arec : Word
  lrec : Table Word
  /-- Latch n, row r at key 128 n + r: 128 raw bytes. -/
  w    : Table VWord
  /-- Bank b, row r at key 64 b + r: 128 raw 32-bit words. -/
  acc  : Table (BitVec 4096)
  rows : List RowOut
  deriving DecidableEq, Repr

def ArrayState.reset : ArrayState where
  actl := 0x00808080#32
  aptr := 0
  dptr := 0
  lptr := 0
  awc := 0
  drow := []
  arec := 0
  lrec := []
  w := []
  acc := []
  rows := []

/-- A barrier (R179). `doneAt` is one more than the tick of its last completion; `mirrorFlips` holds the ticks at which a
completion of another core inverts GEN (R180). -/
structure Barrier where
  expect  : BitVec 16
  mirror  : BitVec 8
  arrived : Nat
  gen     : Bool
  pend    : Nat
  doneAt  : Nat
  mirrorFlips : List Nat
  deriving DecidableEq, Repr

def Barrier.reset : Barrier := ⟨0, 0, 0, false, 0, 0, []⟩

/-- What a core-slot access does where it performs (R167). -/
inductive AccKind where
  /-- Owes its value to the flights numbered `fid`; `sext` for the signed scalar forms. -/
  | load (fid : Nat) (sext : Bool)
  | store
  /-- The five atomics by opcode 20 to 24 (R173). -/
  | amo (fid op : Nat)
  deriving DecidableEq, Repr

/-- Where a core-slot access goes (R165). -/
inductive Target where
  | spad (core addr : Nat)
  | msg (off : Nat)
  | hcw (off : Nat)
  | bar (off : Nat)
  deriving DecidableEq, Repr

/-- A core-slot access that has issued and not performed (R167). -/
structure Access where
  perform : Nat
  issued  : Nat
  core    : Nat
  ctx     : Nat
  mb      : Bool
  target  : Target
  kind    : AccKind
  size    : Nat
  data    : VWord
  vec     : Bool
  /-- Flags set when the bytes perform (R156). -/
  fl      : Flags
  /-- T of a not-before load (R171). -/
  notBefore : Option Nat
  deriving DecidableEq, Repr

/-- A store to the barrier window that has not acted (R179). -/
inductive BarStore where
  | bcfg (b : Nat) (v : Word)
  | barr (b : Nat) (n : Nat)
  | estat (ctx : Nat) (v : Word)
  | release (ctx : Nat) (mask : BitVec 32)
  deriving DecidableEq, Repr

/-- A store to the barrier window on its way: when it acts, when it issued and by whom. An arrive is one (R181). -/
structure BarPend where
  tick   : Nat
  issued : Nat
  core   : Nat
  ctx    : Nat
  st     : BarStore
  deriving DecidableEq, Repr

/-- An entry of a timed-write buffer (R172). -/
structure TimedEntry where
  vis    : Nat
  arrive : Nat
  issued : Nat
  src    : Nat
  ctx    : Nat
  mb     : Bool
  addr   : Nat
  size   : Nat
  data   : VWord
  deriving DecidableEq, Repr

/-- A reserved engine-side slot of a bank (R194); `cmd` names the command, 0 a core slot. -/
structure Resv where
  bank  : Nat
  tick  : Nat
  write : Bool
  cmd   : Nat
  core  : Nat
  ctx   : Nat
  deriving DecidableEq, Repr

/-- A .param line: register index, slices, VS too, and the rank it applies to (none: all) (R84). -/
structure Param where
  idx    : Nat
  slices : BitVec 5
  vs     : Bool
  rank   : Option Nat
  deriving DecidableEq, Repr

/-- The `.data` bytes of one bank word (R84, R257): local address, count, bytes, and the gang rank they are for (none: every rank). -/
structure DataWord where
  addr  : Nat
  n     : Nat
  value : VWord
  rank  : Option Nat
  deriving DecidableEq, Repr

/-- A kernel image (R87): what the load-code command reads, with the launch-descriptor fields of its .kernel line (context, bank
mask and array claim), which whoever builds a descriptor takes from it. -/
structure Image where
  ctxNo   : Nat
  banks   : BitVec 32
  array   : Bool
  words   : List (BitVec 16)
  entries : List (Nat × Entry)
  deltas  : List (Nat × Nat × BitVec 32)
  params  : List Param
  datas   : List DataWord
  deriving DecidableEq, Repr, Inhabited

/-- A context's staged image (R257). -/
structure Staged where
  hcw      : Table Entry
  hcwValid : BitVec 512
  deltas   : Table (BitVec 32)
  params   : List Param
  rankData : List DataWord
  ibase    : Nat
  count    : Nat
  complete : Bool
  deriving DecidableEq, Repr

/-- A place of storage that a soft error has spoiled: the structure of R341, the context for what a context holds, the place, and
whether its check bits correct it (R341, R342; log entry 8). -/
structure BadWord where
  struct  : Nat
  ctx     : Nat
  place   : Nat
  fixable : Bool
  deriving DecidableEq, Repr

/-- A core. -/
structure Core where
  imem     : Table (BitVec 16)
  spad     : Memory
  tags     : Table (BitVec 16)
  /-- Tags that change at the end of this tick: frame, tag, begin tick of the command and its number (R195, R196). -/
  tagPend  : List (Nat × BitVec 16 × Nat × Nat)
  own      : Table Nat
  waitq    : Table Nat
  /-- Banks that a saved context keeps: its number plus 1 (R262, R279). -/
  kept     : Table Nat
  /-- Banks whose release by a halt or a kill is under way: 1 without a scrub, 2 with (R110, R201, R202, R265). -/
  releasing : Table Nat
  /-- Scrubs: the bank and the tick it becomes free (R202). -/
  scrubs   : List (Nat × Nat)
  ctxs     : Table Ctx
  array    : ArrayState
  /-- The context that owns the array (R11). -/
  arrayOwner : Option Nat
  barriers : Table Barrier
  barStores : List BarPend
  timed    : List TimedEntry
  resv     : List Resv
  trace    : List (BitVec 128)
  /-- The context that issued last (R9). -/
  lastCtx  : Option Nat
  /-- The first tick at which a bundle may issue (R9, R96, R104). -/
  issueFrom : Nat
  /-- The tick in which a bundle last issued. -/
  issuedAt : Option Nat
  saved    : Table Ctx
  savedArray : Option ArrayState
  /-- The saved context that owns the saved array state. -/
  savedBy  : Option Nat
  staged   : Table Staged
  /-- Deferred signals of contexts released since, with the context and its launch (R110, R182). -/
  lateSignals : List (Nat × Nat × DefSignal)
  retired  : Bool
  bad      : List BadWord
  deriving DecidableEq, Repr

def Core.reset : Core where
  imem := []
  spad := []
  tags := []
  tagPend := []
  own := []
  waitq := []
  kept := []
  releasing := []
  scrubs := []
  ctxs := []
  array := ArrayState.reset
  arrayOwner := none
  barriers := []
  barStores := []
  timed := []
  resv := []
  trace := []
  lastCtx := none
  issueFrom := 0
  issuedAt := none
  saved := []
  savedArray := none
  savedBy := none
  staged := []
  lateSignals := []
  retired := false
  bad := []

/-! ## Messages and engines -/

/-- A message (R175, R176): captured at `capture`, delivered for bundles issued from `deliver`. -/
structure Msg where
  core    : Nat
  ctx     : Nat
  buf     : Nat
  capture : Nat
  sent    : Bool
  dcore   : Nat
  dctx    : Nat
  deliver : Nat
  entry   : VWord
  lx      : Nat
  deriving DecidableEq, Repr

/-- What a command does at one tick of its expansion (R186, R187, R227, R231, R285, R300). -/
inductive EAct where
  /-- Reads `n` bytes of a scratchpad into the command's buffer `slot` from byte `off`. -/
  | rdLocal (core addr n slot off : Nat)
  /-- Writes `n` bytes of buffer `slot` from byte `off`. -/
  | wrLocal (core addr n slot off : Nat)
  /-- Reads one 32-byte sector, or writes the first `n` bytes of one (R210). -/
  | rdDram (tier ch bank byte slot off va mode : Nat)
  | wrDram (tier ch bank byte n slot off va mode : Nat)
  /-- Checks a source frame's tag under TCHK (R192). -/
  | tchk (core frame : Nat)
  /-- Gives a destination frame STAG (R195). -/
  | setTag (core frame : Nat)
  /-- A rejected translation (R208). -/
  | badVa (va : Nat) (write : Bool)
  /-- The address list entry `j` of a gather is misaligned (R187). -/
  | badRow (va : Nat)
  /-- Entry `j` of a gather's index list, which stands in buffer `j` from byte 0 (R187): the index its row's bank commands were accepted
  for at B, the column tick of the row's first sector, and the pace. -/
  | index (j expect col pace : Nat)
  /-- `n` staging entries from `first` out of buffer `slot` (R231). -/
  | stage (slot first n : Nat)
  /-- The next step of an evaluate, and its output `k`, at local place `(core, addr)` or in QC (R227, R229). -/
  | evalStep
  | evalOut (k core addr : Nat)
  /-- `n` records from object record `j`, out of buffer `slot` from byte `off`, reach the window of `win` nodes from node `base` (R236). -/
  | landRecords (base win j n slot off : Nat)
  /-- Bytes `off` to `off + n - 1` of a collective's result are formed, from buffer slot 2^20 on (R189). -/
  | combine (off n : Nat)
  /-- A missed deadline of a strict timed write to `addr` (R192). -/
  | missed (addr : Nat)
  /-- The context's ESTAT.LATE is set (R185). -/
  | late
  /-- A piece of an `ald` of engine `ch`: `n` bytes to byte `pos` of its activation buffers, landing at `land` (R302). -/
  | ceRead (ch core addr n pos land : Nat)
  /-- A piece of a result of `ptop` or `out` (R306, R307). -/
  | ceWrite (core addr n : Nat) (data : VWord)
  deriving DecidableEq, Repr

structure EOp where
  tick : Nat
  cmd  : Nat
  act  : EAct
  deriving DecidableEq, Repr

/-- An engine command (R184 to R190). `phase`: 0 not begun, 1 running, 2 ended, 3 stopped. -/
structure Cmd where
  id      : Nat
  core    : Nat
  ctx     : Nat
  lx      : Nat
  w0      : Word
  w1      : Word
  w2      : Word
  w3      : Word
  recAddr : Nat
  subNo   : Nat
  beginAt : Nat
  phase   : Nat
  /-- The end tick, once it is fixed. -/
  endAt   : Option Nat
  /-- Destination bytes not yet visible (R191). -/
  pend    : Nat
  buf     : Table VWord
  deriving DecidableEq, Repr

/-- A running evaluate (R227): its command, object, header, the next record to execute, and the outputs so far, output k
lane l at key 16 k + l. -/
structure EvalRun where
  cmd    : Nat
  obj    : Nat
  hdr    : List Word
  rec'   : Nat
  outs   : Table (BitVec 64)
  deriving DecidableEq, Repr

/-- A pending staging entry (R231, R232): its container, the update that wrote it and the end of that update, 0 when it
never ends. -/
structure Stage where
  value  : BitVec 64
  cmd    : Nat
  endsAt : Nat
  deriving DecidableEq, Repr

/-- The object directory entry: header words and page entries (R234, R235). -/
structure CObject where
  hdr   : List Word
  pages : List Word
  deriving DecidableEq, Repr

/-- A cluster's circuit engine (R221). -/
structure Circuit where
  /-- Slot identifier i, lane l at key 16 i + l. -/
  values  : Table (BitVec 64)
  nodes   : Table (BitVec 64)
  tags    : Table (BitVec 20)
  params  : Table (BitVec 64)
  staging : Table Stage
  lflags  : Table Flags
  dir     : Table CObject
  run     : Option EvalRun
  /-- End of the latest evaluate (R233). -/
  lastEnd : Nat
  retired : Bool
  /-- Containers and records that a soft error has spoiled (R341). -/
  bad     : List BadWord
  deriving DecidableEq, Repr

def Circuit.reset : Circuit where
  values := []
  nodes := []
  tags := []
  params := []
  staging := []
  lflags := []
  dir := []
  run := none
  lastEnd := 0
  retired := false
  bad := []

/-! ## DRAM channels and cellar engines -/

/-- A plan (R287). -/
structure Plan where
  refp : Nat
  hot  : Bool
  ref0 : Nat
  ref1 : Nat
  hwp  : Nat
  hw0  : Nat
  hw1  : Nat
  keep : Bool
  rfm  : List (Nat × Nat × Nat)
  prog : List (BitVec 32)
  deriving DecidableEq, Repr

/-- The plan of the reset column, which is also the idle plan (R287, R288). -/
def Plan.idle (tier : Nat) : Plan :=
  if tier = 0 then ⟨365, false, 0, 0, 256, 0, 128, false, [], []⟩
  else ⟨365, false, 0, 0, 384, 0, 192, false, [], []⟩

/-- An accepted burst: ACT, columns from c0 at the given pace, PRE (R285, R286). A cellar row read has no columns. -/
structure Burst where
  cmd  : Nat
  bank : Nat
  row  : Nat
  act  : Nat
  pre  : Nat
  c0   : Nat
  ncol : Nat
  pace : Nat
  wr   : Bool
  deriving DecidableEq, Repr

/-- A host line, or one sector of it, waiting (R293): when it was accepted, its CXL.mem offset, bank, byte, and the data of
a write. -/
structure HostLine where
  acc  : Nat
  off  : Nat
  bank : Nat
  byte : Nat
  data : Option (BitVec 512)
  deriving DecidableEq, Repr

/-- A result of a cellar instruction on its way (R300). -/
structure CePend where
  land  : Nat
  start : Nat
  /-- 0: accumulator word := value; 1: FP32 add; 2: saturating integer add; 3: every word of set `key` := 0. -/
  how   : Nat
  key   : Nat
  value : BitVec 32
  flags : Flags
  deriving DecidableEq, Repr

/-- Bytes of an activation buffer on their way (R302): `n` bytes to byte `pos` of AB0 to AB7 taken as one. -/
structure AbPend where
  land  : Nat
  pos   : Nat
  n     : Nat
  value : VWord
  deriving DecidableEq, Repr

/-- A row read of `wdot` or `psc` that has not performed (R300, R304, R305), with what the instruction read at its start:
the activation buffers it meets, 8 words each, and CFMT. `psc` scores blocks of `width` bytes into set `set` from `e`;
`wdot`, with `width` 0, puts one product per buffer into element `e`. -/
structure CeRow where
  cmd     : Nat
  perform : Nat
  start   : Nat
  land    : Nat
  bank    : Nat
  row     : Nat
  bufs    : List (List VWord)
  wty     : Nat
  aty     : Nat
  ecc     : Nat
  width   : Nat
  set     : Nat
  e       : Nat
  add     : Bool
  deriving DecidableEq, Repr

/-- A cellar engine (R297). -/
structure Cellar where
  prog  : Table (BitVec 32)
  cpc   : Nat
  j     : Table (BitVec 32)
  wty   : Nat
  aty   : Nat
  ecc   : Nat
  /-- Buffer b, 128-byte word i at key 8 b + i. -/
  ab    : Table VWord
  /-- Set c, element e at key 64 c + e. -/
  acc   : Table (BitVec 32)
  cflg  : Flags
  /-- The running program's command; 0: none. -/
  cmd   : Nat
  nextAt : Nat
  count : Nat
  pend  : List CePend
  abPend : List AbPend
  rows   : List CeRow
  deriving DecidableEq, Repr

def Cellar.reset : Cellar where
  prog := []
  cpc := 0
  j := []
  wty := 0
  aty := 0
  ecc := 0
  ab := []
  acc := []
  cflg := 0
  cmd := 0
  nextAt := 0
  count := 0
  pend := []
  abPend := []
  rows := []

/-- A DRAM channel with its controller (R281 to R293). -/
structure Channel where
  plan    : Plan
  /-- Origin of the plan in effect: S, or 0 for the idle plan (R288). -/
  origin  : Nat
  idle    : Bool
  staged  : Option Plan
  owner   : Nat
  mem     : Memory
  /-- Sectors written in a tolerant mode: sector number and mode (R294). -/
  modes   : Table Nat
  /-- What soft errors have flipped of a stored sector, by its number: bits 0 to 255 of the data and, above, of the check bits (R294). -/
  errs : Table (BitVec 288)
  bursts  : List Burst
  /-- Occupation of a bank by refresh or management: bank, first tick, end tick. -/
  occ     : List (Nat × Nat × Nat)
  rot0    : Nat
  rot1    : Nat
  /-- The next planned refresh and the next host window of each pseudo-channel (R288). -/
  refAt0  : Nat
  refAt1  : Nat
  winAt0  : Nat
  winAt1  : Nat
  /-- The tick at which the latest host window ends. -/
  winEnd0 : Nat
  winEnd1 : Nat
  /-- The next slot of each refresh-management entry of the plan; none listed: it is done. -/
  rfmAt   : Table Nat
  debt0   : Int
  debt1   : Int
  /-- Forced refreshes due: pseudo-channel and tick x (R290). -/
  forced  : List (Nat × Nat)
  /-- Forced refreshes that follow the PRE of a bank that was open: bank and refresh tick x + tRP (R290). -/
  late    : List (Nat × Nat)
  /-- The tick S − 512 from which the channel is handed over to an admitted launch (R288). -/
  handAt  : Option Nat
  raa     : Table Nat
  raat    : Nat
  raamax  : Nat
  cls     : Bool
  cecnt   : Nat
  dlog    : List (Nat × Nat × Bool)
  hostQ0  : List HostLine
  hostQ1  : List HostLine
  /-- Host accesses whose column tick is to come (R293). -/
  hostOps : List (Nat × HostLine)
  spares  : Table Nat
  spared  : List (Nat × Nat)
  retired : Bool
  cellar  : Cellar
  deriving DecidableEq, Repr

/-- The ticks from `first` on, `per` apart, that lie before tick `t`: how many. -/
def ticksBefore (first per t : Nat) : Nat := if t ≤ first then 0 else ceilDiv (t - first) per

/-- Ticks a per-bank refresh occupies its bank, and the length of a host window (R283). -/
def rfcOf (tier : Nat) : Nat := if tier = 0 then 360 else 540
def hwinOf (tier : Nat) : Nat := if tier = 0 then 128 else 192

/-- The refreshes of a pseudo-channel under the idle plan, from its fixed origin, that still occupy a bank at tick `t` (R288). -/
def idleOcc (tier pc n t : Nat) : List (Nat × Nat × Nat) :=
  ([1, 2].filter (fun i => decide (i ≤ n))).filterMap (fun i =>
    let k := n - i
    if t < 365 * k + rfcOf tier then some (pc * 16 + k % 16, 365 * k, 365 * k + rfcOf tier) else none)

/-- A channel that has run the idle plan from power-on to tick `t` (R288). A channel the state does not list is this one. -/
def Channel.at' (tier t : Nat) : Channel :=
  let n := ticksBefore 0 365 t
  let h := hwinOf tier
  let w0 := ticksBefore 0 (2 * h) t
  let w1 := ticksBefore h (2 * h) t
  { plan := Plan.idle tier, origin := 0, idle := true, staged := none, owner := 0, mem := [], modes := [], errs := []
    bursts := [], occ := idleOcc tier 0 n t ++ idleOcc tier 1 n t, rot0 := n % 16, rot1 := n % 16, refAt0 := 365 * n, refAt1 := 365 * n
    winAt0 := 2 * h * w0, winAt1 := h + 2 * h * w1
    winEnd0 := if w0 = 0 then 0 else 2 * h * (w0 - 1) + h, winEnd1 := if w1 = 0 then 0 else h + 2 * h * (w1 - 1) + h
    rfmAt := [], debt0 := -(Nat.min 8 n : Nat), debt1 := -(Nat.min 8 n : Nat), forced := [], late := [], handAt := none, raa := [], raat := 32, raamax := 64
    cls := false, cecnt := 0, dlog := [], hostQ0 := [], hostQ1 := [], hostOps := [], spares := [], spared := []
    retired := false, cellar := Cellar.reset }

/-- A channel right after reset. -/
def Channel.reset (tier : Nat) : Channel := Channel.at' tier 0

/-! ## Streams, launches and the supervisor -/

/-- An event (R255): LID, KIND, DETAIL, VALUE. -/
structure Event where
  lid    : Nat
  kind   : Nat
  detail : Nat
  value  : Word
  deriving DecidableEq, Repr

/-- The command a stream holds (R256): its words, when it was taken, and its progress. -/
structure Held where
  slot  : Nat
  /-- The tick its packet was closed. -/
  shut  : Nat
  words : List Word
  taken : Nat
  /-- The tick of the next action of a command that acts over time; none: it waits for a condition. -/
  actAt : Option Nat
  prog  : Nat
  image : Option Image
  deriving DecidableEq, Repr

/-- A command stream (R254, R255). -/
structure Stream where
  /-- Slot k, word i at key 64 k + i. -/
  slots  : Table Word
  /-- Closed slots, not yet consumed, in the order they were closed, with the tick of each. -/
  closed : List (Nat × Nat)
  prio   : Nat
  en     : Bool
  drop   : Bool
  ended  : Bool
  evovf  : Bool
  evbase : Word
  evlog  : Nat
  evhead : BitVec 32
  evtail : BitVec 32
  held   : Option Held
  /-- The first tick the stream may take a packet (R256). -/
  freeAt : Nat
  /-- Launches of this stream to be admitted again ahead of its packets (R276): their descriptor addresses. -/
  retry  : List Nat
  deriving DecidableEq, Repr

def Stream.reset (q : Nat) : Stream where
  slots := []
  closed := []
  prio := q
  en := false
  drop := false
  ended := false
  evovf := false
  evbase := 0
  evlog := 4
  evhead := 0
  evtail := 0
  held := none
  freeAt := 0
  retry := []

/-- A launch the scheduler has taken (R258 to R265). `phase`: 0 in admission, 1 admitted, 2 started, 3 ended. -/
structure Launch where
  lx      : Nat
  stream  : Nat
  prio    : Nat
  descAt  : Nat
  desc    : List Word
  ranges  : List (List Word)
  pages   : List (List Word)
  admitAt : Nat
  start   : Nat
  phase   : Nat
  /-- Admission number: admission order (R259). -/
  order   : Nat
  p15     : Bool
  isRetry : Bool
  /-- The refusal found when the scheduler took it; 0: none (R259). -/
  refusal : Nat
  /-- The tick its packet was closed, and the tick the scheduler took it. -/
  shut    : Nat
  taken   : Nat
  /-- Retry to be made once it has ended (R276). -/
  wantRetry : Bool
  /-- Modules that have confirmed (R264). -/
  confirmed : List Nat
  /-- The launch it pre-empts, by index; 0: none (R262). -/
  victim  : Nat
  /-- The staged plans it took at its start, by channel key: a retry takes them again (R276, R287). -/
  plans   : List (Nat × Plan)
  deriving DecidableEq, Repr

/-- A device write to host memory on its way (R219, R255, R343); `by'` is core × 4 + context + 1 of a host signal's
context, 0 for the supervisor's writes. -/
structure HostWrite where
  id     : Nat
  by'    : Nat
  addr   : Nat
  bytes  : Nat
  data   : Nat
  /-- The stream whose EVHEAD advances; none for a trace-ring copy. -/
  stream : Option Nat
  deriving DecidableEq, Repr

/-- A host signal from its issue until its context's earlier accesses have performed (R111, R219); `id` becomes its
device write's. -/
structure HSig where
  id     : Nat
  issued : Nat
  core   : Nat
  ctx    : Nat
  lx     : Nat
  value  : Word
  deriving DecidableEq, Repr

/-- The service operation in hand (R343). -/
structure ServiceOp where
  sop    : Nat
  tgt    : Nat
  arg    : Nat
  /-- The tick it completes, once its quiet tick has come. -/
  doneAt : Option Nat
  result : Nat
  /-- SVN and digest of the image an update has verified (R346). -/
  image  : Option (Nat × BitVec 512)
  /-- It changes the retirement map (R338, R344). -/
  alters : Bool
  deriving DecidableEq, Repr

/-- A flit that waits for its port: its class, the module it is for, and its payload (R332); `stamped` is the kind of a message of time
whose payload carries the NOW at which the flit leaves (R325). -/
structure FlitOut where
  cls  : Nat
  dmod : Nat
  pay  : BitVec 896
  stamped : Option Nat
  deriving DecidableEq, Repr

/-- A flit that a port has sent and may have to send again: its SEQ, and the tick at which it left last (R333). -/
structure SentFlit where
  seq  : BitVec 16
  flit : FlitOut
  left : Nat
  deriving DecidableEq, Repr

/-- A Jualmup port (R332, R333, R345): the lanes retired, whether it is in service, the SEQ it expects, its CRC failures in a
row, and the end of its retraining (R347); then the sender's side: the next SEQ, the flits that wait, the class of 0 and 1 sent last, the
buffer of the latest 256 flits sent, those to be sent again, and the SEQ whose replay was asked for last with how often in a row, (0, 0)
once that flit has come well. `busy` is how far into its tick the latest flit still leaves, in the units of `portRate`; `askUntil` the tick before which no
replay that it has asked for can come; `reqAt` the tick at which its latest delay request left (R325). -/
structure Port where
  lanes  : List Nat
  inService : Bool
  seqIn  : BitVec 16
  fails  : Nat
  until' : Nat
  seqOut : BitVec 16
  queue  : List FlitOut
  lastCls : Nat
  sent   : List SentFlit
  again  : List (BitVec 16 × FlitOut)
  asked  : BitVec 16 × Nat
  busy   : Nat
  askUntil : Nat
  reqAt  : Nat
  deriving DecidableEq, Repr

def Port.reset : Port := ⟨[], true, 0, 0, 0, 0, [], 1, [], [], (0, 0), 0, 0, 0⟩

/-- The issue latch: the bundle being issued, its context, and the slots still to run. The model's own: it lets one
step run one slot; every slot of a bundle acts at the bundle's issue tick (R16, R23). -/
structure Issue where
  core    : Nat
  ctx     : Nat
  word    : BitVec 16
  lit     : Word
  entry   : Entry
  outcome : Nat
  next    : BitVec 16
  left    : List SlotName
  /-- The checks of the whole bundle have been made (R94, R168, R184, R194). -/
  checked : Bool
  /-- What the bundle asks of the selector at its end: wait, fence, trap code, halt (R103, R109, R110, R183). -/
  wait    : Option WaitReq
  fence   : List FenceSt
  trap    : Option Nat
  halt    : Bool
  deriving DecidableEq, Repr

def Issue.reset : Issue where
  core := 0
  ctx := 0
  word := 0
  lit := 0
  entry := 0
  outcome := 5
  next := 0
  left := []
  checked := false
  wait := none
  fence := []
  trap := none
  halt := false

/-- What the module sends outside: a CXL.mem line with its poison, the completion of an accepted CXL.mem write, none in service at
that offset, a message it hands to its ports, a flit that leaves a port, or an interrupt on one of its five vectors (R219, R293, R295,
R325, R330 to R332). -/
inductive Output where
  | line (tick off data : Nat) (poison : Bool)
  | accepted (tick off : Nat)
  | unsupported (tick off : Nat)
  | flit (tick port : Nat) (bits : BitVec 1024)
  | interrupt (tick vector : Nat)
  | message (tick port kind : Nat) (value : Word)
  deriving DecidableEq, Repr

/-- The module. -/
structure State where
  now      : Nat
  iss      : Issue
  /-- The waiting ticks of the present tick have been counted (R106). -/
  counted  : Bool
  /-- The channel whose cellar engine runs the present step. -/
  ceCh     : Nat
  /-- External events not yet taken, with their ticks (log entry 5). -/
  inputs   : List (Nat × Instr)
  cores    : Table Core
  accesses : List Access
  msgs     : List Msg
  cmds     : List Cmd
  eops     : List EOp
  circuits : Table Circuit
  /-- High-bandwidth channel c at key c, loft channel c at key 256 + c. -/
  channels : Table Channel
  streams  : Table Stream
  launches : List Launch
  /-- Stream last served at each priority (R259). -/
  served   : Table Nat
  /-- Confirmations and aborts of gangs whose launch this module has not taken yet: LID, module, and whether it is an abort (R264). -/
  gangMsgs : List (Nat × Nat × Bool)
  /-- The acceptance ticks of the host writes that have performed in the present tick (R219, R259). -/
  performed : List Nat
  hostMem  : Memory
  /-- What the module has answered the outside: reads returned on CXL.mem and flits sent on its ports (R293, R325, R332). -/
  outputs  : List Output
  hostWrites : List HostWrite
  /-- Host signals not yet posted (R111, R219). -/
  hsigs    : List HSig
  /-- Numbers given out: commands, loads, launches. -/
  nextId   : Nat
  nextLx   : Nat
  nextOrder : Nat
  /-- The tick in which the scheduler last ended an admission (R259). -/
  admitted : Option Nat
  -- time (R324)
  lock     : Nat
  stepF    : Nat
  stepNext : Nat
  stepPend : Bool
  tchg     : Word
  tofs     : BitVec 32
  src      : Nat
  den      : Bool
  trip     : Bool
  tripOn   : Bool
  syncGood : Nat
  coarseDone : Bool
  /-- How many ticks a coarse set that waits is to add (R326). -/
  coarseTo : Option Nat
  /-- The tick of the next sync sent (R325). -/
  syncAt   : Nat
  /-- The latest sync received: its stamp, and when it came, in 1/256 tick; and the round trip that the latest exchange has measured, in
  1/256 tick (R325). -/
  syncSeen : Option (Word × Nat)
  pathTrip : Option Nat
  /-- The announced change is the domain's (R328). -/
  stepDom  : Bool
  -- service (R338)
  plim     : Nat
  pnow     : BitVec 16
  tdie     : BitVec 8
  /-- The end of the window of 65,536 ticks that runs (R339). -/
  windowAt : Nat
  coolWins : Nat
  stepWant : Option Nat
  pdeg     : Bool
  cexm     : Bool
  sbusy    : Bool
  stgt     : BitVec 8
  sarg     : BitVec 52
  sres     : Nat
  secor    : Nat
  seunc    : Nat
  /-- The corrections of the last 2^32 ticks: core or unit, context of a place that each context has for itself, structure, place and
  tick (R342). -/
  fixes    : List (Nat × Nat × Nat × Word × Nat)
  rmapa    : Word
  rmapv    : BitVec 16
  service  : Option ServiceOp
  /-- Streams consume no packet before this tick (R346). -/
  pauseTo  : Nat
  -- security (R334 to R337)
  booted   : Bool
  pupolOk  : Bool
  svns     : Table Nat
  /-- SHA-512 digests of the running images by TYPE (R337). -/
  digests  : Table (BitVec 512)
  rollback : Table Nat
  nonce    : Table Word
  attStat  : Nat
  /-- The tick at which the report in preparation is written (R337). -/
  attDue   : Option Nat
  attRep   : Table Word
  ports    : Table Port
  deriving DecidableEq, Repr

/-- The module right after power-on reset. -/
def State.reset : State where
  now := 0
  iss := Issue.reset
  counted := false
  ceCh := 0
  inputs := []
  cores := []
  accesses := []
  msgs := []
  cmds := []
  eops := []
  circuits := []
  channels := []
  streams := []
  launches := []
  served := []
  gangMsgs := []
  performed := []
  hostMem := []
  outputs := []
  hostWrites := []
  hsigs := []
  nextId := 1
  nextLx := 1
  nextOrder := 0
  admitted := none
  lock := 0
  stepF := 0
  stepNext := 0
  stepPend := false
  tchg := 0
  tofs := 0
  src := 15
  den := false
  trip := false
  tripOn := false
  syncGood := 0
  coarseDone := false
  coarseTo := none
  syncAt := 0
  syncSeen := none
  pathTrip := none
  stepDom := false
  plim := 2400
  pnow := 0
  tdie := 0
  windowAt := 65536
  coolWins := 0
  stepWant := none
  pdeg := false
  cexm := false
  sbusy := false
  stgt := 0
  sarg := 0
  sres := 0
  secor := 0
  seunc := 0
  fixes := []
  rmapa := 0
  rmapv := 0
  service := none
  pauseTo := 0
  booted := false
  pupolOk := false
  svns := []
  digests := []
  rollback := []
  nonce := []
  attStat := 0
  attDue := none
  attRep := []
  ports := []

end Sys2Proof.Machine
end

