-- ==== Sys2Proof/Config.lean ====
section
/-! DEFINITION. What an implementation fixes and what the spec leaves open: constants without a body, of which nothing can be
proved (log entries 6, 7, 11, 14, 15, 23, 31). -/

namespace Sys2Proof.Config

open Sys2Proof.Machine

/-- A free value for an index: what a rank of another module brings to a collective (log entry 15). -/
opaque freeBits : Nat → Nat

/-- The kernel image that load code reads at a CXL.mem offset of device memory; the spec gives its contents and no layout
(R87; log entry 7). -/
opaque kernelImage : Table Channel → Nat → Image

/-- How many bytes of device memory such an image takes from its CXL.mem offset (R87, R341; log entry 7). -/
opaque kernelBytes : Table Channel → Nat → Nat

/-- Record `j` of a paged object as the load check reads it, for the CXL.mem offset of its image: the spec has the records checked at
load and gives no place where they then stand (R234, R237; log entry 21). -/
opaque pagedRecord : Table Channel → Nat → Nat → Nat

/-- What a sector written in one ECC mode reads as in another: none when it reports uncorrectable (R295; log entry 14).
The arguments are the mode written, the mode read and the sector's 256 bits. -/
opaque eccMismatch : Nat → Nat → Nat → Option Nat

/-- What a sector reads as, in the mode it was written in, when more of its symbols are spoiled than its check bits are sure to
correct or to detect: none when it reports uncorrectable (R294; log entry 14). The arguments are the mode, the 256 bits as written
and the error pattern. -/
opaque eccBeyond : Nat → Nat → Nat → Option Nat

/-- The ticks a collective between scratchpads takes from its last read to its first write, for a gang of so many ranks, and
the element count (R189; log entry 11). -/
opaque collectiveTicks : Nat → Nat → Nat

/-- Tolric's root public key, whose digest is fused in die 0 (R334; log entry 6). -/
opaque rootKey : BitVec 256

/-- The private half of the identity key pair, which never leaves die 0, the serial number, and byte i of the certificate at 0x800
(R336; log entry 6). -/
opaque identitySecret : BitVec 256
opaque serialNumber : Word
opaque certificate : Nat → Byte

/-- The firmware images a module boots from, by TYPE: header and payload (R334). -/
opaque bootImage : Nat → List Byte

/-- The retirement map's bytes for the retired cores, clusters and channels, the spared rows and the retired lanes it records
(R344; the spec gives no layout: log entry 23). -/
opaque retirementMap : List Nat → List Nat → List Nat → List (Nat × Nat) → List Nat → List Byte

/-- The CXL.mem offset at which Pupol keeps the retirement map's copy (R338, R344; the spec gives no value: log entry 23). -/
opaque rmapAddress : Nat

/-- What a payload of class 2 carries: the kind of the message and its value; and the payload of a message (R328, R332; the spec gives no
layout: log entry 31). -/
opaque controlOf : BitVec 896 → Nat × Word
opaque controlPay : Nat → Word → BitVec 896

/-- CRC-64 over bits 959 to 0 of a flit (R332; the spec names no polynomial: log entry 31). -/
opaque crc64 : BitVec 960 → BitVec 64

/-- The place of this module in its domain: its number, the port toward a module, the module at the other end of a port, and the ports
and modules that a message of a kind and value goes to (R325, R328, R332; log entry 31). -/
opaque moduleNumber : Nat
opaque portToward : Nat → Nat
opaque neighbour : Nat → Nat
opaque recipients : Nat → Word → List (Nat × Nat)

/-- The mean power in watts and the highest die temperature in °C of window `n` of 65,536 ticks, which the spec's physics fixes
(R339; log entry 33). -/
opaque windowPower : Nat → BitVec 16
opaque windowHeat : Nat → BitVec 8

/-- The ticks the supervisor takes to prepare a report asked for at a tick (R337; log entry 53). -/
opaque reportTicks : Nat → Nat

end Sys2Proof.Config
end

