-- ==== Sys2Proof/Decode.lean ====
section
/-! DEFINITION. Decoding: bits to instructions, total, rejecting by name (R54 to R71, R299); then the encoder, written
from the same tables; then the validation of an HCW entry (R15, R56, R67, R70 to R72). -/

namespace Sys2Proof

open Sys2Proof.Machine

/-- Why bits are no instruction. -/
inductive Reject where
  | reservedOpcode
  | reservedTag
  | unusedField
  | reservedField
  | wrongSlot
  deriving DecidableEq, Repr

/-- Bits lo to lo + n - 1 of a word. -/
def bv (n w lo : Nat) : BitVec n := BitVec.ofNat n (w / 2 ^ lo)

/-- The instruction if `b` holds, else the named rejection. -/
def need (b : Bool) (e : Reject) (r : Except Reject Instr) : Except Reject Instr := if b then r else .error e

/-- A path tag of R25: 6 and 7 are reserved. -/
def tagOk (t : BitVec 3) : Bool := decide (t.toNat ≤ 5)

/-- The control slot (R57). -/
def decodeC (w : Nat) : Except Reject Instr :=
  let op := bitsAt w 15 4
  need (bitsAt w 19 3 == 0) .reservedTag <|
  match op with
  | 0 => need (bitsAt w 0 15 == 0) .unusedField (.ok (.nop .c))
  | 1 => .ok (.prep (bv 3 w 12) (bv 12 w 0))
  | 2 => need (bitsAt w 0 7 == 0) .unusedField (.ok (.prepr (bv 3 w 12) (bv 5 w 7)))
  | 3 => need (bitsAt w 0 2 == 0) .unusedField <|
      need (decide (bitsAt w 6 4 + bitsAt w 10 2 ≤ 15)) .reservedField <|
      need (decide (bitsAt w 2 4 < 2 ^ (bitsAt w 10 2 + 1))) .unusedField
        (.ok (.xfer (bv 3 w 12) (bv 2 w 10) (bv 4 w 6) (bv 4 w 2)))
  | 4 => need (bitsAt w 0 12 == 0) .unusedField (.ok (.go (bv 3 w 12)))
  | 5 => need (bitsAt w 0 8 == 0) .unusedField (.ok (.loop (bv 2 w 13) (bv 5 w 8)))
  | 6 => need (bitsAt w 0 4 == 0) .unusedField (.ok (.ldelta (bv 2 w 13) (bv 4 w 9) (bv 5 w 4)))
  | 7 => need (bitsAt w 0 6 == 0) .unusedField (.ok (.ldk (bv 3 w 12) (bv 5 w 7) (bv 1 w 6)))
  | 8 => need (bitsAt w 0 7 == 0) .unusedField <|
      (match bitsAt w 12 3 with
      | 0 => .ok (.waitBarrier (bv 5 w 7))
      | 1 => need (bitsAt w 9 3 == 0) .unusedField (.ok (.waitQueue (bv 2 w 7)))
      | 2 => .ok (.waitTick (bv 5 w 7))
      | 3 => need (bitsAt w 10 2 == 0) .unusedField <|
          need (decide (bitsAt w 7 3 ≤ 4)) .reservedField (.ok (.waitEngine (bv 3 w 7)))
      | _ => .error .reservedField)
  | 9 => need (bitsAt w 0 8 == 0) .unusedField (.ok (.budr ⟨bv 4 w 11, bv 3 w 8⟩))
  | 10 => need (bitsAt w 8 7 == 0) .unusedField (.ok (.trap (bv 8 w 0)))
  | 11 => need (bitsAt w 0 15 == 0) .unusedField (.ok .halt)
  | 12 => need (bitsAt w 0 5 == 0) .unusedField <|
      (match bitsAt w 10 5 with
      | 0 => .ok (.tmark (bv 5 w 5))
      | 1 => .ok (.hsig (bv 5 w 5))
      | _ => .error .reservedField)
  | _ => .error .reservedOpcode

/-- A scalar slot (R58). -/
def decodeScalar (u : ScalarUnit) (w : Nat) : Except Reject Instr :=
  let t := bv 3 w 22
  let d : Dst := ⟨bv 4 w 13, bv 3 w 10⟩
  let a := bv 5 w 5
  let b := bv 5 w 0
  need (tagOk t) .reservedTag <|
  match bitsAt w 17 5 with
  | 0 => need (w % 2 ^ 25 == 0) .unusedField (.ok (.nop (match u with | .sa => .sa | .sb => .sb)))
  | 1 => .ok (.add u t d a b)
  | 2 => .ok (.sub u t d a b)
  | 3 => .ok (.and u t d a b)
  | 4 => .ok (.or u t d a b)
  | 5 => .ok (.xor u t d a b)
  | 6 => .ok (.andn u t d a b)
  | 7 => .ok (.shl u t d a b)
  | 8 => .ok (.shr u t d a b)
  | 9 => .ok (.sar u t d a b)
  | 10 => .ok (.rol u t d a b)
  | 11 => .ok (.min u t d a b)
  | 12 => .ok (.max u t d a b)
  | 13 => .ok (.minu u t d a b)
  | 14 => .ok (.maxu u t d a b)
  | 15 => .ok (.mul u t d a b)
  | 16 => .ok (.mulh u t d a b)
  | 17 => .ok (.mulhu u t d a b)
  | 21 => .ok (.sext u t d a b)
  | 22 => .ok (.zext u t d a b)
  | 23 => .ok (.cat7 u t d a b)
  | 18 => need (bitsAt w 0 5 == 0) .unusedField (.ok (.clz u t d a))
  | 19 => need (bitsAt w 0 5 == 0) .unusedField (.ok (.ctz u t d a))
  | 20 => need (bitsAt w 0 5 == 0) .unusedField (.ok (.pcnt u t d a))
  | 24 => .ok (.cmp u t (bv 4 w 13) (bv 3 w 10) a b)
  | 25 => .ok (.cmpa u t (bv 4 w 13) (bv 3 w 10) a b)
  | 26 => .ok (.cmpo u t (bv 4 w 13) (bv 3 w 10) a b)
  | 27 => need (bitsAt w 0 10 == 0) .unusedField (.ok (.prd u t d))
  | 28 => need (bitsAt w 10 7 == 0 && bitsAt w 0 5 == 0) .unusedField (.ok (.pwr u t a))
  | _ => .error .reservedOpcode

/-- The index slot (R63). -/
def decodeX (w : Nat) : Except Reject Instr :=
  let t := bv 3 w 22
  let d : Dst := ⟨bv 4 w 13, bv 3 w 10⟩
  let a := bv 5 w 5
  let b := bv 5 w 0
  need (tagOk t) .reservedTag <|
  match bitsAt w 17 5 with
  | 0 => need (w % 2 ^ 25 == 0) .unusedField (.ok (.nop .x))
  | 1 => .ok (.xadd t d a b)
  | 2 => .ok (.xsub t d a b)
  | 3 => .ok (.xshl t d a b)
  | 4 => .ok (.xshr t d a b)
  | 5 => .ok (.xand t d a b)
  | 7 => .ok (.cadv t d a b)
  | 8 => .ok (.cadvp t d a b)
  | 10 => .ok (.xlea t d a b)
  | 11 => .ok (.xmin t d a b)
  | 12 => .ok (.xmax t d a b)
  | 6 => need (bitsAt w 0 5 == 0) .unusedField (.ok (.xpcnt t d a))
  | 9 => need (bitsAt w 10 7 == 0) .unusedField (.ok (.aqp t a b))
  | 13 => need (bitsAt w 0 10 == 0) .unusedField (.ok (.aqfree t d))
  | _ => .error .reservedOpcode

/-- The types an F or I form admits (R65). -/
def isF (ty : BitVec 4) : Bool := decide (1 ≤ ty.toNat ∧ ty.toNat ≤ 3)
def isI (ty : BitVec 4) : Bool := decide (5 ≤ ty.toNat ∧ ty.toNat ≤ 12)
def isFI (ty : BitVec 4) : Bool := isF ty || isI ty
def isAny (ty : BitVec 4) : Bool := decide (ty.toNat ≤ 12)
/-- A rounding code of R40, 6 and 7 reserved (R66). -/
def rndOk (m : BitVec 3) : Bool := decide (m.toNat ≤ 5)
/-- MOD of a form that rounds for F and takes the integer mode for I (R65, R66). -/
def modArith (f : VecFields) : Bool := if isF f.ty then rndOk f.md else decide (f.md.toNat ≤ 1)
/-- MOD of a form that rounds for F and has MOD 0 for I (R65). -/
def modSum (f : VecFields) : Bool := if isF f.ty then rndOk f.md else f.md == 0
/-- MOD of a form that has MOD 0 for F and the integer mode for I (R65). -/
def modAbs (f : VecFields) : Bool := if isF f.ty then f.md == 0 else decide (f.md.toNat ≤ 1)

/-- What the map of R65 admits for a vector opcode: TY, MOD and the fields it leaves unused. -/
def vecOk (op : Nat) (f : VecFields) : Bool :=
  decide (f.w.toNat ≤ 2) && tagOk f.tag &&
  (match op with
  | 1 | 2 | 3 => isFI f.ty && modArith f
  | 4 => isF f.ty && rndOk f.md
  | 5 | 6 => isFI f.ty && f.md == 0
  | 7 | 8 | 9 => isF f.ty && rndOk f.md && f.vb == 0
  | 10 => isAny f.ty && rndOk f.md && decide (f.vb.toNat ≤ 12)
  | 11 => isFI f.ty && decide (f.vd.toNat < 8) && (isF f.ty || decide (f.md.toNat ≤ 5))
  | 12 => isAny f.ty && f.md == 0
  | 13 => isAny f.ty && f.md == 0 && f.vb == 0
  | 14 => isAny f.ty && f.md == 0
  | 15 | 17 => isFI f.ty && modSum f && f.vb == 0
  | 16 | 18 | 19 => isFI f.ty && f.md == 0 && f.vb == 0
  | 20 => isFI f.ty && f.vb == 0
  | 21 => f.ty == 12 && f.md == 0
  | 22 => isI f.ty && f.md == 0 && f.vb == 0
  | 23 | 24 | 25 | 26 | 27 => isI f.ty && f.md == 0
  | 28 => isAny f.ty && f.md == 0 && f.va == 0 && f.vb == 0
  | 29 | 30 => isFI f.ty && modAbs f && f.vb == 0
  | _ => false)

/-- The vector instruction of an opcode (R65). -/
def vecInstr (u : VecUnit) (op : Nat) (f : VecFields) : Except Reject Instr :=
  match op with
  | 1 => .ok (.vadd u f)
  | 2 => .ok (.vsub u f)
  | 3 => .ok (.vmul u f)
  | 4 => .ok (.vfma u f)
  | 5 => .ok (.vmin u f)
  | 6 => .ok (.vmax u f)
  | 7 => .ok (.vexp2 u f)
  | 8 => .ok (.vrsqrt u f)
  | 9 => .ok (.vrecip u f)
  | 10 => .ok (.vcvt u f)
  | 11 => .ok (.vcmp u f)
  | 12 => .ok (.vsel u f)
  | 13 => .ok (.vrot u f)
  | 14 => .ok (.vshuf u f)
  | 15 => .ok (.vscan u f)
  | 16 => .ok (.vscanx u f)
  | 17 => .ok (.vred u f)
  | 18 => .ok (.vredx u f)
  | 19 => .ok (.vredn u f)
  | 20 => .ok (.vcx u f)
  | 21 => .ok (.vclmul u f)
  | 22 => .ok (.vpcnt u f)
  | 23 => .ok (.vand u f)
  | 24 => .ok (.vor u f)
  | 25 => .ok (.vxor u f)
  | 26 => .ok (.vshl u f)
  | 27 => .ok (.vshr u f)
  | 28 => .ok (.vbc u f)
  | 29 => .ok (.vabs u f)
  | 30 => .ok (.vneg u f)
  | _ => .error .reservedOpcode

/-- A vector slot (R64). -/
def decodeVec (u : VecUnit) (w : Nat) : Except Reject Instr :=
  let op := bitsAt w 27 5
  let f : VecFields := ⟨bv 3 w 32, bv 4 w 23, bv 2 w 21, bv 5 w 16, bv 5 w 11, bv 5 w 6, bv 3 w 3, bv 3 w 0⟩
  if op = 0 then need (w % 2 ^ 35 == 0) .unusedField (.ok (.nop (match u with | .va => .va | .vb => .vb)))
  else need (decide (op ≤ 30)) .reservedOpcode <| need (vecOk op f) .reservedField (vecInstr u op f)

/-- A memory slot (R60 to R62). -/
def decodeMem (u : MemUnit) (w : Nat) : Except Reject Instr :=
  let t := bv 3 w 21
  let d : Dst := ⟨bv 4 w 12, bv 3 w 9⟩
  let vw := bv 2 w 14
  let v := bv 5 w 9
  let a := bv 4 w 5
  let o := bv 5 w 0
  let vOk := decide (bitsAt w 14 2 ≤ 2)
  let sOk := bitsAt w 14 2 == 0
  need (tagOk t) .reservedTag <|
  match bitsAt w 16 5 with
  | 0 => need (w % 2 ^ 24 == 0) .unusedField (.ok (.memNop u))
  | 1 => .ok (.ldI8 u t d a o)
  | 2 => .ok (.ldN8 u t d a o)
  | 3 => .ok (.ldI16 u t d a o)
  | 4 => .ok (.ldN16 u t d a o)
  | 5 => .ok (.ldI32 u t d a o)
  | 6 => .ok (.ldN32 u t d a o)
  | 7 => .ok (.ldI64 u t d a o)
  | 8 => need sOk .unusedField (.ok (.st8 u t v a o))
  | 9 => need sOk .unusedField (.ok (.st16 u t v a o))
  | 10 => need sOk .unusedField (.ok (.st32 u t v a o))
  | 11 => need sOk .unusedField (.ok (.st64 u t v a o))
  | 12 => need vOk .reservedField (.ok (.vld u t vw v a o))
  | 13 => need vOk .reservedField (.ok (.vst u t vw v a o))
  | 14 => .ok (.ldTc u t d a o)
  | 15 => need vOk .reservedField (.ok (.vldTc u t vw v a o))
  | 16 => .ok (.ldNb u t d a o)
  | 17 => need vOk .reservedField (.ok (.vldNb u t vw v a o))
  | 18 => need sOk .unusedField (.ok (.stVa u t v a o))
  | 19 => need vOk .reservedField (.ok (.vstVa u t vw v a o))
  | 20 => .ok (.amoAdd u t d a o)
  | 21 => .ok (.amoAnd u t d a o)
  | 22 => .ok (.amoOr u t d a o)
  | 23 => .ok (.amoMax u t d a o)
  | 24 => .ok (.amoSwp u t d a o)
  | 25 => need (bitsAt w 0 4 == 0) .unusedField <| need (decide (bitsAt w 13 3 ≤ 6)) .reservedField
      (.ok (.fence u t (bv 3 w 13) (bv 2 w 11) (bv 7 w 4)))
  | 26 => need (bitsAt w 5 11 == 0) .unusedField (.ok (.arrive u t o))
  | 27 => need (bitsAt w 5 3 == 0) .unusedField
      (if bitsAt w 8 1 = 1 then .ok (.signalDrain u t (bv 7 w 9) o) else .ok (.signal u t (bv 7 w 9) o))
  | 28 => need (u == .mb) .wrongSlot <|
      need (bitsAt w 10 4 == 0 || bitsAt w 10 4 == 1 || bitsAt w 10 4 == 2 || bitsAt w 10 4 == 3 || bitsAt w 10 4 == 5
        || bitsAt w 10 4 == 7) .reservedField
      (.ok (.drain t vw (bv 4 w 10) (bv 1 w 9) a o))
  | 29 => need (bitsAt w 13 3 == 0 && bitsAt w 5 4 == 0) .unusedField (.ok (.lda u t (bv 4 w 9) o))
  | 30 => need (bitsAt w 0 5 == 0) .unusedField (.ok (.rda u t d a))
  | _ => .error .reservedOpcode

/-- The matrix slot (R68). -/
def decodeMX (w : Nat) : Except Reject Instr :=
  let t := bv 3 w 14
  let pa := bv 4 w 7
  let b := bv 2 w 5
  let lw := bv 2 w 3
  let la := bv 3 w 0
  need (tagOk t) .reservedTag <|
  match bitsAt w 11 3 with
  | 0 => need (w % 2 ^ 17 == 0) .unusedField (.ok (.nop .mx))
  | 1 => need (bitsAt w 5 6 == 0) .unusedField (.ok (.lsh t lw la))
  | 2 => need (bitsAt w 7 4 == 0 && bitsAt w 0 5 == 0) .unusedField (.ok (.acc t b))
  | 3 => need (bitsAt w 7 4 == 0) .unusedField (.ok (.acl t b lw la))
  | 4 => need (bitsAt w 0 7 == 0) .unusedField (.ok (.psh t pa))
  | 5 => need (bitsAt w 5 2 == 0) .unusedField (.ok (.psl t pa lw la))
  | 6 => need (bitsAt w 0 5 == 0) .unusedField (.ok (.pac t pa b))
  | _ => .ok (.pal t pa b lw la)

/-- The format and engine slot (R69). -/
def decodeE (w : Nat) : Except Reject Instr :=
  let t := bv 3 w 9
  let g := bv 4 w 0
  let top := bitsAt w 4 1 == 0
  let top2 := bitsAt w 3 2 == 0
  let fOk := g == 0 || g == 1 || g == 2 || g == 5
  need (tagOk t) .reservedTag <|
  match bitsAt w 5 4 with
  | 0 => need (w % 2 ^ 12 == 0) .unusedField (.ok (.nop .e))
  | 1 => .ok (.fmtw t (bv 5 w 0))
  | 2 => need top .unusedField (.ok (.fmtr t g))
  | 3 => need top2 .unusedField <| need (decide (bitsAt w 0 3 ≤ 4)) .reservedField (.ok (.rmode t (bv 3 w 0)))
  | 4 => need top .unusedField <| need fOk .reservedField (.ok (.afmt t g))
  | 5 => need top .unusedField <| need fOk .reservedField (.ok (.bfmt t g))
  | 6 => need (bitsAt w 1 4 == 0) .unusedField (.ok (.scal t (bv 1 w 0)))
  | 7 => .ok (.fclr t (bv 5 w 0))
  | 8 => need top2 .unusedField (.ok (.gpsh t (bv 3 w 0)))
  | 9 => need top2 .unusedField (.ok (.glat t (bv 3 w 0)))
  | 10 => need top2 .unusedField (.ok (.gsr t (bv 3 w 0)))
  | 11 => need top .unusedField (.ok (.eSub t g))
  | _ => .error .reservedOpcode

/-- The instruction of a slot's bits (R56). -/
def decodeSlot (s : SlotName) (w : Nat) : Except Reject Instr :=
  match s with
  | .c => decodeC w
  | .sa => decodeScalar .sa w
  | .sb => decodeScalar .sb w
  | .ma => decodeMem .ma w
  | .mb => decodeMem .mb w
  | .x => decodeX w
  | .va => decodeVec .va w
  | .vb => decodeVec .vb w
  | .mx => decodeMX w
  | .e => decodeE w

/-- A cellar instruction word (R299). -/
def decodeCellar (w : Nat) : Except Reject Instr :=
  let f26 := bv 3 w 24
  let f23 := bv 3 w 21
  let f20 := bv 3 w 18
  match bitsAt w 27 5 with
  | 0 => need (bitsAt w 12 15 == 0) .unusedField (.ok (.ceNop (bv 12 w 0)))
  | 1 => .ok (.ceJset f26 (bv 24 w 0))
  | 2 => .ok (.ceJadd f26 f23 (bv 21 w 0))
  | 3 => need (bitsAt w 7 17 == 0) .unusedField (.ok (.ceBnz f26 (bv 7 w 0)))
  | 4 => need (bitsAt w 0 24 == 0) .unusedField (.ok (.ceWait f26))
  | 5 => need (bitsAt w 6 21 == 0) .unusedField <|
      need (decide (bitsAt w 0 2 ≤ 1) && decide (bitsAt w 2 2 ≤ 1)) .reservedField
      (.ok (.ceCfmt (bv 2 w 0) (bv 2 w 2) (bv 2 w 4)))
  | 6 => need (bitsAt w 0 21 == 0) .unusedField (.ok (.ceAld f26 f23))
  | 7 => need (bitsAt w 8 19 == 0) .unusedField (.ok (.ceClr (bv 8 w 0)))
  | 8 => need (bitsAt w 0 11 == 0) .unusedField
      (if bitsAt w 11 1 = 1 then .ok (.ceWdotAdd f26 f23 f20 (bv 6 w 12)) else .ok (.ceWdot f26 f23 f20 (bv 6 w 12)))
  | 9 => need (bitsAt w 0 10 == 0) .unusedField <| need (decide (bitsAt w 10 2 ≤ 2)) .reservedField
      (.ok (.cePsc f26 f23 f20 (bv 6 w 12) (bv 2 w 10)))
  | 10 => need (bitsAt w 8 16 == 0) .unusedField (.ok (.ceScl f26 (bv 8 w 0)))
  | 11 => need (bitsAt w 0 12 == 0) .unusedField (.ok (.cePtop f26 (bv 6 w 18) (bv 3 w 15) (bv 3 w 12)))
  | 12 => need (bitsAt w 0 17 == 0) .unusedField <| need (decide (bitsAt w 18 3 ≤ 5)) .reservedField
      (.ok (.ceOut f26 f23 f20 (bv 1 w 17)))
  | 13 => need (bitsAt w 0 27 == 0) .unusedField (.ok .ceEnd)
  | _ => .error .reservedOpcode

/-- The instruction, forgetting why there is none. -/
def toOpt (r : Except Reject Instr) : Option Instr :=
  match r with
  | .ok i => some i
  | .error _ => none

/-- What the decoder reads from a word of spec/opcode_table.json: its 24-bit rows are memory-slot words (R60),
read here as the MB slot's, which admits every memory form; its 32-bit rows are cellar words (R299). -/
def decodeTableWord (nbits w : Nat) : Option Instr :=
  match nbits with
  | 24 => toOpt (decodeMem .mb (w % 2 ^ 24))
  | 32 => toOpt (decodeCellar (w % 2 ^ 32))
  | _ => none

/-! The encoder. -/

/-- Three-operand scalar layout (R58, R63). -/
def enc3 (op : Nat) (t : BitVec 3) (d : Dst) (a b : BitVec 5) : Nat :=
  t.toNat * 2 ^ 22 + op * 2 ^ 17 + d.idx.toNat * 2 ^ 13 + d.copy.toNat * 2 ^ 10 + a.toNat * 2 ^ 5 + b.toNat

/-- Vector layout (R64). -/
def encV (op : Nat) (f : VecFields) : Nat :=
  f.tag.toNat * 2 ^ 32 + op * 2 ^ 27 + f.ty.toNat * 2 ^ 23 + f.w.toNat * 2 ^ 21 + f.vd.toNat * 2 ^ 16 + f.va.toNat * 2 ^ 11
    + f.vb.toNat * 2 ^ 6 + f.km.toNat * 2 ^ 3 + f.md.toNat

/-- Memory layout with a destination in REG (R60). -/
def encMD (op : Nat) (t : BitVec 3) (d : Dst) (a : BitVec 4) (o : BitVec 5) : Nat :=
  t.toNat * 2 ^ 21 + op * 2 ^ 16 + d.idx.toNat * 2 ^ 12 + d.copy.toNat * 2 ^ 9 + a.toNat * 2 ^ 5 + o.toNat

/-- Memory layout with a width code and a 5-bit register or selector in REG (R60). -/
def encMV (op : Nat) (t : BitVec 3) (w : Nat) (v : BitVec 5) (a : BitVec 4) (o : BitVec 5) : Nat :=
  t.toNat * 2 ^ 21 + op * 2 ^ 16 + w * 2 ^ 14 + v.toNat * 2 ^ 9 + a.toNat * 2 ^ 5 + o.toNat

/-- Matrix layout (R68). -/
def encMX (t : BitVec 3) (beat pa b lw la : Nat) : Nat :=
  t.toNat * 2 ^ 14 + beat * 2 ^ 11 + pa * 2 ^ 7 + b * 2 ^ 5 + lw * 2 ^ 3 + la

/-- E layout (R69). -/
def encE (t : BitVec 3) (op arg : Nat) : Nat := t.toNat * 2 ^ 9 + op * 2 ^ 5 + arg

/-- Cellar layout: opcode and the three 3-bit fields at the top, then the rest (R299). -/
def encCe (op a b c rest : Nat) : Nat := op * 2 ^ 27 + a * 2 ^ 24 + b * 2 ^ 21 + c * 2 ^ 18 + rest

/-- The slot word or cellar word of an instruction; an event of the machine has none. -/
def encode (i : Instr) : Option Nat :=
  match i with
  | .nop _ => some 0
  | .memNop _ => some 0
  | .prep b disp => some (1 * 2 ^ 15 + b.toNat * 2 ^ 12 + disp.toNat)
  | .prepr b s => some (2 * 2 ^ 15 + b.toNat * 2 ^ 12 + s.toNat * 2 ^ 7)
  | .xfer bt n1 pb pol => some (3 * 2 ^ 15 + bt.toNat * 2 ^ 12 + n1.toNat * 2 ^ 10 + pb.toNat * 2 ^ 6 + pol.toNat * 2 ^ 2)
  | .go b => some (4 * 2 ^ 15 + b.toNat * 2 ^ 12)
  | .loop lvl s => some (5 * 2 ^ 15 + lvl.toNat * 2 ^ 13 + s.toNat * 2 ^ 8)
  | .ldelta lvl a s => some (6 * 2 ^ 15 + lvl.toNat * 2 ^ 13 + a.toNat * 2 ^ 9 + s.toNat * 2 ^ 4)
  | .ldk k s half => some (7 * 2 ^ 15 + k.toNat * 2 ^ 12 + s.toNat * 2 ^ 7 + half.toNat * 2 ^ 6)
  | .waitBarrier b => some (8 * 2 ^ 15 + 0 * 2 ^ 12 + b.toNat * 2 ^ 7)
  | .waitQueue q => some (8 * 2 ^ 15 + 1 * 2 ^ 12 + q.toNat * 2 ^ 7)
  | .waitTick s => some (8 * 2 ^ 15 + 2 * 2 ^ 12 + s.toNat * 2 ^ 7)
  | .waitEngine c => some (8 * 2 ^ 15 + 3 * 2 ^ 12 + c.toNat * 2 ^ 7)
  | .budr d => some (9 * 2 ^ 15 + d.idx.toNat * 2 ^ 11 + d.copy.toNat * 2 ^ 8)
  | .trap code => some (10 * 2 ^ 15 + code.toNat)
  | .halt => some (11 * 2 ^ 15)
  | .tmark s => some (12 * 2 ^ 15 + 0 * 2 ^ 10 + s.toNat * 2 ^ 5)
  | .hsig s => some (12 * 2 ^ 15 + 1 * 2 ^ 10 + s.toNat * 2 ^ 5)
  | .add _ t d a b => some (enc3 1 t d a b)
  | .sub _ t d a b => some (enc3 2 t d a b)
  | .and _ t d a b => some (enc3 3 t d a b)
  | .or _ t d a b => some (enc3 4 t d a b)
  | .xor _ t d a b => some (enc3 5 t d a b)
  | .andn _ t d a b => some (enc3 6 t d a b)
  | .shl _ t d a b => some (enc3 7 t d a b)
  | .shr _ t d a b => some (enc3 8 t d a b)
  | .sar _ t d a b => some (enc3 9 t d a b)
  | .rol _ t d a b => some (enc3 10 t d a b)
  | .min _ t d a b => some (enc3 11 t d a b)
  | .max _ t d a b => some (enc3 12 t d a b)
  | .minu _ t d a b => some (enc3 13 t d a b)
  | .maxu _ t d a b => some (enc3 14 t d a b)
  | .mul _ t d a b => some (enc3 15 t d a b)
  | .mulh _ t d a b => some (enc3 16 t d a b)
  | .mulhu _ t d a b => some (enc3 17 t d a b)
  | .sext _ t d a b => some (enc3 21 t d a b)
  | .zext _ t d a b => some (enc3 22 t d a b)
  | .cat7 _ t d a b => some (enc3 23 t d a b)
  | .clz _ t d a => some (enc3 18 t d a 0)
  | .ctz _ t d a => some (enc3 19 t d a 0)
  | .pcnt _ t d a => some (enc3 20 t d a 0)
  | .cmp _ t p c a b => some (enc3 24 t ⟨p, c⟩ a b)
  | .cmpa _ t p c a b => some (enc3 25 t ⟨p, c⟩ a b)
  | .cmpo _ t p c a b => some (enc3 26 t ⟨p, c⟩ a b)
  | .prd _ t d => some (enc3 27 t d 0 0)
  | .pwr _ t a => some (enc3 28 t ⟨0, 0⟩ a 0)
  | .xadd t d a b => some (enc3 1 t d a b)
  | .xsub t d a b => some (enc3 2 t d a b)
  | .xshl t d a b => some (enc3 3 t d a b)
  | .xshr t d a b => some (enc3 4 t d a b)
  | .xand t d a b => some (enc3 5 t d a b)
  | .cadv t d a b => some (enc3 7 t d a b)
  | .cadvp t d a b => some (enc3 8 t d a b)
  | .xlea t d a b => some (enc3 10 t d a b)
  | .xmin t d a b => some (enc3 11 t d a b)
  | .xmax t d a b => some (enc3 12 t d a b)
  | .xpcnt t d a => some (enc3 6 t d a 0)
  | .aqp t a b => some (enc3 9 t ⟨0, 0⟩ a b)
  | .aqfree t d => some (enc3 13 t d 0 0)
  | .vadd _ f => some (encV 1 f)
  | .vsub _ f => some (encV 2 f)
  | .vmul _ f => some (encV 3 f)
  | .vfma _ f => some (encV 4 f)
  | .vmin _ f => some (encV 5 f)
  | .vmax _ f => some (encV 6 f)
  | .vexp2 _ f => some (encV 7 f)
  | .vrsqrt _ f => some (encV 8 f)
  | .vrecip _ f => some (encV 9 f)
  | .vcvt _ f => some (encV 10 f)
  | .vcmp _ f => some (encV 11 f)
  | .vsel _ f => some (encV 12 f)
  | .vrot _ f => some (encV 13 f)
  | .vshuf _ f => some (encV 14 f)
  | .vscan _ f => some (encV 15 f)
  | .vscanx _ f => some (encV 16 f)
  | .vred _ f => some (encV 17 f)
  | .vredx _ f => some (encV 18 f)
  | .vredn _ f => some (encV 19 f)
  | .vcx _ f => some (encV 20 f)
  | .vclmul _ f => some (encV 21 f)
  | .vpcnt _ f => some (encV 22 f)
  | .vand _ f => some (encV 23 f)
  | .vor _ f => some (encV 24 f)
  | .vxor _ f => some (encV 25 f)
  | .vshl _ f => some (encV 26 f)
  | .vshr _ f => some (encV 27 f)
  | .vbc _ f => some (encV 28 f)
  | .vabs _ f => some (encV 29 f)
  | .vneg _ f => some (encV 30 f)
  | .lsh t lw la => some (encMX t 1 0 0 lw.toNat la.toNat)
  | .acc t b => some (encMX t 2 0 b.toNat 0 0)
  | .acl t b lw la => some (encMX t 3 0 b.toNat lw.toNat la.toNat)
  | .psh t pa => some (encMX t 4 pa.toNat 0 0 0)
  | .psl t pa lw la => some (encMX t 5 pa.toNat 0 lw.toNat la.toNat)
  | .pac t pa b => some (encMX t 6 pa.toNat b.toNat 0 0)
  | .pal t pa b lw la => some (encMX t 7 pa.toNat b.toNat lw.toNat la.toNat)
  | .fmtw t s => some (encE t 1 s.toNat)
  | .fmtr t g => some (encE t 2 g.toNat)
  | .rmode t m => some (encE t 3 m.toNat)
  | .afmt t ty => some (encE t 4 ty.toNat)
  | .bfmt t ty => some (encE t 5 ty.toNat)
  | .scal t v => some (encE t 6 v.toNat)
  | .fclr t m => some (encE t 7 m.toNat)
  | .gpsh t e => some (encE t 8 e.toNat)
  | .glat t e => some (encE t 9 e.toNat)
  | .gsr t e => some (encE t 10 e.toNat)
  | .eSub t a => some (encE t 11 a.toNat)
  | .ldI8 _ t d a o => some (encMD 1 t d a o)
  | .ldN8 _ t d a o => some (encMD 2 t d a o)
  | .ldI16 _ t d a o => some (encMD 3 t d a o)
  | .ldN16 _ t d a o => some (encMD 4 t d a o)
  | .ldI32 _ t d a o => some (encMD 5 t d a o)
  | .ldN32 _ t d a o => some (encMD 6 t d a o)
  | .ldI64 _ t d a o => some (encMD 7 t d a o)
  | .st8 _ t x a o => some (encMV 8 t 0 x a o)
  | .st16 _ t x a o => some (encMV 9 t 0 x a o)
  | .st32 _ t x a o => some (encMV 10 t 0 x a o)
  | .st64 _ t x a o => some (encMV 11 t 0 x a o)
  | .vld _ t w v a o => some (encMV 12 t w.toNat v a o)
  | .vst _ t w v a o => some (encMV 13 t w.toNat v a o)
  | .ldTc _ t d a s => some (encMD 14 t d a s)
  | .vldTc _ t w v a s => some (encMV 15 t w.toNat v a s)
  | .ldNb _ t d a s => some (encMD 16 t d a s)
  | .vldNb _ t w v a s => some (encMV 17 t w.toNat v a s)
  | .stVa _ t x a s => some (encMV 18 t 0 x a s)
  | .vstVa _ t w v a s => some (encMV 19 t w.toNat v a s)
  | .amoAdd _ t d a s => some (encMD 20 t d a s)
  | .amoAnd _ t d a s => some (encMD 21 t d a s)
  | .amoOr _ t d a s => some (encMD 22 t d a s)
  | .amoMax _ t d a s => some (encMD 23 t d a s)
  | .amoSwp _ t d a s => some (encMD 24 t d a s)
  | .fence _ t sc or m => some (t.toNat * 2 ^ 21 + 25 * 2 ^ 16 + sc.toNat * 2 ^ 13 + or.toNat * 2 ^ 11 + m.toNat * 2 ^ 4)
  | .arrive _ t b => some (t.toNat * 2 ^ 21 + 26 * 2 ^ 16 + b.toNat)
  | .signal _ t m b => some (t.toNat * 2 ^ 21 + 27 * 2 ^ 16 + m.toNat * 2 ^ 9 + b.toNat)
  | .signalDrain _ t m b => some (t.toNat * 2 ^ 21 + 27 * 2 ^ 16 + m.toNat * 2 ^ 9 + 2 ^ 8 + b.toNat)
  | .drain t b ty z a o => some (t.toNat * 2 ^ 21 + 28 * 2 ^ 16 + b.toNat * 2 ^ 14 + ty.toNat * 2 ^ 10 + z.toNat * 2 ^ 9
      + a.toNat * 2 ^ 5 + o.toNat)
  | .lda _ t n s => some (t.toNat * 2 ^ 21 + 29 * 2 ^ 16 + n.toNat * 2 ^ 9 + s.toNat)
  | .rda _ t d a => some (encMD 30 t d a 0)
  | .ceNop n => some (encCe 0 0 0 0 n.toNat)
  | .ceJset d imm => some (1 * 2 ^ 27 + d.toNat * 2 ^ 24 + imm.toNat)
  | .ceJadd d a imm => some (2 * 2 ^ 27 + d.toNat * 2 ^ 24 + a.toNat * 2 ^ 21 + imm.toNat)
  | .ceBnz d target => some (encCe 3 d.toNat 0 0 target.toNat)
  | .ceWait a => some (encCe 4 a.toNat 0 0 0)
  | .ceCfmt wty aty ecc => some (encCe 5 0 0 0 (ecc.toNat * 2 ^ 4 + aty.toNat * 2 ^ 2 + wty.toNat))
  | .ceAld b a => some (encCe 6 b.toNat a.toNat 0 0)
  | .ceClr m => some (encCe 7 0 0 0 m.toNat)
  | .ceWdot a b s1 e => some (encCe 8 a.toNat b.toNat s1.toNat (e.toNat * 2 ^ 12))
  | .ceWdotAdd a b s1 e => some (encCe 8 a.toNat b.toNat s1.toNat (e.toNat * 2 ^ 12 + 2 ^ 11))
  | .cePsc a b c e w => some (encCe 9 a.toNat b.toNat c.toNat (e.toNat * 2 ^ 12 + w.toNat * 2 ^ 10))
  | .ceScl a m => some (encCe 10 a.toNat 0 0 m.toNat)
  | .cePtop c k1 d f => some (11 * 2 ^ 27 + c.toNat * 2 ^ 24 + k1.toNat * 2 ^ 18 + d.toNat * 2 ^ 15 + f.toNat * 2 ^ 12)
  | .ceOut c f ty z => some (encCe 12 c.toNat f.toNat ty.toNat (z.toNat * 2 ^ 17))
  | .ceEnd => some (encCe 13 0 0 0 0)
  | .issueWord _ _ => none
  | .resultLanding _ _ => none
  | .arrayRowExit _ => none
  | .drainingBranch _ _ => none
  | .waitMet _ _ => none
  | .waccWrap _ _ => none
  | .budgetTrap _ _ => none
  | .gatherRead _ _ => none
  | .gatherDeliver _ _ => none
  | .timedWrite _ => none
  | .fenceRelease _ _ => none
  | .signalRelease _ _ => none
  | .hcwEntryWrite _ => none
  | .barrWrite _ => none
  | .releaseWordWrite _ => none
  | .registerWrite _ _ _ _ => none
  | .barrierComplete _ _ => none
  | .barrierMirrorFlip _ _ => none
  | .messageSend _ _ => none
  | .messageDeliver _ _ => none
  | .copyCommand _ => none
  | .gatherCommand _ => none
  | .circuitEvaluate _ => none
  | .parameterUpdate _ => none
  | .collectiveCommand _ => none
  | .cellarLaunch _ => none
  | .engineCommandEnd _ => none
  | .pageFetch _ => none
  | .refresh _ _ _ => none
  | .refreshManagement _ _ _ => none
  | .hostWindow _ _ _ => none
  | .debtInterval _ _ _ => none
  | .forcedRefresh _ _ _ => none
  | .disturbReport _ _ _ _ _ => none
  | .hostMemWrite _ _ => none
  | .hostMemRead _ => none
  | .packetClose _ _ _ => none
  | .streamNextPacket _ => none
  | .launch _ => none
  | .waitForTick _ => none
  | .signalHost _ => none
  | .loadCode _ => none
  | .loadCircuitObject _ => none
  | .loadTimeline _ => none
  | .endStream _ => none
  | .scfgWrite _ _ => none
  | .sstatWrite _ _ => none
  | .admission => none
  | .launchRefuseLate _ => none
  | .launchStart _ => none
  | .bankGrant _ => none
  | .haltBankRelease _ _ => none
  | .contextRelease _ _ => none
  | .scrubEnd _ => none
  | .preemption _ => none
  | .restore _ _ => none
  | .faultStop _ _ => none
  | .serviceEnd _ _ => none
  | .gangConfirm _ _ => none
  | .gangAbort _ _ => none
  | .cexmWrite _ => none
  | .plimWrite _ => none
  | .tsetWrite _ => none
  | .denWrite _ => none
  | .syncSend => none
  | .syncReceive _ _ _ _ => none
  | .coarseSet => none
  | .stepChange => none
  | .thermalTrip => none
  | .governorWindow _ _ => none
  | .linkFlitReceive _ _ _ => none
  | .boot => none
  | .rollbackRaise _ _ => none
  | .attestationRequest _ => none
  | .retireCore _ _ => none
  | .retireCluster _ _ => none
  | .retireChannel _ _ => none
  | .spareARow _ _ => none
  | .retireALinkLane _ _ => none
  | .updatePupol _ _ => none
  | .updateCellarMicrocode _ _ => none
  | .retrainAPort _ _ => none
  | .copyATraceRing _ _ => none
  | .serviceQuietTick => none
  | .serviceOperationDone => none
  | .dramPatrolScrub _ _ => none
  | .packetWordWrite _ _ _ _ _ => none
  | .syncNotReceived => none
  | .temperatureClassChange _ _ _ => none
  | .gangConfirmationDeadline _ => none
  | .deviceWriteCompletion => none
  | .thermalTripEnd => none

/-- The slot an instruction belongs to; cellar words and events belong to none. -/
def slotOf (i : Instr) : Option SlotName :=
  match i with
  | .nop u => some u
  | .memNop u => some (match u with | .ma => .ma | .mb => .mb)
  | .prep _ _ => some .c
  | .prepr _ _ => some .c
  | .xfer _ _ _ _ => some .c
  | .go _ => some .c
  | .loop _ _ => some .c
  | .ldelta _ _ _ => some .c
  | .ldk _ _ _ => some .c
  | .waitBarrier _ => some .c
  | .waitQueue _ => some .c
  | .waitTick _ => some .c
  | .waitEngine _ => some .c
  | .budr _ => some .c
  | .trap _ => some .c
  | .halt => some .c
  | .tmark _ => some .c
  | .hsig _ => some .c
  | .add u _ _ _ _ => some (match u with | .sa => .sa | .sb => .sb)
  | .sub u _ _ _ _ => some (match u with | .sa => .sa | .sb => .sb)
  | .and u _ _ _ _ => some (match u with | .sa => .sa | .sb => .sb)
  | .or u _ _ _ _ => some (match u with | .sa => .sa | .sb => .sb)
  | .xor u _ _ _ _ => some (match u with | .sa => .sa | .sb => .sb)
  | .andn u _ _ _ _ => some (match u with | .sa => .sa | .sb => .sb)
  | .shl u _ _ _ _ => some (match u with | .sa => .sa | .sb => .sb)
  | .shr u _ _ _ _ => some (match u with | .sa => .sa | .sb => .sb)
  | .sar u _ _ _ _ => some (match u with | .sa => .sa | .sb => .sb)
  | .rol u _ _ _ _ => some (match u with | .sa => .sa | .sb => .sb)
  | .min u _ _ _ _ => some (match u with | .sa => .sa | .sb => .sb)
  | .max u _ _ _ _ => some (match u with | .sa => .sa | .sb => .sb)
  | .minu u _ _ _ _ => some (match u with | .sa => .sa | .sb => .sb)
  | .maxu u _ _ _ _ => some (match u with | .sa => .sa | .sb => .sb)
  | .mul u _ _ _ _ => some (match u with | .sa => .sa | .sb => .sb)
  | .mulh u _ _ _ _ => some (match u with | .sa => .sa | .sb => .sb)
  | .mulhu u _ _ _ _ => some (match u with | .sa => .sa | .sb => .sb)
  | .clz u _ _ _ => some (match u with | .sa => .sa | .sb => .sb)
  | .ctz u _ _ _ => some (match u with | .sa => .sa | .sb => .sb)
  | .pcnt u _ _ _ => some (match u with | .sa => .sa | .sb => .sb)
  | .sext u _ _ _ _ => some (match u with | .sa => .sa | .sb => .sb)
  | .zext u _ _ _ _ => some (match u with | .sa => .sa | .sb => .sb)
  | .cat7 u _ _ _ _ => some (match u with | .sa => .sa | .sb => .sb)
  | .cmp u _ _ _ _ _ => some (match u with | .sa => .sa | .sb => .sb)
  | .cmpa u _ _ _ _ _ => some (match u with | .sa => .sa | .sb => .sb)
  | .cmpo u _ _ _ _ _ => some (match u with | .sa => .sa | .sb => .sb)
  | .prd u _ _ => some (match u with | .sa => .sa | .sb => .sb)
  | .pwr u _ _ => some (match u with | .sa => .sa | .sb => .sb)
  | .xadd _ _ _ _ => some .x
  | .xsub _ _ _ _ => some .x
  | .xshl _ _ _ _ => some .x
  | .xshr _ _ _ _ => some .x
  | .xand _ _ _ _ => some .x
  | .cadv _ _ _ _ => some .x
  | .cadvp _ _ _ _ => some .x
  | .xlea _ _ _ _ => some .x
  | .xmin _ _ _ _ => some .x
  | .xmax _ _ _ _ => some .x
  | .xpcnt _ _ _ => some .x
  | .aqp _ _ _ => some .x
  | .aqfree _ _ => some .x
  | .vadd u _ => some (match u with | .va => .va | .vb => .vb)
  | .vsub u _ => some (match u with | .va => .va | .vb => .vb)
  | .vmul u _ => some (match u with | .va => .va | .vb => .vb)
  | .vfma u _ => some (match u with | .va => .va | .vb => .vb)
  | .vmin u _ => some (match u with | .va => .va | .vb => .vb)
  | .vmax u _ => some (match u with | .va => .va | .vb => .vb)
  | .vexp2 u _ => some (match u with | .va => .va | .vb => .vb)
  | .vrsqrt u _ => some (match u with | .va => .va | .vb => .vb)
  | .vrecip u _ => some (match u with | .va => .va | .vb => .vb)
  | .vcvt u _ => some (match u with | .va => .va | .vb => .vb)
  | .vcmp u _ => some (match u with | .va => .va | .vb => .vb)
  | .vsel u _ => some (match u with | .va => .va | .vb => .vb)
  | .vrot u _ => some (match u with | .va => .va | .vb => .vb)
  | .vshuf u _ => some (match u with | .va => .va | .vb => .vb)
  | .vscan u _ => some (match u with | .va => .va | .vb => .vb)
  | .vscanx u _ => some (match u with | .va => .va | .vb => .vb)
  | .vred u _ => some (match u with | .va => .va | .vb => .vb)
  | .vredx u _ => some (match u with | .va => .va | .vb => .vb)
  | .vredn u _ => some (match u with | .va => .va | .vb => .vb)
  | .vcx u _ => some (match u with | .va => .va | .vb => .vb)
  | .vclmul u _ => some (match u with | .va => .va | .vb => .vb)
  | .vpcnt u _ => some (match u with | .va => .va | .vb => .vb)
  | .vand u _ => some (match u with | .va => .va | .vb => .vb)
  | .vor u _ => some (match u with | .va => .va | .vb => .vb)
  | .vxor u _ => some (match u with | .va => .va | .vb => .vb)
  | .vshl u _ => some (match u with | .va => .va | .vb => .vb)
  | .vshr u _ => some (match u with | .va => .va | .vb => .vb)
  | .vbc u _ => some (match u with | .va => .va | .vb => .vb)
  | .vabs u _ => some (match u with | .va => .va | .vb => .vb)
  | .vneg u _ => some (match u with | .va => .va | .vb => .vb)
  | .lsh _ _ _ => some .mx
  | .acc _ _ => some .mx
  | .acl _ _ _ _ => some .mx
  | .psh _ _ => some .mx
  | .psl _ _ _ _ => some .mx
  | .pac _ _ _ => some .mx
  | .pal _ _ _ _ _ => some .mx
  | .fmtw _ _ => some .e
  | .fmtr _ _ => some .e
  | .rmode _ _ => some .e
  | .afmt _ _ => some .e
  | .bfmt _ _ => some .e
  | .scal _ _ => some .e
  | .fclr _ _ => some .e
  | .gpsh _ _ => some .e
  | .glat _ _ => some .e
  | .gsr _ _ => some .e
  | .eSub _ _ => some .e
  | .ldI8 u _ _ _ _ => some (match u with | .ma => .ma | .mb => .mb)
  | .ldN8 u _ _ _ _ => some (match u with | .ma => .ma | .mb => .mb)
  | .ldI16 u _ _ _ _ => some (match u with | .ma => .ma | .mb => .mb)
  | .ldN16 u _ _ _ _ => some (match u with | .ma => .ma | .mb => .mb)
  | .ldI32 u _ _ _ _ => some (match u with | .ma => .ma | .mb => .mb)
  | .ldN32 u _ _ _ _ => some (match u with | .ma => .ma | .mb => .mb)
  | .ldI64 u _ _ _ _ => some (match u with | .ma => .ma | .mb => .mb)
  | .st8 u _ _ _ _ => some (match u with | .ma => .ma | .mb => .mb)
  | .st16 u _ _ _ _ => some (match u with | .ma => .ma | .mb => .mb)
  | .st32 u _ _ _ _ => some (match u with | .ma => .ma | .mb => .mb)
  | .st64 u _ _ _ _ => some (match u with | .ma => .ma | .mb => .mb)
  | .vld u _ _ _ _ _ => some (match u with | .ma => .ma | .mb => .mb)
  | .vst u _ _ _ _ _ => some (match u with | .ma => .ma | .mb => .mb)
  | .ldTc u _ _ _ _ => some (match u with | .ma => .ma | .mb => .mb)
  | .vldTc u _ _ _ _ _ => some (match u with | .ma => .ma | .mb => .mb)
  | .ldNb u _ _ _ _ => some (match u with | .ma => .ma | .mb => .mb)
  | .vldNb u _ _ _ _ _ => some (match u with | .ma => .ma | .mb => .mb)
  | .stVa u _ _ _ _ => some (match u with | .ma => .ma | .mb => .mb)
  | .vstVa u _ _ _ _ _ => some (match u with | .ma => .ma | .mb => .mb)
  | .amoAdd u _ _ _ _ => some (match u with | .ma => .ma | .mb => .mb)
  | .amoAnd u _ _ _ _ => some (match u with | .ma => .ma | .mb => .mb)
  | .amoOr u _ _ _ _ => some (match u with | .ma => .ma | .mb => .mb)
  | .amoMax u _ _ _ _ => some (match u with | .ma => .ma | .mb => .mb)
  | .amoSwp u _ _ _ _ => some (match u with | .ma => .ma | .mb => .mb)
  | .fence u _ _ _ _ => some (match u with | .ma => .ma | .mb => .mb)
  | .arrive u _ _ => some (match u with | .ma => .ma | .mb => .mb)
  | .signal u _ _ _ => some (match u with | .ma => .ma | .mb => .mb)
  | .signalDrain u _ _ _ => some (match u with | .ma => .ma | .mb => .mb)
  | .lda u _ _ _ => some (match u with | .ma => .ma | .mb => .mb)
  | .rda u _ _ _ => some (match u with | .ma => .ma | .mb => .mb)
  | .drain _ _ _ _ _ _ => some .mb
  | .ceNop _ => none
  | .ceJset _ _ => none
  | .ceJadd _ _ _ => none
  | .ceBnz _ _ => none
  | .ceWait _ => none
  | .ceCfmt _ _ _ => none
  | .ceAld _ _ => none
  | .ceClr _ => none
  | .ceWdot _ _ _ _ => none
  | .ceWdotAdd _ _ _ _ => none
  | .cePsc _ _ _ _ _ => none
  | .ceScl _ _ => none
  | .cePtop _ _ _ _ => none
  | .ceOut _ _ _ _ => none
  | .ceEnd => none
  | .issueWord _ _ => none
  | .resultLanding _ _ => none
  | .arrayRowExit _ => none
  | .drainingBranch _ _ => none
  | .waitMet _ _ => none
  | .waccWrap _ _ => none
  | .budgetTrap _ _ => none
  | .gatherRead _ _ => none
  | .gatherDeliver _ _ => none
  | .timedWrite _ => none
  | .fenceRelease _ _ => none
  | .signalRelease _ _ => none
  | .hcwEntryWrite _ => none
  | .barrWrite _ => none
  | .releaseWordWrite _ => none
  | .registerWrite _ _ _ _ => none
  | .barrierComplete _ _ => none
  | .barrierMirrorFlip _ _ => none
  | .messageSend _ _ => none
  | .messageDeliver _ _ => none
  | .copyCommand _ => none
  | .gatherCommand _ => none
  | .circuitEvaluate _ => none
  | .parameterUpdate _ => none
  | .collectiveCommand _ => none
  | .cellarLaunch _ => none
  | .engineCommandEnd _ => none
  | .pageFetch _ => none
  | .refresh _ _ _ => none
  | .refreshManagement _ _ _ => none
  | .hostWindow _ _ _ => none
  | .debtInterval _ _ _ => none
  | .forcedRefresh _ _ _ => none
  | .disturbReport _ _ _ _ _ => none
  | .hostMemWrite _ _ => none
  | .hostMemRead _ => none
  | .packetClose _ _ _ => none
  | .streamNextPacket _ => none
  | .launch _ => none
  | .waitForTick _ => none
  | .signalHost _ => none
  | .loadCode _ => none
  | .loadCircuitObject _ => none
  | .loadTimeline _ => none
  | .endStream _ => none
  | .scfgWrite _ _ => none
  | .sstatWrite _ _ => none
  | .admission => none
  | .launchRefuseLate _ => none
  | .launchStart _ => none
  | .bankGrant _ => none
  | .haltBankRelease _ _ => none
  | .contextRelease _ _ => none
  | .scrubEnd _ => none
  | .preemption _ => none
  | .restore _ _ => none
  | .faultStop _ _ => none
  | .serviceEnd _ _ => none
  | .gangConfirm _ _ => none
  | .gangAbort _ _ => none
  | .cexmWrite _ => none
  | .plimWrite _ => none
  | .tsetWrite _ => none
  | .denWrite _ => none
  | .syncSend => none
  | .syncReceive _ _ _ _ => none
  | .coarseSet => none
  | .stepChange => none
  | .thermalTrip => none
  | .governorWindow _ _ => none
  | .linkFlitReceive _ _ _ => none
  | .boot => none
  | .rollbackRaise _ _ => none
  | .attestationRequest _ => none
  | .retireCore _ _ => none
  | .retireCluster _ _ => none
  | .retireChannel _ _ => none
  | .spareARow _ _ => none
  | .retireALinkLane _ _ => none
  | .updatePupol _ _ => none
  | .updateCellarMicrocode _ _ => none
  | .retrainAPort _ _ => none
  | .copyATraceRing _ _ => none
  | .serviceQuietTick => none
  | .serviceOperationDone => none
  | .dramPatrolScrub _ _ => none
  | .packetWordWrite _ _ _ _ _ => none
  | .syncNotReceived => none
  | .temperatureClassChange _ _ _ => none
  | .gangConfirmationDeadline _ => none
  | .deviceWriteCompletion => none
  | .thermalTripEnd => none

/-- Whether an instruction is a cellar word (R299): it has an encoding and no slot. -/
def isCellar (i : Instr) : Bool := (slotOf i).isNone && (encode i).isSome

/-- Decoding an instruction's word in the place it belongs to. -/
def decodeFor (i : Instr) (w : Nat) : Option Instr :=
  match slotOf i with
  | some s => toOpt (decodeSlot s w)
  | none => if isCellar i then toOpt (decodeCellar w) else none

/-! The entry (R54, R55). -/

/-- A slot's bits in an entry (R54). -/
def slotBits (e : Entry) (s : SlotName) : Nat :=
  let w := e.toNat
  match s with
  | .c => bitsAt w 222 22
  | .sa => bitsAt w 197 25
  | .sb => bitsAt w 172 25
  | .ma => bitsAt w 148 24
  | .mb => bitsAt w 124 24
  | .x => bitsAt w 99 25
  | .va => bitsAt w 64 35
  | .vb => bitsAt w 29 35
  | .mx => bitsAt w 12 17
  | .e => bitsAt w 0 12

/-- The low bit of a slot in an entry (R54). -/
def slotLow (s : SlotName) : Nat :=
  match s with
  | .c => 222 | .sa => 197 | .sb => 172 | .ma => 148 | .mb => 124
  | .x => 99 | .va => 64 | .vb => 29 | .mx => 12 | .e => 0

/-- The header fields (R55). -/
def hdrDrain (e : Entry) : Bool := bitAt e.toNat 255
def hdrLend (e : Entry) : Nat := bitsAt e.toNat 252 3
def hdrPop (e : Entry) : BitVec 4 := bv 4 e.toNat 248
def hdrLroute (e : Entry) : Nat := bitsAt e.toNat 244 4

/-- The slots in the order a step runs them. -/
def allSlots : List SlotName := [.c, .sa, .sb, .ma, .mb, .x, .va, .vb, .mx, .e]

/-- The literal route code of a slot (R55). -/
def routeCode (s : SlotName) : Nat :=
  match s with
  | .c => 1 | .sa => 2 | .sb => 3 | .ma => 4 | .mb => 5
  | .x => 6 | .va => 7 | .vb => 8 | .mx => 9 | .e => 10

/-- The path tag of an instruction (R25); the control slot's is 0 (R57). -/
def tagOf (i : Instr) : BitVec 3 :=
  match i with
  | .add _ t _ _ _ => t
  | .sub _ t _ _ _ => t
  | .and _ t _ _ _ => t
  | .or _ t _ _ _ => t
  | .xor _ t _ _ _ => t
  | .andn _ t _ _ _ => t
  | .shl _ t _ _ _ => t
  | .shr _ t _ _ _ => t
  | .sar _ t _ _ _ => t
  | .rol _ t _ _ _ => t
  | .min _ t _ _ _ => t
  | .max _ t _ _ _ => t
  | .minu _ t _ _ _ => t
  | .maxu _ t _ _ _ => t
  | .mul _ t _ _ _ => t
  | .mulh _ t _ _ _ => t
  | .mulhu _ t _ _ _ => t
  | .clz _ t _ _ => t
  | .ctz _ t _ _ => t
  | .pcnt _ t _ _ => t
  | .sext _ t _ _ _ => t
  | .zext _ t _ _ _ => t
  | .cat7 _ t _ _ _ => t
  | .cmp _ t _ _ _ _ => t
  | .cmpa _ t _ _ _ _ => t
  | .cmpo _ t _ _ _ _ => t
  | .prd _ t _ => t
  | .pwr _ t _ => t
  | .xadd t _ _ _ => t
  | .xsub t _ _ _ => t
  | .xshl t _ _ _ => t
  | .xshr t _ _ _ => t
  | .xand t _ _ _ => t
  | .cadv t _ _ _ => t
  | .cadvp t _ _ _ => t
  | .xlea t _ _ _ => t
  | .xmin t _ _ _ => t
  | .xmax t _ _ _ => t
  | .xpcnt t _ _ => t
  | .aqp t _ _ => t
  | .aqfree t _ => t
  | .lsh t _ _ => t
  | .acc t _ => t
  | .acl t _ _ _ => t
  | .psh t _ => t
  | .psl t _ _ _ => t
  | .pac t _ _ => t
  | .pal t _ _ _ _ => t
  | .fmtw t _ => t
  | .fmtr t _ => t
  | .rmode t _ => t
  | .afmt t _ => t
  | .bfmt t _ => t
  | .scal t _ => t
  | .fclr t _ => t
  | .gpsh t _ => t
  | .glat t _ => t
  | .gsr t _ => t
  | .eSub t _ => t
  | .ldI8 _ t _ _ _ => t
  | .ldN8 _ t _ _ _ => t
  | .ldI16 _ t _ _ _ => t
  | .ldN16 _ t _ _ _ => t
  | .ldI32 _ t _ _ _ => t
  | .ldN32 _ t _ _ _ => t
  | .ldI64 _ t _ _ _ => t
  | .st8 _ t _ _ _ => t
  | .st16 _ t _ _ _ => t
  | .st32 _ t _ _ _ => t
  | .st64 _ t _ _ _ => t
  | .vld _ t _ _ _ _ => t
  | .vst _ t _ _ _ _ => t
  | .ldTc _ t _ _ _ => t
  | .vldTc _ t _ _ _ _ => t
  | .ldNb _ t _ _ _ => t
  | .vldNb _ t _ _ _ _ => t
  | .stVa _ t _ _ _ => t
  | .vstVa _ t _ _ _ _ => t
  | .amoAdd _ t _ _ _ => t
  | .amoAnd _ t _ _ _ => t
  | .amoOr _ t _ _ _ => t
  | .amoMax _ t _ _ _ => t
  | .amoSwp _ t _ _ _ => t
  | .fence _ t _ _ _ => t
  | .arrive _ t _ => t
  | .signal _ t _ _ => t
  | .signalDrain _ t _ _ => t
  | .lda _ t _ _ => t
  | .rda _ t _ _ => t
  | .drain t _ _ _ _ _ => t
  | .vadd _ f => f.tag
  | .vsub _ f => f.tag
  | .vmul _ f => f.tag
  | .vfma _ f => f.tag
  | .vmin _ f => f.tag
  | .vmax _ f => f.tag
  | .vexp2 _ f => f.tag
  | .vrsqrt _ f => f.tag
  | .vrecip _ f => f.tag
  | .vcvt _ f => f.tag
  | .vcmp _ f => f.tag
  | .vsel _ f => f.tag
  | .vrot _ f => f.tag
  | .vshuf _ f => f.tag
  | .vscan _ f => f.tag
  | .vscanx _ f => f.tag
  | .vred _ f => f.tag
  | .vredx _ f => f.tag
  | .vredn _ f => f.tag
  | .vcx _ f => f.tag
  | .vclmul _ f => f.tag
  | .vpcnt _ f => f.tag
  | .vand _ f => f.tag
  | .vor _ f => f.tag
  | .vxor _ f => f.tag
  | .vshl _ f => f.tag
  | .vshr _ f => f.tag
  | .vbc _ f => f.tag
  | .vabs _ f => f.tag
  | .vneg _ f => f.tag
  | _ => 0

/-- The selectors of R16 an instruction reads. -/
def selsOf (i : Instr) : List (BitVec 5) :=
  match i with
  | .prepr _ s => [s]
  | .loop _ s => [s]
  | .ldelta _ _ s => [s]
  | .ldk _ s _ => [s]
  | .waitTick s => [s]
  | .tmark s => [s]
  | .hsig s => [s]
  | .add _ _ _ a b => [a, b]
  | .sub _ _ _ a b => [a, b]
  | .and _ _ _ a b => [a, b]
  | .or _ _ _ a b => [a, b]
  | .xor _ _ _ a b => [a, b]
  | .andn _ _ _ a b => [a, b]
  | .shl _ _ _ a b => [a, b]
  | .shr _ _ _ a b => [a, b]
  | .sar _ _ _ a b => [a, b]
  | .rol _ _ _ a b => [a, b]
  | .min _ _ _ a b => [a, b]
  | .max _ _ _ a b => [a, b]
  | .minu _ _ _ a b => [a, b]
  | .maxu _ _ _ a b => [a, b]
  | .mul _ _ _ a b => [a, b]
  | .mulh _ _ _ a b => [a, b]
  | .mulhu _ _ _ a b => [a, b]
  | .sext _ _ _ a b => [a, b]
  | .zext _ _ _ a b => [a, b]
  | .cat7 _ _ _ a b => [a, b]
  | .clz _ _ _ a => [a]
  | .ctz _ _ _ a => [a]
  | .pcnt _ _ _ a => [a]
  | .cmp _ _ _ _ a b => [a, b]
  | .cmpa _ _ _ _ a b => [a, b]
  | .cmpo _ _ _ _ a b => [a, b]
  | .pwr _ _ a => [a]
  | .xadd _ _ a b => [a, b]
  | .xsub _ _ a b => [a, b]
  | .xshl _ _ a b => [a, b]
  | .xshr _ _ a b => [a, b]
  | .xand _ _ a b => [a, b]
  | .cadv _ _ a b => [a, b]
  | .cadvp _ _ a b => [a, b]
  | .xlea _ _ a b => [a, b]
  | .xmin _ _ a b => [a, b]
  | .xmax _ _ a b => [a, b]
  | .xpcnt _ _ a => [a]
  | .aqp _ a b => [a, b]
  | .fmtw _ s => [s]
  | .st8 _ _ x _ _ => [x]
  | .st16 _ _ x _ _ => [x]
  | .st32 _ _ x _ _ => [x]
  | .st64 _ _ x _ _ => [x]
  | .ldTc _ _ _ _ s => [s]
  | .ldNb _ _ _ _ s => [s]
  | .amoAdd _ _ _ _ s => [s]
  | .amoAnd _ _ _ _ s => [s]
  | .amoOr _ _ _ _ s => [s]
  | .amoMax _ _ _ _ s => [s]
  | .amoSwp _ _ _ _ s => [s]
  | .vldTc _ _ _ _ _ s => [s]
  | .vldNb _ _ _ _ _ s => [s]
  | .vstVa _ _ _ _ _ s => [s]
  | .stVa _ _ x _ s => [x, s]
  | .lda _ _ _ s => [s]
  | _ => []

/-- The five slices as bits: SA, SB, MA, MB, X from bit 0 (R272). -/
def sliceSA : BitVec 5 := 1
def sliceSB : BitVec 5 := 2
def sliceMA : BitVec 5 := 4
def sliceMB : BitVec 5 := 8
def sliceX : BitVec 5 := 16

/-- The slice a slot writes as its own; C has none (R20), E counts as SA (R69). -/
def ownSlice (s : SlotName) : BitVec 5 :=
  match s with
  | .sa | .e => sliceSA
  | .sb => sliceSB
  | .ma => sliceMA
  | .mb => sliceMB
  | .x => sliceX
  | _ => 0

/-- The slices a copy code names, the writing unit's own included (R20). -/
def copySlices (own : BitVec 5) (copy : BitVec 3) : BitVec 5 :=
  match copy.toNat with
  | 0 => own
  | 1 => own ||| sliceSA ||| sliceSB
  | 2 => own ||| sliceMA ||| sliceMB
  | 3 => own ||| sliceX
  | 4 => own ||| sliceSA ||| sliceSB ||| sliceMA ||| sliceMB
  | 5 => 31
  | 6 => 0
  | _ => own

/-- The unit of a last-result latch: SA, SB, MA, MB, X, C as 0 to 5 (R16); the vector, matrix slots have none. -/
def latchOf (s : SlotName) : Option Nat :=
  match s with
  | .sa | .e => some 0
  | .sb => some 1
  | .ma => some 2
  | .mb => some 3
  | .x => some 4
  | .c => some 5
  | _ => none

/-- The places of R72 where two slots of one entry may collide. -/
inductive Place where
  | slice (s i : Nat)
  | vs
  | v (i : Nat)
  | k (i : Nat)
  | p (i : Nat)
  | b (i : Nat)
  | a (i : Nat)
  | lc (n : Nat)
  | delta (n a : Nat)
  | fmt
  | latch (u : Nat)
  deriving DecidableEq, Repr

/-- The places a destination field names (R20). -/
def dstPlaces (s : SlotName) (d : Dst) : List Place :=
  ((List.range 5).filter (fun j => (copySlices (ownSlice s) d.copy).getLsbD j)).map (fun j => .slice j d.idx.toNat)
  ++ (if d.copy = 7 then [.vs] else [])
  ++ (match latchOf s with | some u => [.latch u] | none => [])

/-- The landing of a vector opcode (R65). -/
def vecLanding (op : Nat) (f : VecFields) : Nat :=
  match op with
  | 1 | 2 | 5 | 6 | 29 | 30 => if isF f.ty then 3 else 2
  | 3 => if isF f.ty then 5 else 2
  | 4 => 6
  | 7 | 8 | 9 => 9
  | 10 => 3
  | 15 | 16 | 17 | 18 | 19 => 7
  | 21 => 4
  | _ => 2

/-- The places a slot's instruction lands in, and the ticks at which it may land there (R72: a load both at 4 and at 9). A write to
K0, which has no effect (R28), lands in none (log entry 58). -/
def landsIn (i : Instr) : List Place × List Nat :=
  match i with
  | .prep b _ => ([.b b.toNat], [6])
  | .prepr b _ => ([.b b.toNat], [6])
  | .loop n _ => ([.lc n.toNat], [1])
  | .ldelta n a _ => ([.delta n.toNat a.toNat], [1])
  | .ldk k _ _ => ((if k = 0 then [] else [.k k.toNat]), [1])
  | .budr d => (dstPlaces .c d, [1])
  | .add u _ d _ _ => (dstPlaces (match u with | .sa => SlotName.sa | .sb => SlotName.sb) d, [1])
  | .sub u _ d _ _ => (dstPlaces (match u with | .sa => SlotName.sa | .sb => SlotName.sb) d, [1])
  | .and u _ d _ _ => (dstPlaces (match u with | .sa => SlotName.sa | .sb => SlotName.sb) d, [1])
  | .or u _ d _ _ => (dstPlaces (match u with | .sa => SlotName.sa | .sb => SlotName.sb) d, [1])
  | .xor u _ d _ _ => (dstPlaces (match u with | .sa => SlotName.sa | .sb => SlotName.sb) d, [1])
  | .andn u _ d _ _ => (dstPlaces (match u with | .sa => SlotName.sa | .sb => SlotName.sb) d, [1])
  | .shl u _ d _ _ => (dstPlaces (match u with | .sa => SlotName.sa | .sb => SlotName.sb) d, [1])
  | .shr u _ d _ _ => (dstPlaces (match u with | .sa => SlotName.sa | .sb => SlotName.sb) d, [1])
  | .sar u _ d _ _ => (dstPlaces (match u with | .sa => SlotName.sa | .sb => SlotName.sb) d, [1])
  | .rol u _ d _ _ => (dstPlaces (match u with | .sa => SlotName.sa | .sb => SlotName.sb) d, [1])
  | .min u _ d _ _ => (dstPlaces (match u with | .sa => SlotName.sa | .sb => SlotName.sb) d, [1])
  | .max u _ d _ _ => (dstPlaces (match u with | .sa => SlotName.sa | .sb => SlotName.sb) d, [1])
  | .minu u _ d _ _ => (dstPlaces (match u with | .sa => SlotName.sa | .sb => SlotName.sb) d, [1])
  | .maxu u _ d _ _ => (dstPlaces (match u with | .sa => SlotName.sa | .sb => SlotName.sb) d, [1])
  | .mul u _ d _ _ => (dstPlaces (match u with | .sa => SlotName.sa | .sb => SlotName.sb) d, [3])
  | .mulh u _ d _ _ => (dstPlaces (match u with | .sa => SlotName.sa | .sb => SlotName.sb) d, [3])
  | .mulhu u _ d _ _ => (dstPlaces (match u with | .sa => SlotName.sa | .sb => SlotName.sb) d, [3])
  | .clz u _ d _ => (dstPlaces (match u with | .sa => SlotName.sa | .sb => SlotName.sb) d, [1])
  | .ctz u _ d _ => (dstPlaces (match u with | .sa => SlotName.sa | .sb => SlotName.sb) d, [1])
  | .pcnt u _ d _ => (dstPlaces (match u with | .sa => SlotName.sa | .sb => SlotName.sb) d, [1])
  | .sext u _ d _ _ => (dstPlaces (match u with | .sa => SlotName.sa | .sb => SlotName.sb) d, [1])
  | .zext u _ d _ _ => (dstPlaces (match u with | .sa => SlotName.sa | .sb => SlotName.sb) d, [1])
  | .cat7 u _ d _ _ => (dstPlaces (match u with | .sa => SlotName.sa | .sb => SlotName.sb) d, [1])
  | .prd u _ d => (dstPlaces (match u with | .sa => SlotName.sa | .sb => SlotName.sb) d, [1])
  | .cmp _ _ p _ _ _ => ([.p p.toNat], [1])
  | .cmpa _ _ p _ _ _ => ([.p p.toNat], [1])
  | .cmpo _ _ p _ _ _ => ([.p p.toNat], [1])
  | .pwr _ _ _ => ((List.range 16).map .p, [1])
  | .xadd _ d _ _ => (dstPlaces .x d, [1])
  | .xsub _ d _ _ => (dstPlaces .x d, [1])
  | .xshl _ d _ _ => (dstPlaces .x d, [1])
  | .xshr _ d _ _ => (dstPlaces .x d, [1])
  | .xand _ d _ _ => (dstPlaces .x d, [1])
  | .cadv _ d _ _ => (dstPlaces .x d, [2])
  | .cadvp _ d _ _ => (dstPlaces .x d, [2])
  | .xlea _ d _ _ => (dstPlaces .x d, [1])
  | .xmin _ d _ _ => (dstPlaces .x d, [1])
  | .xmax _ d _ _ => (dstPlaces .x d, [1])
  | .xpcnt _ d _ => (dstPlaces .x d, [1])
  | .aqfree _ d => (dstPlaces .x d, [1])
  | .vadd _ f => ([.v f.vd.toNat], [vecLanding 1 f])
  | .vsub _ f => ([.v f.vd.toNat], [vecLanding 2 f])
  | .vmul _ f => ([.v f.vd.toNat], [vecLanding 3 f])
  | .vfma _ f => ([.v f.vd.toNat], [vecLanding 4 f])
  | .vmin _ f => ([.v f.vd.toNat], [vecLanding 5 f])
  | .vmax _ f => ([.v f.vd.toNat], [vecLanding 6 f])
  | .vexp2 _ f => ([.v f.vd.toNat], [vecLanding 7 f])
  | .vrsqrt _ f => ([.v f.vd.toNat], [vecLanding 8 f])
  | .vrecip _ f => ([.v f.vd.toNat], [vecLanding 9 f])
  | .vcvt _ f => ([.v f.vd.toNat], [vecLanding 10 f])
  | .vcmp _ f => ((if f.vd.toNat % 8 = 0 then [] else [.k (f.vd.toNat % 8)]), [2])
  | .vsel _ f => ([.v f.vd.toNat], [vecLanding 12 f])
  | .vrot _ f => ([.v f.vd.toNat], [vecLanding 13 f])
  | .vshuf _ f => ([.v f.vd.toNat], [vecLanding 14 f])
  | .vscan _ f => ([.v f.vd.toNat], [vecLanding 15 f])
  | .vscanx _ f => ([.v f.vd.toNat], [vecLanding 16 f])
  | .vred _ f => ([.v f.vd.toNat], [vecLanding 17 f])
  | .vredx _ f => ([.v f.vd.toNat], [vecLanding 18 f])
  | .vredn _ f => ([.v f.vd.toNat], [vecLanding 19 f])
  | .vcx _ f => ([.v f.vd.toNat], [vecLanding 20 f])
  | .vclmul _ f => ([.v f.vd.toNat], [vecLanding 21 f])
  | .vpcnt _ f => ([.v f.vd.toNat], [vecLanding 22 f])
  | .vand _ f => ([.v f.vd.toNat], [vecLanding 23 f])
  | .vor _ f => ([.v f.vd.toNat], [vecLanding 24 f])
  | .vxor _ f => ([.v f.vd.toNat], [vecLanding 25 f])
  | .vshl _ f => ([.v f.vd.toNat], [vecLanding 26 f])
  | .vshr _ f => ([.v f.vd.toNat], [vecLanding 27 f])
  | .vbc _ f => ([.v f.vd.toNat], [vecLanding 28 f])
  | .vabs _ f => ([.v f.vd.toNat], [vecLanding 29 f])
  | .vneg _ f => ([.v f.vd.toNat], [vecLanding 30 f])
  | .fmtw _ _ => ([.fmt], [4])
  | .fmtr _ g => ([.slice 0 g.toNat, .latch 0], [1])
  | .rmode _ _ => ([.fmt], [4])
  | .afmt _ _ => ([.fmt], [4])
  | .bfmt _ _ => ([.fmt], [4])
  | .scal _ _ => ([.fmt], [4])
  | .fclr _ _ => ([.fmt], [4])
  | .ldI8 u _ d _ _ => (dstPlaces (match u with | .ma => SlotName.ma | .mb => SlotName.mb) d, [4, 9])
  | .ldN8 u _ d _ _ => (dstPlaces (match u with | .ma => SlotName.ma | .mb => SlotName.mb) d, [4, 9])
  | .ldI16 u _ d _ _ => (dstPlaces (match u with | .ma => SlotName.ma | .mb => SlotName.mb) d, [4, 9])
  | .ldN16 u _ d _ _ => (dstPlaces (match u with | .ma => SlotName.ma | .mb => SlotName.mb) d, [4, 9])
  | .ldI32 u _ d _ _ => (dstPlaces (match u with | .ma => SlotName.ma | .mb => SlotName.mb) d, [4, 9])
  | .ldN32 u _ d _ _ => (dstPlaces (match u with | .ma => SlotName.ma | .mb => SlotName.mb) d, [4, 9])
  | .ldI64 u _ d _ _ => (dstPlaces (match u with | .ma => SlotName.ma | .mb => SlotName.mb) d, [4, 9])
  | .ldTc u _ d _ _ => (dstPlaces (match u with | .ma => SlotName.ma | .mb => SlotName.mb) d, [4, 9])
  | .ldNb u _ d _ _ => (dstPlaces (match u with | .ma => SlotName.ma | .mb => SlotName.mb) d, [4, 9])
  | .amoAdd u _ d _ _ => (dstPlaces (match u with | .ma => SlotName.ma | .mb => SlotName.mb) d, [4, 9])
  | .amoAnd u _ d _ _ => (dstPlaces (match u with | .ma => SlotName.ma | .mb => SlotName.mb) d, [4, 9])
  | .amoOr u _ d _ _ => (dstPlaces (match u with | .ma => SlotName.ma | .mb => SlotName.mb) d, [4, 9])
  | .amoMax u _ d _ _ => (dstPlaces (match u with | .ma => SlotName.ma | .mb => SlotName.mb) d, [4, 9])
  | .amoSwp u _ d _ _ => (dstPlaces (match u with | .ma => SlotName.ma | .mb => SlotName.mb) d, [4, 9])
  | .vld _ _ _ v _ _ => ([.v v.toNat], [4, 9])
  | .vldTc _ _ _ v _ _ => ([.v v.toNat], [4, 9])
  | .vldNb _ _ _ v _ _ => ([.v v.toNat], [4, 9])
  | .lda _ _ n _ => ([.a n.toNat], [1])
  | .rda u _ d _ => (dstPlaces (match u with | .ma => SlotName.ma | .mb => SlotName.mb) d, [1])
  | _ => ([], [])

/-- Two slots can execute together (R72). -/
def together (s t : BitVec 3) : Bool := s == t || s == 0 || t == 0

/-- No two slots of the list land in one place in one tick (R72). -/
def noCollision (is : List Instr) : Bool :=
  match is with
  | [] => true
  | i :: r =>
    r.all (fun j =>
      !(together (tagOf i) (tagOf j)
        && (landsIn i).2.any (fun t => (landsIn j).2.contains t)
        && (landsIn i).1.any (fun p => (landsIn j).1.contains p)))
    && noCollision r

/-- The control slot holds xfer or go. -/
def isTransfer (i : Instr) : Bool :=
  match i with
  | .xfer _ _ _ _ | .go _ => true
  | _ => false

/-- Whether an instruction is a nop. -/
def isNop (i : Instr) : Bool :=
  match i with
  | .nop _ | .memNop _ => true
  | _ => false

/-- The decoded slots of an entry, none when one of them is reserved. -/
def decodeSlots (e : Entry) (l : List SlotName) : Option (List Instr) :=
  match l with
  | [] => some []
  | s :: r =>
    match toOpt (decodeSlot s (slotBits e s)), decodeSlots e r with
    | some i, some is => some (i :: is)
    | _, _ => none

/-- The width in bits that a width code names (R60). -/
def widthBits (w : BitVec 2) : Nat := 256 * 2 ^ w.toNat

/-- The bits of lanes a vector slot's word names, 0 for a nop (R67). -/
def vecWidth (e : Entry) (s : SlotName) : Nat :=
  if slotBits e s = 0 then 0 else widthBits (bv 2 (slotBits e s) 21)

/-- Whether an entry is valid (R15, R56, R67, R70, R71, R72). -/
def entryValid (e : Entry) : Bool :=
  match decodeSlots e allSlots with
  | none => false
  | some is =>
    let xf := is.any isTransfer
    decide (hdrLend e ≤ 4) && decide (hdrLroute e ≤ 10)
    && (!(hdrDrain e) || xf)
    && (hdrLend e == 0 || !xf)
    && (xf || is.all (fun i => tagOf i == 0))
    && (allSlots.zip is).all (fun p => hdrLroute e == routeCode p.1 || !((selsOf p.2).contains 27))
    && decide (vecWidth e .va + vecWidth e .vb ≤ 1024)
    && noCollision is

end Sys2Proof
end

