-- ==== Sys2Proof/Machine/Ops.lean ====
section
/-! DEFINITION. The operations the meanings share: reading and writing cores and contexts, scheduling and landing results
(R18 to R23), queues (R19, R141), events (R255), banks (R193 to R202), and taking a stop and returning from it
(R267 to R275). -/

namespace Sys2Proof.Machine

/-- The outcome of a step. -/
abbrev Result := Host.Outcome State Fault Refusal

/-! ## Cores and contexts -/

def State.core (s : State) (c : Nat) : Core := tget s.cores Core.reset c
def State.setCore (s : State) (c : Nat) (k : Core) : State := { s with cores := tput s.cores c k }
def State.modCore (s : State) (c : Nat) (f : Core → Core) : State := s.setCore c (f (s.core c))
def Core.ctx (k : Core) (x : Nat) : Ctx := tget k.ctxs Ctx.reset x
def Core.setCtx (k : Core) (x : Nat) (v : Ctx) : Core := { k with ctxs := tput k.ctxs x v }
def State.ctx (s : State) (c x : Nat) : Ctx := (s.core c).ctx x
def State.setCtx (s : State) (c x : Nat) (v : Ctx) : State := s.setCore c ((s.core c).setCtx x v)
def State.modCtx (s : State) (c x : Nat) (f : Ctx → Ctx) : State := s.setCtx c x (f (s.ctx c x))
/-- The context of the bundle in the issue latch. -/
def State.cur (s : State) : Ctx := s.ctx s.iss.core s.iss.ctx
def State.modCur (s : State) (f : Ctx → Ctx) : State := s.modCtx s.iss.core s.iss.ctx f
def State.stream (s : State) (q : Nat) : Stream := tget s.streams (Stream.reset q) q
def State.setStream (s : State) (q : Nat) (v : Stream) : State := { s with streams := tput s.streams q v }
def State.circuit (s : State) (g : Nat) : Circuit := tget s.circuits Circuit.reset g
def State.setCircuit (s : State) (g : Nat) (v : Circuit) : State := { s with circuits := tput s.circuits g v }
/-- The key of a channel: high-bandwidth channels from 0, loft channels from 256. -/
def chKey (tier ch : Nat) : Nat := tier * 256 + ch
def State.channel (s : State) (tier ch : Nat) : Channel := tget s.channels (Channel.at' tier s.now) (chKey tier ch)
def State.setChannel (s : State) (tier ch : Nat) (v : Channel) : State := { s with channels := tput s.channels (chKey tier ch) v }
def State.findLaunch (s : State) (lx : Nat) : Option Launch := s.launches.find? (fun l => l.lx == lx)
def State.setLaunch (s : State) (l : Launch) : State :=
  { s with launches := s.launches.map (fun m => if m.lx = l.lx then l else m) }
def State.findCmd (s : State) (id : Nat) : Option Cmd := s.cmds.find? (fun c => c.id == id)
def State.setCmd (s : State) (c : Cmd) : State := { s with cmds := s.cmds.map (fun d => if d.id = c.id then c else d) }

/-- A word of a launch descriptor (R258). -/
def Launch.word (l : Launch) (i : Nat) : Nat := ((l.desc[i]?).getD 0).toNat
def Launch.lid (l : Launch) : Nat := bitsAt (l.word 0) 0 16
def Launch.ctxNo (l : Launch) : Nat := bitsAt (l.word 0) 16 2
def Launch.preempt (l : Launch) : Bool := bitAt (l.word 0) 18
def Launch.bcast (l : Launch) : Bool := bitAt (l.word 0) 19
def Launch.skew (l : Launch) : Nat := bitsAt (l.word 0) 20 3
def Launch.scrub (l : Launch) : Bool := bitAt (l.word 0) 23
def Launch.asap (l : Launch) : Bool := bitAt (l.word 0) 24
def Launch.lowp (l : Launch) : Bool := bitAt (l.word 0) 25
def Launch.array (l : Launch) : Bool := bitAt (l.word 0) 26
def Launch.fcore (l : Launch) : Nat := bitsAt (l.word 2) 0 8
/-- The number of cores less one (R258). -/
def Launch.ncore (l : Launch) : Nat := bitsAt (l.word 2) 8 8
def Launch.modix (l : Launch) : Nat := bitsAt (l.word 2) 16 8
def Launch.nmod (l : Launch) : Nat := bitsAt (l.word 2) 24 8
def Launch.banks (l : Launch) : Nat := bitsAt (l.word 12) 0 32
def Launch.cores (l : Launch) : List Nat := (List.range (l.ncore + 1)).map (fun i => l.fcore + i)
/-- High-bandwidth and loft channels owned (R258), by channel number. -/
def Launch.ownsCh (l : Launch) (tier ch : Nat) : Bool :=
  if tier = 0 then decide (ch < 256) && bitAt (l.word (6 + ch / 64)) (ch % 64)
  else decide (ch < 128) && bitAt (l.word (10 + ch / 64)) (ch % 64)

/-- Applies a change to the context of a launch, whether it stands on its core or is saved (R279). -/
def State.modOwner (s : State) (c x lx : Nat) (f : Ctx → Ctx) : State :=
  if lx = 0 then s
  else if (s.ctx c x).lx = lx then s.modCtx c x f
  else s.modCore c (fun k => { k with saved := k.saved.map (fun p => if p.1 = x ∧ p.2.lx = lx then (p.1, f p.2) else p) })

/-- The context of a launch, live or saved; none when it has been released or killed. -/
def State.owner (s : State) (c x lx : Nat) : Option Ctx :=
  if lx = 0 then none
  else if (s.ctx c x).lx = lx then some (s.ctx c x)
  else ((s.core c).saved.find? (fun p => p.1 == x && p.2.lx == lx)).map (·.2)

/-! ## Topology (R1, R2, R258) -/

def dieOf (c : Nat) : Nat := c / 64
def clusterOf (c : Nat) : Nat := c / 8
def coreInCluster (c : Nat) : Nat := c % 8
/-- The package core of peer `p` in the cluster of core `c` (R165). -/
def peerCore (c p : Nat) : Nat := c / 8 * 8 + p

/-- Whether the launch of a context asks for a scrub (R202). -/
def State.scrubs (s : State) (c x : Nat) : Bool :=
  match s.findLaunch (s.ctx c x).lx with
  | some l => l.scrub
  | none => false

/-! ## Queues (R19, R137, R141, R177, R230) -/

/-- Word j of head entry q of QR (R141). -/
def qrWord (seed : Word) (q j : Nat) : BitVec 32 :=
  mix (BitVec.ofNat 32 (seed.toNat / 2 ^ 32)) (BitVec.ofNat 32 seed.toNat) (BitVec.ofNat 32 (bitsAt q 27 32))
    (BitVec.ofNat 32 (bitsAt q 0 27 * 32 + j))

/-- The head entry of QR (R141). -/
def qrEntry (seed : Word) (q : Nat) : VWord :=
  BitVec.ofNat 1024 ((List.range 32).foldr (fun j acc => (qrWord seed q j).toNat * 2 ^ (32 * j) + acc) 0)

/-- The head of queue 0 QR, 1 QG, 2 QC, 3 QM; none when it is empty (R19; QR never is: R141). -/
def Ctx.head (c : Ctx) (q : Nat) : Option VWord :=
  match q with
  | 0 => some (qrEntry c.qrseed c.qrpos.toNat)
  | 1 => c.qg.head?
  | 2 => c.qc.head?
  | _ => c.qm.head?

/-- Whether a queue holds an entry. -/
def Ctx.queueReady (c : Ctx) (q : Nat) : Bool := (c.head q).isSome

/-- Pops one queue at the end of a bundle (R19, R137, R141). -/
def Ctx.pop (c : Ctx) (q : Nat) : Ctx :=
  match q with
  | 0 => { c with qrpos := BitVec.ofNat 64 ((c.qrpos.toNat + 1) % 2 ^ 59) }
  | 1 => { c with qg := c.qg.tail, aqocc := c.aqocc - 1 }
  | 2 => { c with qc := c.qc.tail }
  | _ => { c with qm := c.qm.tail }

/-! ## Results (R18 to R23) -/

/-- The mask of the low `n` bits of a value. -/
def lowMask (n : Nat) : VWord := BitVec.ofNat 1024 (2 ^ n - 1)

/-- `old` with the bits that `mask` names taken from `new`. -/
def merge {n : Nat} (old new mask : BitVec n) : BitVec n := (old &&& ~~~mask) ||| (new &&& mask)

/-- Puts results of the bundle in the latch into flight. -/
def State.fly (s : State) (fs : List Flight) : State := s.modCur (fun c => { c with flights := c.flights ++ fs })

/-- A slot result that lands `lat` ticks after issue. -/
def State.flight (s : State) (lat fid : Nat) (d : Dest) (v mask : VWord) (fl : Flags) : Flight :=
  ⟨fid, s.now, s.now + lat, 1, d, v, mask, fl⟩

/-- The flights of a scalar result: the copy-coded slices, VS under code vs, and the unit's latch (R18, R20). -/
def scalarFlights (s : State) (slot : SlotName) (d : Dst) (lat fid : Nat) (v : Word) : List Flight :=
  let w : VWord := v.setWidth 1024
  let sl := copySlices (ownSlice slot) d.copy
  (if sl = 0 then [] else [s.flight lat fid (.slice sl d.idx.toNat) w (lowMask 64) 0])
  ++ (if d.copy = 7 then [s.flight lat fid .vs w (lowMask 64) 0] else [])
  ++ (match latchOf slot with
      | some u => [s.flight lat fid (.latch u) w (lowMask 64) 0]
      | none => [])

/-- Lands a scalar result of a slot `lat` ticks from now. -/
def State.scalarResult (s : State) (slot : SlotName) (d : Dst) (lat : Nat) (v : Word) : State :=
  s.fly (scalarFlights s slot d lat 0 v)

/-- Writes one context register of a landing result; array, HCW and latch-row destinations are `Core.land`'s. A prepare makes its B
register valid from its landing, also where a store to its span has cleared it since the issue (R91, R92; log entry 61). -/
def Ctx.landReg (c : Ctx) (now : Nat) (f : Flight) : Ctx :=
  match f.dest with
  | .slice sl i =>
    let put (g : Table Word) (j : Nat) : Table Word := if sl.getLsbD j then tput g (16 * j + i) (f.value.setWidth 64) else g
    { c with g := (List.range 5).foldl put c.g }
  | .latch u => { c with latch := tput c.latch u (f.value.setWidth 64) }
  | .vs => { c with vs := f.value.setWidth 64 }
  | .v i => { c with v := tput c.v i (merge (tget c.v 0 i) f.value f.mask) }
  | .k i => if i = 0 then c else
      { c with k := tput c.k i (merge (tget c.k (BitVec.allOnes 128) i) (f.value.setWidth 128) (f.mask.setWidth 128)) }
  | .p => { c with p := merge c.p (f.value.setWidth 16) (f.mask.setWidth 16) }
  | .b i => { c with bT := tput c.bT i (f.value.setWidth 16), bV := c.bV ||| BitVec.ofNat 8 (2 ^ i), bAgain := tdel c.bAgain i }
  | .a i => { c with a := tput c.a i (f.value.setWidth 32) }
  | .lc n => { c with lc := tput c.lc n (f.value.setWidth 32) }
  | .lsw n => { c with lsw := tput c.lsw n (f.value.setWidth 16) }
  | .delta n a => { c with delta := tput c.delta (16 * n + a) (f.value.setWidth 32) }
  | .e i => { c with e := tput c.e i (f.value.setWidth 256) }
  | .fmt => { c with fmt := merge c.fmt (f.value.setWidth 32) (f.mask.setWidth 32) }
  | .gsel => { c with gsel := merge c.gsel (f.value.setWidth 32) (f.mask.setWidth 32) }
  | .hcw _ _ | .areg _ | .wrow _ _ | .none => let _ := now; c

/-- Sets the sticky flags of a landing result (R44, R47). -/
def Ctx.raise (c : Ctx) (fl : Flags) : Ctx := { c with fmt := c.fmt ||| ((fl.setWidth 32) <<< 16) }

/-- Writes an array register of the window (R145, R147, R148): `off` is its offset. Reserved bits read 0. -/
def ArrayState.put (a : ArrayState) (off : Nat) (v mask : VWord) : ArrayState :=
  let w32 (old : BitVec 32) (keep : BitVec 32) : BitVec 32 := merge old (v.setWidth 32) (mask.setWidth 32) &&& keep
  if off = 0x00 then { a with actl := w32 a.actl 0x07FFFFFF }
  else if off = 0x04 then { a with aptr := w32 a.aptr 0x3F3F3F3F }
  else if off = 0x08 then { a with dptr := w32 a.dptr 0x3F3F3F3F }
  else if off = 0x0C then { a with lptr := w32 a.lptr 0x7F7F7F7F }
  else if off = 0x10 then { a with awc := w32 a.awc 0xFFFFFFFF }
  else if 0x20 ≤ off ∧ off < 0x30 then
    let b := (off - 0x20) / 4
    { a with drow := tput a.drow b (w32 (tget a.drow 0 b) 0xFFFFFFFF) }
  else if off = 0x30 then { a with arec := v.setWidth 64 }
  else if 0x40 ≤ off ∧ off < 0x60 then { a with lrec := tput a.lrec ((off - 0x40) / 8) (v.setWidth 64) }
  else a

/-- A landing result of context `x` replaces a spoiled place whole (R341; the places are those of log entry 8). -/
def Flight.heals (f : Flight) (x : Nat) (w : BadWord) : Bool :=
  match f.dest with
  | .slice sl i => w.struct == 1 && w.ctx == x && decide (w.place < 80) && sl.getLsbD (w.place / 16) && w.place % 16 == i
  | .vs => w.struct == 1 && w.ctx == x && w.place == 80
  | .v i => w.struct == 1 && w.ctx == x && w.place == 256 + i && f.mask == BitVec.allOnes 1024
  | .k i => w.struct == 1 && w.ctx == x && w.place == 300 + i && (f.mask.setWidth 128 : BitVec 128) == BitVec.allOnes 128
  | .p => w.struct == 1 && w.ctx == x && w.place == 320 && (f.mask.setWidth 16 : BitVec 16) == BitVec.allOnes 16
  | .a i => w.struct == 1 && w.ctx == x && w.place == 330 + i
  | .b i => w.struct == 1 && w.ctx == x && w.place == 350 + i
  | .e i => w.struct == 1 && w.ctx == x && w.place == 360 + i
  | .wrow n r => w.struct == 2 && w.place == 128 * n + r
  | .hcw y i => w.struct == 3 && w.ctx == y && w.place == 2 ^ 16 + i
  | _ => false

/-- Lands a result of context `x` in the core. An entry write validates the entry (R74, R75). -/
def Core.land (k : Core) (x now : Nat) (f : Flight) : Core :=
  let k := match f.dest with
    | .hcw y i =>
      let e : Entry := f.value.setWidth 256
      let c := k.ctx y
      let bit : BitVec 512 := BitVec.ofNat 512 (2 ^ i)
      k.setCtx y { c with hcw := tput c.hcw i e, hcwValid := if entryValid e then c.hcwValid ||| bit else c.hcwValid &&& ~~~bit }
    | .areg off => { k with array := k.array.put off f.value f.mask }
    | .wrow n r => { k with array := { k.array with w := tput k.array.w (128 * n + r) f.value } }
    | _ => k
  { k.setCtx x (((k.ctx x).landReg now f).raise f.flags) with bad := k.bad.filter (fun w => !(f.heals x w)) }

/-- The order of landings in one tick (R22, R47): FMT writes, then by issue tick, then header before slot, in a loop counter too
(log entry 62), and an automatic change of the latch number before a store to the array window (log entry 64). -/
def landBefore (f g : Flight) : Bool :=
  let key (h : Flight) : Nat := if h.dest = .fmt then 0 else 1
  if key f ≠ key g then decide (key f < key g)
  else if f.issued ≠ g.issued then decide (f.issued < g.issued) else decide (f.src < g.src)

/-- The first of the flights that satisfy `ok`, in landing order. -/
def firstFlight (ok : Flight → Bool) (fs : List Flight) : Option Flight :=
  fs.foldl (fun best f => if ok f then (match best with
    | none => some f
    | some b => if landBefore f b then some f else some b) else best) none

/-- The first flight due in a tick that satisfies `ok`. -/
def Ctx.dueFlight (c : Ctx) (now : Nat) (ok : Flight → Bool) : Option Flight :=
  firstFlight (fun f => decide (f.land ≤ now) && ok f) c.flights

/-- The flights without the first one equal to `f`. -/
def dropFlight (f : Flight) (fs : List Flight) : List Flight :=
  match fs with
  | [] => []
  | g :: r => if g = f then r else g :: dropFlight f r

/-- Lands one flight of a context. -/
def State.landFlight (s : State) (c x : Nat) (f : Flight) : State :=
  (s.modCtx c x (fun k => { k with flights := dropFlight f k.flights })).modCore c (fun k => k.land x s.now f)

/-- The value a load owes to its flights arrives; flights in the shadow buffer take it too (R271). -/
def Ctx.fill (c : Ctx) (fid : Nat) (v : VWord) : Ctx :=
  let f (g : Flight) : Flight := if g.fid = fid then { g with fid := 0, value := v } else g
  { c with flights := c.flights.map f, shadow := c.shadow.map f }

/-! ## Events on a stream (R255) -/

/-- Posts an event: a 16-byte write to the ring, which counts in EVHEAD when it has completed; lost when
EVHEAD, with the writes under way, stands 2^EVLOG beyond EVTAIL. -/
def State.postBy (s : State) (id by' q lid kind detail : Nat) (value : Word) : State :=
  let st := s.stream q
  let under := (s.hostWrites.filter (fun w => w.stream == some q)).length
  let head := st.evhead.toNat + under
  if 2 ^ st.evlog = (head + 2 ^ 32 - st.evtail.toNat) % 2 ^ 32 then s.setStream q { st with evovf := true }
  else { s with hostWrites := s.hostWrites ++
    [⟨id, by', st.evbase.toNat + 16 * (head % 2 ^ st.evlog), 16,
      lid % 2 ^ 16 + kind % 2 ^ 8 * 2 ^ 16 + detail % 2 ^ 8 * 2 ^ 24 + value.toNat * 2 ^ 64, some q⟩] }

/-- Posts an event of the supervisor. -/
def State.post (s : State) (q lid kind detail : Nat) (value : Word) : State :=
  { s with nextId := s.nextId + 1 }.postBy s.nextId 0 q lid kind detail value

/-- NOW as a word. -/
def State.nowW (s : State) : Word := BitVec.ofNat 64 s.now

/-- An interrupt on one of the five vectors: 0 to 3 for the streams' events, 4 for time and security (R330). -/
def State.interrupt (s : State) (vector : Nat) : State := { s with outputs := s.outputs ++ [.interrupt s.now vector] }

/-! ## Ports (R328, R332, R333) -/

def State.port (s : State) (p : Nat) : Port := tget s.ports Port.reset p
def State.setPort (s : State) (p : Nat) (v : Port) : State := { s with ports := tput s.ports p v }

/-- A flit waits at a port. -/
def State.enqueue (s : State) (p : Nat) (f : FlitOut) : State := s.setPort p { s.port p with queue := (s.port p).queue ++ [f] }

/-- A message of time and control goes out: on a port to its neighbour, or, on port 15, to every module it concerns (R264, R325, R328;
log entry 31). A sync and a delay request carry the NOW at which their flit leaves. -/
def State.tell (s : State) (port kind : Nat) (v : Word) : State :=
  let s1 := { s with outputs := s.outputs ++ [.message s.now port kind v] }
  let to' : List (Nat × Nat) := if port < 12 then [(port, Config.neighbour port)] else Config.recipients kind v
  to'.foldl (fun s r => s.enqueue r.1 ⟨2, r.2, Config.controlPay kind v, if kind < 2 then some kind else none⟩) s1

/-- The payload of a flit that leaves at tick `now`, for the first time or again (R325, R333). -/
def FlitOut.payAt (f : FlitOut) (now : Nat) : BitVec 896 := match f.stamped with
  | some k => Config.controlPay k (BitVec.ofNat 64 now)
  | none => f.pay

/-- The bits of a flit that leaves at tick `now` with its link sequence number and its CRC (R332). -/
def FlitOut.bits (f : FlitOut) (seq : BitVec 16) (now : Nat) : BitVec 1024 :=
  let low := f.cls % 4 + f.dmod % 256 * 2 ^ 2 + seq.toNat * 2 ^ 10 + (f.payAt now).toNat * 2 ^ 64
  BitVec.ofNat 1024 (low + (Config.crc64 (BitVec.ofNat 960 low)).toNat * 2 ^ 960)

/-- The flit of a port that goes next: class 2 before all, classes 0 and 1 in alternation (R332). -/
def Port.nextFlit (p : Port) : Option FlitOut :=
  let of (c : Nat) : Option FlitOut := p.queue.find? (fun f => f.cls == c)
  match of 2, of (1 - p.lastCls), of p.lastCls with
  | some f, _, _ => some f
  | none, some f, _ => some f
  | none, none, r => r

/-- A list without its first element equal to `x`. -/
def dropFirst {α : Type} [DecidableEq α] (x : α) (l : List α) : List α :=
  match l with
  | [] => []
  | y :: r => if y = x then r else y :: dropFirst x r

/-- The megahertz of a tick step (R324), and the ticks of a hop, 180 ns (R332). -/
def stepMhz (step : Nat) : Nat := 2250 - 250 * Nat.min step 3
def hopTicks (step : Nat) : Nat := 180 * stepMhz step / 1000

/-- What a port carries in a tick, in units of 1 MB/s through one tick: 400 GB/s, half of it on four lanes (R332, R345); a flit of 128
bytes takes 128 times the megahertz of the tick. -/
def Port.portRate (p : Port) : Nat := if 2 ≤ p.lanes.length then 200000 else 400000

/-- How long after a flit has left a request for its replay can still come: two hops, and some ticks in which the request waits for the
port (R332, R333; log entry 31). -/
def replayTicks (step : Nat) : Nat := 2 * hopTicks step + 8

/-- The buffer of a port takes a new flit: it holds fewer than 256, or no request for the oldest can come any more; until then the port
sends nothing new (R333; log entry 31). -/
def Port.mayDrop (p : Port) (now win : Nat) : Bool := match p.sent with
  | f :: _ => decide (p.sent.length < 256) || decide (f.left + win ≤ now)
  | [] => true

/-- The next flit of a port that leaves at tick `now`, one to be sent again before a new one (R332, R333). -/
def Port.sendOne (p : Port) (now win : Nat) : Option (BitVec 1024 × Port) :=
  let left (f : FlitOut) (q : Port) : Port := if f.stamped = some 1 then { q with reqAt := now } else q
  match p.again, p.nextFlit with
  | (seq, f) :: r, _ => some (f.bits seq now, left f { p with
      again := r, sent := p.sent.map (fun g => if g.seq = seq then { g with left := now } else g) })
  | [], some f =>
    if p.mayDrop now win then
      let all := p.sent ++ [⟨p.seqOut, f, now⟩]
      some (f.bits p.seqOut now, left f { p with
        seqOut := p.seqOut + 1, queue := dropFirst f p.queue, lastCls := if f.cls = 2 then p.lastCls else f.cls
        sent := all.drop (all.length - 256) })
    else none
  | [], none => none

/-- The flits that begin to leave within a tick, of at most `n`. -/
def Port.sendUpTo (p : Port) (now win mhz n : Nat) : List (BitVec 1024) × Port :=
  match n with
  | 0 => ([], p)
  | n + 1 =>
    if p.portRate ≤ p.busy then ([], p)
    else match p.sendOne now win with
      | none => ([], p)
      | some (b, q) =>
        let r := { q with busy := q.busy + 128 * mhz }.sendUpTo now win mhz n
        (b :: r.1, r.2)

/-- A flit sent again, which no request has come for since, has come well: a later request for its SEQ counts from one (R333). -/
def Port.settleAsked (p : Port) (now win : Nat) : Port :=
  if p.again.isEmpty && p.sent.all (fun f => f.seq != p.asked.1 || decide (f.left + win ≤ now)) then { p with asked := (0, 0) } else p

/-- What a port sends in a tick of a step: at its rate at most three flits begin to leave in one (R332, R333, R345; log entry 31). -/
def Port.send (p : Port) (now step : Nat) : List (BitVec 1024) × Port :=
  if !p.inService || decide (now < p.until') then ([], p)
  else
    let r := (p.settleAsked now (replayTicks step)).sendUpTo now (replayTicks step) (stepMhz step) 3
    (r.1, { r.2 with busy := r.2.busy - p.portRate })

/-- Every port sends its flits of this tick. -/
def State.sendFlits (s : State) : State :=
  { s with
    ports := tmap (fun (p : Port) => (p.send s.now s.stepF).2) s.ports
    outputs := s.outputs ++ s.ports.flatMap (fun p => (p.2.send s.now s.stepF).1.map (fun b => .flit s.now p.1 b)) }

/-- Posts an event of a launch, with VALUE NOW. -/
def State.postL (s : State) (l : Launch) (kind detail : Nat) : State := s.post l.stream l.lid kind detail s.nowW

/-- Posts an event of the launch a context belongs to. -/
def State.postCtx (s : State) (c x kind detail : Nat) : State :=
  match s.findLaunch (s.ctx c x).lx with
  | some l => s.postL l kind detail
  | none => s

/-- Posts an event without launch on every enabled stream (R327); one of time raises the vector of time and security (R330; log
entry 54). -/
def State.postAll (s : State) (kind detail : Nat) (value : Word) : State :=
  let s := if 10 ≤ kind ∧ kind ≤ 12 then s.interrupt 4 else s
  [0, 1, 2, 3].foldl (fun s q => if (s.stream q).en then s.post q 0 kind detail value else s) s

/-- An uncorrectable soft error of a structure counts in SEUNC and is reported to the host (R342). -/
def State.reportSoft (s : State) (struct : Nat) (place : Word) : State :=
  { s with seunc := Nat.min (2 ^ 32 - 1) (s.seunc + 1) }.postAll 14 struct place

/-- A correction at a place counts in SECOR; the third at one place within 2^32 ticks is reported to the host (R341, R342). -/
def State.corrected (s : State) (unit ctx struct : Nat) (place : Word) : State :=
  let here (f : Nat × Nat × Nat × Word × Nat) : Bool := f.1 == unit && f.2.1 == ctx && f.2.2.1 == struct && f.2.2.2.1 == place
  let recent := s.fixes.filter (fun f => decide (s.now < f.2.2.2.2 + 2 ^ 32))
  let s1 := { s with secor := Nat.min (2 ^ 32 - 1) (s.secor + 1) }
  if 2 ≤ (recent.filter here).length then { s1 with fixes := recent.filter (fun f => !(here f)) }.postAll 14 struct place
  else { s1 with fixes := recent ++ [(unit, ctx, struct, place, s.now)] }

/-- The context whose place it is, for what every context has for itself: its registers and its HCW table (R342). -/
def BadWord.owner (w : BadWord) : Nat := if w.struct = 1 ∨ (w.struct = 3 ∧ 2 ^ 16 ≤ w.place) then w.ctx else 0

/-- The spoiled places of a core that a test names are read: each that its check bits correct counts, and is right from then on
(R341; log entry 8). -/
def State.fixBad (s : State) (core : Nat) (ok : BadWord → Bool) : State :=
  let hit := (s.core core).bad.filter ok
  if hit = [] then s
  else (hit.foldl (fun s w => s.corrected core w.owner w.struct (BitVec.ofNat 64 w.place)) s).modCore core (fun k => { k with
    bad := k.bad.filter (fun w => !(ok w)) })

/-! ## Scratchpad and banks (R166, R193 to R202) -/

def bankOf (a : Nat) : Nat := bitsAt a 7 5
def frameOf (a : Nat) : Nat := bitsAt a 12 9
/-- The size of a core's own scratchpad. -/
def spadSize : Nat := 0x200000

def State.spad (s : State) (c : Nat) : Memory := (s.core c).spad
def State.readSpad (s : State) (c a n : Nat) : Nat := mreadN (s.spad c) a n
/-- A write of `n` bytes into a scratchpad; an error of a word that it replaces whole is gone (R341). -/
def Core.store (k : Core) (a n v : Nat) : Core :=
  { k with
    spad := mwriteN k.spad a n v
    bad := k.bad.filter (fun w => !(w.struct == 0 && decide (a ≤ w.place) && decide (w.place + 8 ≤ a + n))) }
def State.writeSpad (s : State) (c a n v : Nat) : State := s.modCore c (fun k => k.store a n v)

/-- The scratchpad a local address of core `c` names: the core and the offset in it; own, or a cluster peer's (R165, R193). -/
def localPlace (c a : Nat) : Option (Nat × Nat) :=
  if a < spadSize then some (c, a)
  else if 0x01000000 ≤ a ∧ a < 0x02000000 then some (peerCore c ((a - 0x01000000) / spadSize), (a - 0x01000000) % spadSize)
  else none

/-- The local address by which a core names byte `off` of a core's scratchpad (R165). -/
def localName (c d off : Nat) : Nat := if d = c then off else 0x01000000 + coreInCluster d * spadSize + off

/-- A spoiled word of a scratchpad meets `n` bytes from an offset. -/
def BadWord.meets (w : BadWord) (off n : Nat) : Bool := w.struct == 0 && decide (off < w.place + 8) && decide (w.place < off + n)

/-- A spoiled word of the timed-write buffers is one of an entry's (R341; log entry 8). -/
def TimedEntry.holds (e : TimedEntry) (w : BadWord) : Bool :=
  w.struct == 0 && decide (2 ^ 32 + e.addr < w.place + 8) && decide (w.place < 2 ^ 32 + e.addr + e.size)

/-- The entries with the word at an offset rewritten with zeros (R342). -/
def TimedEntry.zeroed (e : TimedEntry) (off : Nat) : TimedEntry :=
  if e.addr ≤ off ∧ off < e.addr + e.size then { e with data := BitVec.ofNat 1024 (setBits e.data.toNat (8 * (off - e.addr)) 64 0) } else e

/-- The first word among `n` bytes from an offset whose soft error cannot be corrected (R342). -/
def Core.badWord (k : Core) (off n : Nat) : Option Nat := (k.bad.find? (fun w => !w.fixable && w.meets off n)).map (·.place)

/-- A read of `n` bytes of a scratchpad corrects what it can (R341). -/
def State.fixWords (s : State) (d off n : Nat) : State := s.fixBad d (fun w => w.fixable && w.meets off n)

/-- Whether a local address lies in one of the windows of R165. -/
def inWindow (a : Nat) : Bool :=
  decide (0x02000000 ≤ a ∧ a < 0x02000200) || decide (0x03000000 ≤ a ∧ a < 0x07000000)

/-- Whether the context that stands as context `x` owns bank `b`, and whether the saved one does (R197, R262). -/
def Core.owns (k : Core) (x b : Nat) : Bool := tget k.own 0 b == x + 1 && tget k.releasing 0 b == 0 && tget k.kept 0 b == 0
def Core.ownsSaved (k : Core) (x b : Nat) : Bool := tget k.own 0 b == x + 1 && tget k.releasing 0 b == 0 && tget k.kept 0 b == x + 1

/-- Whether an engine-side slot of a bank is taken; a scrub takes the write slot of its bank for its 512 ticks, from the issue of the
release store that begins it on (R194, R200, R202). -/
def Core.slotTaken (k : Core) (bank tick : Nat) (write : Bool) : Bool :=
  k.resv.any (fun r => r.bank == bank && r.tick == tick && r.write == write)
  || (write && k.scrubs.any (fun p => p.1 == bank && decide (tick < p.2) && decide (p.2 ≤ tick + 512)))

/-- Whether the engine-side write of a bank in a tick was reserved before the read of that tick (R194); the list holds the latest
reservation first. -/
def Core.writeFirst (k : Core) (bank tick : Nat) : Bool :=
  match k.resv.filter (fun r => r.bank == bank && r.tick == tick) with
  | r :: rest => !r.write && rest.any (·.write)
  | [] => false

/-- The scrubs a release will begin at tick `r`: their slots are reserved with the release (R200, R202). -/
def Core.planScrubs (k : Core) (bs : List Nat) (r : Nat) : Core := { k with scrubs := k.scrubs ++ bs.map (fun b => (b, r + 512)) }

def Core.reserve (k : Core) (r : Resv) : Core := { k with resv := r :: k.resv }

/-- A bank is being scrubbed in a tick: its write slot belongs to the scrub (R202). -/
def Core.scrubbing (k : Core) (b now : Nat) : Bool :=
  tget k.own 0 b == 5 && k.scrubs.any (fun p => p.1 == b && decide (now < p.2) && decide (p.2 ≤ now + 512))

/-- Frees a bank that its context releases, or starts its scrub (R202). -/
def Core.freeBank (k : Core) (now b : Nat) (scrub : Bool) : Core :=
  let k := { k with releasing := tdel k.releasing b, kept := tdel k.kept b }
  if scrub then { k with own := tput k.own b 5, scrubs := k.scrubs.filter (fun p => decide (p.1 ≠ b)) ++ [(b, now + 512)] }
  else { k with own := tput k.own b 0 }

/-- Marks the banks of a context, live or saved, for the release a halt or a kill makes (R110, R201, R265). -/
def Core.markRelease (k : Core) (x : Nat) (saved scrub : Bool) : Core :=
  let mark (t : Table Nat) (b : Nat) : Table Nat :=
    if (if saved then k.ownsSaved x b else k.owns x b) then tput t b (if scrub then 2 else 1) else t
  { k with releasing := (List.range 32).foldl mark k.releasing }

/-! ## Faults, traps and stops (R267 to R275) -/

/-- A fault found at a bundle's issue tick, kind B. -/
def bfault (code : Nat) (addr info : Nat) : FaultRec := ⟨code, 0, BitVec.ofNat 64 addr, BitVec.ofNat 64 info, 0⟩

/-- Adds a stop to a context (R267). -/
def State.addStop (s : State) (c x tick : Nat) (f : FaultRec) : State :=
  s.modCtx c x (fun k => { k with stops := k.stops ++ [(tick, f)] })

/-- A bundle fault: the bundle in the latch is not issued, its context stops in this tick (R267 kind B). -/
def State.bundleFault (s : State) (f : FaultRec) : State :=
  let s1 := s.addStop s.iss.core s.iss.ctx s.now f
  { s1 with iss := { s1.iss with left := [], wait := none, fence := [], trap := none, halt := false } }

/-- The rank of a fault in the order of R270; of two traps the software trap goes before the budget trap (R109; log entry 80). -/
def faultRank (f : FaultRec) : Nat :=
  match f.kind with
  | 1 => bitsAt f.cmd.toNat 16 4 * 2 ^ 32 + bitsAt f.cmd.toNat 20 32
  | 2 => 2 ^ 64 + f.code
  | 3 => if f.code = 0 then 2 ^ 65 + 1 else 2 ^ 65
  | _ => 2 ^ 66 + f.code

/-- The first fault of a list in the order of R270. -/
def firstFault (fs : List FaultRec) : Option FaultRec :=
  fs.foldl (fun best f => match best with
    | none => some f
    | some b => if faultRank f < faultRank b then some f else some b) none

/-- The supervisor's action on a code (R268, R275): 0 resume, 1 kill, 2 kill and retry. -/
def actionOf (f : FaultRec) : Nat :=
  if f.code ∈ [4, 12, 17, 20, 23, 31, 33] then 0
  else if f.code = 13 then (if f.kind = 1 then 1 else 0)
  else if f.code ∈ [25, 30, 34] then 2
  else 1

/-- Catches what is in flight at σ and the six latches in the shadow result buffer; the ticks a drain still leaves empty are kept
(R97, R271). A buffer whose entries wait for a bundle that has not issued yet keeps them, the latches among them, at their offsets from
that bundle (R273, R274). -/
def Ctx.catchShadow (c : Ctx) (σ : Nat) : Ctx :=
  let late := c.flights.filter (fun f => decide (σ < f.land))
  let lats : List Flight := if c.shadow.isEmpty then (List.range 6).map (fun u =>
    ⟨0, 0, 0, 1, .latch u, (tget c.latch 0 u).setWidth 1024, lowMask 64, 0⟩) else []
  { c with
    caughtAt := if c.shadow.isEmpty then σ else c.caughtAt
    flights := c.flights.filter (fun f => decide (f.land ≤ σ))
    shadow := c.shadow ++ lats ++ late.map (fun f => { f with land := f.land - σ })
    latch := []
    status := match c.status with
      | .draining d => .draining (d - σ)
      | .fencing fs => .fencing (fs.map (fun f => { f with notBefore := f.notBefore - σ }))
      | st => st }

/-- A row is still in the array when its owner stops at σ: one whose exit tick is σ has not left when no bundle of the owner has issued
in σ, since the beat that captures it is still to issue (R164, R251, R253, R274; log entry 67). -/
def RowOut.inside (r : RowOut) (σ : Nat) (issued : Bool) : Bool := decide (σ < r.exit) || (r.exit == σ && !issued)

/-- Catches the rows crossing the array when its owner stops (R164, R271). -/
def Core.catchRows (k : Core) (x σ : Nat) : Core :=
  if k.arrayOwner = some x then
    let c := k.ctx x
    let issued := k.issuedAt == some σ && k.lastCtx == some x
    { (k.setCtx x { c with shadowRows := c.shadowRows
        ++ ((k.array.rows.filter (fun r => r.inside σ issued)).map (fun r => { r with exit := r.exit - σ })) }) with
      array := { k.array with rows := [] } }
  else k

/-- Arms the shadow result buffer for τ: every entry lands at τ + OFFSET (R273). -/
def Ctx.replay (c : Ctx) (τ : Nat) : Ctx :=
  { c with flights := c.flights ++ c.shadow.map (fun f => { f with land := τ + f.land }), shadow := [], shadowRows := [] }

/-- The same with the rows of the array's owner. -/
def Core.replay (k : Core) (x τ : Nat) : Core :=
  let c := k.ctx x
  let rows := c.shadowRows.map (fun r => { r with exit := τ + r.exit })
  let k := k.setCtx x (c.replay τ)
  if rows = [] then k else { k with array := { k.array with rows := k.array.rows ++ rows } }

/-- A context holds the issue slot of its core: it issues, or its drain or its fence leaves ticks empty, and no stop has taken the slot
from it since (R9, R96, R183). -/
def Ctx.holdsSlot (c : Ctx) : Bool := match c.status with
  | .issuing => true
  | .draining _ | .fencing _ => c.backAt.isNone
  | _ => false

/-- The stop of a context at σ: in-flight results and rows are caught; no bundle issues for 2 ticks if it held the
issue slot (R9, R271). -/
def Core.stopAt (k : Core) (x σ : Nat) : Core :=
  let held := (k.ctx x).holdsSlot
  let k := (k.catchRows x σ)
  let k := k.setCtx x ((k.ctx x).catchShadow σ)
  if held then { k with issueFrom := Nat.max k.issueFrom (σ + 3) } else k

/-- The index of the interrupted or next bundle; a member of a broadcast gang takes its lead's (R263). -/
def Ctx.nextPc (c : Ctx) : BitVec 16 :=
  match c.bcast, c.bq.find? (fun b => !b.wait) with
  | 2, some b => b.pc
  | _, _ => c.pc

/-- The fault record (R269). A software trap carries the index of its own bundle (R109). -/
def recordWords (s : State) (c x : Nat) (σ : Nat) (f : FaultRec) (more : Nat) : List Word :=
  let k := s.ctx c x
  let lid := match s.findLaunch k.lx with
    | some l => l.lid
    | none => 0
  let word : Word := if f.code = 33 ∧ f.kind = 3 then f.cmd else BitVec.ofNat 64 k.nextPc.toNat ||| f.cmd
  [BitVec.ofNat 64 (f.code + f.kind * 2 ^ 8 + c * 2 ^ 10 + x * 2 ^ 18 + lid * 2 ^ 20), BitVec.ofNat 64 σ,
    word, f.addr, f.info, BitVec.ofNat 64 more, 0, 0]

def State.writeRecord (s : State) (c x σ : Nat) (f : FaultRec) (more : Nat) : State :=
  s.modCtx c x (fun k => { k with record := recordWords s c x σ f more })

/-- A register of a context by its place, rewritten with zeros (R342; the places are those of log entry 8). -/
def Ctx.zeroed (k : Ctx) (p : Nat) : Ctx :=
  if p < 80 then { k with g := tput k.g p 0 }
  else if p = 80 then { k with vs := 0 }
  else if 256 ≤ p ∧ p < 288 then { k with v := tput k.v (p - 256) 0 }
  else if 300 < p ∧ p < 308 then { k with k := tput k.k (p - 300) 0 }
  else if p = 320 then { k with p := 0 }
  else if 330 ≤ p ∧ p < 346 then { k with a := tput k.a (p - 330) 0 }
  else if 350 ≤ p ∧ p < 358 then { k with bT := tput k.bT (p - 350) 0 }
  else if 360 ≤ p ∧ p < 368 then { k with e := tput k.e (p - 360) 0 }
  else if p = 370 then { k with fmt := 0 }
  else if p = 372 then { k with qg := k.qg.head?.toList.map (fun _ => 0) ++ k.qg.tail }
  else if p = 373 then { k with qc := k.qc.head?.toList.map (fun _ => 0) ++ k.qc.tail }
  else if p = 374 then { k with qm := k.qm.head?.toList.map (fun _ => 0) ++ k.qm.tail }
  else k

/-- A row of the array's latches or accumulators by its place, rewritten with zeros (log entry 8). -/
def ArrayState.zeroed (a : ArrayState) (p : Nat) : ArrayState :=
  if p < 512 then { a with w := tput a.w p 0 } else if p < 768 then { a with acc := tput a.acc (p - 512) 0 } else a

/-- A container or record of a circuit engine by its place, rewritten with zeros (log entry 8). -/
def Circuit.zeroed (g : Circuit) (p : Nat) : Circuit :=
  let g1 := { g with bad := g.bad.filter (fun w => decide (w.place ≠ p)) }
  if p < 2 ^ 20 then { g1 with values := tput g.values p 0 }
  else if p < 2 ^ 21 then { g1 with nodes := tput g.nodes (p - 2 ^ 20) 0 }
  else { g1 with params := tput g.params (p - 2 ^ 21) 0 }

/-- What the supervisor does about a word that a soft error has spoiled: it counts and reports it, and rewrites it with zeros (R342). -/
def State.repairSoft (s : State) (c x : Nat) (f : FaultRec) : State :=
  if f.code ≠ 34 then s
  else
    let s1 := s.reportSoft f.info.toNat f.addr
    let p := f.addr.toNat
    let clean (st : Nat) (s : State) : State := s.modCore c (fun k => { k with
      bad := k.bad.filter (fun w => !(w.struct == st && (st != 1 || w.ctx == x) && w.place == p)) })
    if f.info = 0 then
      match localPlace c (p % 2 ^ 32) with
      | some (d, off) =>
        if p < 2 ^ 32 then s1.writeSpad d (off / 8 * 8) 8 0
        else s1.modCore d (fun k => { k with
          timed := k.timed.map (fun e => e.zeroed off)
          bad := k.bad.filter (fun w => !(w.struct == 0 && w.place == p / 2 ^ 32 * 2 ^ 32 + off)) })
      | none => s1
    else if f.info = 1 then clean 1 (s1.modCtx c x (fun k => k.zeroed p))
    else if f.info = 2 then clean 2 (s1.modCore c (fun k => { k with array := k.array.zeroed p }))
    else s1.setCircuit (clusterOf c) ((s1.circuit (clusterOf c)).zeroed p)

/-- The soft-error faults of a list, one for each place. -/
def softFaultsOf (fs : List FaultRec) : List FaultRec :=
  fs.foldl (fun acc f => if f.code = 34 ∧ !(acc.any (fun g => g.addr == f.addr && g.info == f.info)) then acc ++ [f] else acc) []

/-- The supervisor puts the spoiled words of a list of faults right, those that no record names among them (R342). -/
def State.repairAll (s : State) (c x : Nat) (fs : List FaultRec) : State := (softFaultsOf fs).foldl (fun s f => s.repairSoft c x f) s

/-- The supervisor writes the record of a fault, whose MORE counts the others due with it, puts their spoiled words right and, for an
R-action, posts KIND 8 (R270, R275, R342). -/
def State.report (s : State) (c x σ action : Nat) (f : FaultRec) (others : List FaultRec) : State :=
  let s1 := (s.writeRecord c x σ f others.length).repairAll c x (f :: others)
  if action = 0 then s1.postCtx c x 8 f.code else s1

/-- Whether the context has refills left (R258, R265). -/
def refillLeft (l : Launch) (k : Ctx) : Bool := bitsAt (l.word 19) 0 16 == 0xFFFF || decide (k.refills < bitsAt (l.word 19) 0 16)

/-- Taking an exception: the context stops at σ = NOW for the faults due, the first of R270 governs, the record is
written, KIND 8 is posted for an R-action, and the supervisor serves it for 512 ticks (R267 to R275), from the end of an
update's pause where σ falls in one (R346). A halted context takes an R-action without a stop (R267). -/
def State.takeStop (s : State) (c x : Nat) : State :=
  let k := s.ctx c x
  let due := (k.stops.filter (fun p => decide (p.1 ≤ s.now))).map (·.2)
  match firstFault due with
  | none => s
  | some f =>
    let l := s.findLaunch k.lx
    let halted := k.status == .halted
    let others := dropFirst f due
    let again : Nat × Nat := if f.kind = 0 then (f.code, if k.again.1 = f.code then k.again.2 + 1 else 1) else k.again
    let retryOk := match l with
      | some l => l.nmod == 0 && !l.isRetry
      | none => false
    let action :=
      if f.code = 0 ∧ f.kind = 3 then (match l with
        | some l => if refillLeft l k then 3 else 4
        | none => 4)
      else if actionOf f = 0 then (if f.kind = 0 ∧ 4 ≤ again.2 then 1 else 0)
      else if actionOf f = 2 then (if retryOk then 2 else 1)
      else 1
    let begins := Nat.max s.now s.pauseTo
    let stays := halted && action == 0
    let s1 := if stays then s else s.modCore c (fun k => k.stopAt x s.now)
    let late := action != 3 && decide (s.now < begins)
    let s2 := if action = 3 ∨ late then s1 else s1.report c x s.now action f others
    s2.modCtx c x (fun k => { k with
      stops := k.stops.filter (fun p => decide (s.now < p.1))
      again := again
      service := if stays && !late then none
        else some ⟨s.now, begins, if stays then begins else begins + 512, action, f.code, if late then some (f, others) else none⟩ })

/-- The places of a context's shadow result buffer and of its save image (log entry 8). -/
def shadowPlace (x : Nat) : Nat := 1024 + x
def savePlace (x : Nat) : Nat := 1032 + x

/-- A replay or a restore reads a store of the core (structure 2) at a place: an error there that cannot be corrected is a fault of
kind A, taken in the next tick (R267, R342). -/
def State.readStore (s : State) (c x place : Nat) : State :=
  let here (w : BadWord) : Bool := w.struct == 2 && w.place == place
  if (s.core c).bad.any (fun w => here w && !w.fixable) then s.addStop c x (s.now + 1) ⟨34, 2, BitVec.ofNat 64 place, 2, 0⟩
  else s.fixBad c here

/-- Where a context stands from τ: one in a drain or a fence is ready as well as one at a bundle, and keeps the ticks it has still to
leave empty (R273, R280; log entry 44). -/
def CtxStatus.resumed (st : CtxStatus) (τ : Nat) : CtxStatus := match st with
  | .issuing => .ready τ 0 false
  | .ready _ _ counts => .ready τ 0 counts
  | .fencing fs => .fencing (fs.map (fun f => { f with notBefore := τ + f.notBefore }))
  | .draining d => .draining (τ + d)
  | st => st

/-- A context resumed at a bundle: its shadow entries wait for the tick in which that bundle issues; one whose wait is met and whose
fence does not hold yet is in the fence (R183, R273). -/
def Ctx.atBundle (c : Ctx) : Bool := match c.status with
  | .issuing => true
  | .ready _ _ _ => c.fenceLater.isEmpty
  | _ => false

/-- The return from an exception at τ = NOW; a context that was blocked, in a drain or in a fence takes its shadow entries from τ, one
resumed at a bundle at the tick that bundle issues (R273, R280). -/
def State.resumeCtx (s : State) (c x : Nat) : State :=
  let k := s.ctx c x
  let s1 := (s.readStore c x (shadowPlace x)).modCtx c x (fun k => { k with
    service := none, status := k.status.resumed s.now, backAt := some s.now })
  if k.atBundle then s1 else s1.modCore c (fun k => k.replay x s.now)

end Sys2Proof.Machine
end

