-- ==== Sys2Proof/Machine/Operands.lean ====
section
/-! DEFINITION. Operand forms: selectors (R16 to R19), destinations are `scalarFlights`; local addresses (R60, R165 to R169);
vector elements, widths and write masks (R115 to R118). -/

namespace Sys2Proof.Machine

/-- Two numbers of a record word (R268), the first named in bits [31:0], the second in [63:32] (DESIGN CHOICE, log entry 16). -/
def pack2 (a b : Nat) : Nat := a % 2 ^ 32 + b % 2 ^ 32 * 2 ^ 32

/-! ## Selectors -/

/-- The slice a slot reads (R17). -/
def sliceIx (u : SlotName) : Nat :=
  match u with
  | .sa | .c | .e => 0
  | .sb | .va | .vb => 1
  | .ma | .mx => 2
  | .mb => 3
  | .x => 4

/-- Selector `q` of slot `u` for context `c` of number `x` (R16, R18, R19). An empty head is never read: R19 faults first. -/
def readSel (c : Ctx) (x now : Nat) (lit : Word) (u : SlotName) (q : Nat) : Word :=
  if q < 16 then tget c.g 0 (16 * sliceIx u + q)
  else match q with
    | 16 | 17 | 18 | 19 | 20 | 21 => tget c.latch 0 (q - 16)
    | 22 | 23 | 24 | 25 => ((c.head (q - 22)).getD 0).setWidth 64
    | 26 => BitVec.ofNat 64 now
    | 27 => lit
    | 28 => BitVec.ofNat 64 c.rank
    | 29 => BitVec.ofNat 64 x
    | 30 => 1
    | _ => 0

/-- A selector of the bundle in the latch. -/
def State.sel (s : State) (u : SlotName) (q : BitVec 5) : Word := readSel s.cur s.iss.ctx s.now s.iss.lit u q.toNat

/-- The fault of reading the head of queue `q`, 0 QR to 3 QM, when it is empty (R19): word 4 holds the queue and its occupancy. -/
def Ctx.emptyFault (c : Ctx) (q : Nat) : Option FaultRec :=
  if c.queueReady q then none else some (bfault 4 0 (pack2 q 0))

/-- Whether a selector names the head of a queue (R16). -/
def namesQueue (q : BitVec 5) : Bool := decide (22 ≤ q.toNat) && decide (q.toNat ≤ 25)

/-- The queue fault of a list of selectors (R19). -/
def selFault (c : Ctx) (qs : List (BitVec 5)) : Option FaultRec :=
  (qs.filter namesQueue).findSome? (fun q => c.emptyFault (q.toNat - 22))

/-! ## Addresses -/

def memSlot (u : MemUnit) : SlotName := match u with
  | .ma => .ma
  | .mb => .mb
def scalarSlot (u : ScalarUnit) : SlotName := match u with
  | .sa => .sa
  | .sb => .sb
def vecSlot (u : VecUnit) : SlotName := match u with
  | .va => .va
  | .vb => .vb

/-- An A register of the bundle in the latch. -/
def State.areg (s : State) (a : BitVec 4) : Nat := (tget s.cur.a 0 a.toNat).toNat

/-- The address of a plain access: A(AR) + OFS × unit, modulo 2^32 (R60, R169). -/
def State.plainAddr (s : State) (a : BitVec 4) (o : BitVec 5) (unit : Nat) : Nat := (s.areg a + o.toNat * unit) % 2 ^ 32

/-- The bytes of a width code (R60). -/
def widthBytes (w : BitVec 2) : Nat := 32 * 2 ^ w.toNat

/-! ## Vector elements -/

def State.vreg (s : State) (i : BitVec 5) : Nat := (tget s.cur.v 0 i.toNat).toNat
/-- A K register; K0 reads as all ones (R28). -/
def State.kreg (s : State) (i : BitVec 3) : Nat := if i = 0 then 2 ^ 128 - 1 else (tget s.cur.k (BitVec.allOnes 128) i.toNat).toNat

/-- Element `i` of width `e` (R115). -/
def elem (v e i : Nat) : Nat := bitsAt v (e * i) e

/-- The bits of a list of elements of width `e`, element 0 lowest. -/
def packElems (e : Nat) (xs : List Nat) : Nat := xs.foldr (fun x acc => x % 2 ^ e + acc * 2 ^ e) 0

/-- All bits of the elements whose flag is set. -/
def packMask (e : Nat) (bs : List Bool) : Nat := packElems e (bs.map (fun b => if b then 2 ^ e - 1 else 0))

/-- The elements of width `e` within `w` bits. -/
def elems (v e w : Nat) : List Nat := (List.range (w / e)).map (elem v e)

/-- Whether element `i` of width `e` is governed by a set mask bit (R116). -/
def maskBit (k e i : Nat) : Bool := bitAt k (i * (e / 8))

/-- The write mask bits of `n` elements of width `e` (R116). -/
def writeMask (k e n : Nat) : Nat := packMask e ((List.range n).map (maskBit k e))

end Sys2Proof.Machine
end

