-- ==== Sys2Proof/Machine/Transc.lean ====
section
/-! DEFINITION. The functions R125, R160 and R229 round once: reciprocal, reciprocal square root, power of two,
logarithm to base 2, and the quarter-wave sine table. An irrational value is held as an exact fraction that lies
strictly between the same two neighbours on a grid far finer than any rounding boundary. -/

namespace Sys2Proof.Machine

/-- ⌊√n⌋ below 2^bits, one bit at a time. -/
def isqrtFrom (n : Nat) (bits : Nat) (r : Nat) : Nat :=
  match bits with
  | 0 => r
  | k + 1 => let c := r + 2 ^ k; isqrtFrom n k (if c * c ≤ n then c else r)

/-- ⌊√n⌋. -/
def isqrt (n : Nat) : Nat := isqrtFrom n (Nat.log2 n / 2 + 1) 0

/-- 1/√(n/d) for positive n, d: exact when rational on the grid, else the middle of its grid cell. The grid has at
least 70 significant bits, so it holds every rounding boundary of R40 and R43. -/
def rsqrtQ (m : Q) : Q :=
  let n := m.num.natAbs
  let d := m.den
  let k := floorLog2 n d
  let s : Nat := 72 + (if 0 ≤ k then k.toNat / 2 + 1 else 0)
  let x := d * 2 ^ (2 * s)
  let y := isqrt (x / n)
  if y * y * n = x then ⟨y, 2 ^ s⟩ else ⟨2 * y + 1, 2 ^ (s + 1)⟩

/-- Fixed-point places of the series below. -/
def fixP : Nat := 400

/-- Σ 2 / ((2k+1) 3^(2k+1)), the series of ln 2, in fixed point. -/
def ln2Terms (fuel : Nat) (k pw : Nat) : Nat :=
  match fuel with
  | 0 => 0
  | f + 1 => 2 * pw / (2 * k + 1) + ln2Terms f (k + 1) (pw / 9)

/-- ln 2 in fixed point. -/
def ln2Fix : Nat := ln2Terms 140 0 (2 ^ fixP / 3)

/-- Σ y^k / k!, y in fixed point. -/
def expTerms (fuel : Nat) (k term y : Nat) : Nat :=
  match fuel with
  | 0 => 0
  | f + 1 => term + expTerms f (k + 1) (term * y / 2 ^ fixP / (k + 1)) y

/-- 2^f for a fraction 0 < f < 1, held as the middle of a cell of 2^-380 (R125; the series is cut far below it). -/
def exp2FracQ (f : Q) : Q :=
  let y := f.num.natAbs * ln2Fix / f.den
  let s := expTerms 110 0 (2 ^ fixP) y
  ⟨(2 * (s / 2 ^ 20) + 1 : Nat), 2 ^ (fixP - 20 + 1)⟩

/-- 2^a (R125). Beyond ±20,000 the exponent is cut: every format of R36 has over- or underflowed long before. -/
def exp2Q (a : Q) : Q :=
  let i : Int := a.num / (a.den : Int)
  if 20000 ≤ i then qPow2 20000
  else if i < -20000 then qPow2 (-20000)
  else
    let f := a.num - i * a.den
    if f = 0 then qPow2 i else qMul (exp2FracQ ⟨f, a.den⟩) (qPow2 i)

/-- Bits of log2 of a fixed-point m in [1, 2), by squaring. -/
def log2Bits (fuel : Nat) (m acc : Nat) : Nat :=
  match fuel with
  | 0 => acc
  | f + 1 =>
    let q := m * m / 2 ^ 640
    if 2 ^ 641 ≤ q then log2Bits f (q / 2) (2 * acc + 1) else log2Bits f q (2 * acc)

/-- log2 of a positive fraction (R229): exact for a power of two, else the middle of a cell of 2^-160. -/
def log2Q (m : Q) : Q :=
  let n := m.num.natAbs
  let d := m.den
  let k := floorLog2 n d
  let (x, dx) : Nat × Nat := if 0 ≤ k then (n, d * 2 ^ k.toNat) else (n * 2 ^ (-k).toNat, d)
  if x = dx then qOfInt k
  else
    let fr := log2Bits 160 (x * 2 ^ 640 / dx) 0
    ⟨k * 2 ^ 161 + (2 * fr + 1 : Nat), 2 ^ 161⟩

/-- Quarter-wave table, entries 0 to 32 (R160). -/
def qWave0 : List Nat := [
  0, 6588356, 13176464, 19764076, 26350943, 32936819, 39521455, 46104602,
  52686014, 59265442, 65842639, 72417357, 78989349, 85558366, 92124163, 98686491,
  105245103, 111799753, 118350194, 124896179, 131437462, 137973796, 144504935, 151030634,
  157550647, 164064728, 170572633, 177074115, 183568930, 190056834, 196537583, 203010932,
  209476638]

/-- Quarter-wave table, entries 33 to 65 (R160). -/
def qWave1 : List Nat := [
  215934457, 222384147, 228825464, 235258165, 241682010, 248096755, 254502159, 260897982,
  267283981, 273659918, 280025552, 286380643, 292724951, 299058239, 305380268, 311690799,
  317989595, 324276419, 330551034, 336813204, 343062693, 349299266, 355522689, 361732726,
  367929144, 374111709, 380280190, 386434353, 392573967, 398698801, 404808624, 410903207,
  416982319]

/-- Quarter-wave table, entries 66 to 98 (R160). -/
def qWave2 : List Nat := [
  423045732, 429093217, 435124548, 441139496, 447137835, 453119340, 459083786, 465030947,
  470960600, 476872522, 482766489, 488642281, 494499676, 500338453, 506158392, 511959275,
  517740883, 523502998, 529245404, 534967884, 540670223, 546352205, 552013618, 557654248,
  563273883, 568872310, 574449320, 580004702, 585538248, 591049748, 596538995, 602005783,
  607449906]

/-- Quarter-wave table, entries 99 to 131 (R160). -/
def qWave3 : List Nat := [
  612871159, 618269338, 623644239, 628995660, 634323400, 639627258, 644907034, 650162530,
  655393548, 660599890, 665781362, 670937767, 676068911, 681174602, 686254647, 691308855,
  696337036, 701339000, 706314559, 711263525, 716185713, 721080937, 725949013, 730789757,
  735602987, 740388522, 745146182, 749875788, 754577161, 759250125, 763894504, 768510122,
  773096806]

/-- Quarter-wave table, entries 132 to 164 (R160). -/
def qWave4 : List Nat := [
  777654384, 782182683, 786681534, 791150767, 795590213, 799999706, 804379079, 808728167,
  813046808, 817334838, 821592095, 825818421, 830013654, 834177638, 838310216, 842411232,
  846480531, 850517961, 854523370, 858496606, 862437520, 866345964, 870221790, 874064853,
  877875009, 881652112, 885396022, 889106597, 892783698, 896427186, 900036924, 903612776,
  907154608]

/-- Quarter-wave table, entries 165 to 197 (R160). -/
def qWave5 : List Nat := [
  910662286, 914135678, 917574653, 920979082, 924348837, 927683790, 930983817, 934248793,
  937478595, 940673101, 943832191, 946955747, 950043650, 953095785, 956112036, 959092290,
  962036435, 964944360, 967815955, 970651112, 973449725, 976211688, 978936898, 981625251,
  984276646, 986890984, 989468165, 992008094, 994510675, 996975812, 999403415, 1001793390,
  1004145648]

/-- Quarter-wave table, entries 198 to 230 (R160). -/
def qWave6 : List Nat := [
  1006460100, 1008736660, 1010975242, 1013175761, 1015338134, 1017462281, 1019548121, 1021595575,
  1023604567, 1025575020, 1027506862, 1029400018, 1031254418, 1033069992, 1034846671, 1036584389,
  1038283080, 1039942680, 1041563127, 1043144360, 1044686319, 1046188946, 1047652185, 1049075980,
  1050460278, 1051805027, 1053110176, 1054375676, 1055601479, 1056787540, 1057933813, 1059040255,
  1060106826]

/-- Quarter-wave table, entries 231 to 256 (R160). -/
def qWave7 : List Nat := [
  1061133483, 1062120190, 1063066909, 1063973603, 1064840240, 1065666786, 1066453210, 1067199483,
  1067905576, 1068571464, 1069197120, 1069782521, 1070327646, 1070832474, 1071296985, 1071721163,
  1072104991, 1072448455, 1072751542, 1073014240, 1073236540, 1073418433, 1073559913, 1073660973,
  1073721611, 1073741824]

/-- Q[x]: the integer nearest to 2^30 sin(πx/512), x = 0 to 256 (R160). -/
def qWave : List Nat := qWave0 ++ qWave1 ++ qWave2 ++ qWave3 ++ qWave4 ++ qWave5 ++ qWave6 ++ qWave7

/-- The factors 2^(15 - j/8), j = 0 to 7, of R160. -/
def rotT : List Nat := [32768, 30048, 27554, 25268, 23170, 21247, 19484, 17867]

/-- sin of a fixed-point angle in turns × 2^32, as FP32 (R160). -/
def qsin (a : Nat) : Nat :=
  let q := bitsAt a 30 2
  let phi0 := a % 2 ^ 30
  let phi := if q % 2 = 1 then 2 ^ 30 - phi0 else phi0
  let x := phi / 2 ^ 22
  let f := phi % 2 ^ 22
  let m := if x = 256 then qWave.getD 256 0
    else qWave.getD x 0 + (qWave.getD (x + 1) 0 - qWave.getD x 0) * f / 2 ^ 22
  (roundMag fmtF .rn (decide (2 ≤ q) && decide (m ≠ 0)) ⟨m, 2 ^ 30⟩).1

/-- The angle of R160 for a row and a column. -/
def rotTheta (row col p0 p1 : Nat) : Nat :=
  let p := col / 2
  let s := p1 % 256
  let sh := 15 + p * s / 8
  let f := if 63 < sh then 0 else p0 * rotT.getD (p * s % 8) 0 / 2 ^ sh
  row * f % 2 ^ 32

def rotSin (row col p0 p1 : Nat) : Nat := qsin (rotTheta row col p0 p1)
def rotCos (row col p0 p1 : Nat) : Nat := qsin ((rotTheta row col p0 p1 + 2 ^ 30) % 2 ^ 32)

/-- g = round_rn_fp32(10^d) as an exact value (R48, R303). -/
def scaleG (d : Int) : FV := fdecode fmtF (rnF (qPow10 d))

end Sys2Proof.Machine
end

