-- ==== Sys2Proof/Machine/Flags.lean ====
section
/-! DEFINITION. Conditions (R59, R66, R127), the fields of FMT (R45, R46), effective rounding modes and the draws of
stochastic rounding (R40, R43, R121, R159). -/

namespace Sys2Proof.Machine

/-- The condition of a scalar compare (R59). -/
def scalarCond (code : Nat) (a b : Word) : Bool :=
  match code with
  | 0 => a == b
  | 1 => a != b
  | 2 => a.slt b
  | 3 => !(a.slt b)
  | 4 => a.ult b
  | 5 => !(a.ult b)
  | 6 => a.getLsbD (b.toNat % 64)
  | _ => !(a.getLsbD (b.toNat % 64))

/-- The condition of vcmp on integers (R66, R127). -/
def intCond (code : Nat) (a b : Int) : Bool :=
  match code with
  | 0 => a == b
  | 1 => a != b
  | 2 => decide (a < b)
  | 3 => decide (a ≤ b)
  | 4 => decide (b < a)
  | _ => decide (b ≤ a)

/-- a equals b, −0 equal to +0. -/
def fvEqual (a b : FV) : Bool := !(ltV a b) && !(ltV b a) || (fvIsZero a && fvIsZero b)
/-- a less than b, −0 not less than +0. -/
def fvLess (a b : FV) : Bool := ltV a b && !(fvIsZero a && fvIsZero b)

/-- The condition of vcmp on floats, with NV (R66, R127). -/
def floatCond (code : Nat) (a b : FV) : Bool × Flags :=
  let nan := fvIsNaN a || fvIsNaN b
  let sig := fvSignalling a || fvSignalling b
  match code with
  | 0 => (!nan && fvEqual a b, flIf sig flNV)
  | 1 => (nan || !(fvEqual a b), flIf sig flNV)
  | 2 => (!nan && fvLess a b, flIf nan flNV)
  | 3 => (!nan && (fvLess a b || fvEqual a b), flIf nan flNV)
  | 4 => (!nan && fvLess b a, flIf nan flNV)
  | 5 => (!nan && (fvLess b a || fvEqual a b), flIf nan flNV)
  | 6 => (nan, flIf sig flNV)
  | _ => (!nan, flIf sig flNV)

/-! ## FMT (R45) -/

def fmtRmode (f : BitVec 32) : Nat := bitsAt f.toNat 0 3
def fmtAfmt (f : BitVec 32) : Nat := bitsAt f.toNat 4 4
def fmtBfmt (f : BitVec 32) : Nat := bitsAt f.toNat 8 4
def fmtScaled (f : BitVec 32) : Bool := bitAt f.toNat 12

/-- Field `b` of a pointer register (R149). -/
def ptrField (r : BitVec 32) (b len : Nat) : Nat := bitsAt r.toNat (8 * b) len

/-- The generator register a push or a shift reads (R148). -/
def gpsOf (c : Ctx) : Nat := bitsAt c.gsel.toNat 0 3
def glsOf (c : Ctx) : Nat := bitsAt c.gsel.toNat 4 3

/-- The value a write of the whole register stores: reserved bits 0, RMODE 5 to 7 stored as 0 (R45, R162). -/
def fmtStore (v : Nat) : BitVec 32 :=
  let w := BitVec.ofNat 32 v &&& 0x001F1FF7#32
  if 5 ≤ bitsAt v 0 3 then w &&& 0xFFFFFFF8#32 else w

/-! ## Rounding modes -/

/-- The code an instruction rounds by: code 5 takes FMT.RMODE (R40, R46). -/
def effCode (code : Nat) (fmt : BitVec 32) : Nat := if code = 5 then fmtRmode fmt else code

/-- A mode from its code; `draw` serves stochastic rounding (R40, R43). -/
def modeOf (code draw : Nat) : RMode :=
  match code with
  | 1 => .rz
  | 2 => .ru
  | 3 => .rd
  | 4 => .rs draw
  | _ => .rn

/-- SEED and TID of a generator register (R157). -/
def eSeed (e : BitVec 256) : Word := e.setWidth 64
def eTid (e : BitVec 256) : Nat := bitsAt e.toNat 64 16

/-- The effective seed of a generator register: high and low words (R159). -/
def effSeed (lseed : Word) (e : BitVec 256) (rank : Nat) : BitVec 32 × BitVec 32 :=
  let lo := BitVec.ofNat 32 lseed.toNat ^^^ BitVec.ofNat 32 e.toNat ^^^ BitVec.ofNat 32 (eTid e)
  let hi := BitVec.ofNat 32 (lseed.toNat / 2 ^ 32) ^^^ BitVec.ofNat 32 (e.toNat / 2 ^ 32)
    ^^^ (if bitAt e.toNat 229 then BitVec.ofNat 32 rank else 0)
  (hi, lo)

/-- The stochastic seed of a context: of the register GSS names (R148, R159). -/
def Ctx.sr (c : Ctx) : BitVec 32 × BitVec 32 := effSeed c.lseed (tget c.e 0 (bitsAt c.gsel.toNat 8 3)) c.rank

/-- The draw h[31:8] of R43. -/
def drawOf (sr : BitVec 32 × BitVec 32) (wc row col : Nat) : Nat :=
  (mix sr.1 (sr.2 ^^^ BitVec.ofNat 32 wc) (BitVec.ofNat 32 row) (BitVec.ofNat 32 col)).toNat / 2 ^ 8

end Sys2Proof.Machine
end

