-- ==== Sys2Proof/Machine/Access.lean ====
section
/-! DEFINITION. Memory accesses of the MA and MB slots: where an address goes, which forms a region admits, the faults
judged at issue (R60 to R62, R73, R74, R142, R145, R146, R165 to R182, R193 to R200), and the access's effect. -/

namespace Sys2Proof.Machine

/-- The access forms of R61. -/
inductive MForm where
  | load | tc | nb | store | va | amo
  deriving DecidableEq, Repr

/-- An access as a bundle issues it: `arg` is the tag, the tick or the atomic's opcode, `data` what it writes. -/
structure MReq where
  u    : MemUnit
  form : MForm
  vec  : Bool
  size : Nat
  addr : Nat
  arg  : Nat
  data : VWord
  deriving DecidableEq, Repr

def MForm.reads (f : MForm) : Bool := match f with
  | .load | .tc | .nb => true
  | _ => false

/-- The register of the array window that holds the `n` bytes at offset `off`: its base and width (R145, R146). -/
def aregOf (off n : Nat) : Option (Nat × Nat) :=
  let cand : Option (Nat × Nat) :=
    if off < 0x14 then some (off / 4 * 4, 4)
    else if 0x20 ≤ off ∧ off < 0x30 then some (off / 4 * 4, 4)
    else if 0x30 ≤ off ∧ off < 0x38 then some (0x30, 8)
    else if 0x40 ≤ off ∧ off < 0x60 then some (off / 8 * 8, 8)
    else if 0x100 ≤ off ∧ off < 0x200 then some (off / 32 * 32, 32)
    else if 0x200 ≤ off ∧ off < 0x208 then some (0x200, 8)
    else if 0x208 ≤ off ∧ off < 0x20C then some (0x208, 4)
    else none
  match cand with
  | some (b, w) => if off + n ≤ b + w then some (b, w) else none
  | none => none

/-- The value of a register of the array window (R145 to R148, R157). -/
def aregValue (k : Core) (c : Ctx) (base : Nat) : Nat :=
  let a := k.array
  match base with
  | 0x00 => a.actl.toNat
  | 0x04 => a.aptr.toNat
  | 0x08 => a.dptr.toNat
  | 0x0C => a.lptr.toNat
  | 0x10 => a.awc.toNat
  | 0x30 => a.arec.toNat
  | 0x200 => c.lseed.toNat
  | 0x208 => c.gsel.toNat
  | b =>
    if b < 0x30 then (tget a.drow 0 ((b - 0x20) / 4)).toNat
    else if b < 0x60 then (tget a.lrec 0 ((b - 0x40) / 8)).toNat
    else (tget c.e 0 ((b - 0x100) / 32)).toNat

/-- The bytes of the HCW window from an offset: entries, then validity maps (R73). -/
def hcwRead (k : Core) (off n : Nat) : Nat :=
  if off < 0x10000 then
    let c := k.ctx (off / 0x4000)
    bitsAt (tget c.hcw 0 (off % 0x4000 / 32)).toNat (8 * (off % 32)) (8 * Nat.min n (32 - off % 32))
    + (if off % 32 + n ≤ 32 then 0 else
        -- a vector load may run over several entries of one table
        (List.range (n / 32)).foldr (fun i acc =>
          if i = 0 then acc else acc + (tget c.hcw 0 (off % 0x4000 / 32 + i)).toNat * 2 ^ (256 * i)) 0)
  else
    let o := off - 0x10000
    -- the maps of the four contexts stand one after another
    let all := (List.range 4).foldr (fun x acc => (k.ctx x).hcwValid.toNat + acc * 2 ^ 512) 0
    bitsAt all (8 * o) (8 * n)

/-- The value of a barrier-window register, by the offset of its 8-byte register (R179). -/
def barRead (k : Core) (off n : Nat) : Nat :=
  let reg := off / 8 * 8
  let v : Nat :=
    if reg < 0x400 then
      let b := tget k.barriers Barrier.reset (reg / 32)
      if reg % 32 = 0 then b.expect.toNat + b.mirror.toNat * 2 ^ 16
      else if reg % 32 = 8 then b.arrived + (if b.gen then 2 ^ 16 else 0)
      else b.pend
    else (k.ctx ((reg - 0xF800) / 8)).estat.toNat
  bitsAt v (8 * (off % 8)) (8 * n)

/-- Whether the barrier window admits a plain load (R179): its bytes lie within one readable register. -/
def barLoadOk (off n : Nat) : Bool :=
  decide (off % 8 + n ≤ 8) &&
  (decide (off < 0x400) && decide (off % 32 < 24) || decide (0xF800 ≤ off ∧ off < 0xF820))

/-- What a store to the barrier window does; none where it is not admitted (R179). `x` is the accessing context. -/
def barStoreOf (x : Nat) (r : MReq) : Option (Option Nat × BarStore) :=
  let off := r.addr - 0x04000000
  let v : Word := r.data.setWidth 64
  if r.vec || !(r.form == .store) then none
  else if r.size = 8 then
    if off < 0x400 then
      (if off % 32 = 0 then some (none, .bcfg (off / 32) v)
       else if off % 32 = 24 then some (none, .barr (off / 32) (bitsAt v.toNat 0 16))
       else none)
    else if 0x1000 ≤ off ∧ off < 0x3000 then
      (if off % 32 = 24 then some (some ((off - 0x1000) / 0x400), .barr ((off - 0x1000) % 0x400 / 32) (bitsAt v.toNat 0 16))
       else none)
    else if 0xF800 ≤ off ∧ off < 0xF820 then some (none, .estat ((off - 0xF800) / 8) v)
    else none
  else if r.size = 4 ∧ off = 0xF000 + 4 * x then some (none, .release x (r.data.setWidth 32))
  else none

/-- Whether a st.64 or a vst writes word 15 of a message buffer (R175). -/
def MReq.closes (r : MReq) : Bool :=
  r.form == .store && (r.vec || r.size == 8) && decide (0x02000000 ≤ r.addr ∧ r.addr < 0x02000200) && decide (0x78 < r.addr % 128 + r.size)

/-- The region fault of an access, judged at issue (R74, R142, R146, R165, R175, R179). A tag-checked load of the HCW window, which has no
frames and so no tag, takes the window fault (log entry 69), and so does a load of the array window that meets two of its registers (log
entry 81); a form that a window does not admit takes the window fault alone, whoever owns the array (log entry 82). -/
def regionFault (s : State) (r : MReq) : List FaultRec :=
  let c := s.iss.core
  let x := s.iss.ctx
  let k := s.core c
  let w := [bfault 10 r.addr 0]
  let a := r.addr
  if (localPlace c a).isSome then []
  else if 0x02000000 ≤ a ∧ a < 0x02000200 then
    match r.form with
    | .load => []
    | .store => if r.vec || r.size == 8 then [] else w
    | _ => w
  else if 0x03000000 ≤ a ∧ a < 0x04000000 then
    let off := a - 0x03000000
    match r.form with
    | .load | .nb => if off + r.size ≤ 0x10100 then [] else w
    | .store => if r.vec && r.size == 32 && decide (off < 0x10000) then [] else w
    | _ => w
  else if 0x04000000 ≤ a ∧ a < 0x05000000 then
    match r.form with
    | .load => if barLoadOk (a - 0x04000000) r.size then [] else w
    | .store => if (barStoreOf x r).isSome then [] else w
    | _ => w
  else if 0x05000000 ≤ a ∧ a < 0x06000000 then
    let off := a - 0x05000000
    match r.form with
    | .load =>
      if off < 0x200 ∧ off % 128 + r.size ≤ 128 then
        (match (k.ctx x).emptyFault (off / 128) with
         | some f => [f]
         | none => [])
      else w
    | _ => w
  else if 0x06000000 ≤ a ∧ a < 0x07000000 then
    let off := a - 0x06000000
    match aregOf off r.size with
    | none => w
    | some (b, n) =>
      match r.form with
      | .load => []
      | .store =>
        if off = b ∧ r.size = n ∧ b < 0x200 ∧ (r.vec ↔ n = 32) then
          (if b < 0x100 ∧ k.arrayOwner ≠ some x then [bfault 5 0 (k.arrayOwner.getD 4)] else [])
        else w
      | _ => w
  else [bfault 9 a 0]

/-- The ownership fault of an own-scratchpad address (R199). -/
def ownFault (k : Core) (x a : Nat) : List FaultRec :=
  if a < spadSize ∧ !(k.owns x (bankOf a)) then [bfault 11 a (pack2 (bankOf a) (tget k.own 0 (bankOf a)))] else []

/-- The tick at which an access performs (R167, R172). -/
def performTick (now addr : Nat) : Nat := if 0x01000000 ≤ addr ∧ addr < 0x02000000 then now + 4 else now + 1

/-- Whether a release of banks has to fault: banks still to be accessed at `t` or later (R200). -/
def bankBusy (s : State) (c x b t : Nat) : Bool :=
  ((s.core c).resv.any (fun r => r.bank == b && decide (r.cmd ≠ 0) && r.core == c && r.ctx == x && decide (t ≤ r.tick)))
  || ((s.core c).timed.any (fun e => bankOf e.addr == b && decide (t ≤ e.vis)))

/-- A timed store of the bundle itself puts an entry into a bank before the release is judged: it stands in MA, the release in MB
(R172, R200). -/
def entersBank (s : State) (release st : MReq) (b : Nat) : Bool :=
  release.u == .mb && st.u == .ma && st.form == .va && decide (s.now + 4 ≤ st.arg)
  && (match localPlace s.iss.core st.addr with
      | some (d, off) => d == s.iss.core && bankOf off == b
      | none => false)

/-- The bank-release fault of a store to the release word beside the other accesses `rs` of its bundle (R200). -/
def releaseFault (s : State) (rs : List MReq) (r : MReq) : List FaultRec :=
  match barStoreOf s.iss.ctx r with
  | some (_, .release x m) =>
    let k := s.core s.iss.core
    if (List.range 32).any (fun b => m.getLsbD b && k.owns x b
        && (bankBusy s s.iss.core x b (s.now + 4) || rs.any (fun st => entersBank s r st b)))
    then [bfault 12 0 m.toNat] else []
  | _ => []

/-- The faults of one access judged alone at its issue (R74, R142, R146, R165, R166, R170 to R173, R199). -/
def memFaults (s : State) (r : MReq) : List FaultRec :=
  let c := s.iss.core
  let x := s.iss.ctx
  let p := performTick s.now r.addr
  let align := if r.size ≠ 0 ∧ r.addr % r.size ≠ 0 then [bfault 8 r.addr r.size] else []
  let storage := (localPlace c r.addr).isSome
  let timed :=
    match localPlace c r.addr, r.form with
    | some (d, off), .tc =>
      let tag := (tget (s.core d).tags 0 (frameOf off)).toNat
      if tag ≠ r.arg % 2 ^ 16 then [bfault 14 r.addr (pack2 (r.arg % 2 ^ 16) tag)] else []
    | _, .nb => if p < r.arg then [bfault 15 r.addr r.arg] else []
    | some _, .va => if r.arg < p then [bfault 16 r.addr r.arg] else []
    | _, _ => []
  align ++ regionFault s r ++ (if storage then ownFault (s.core c) x r.addr else []) ++ timed

/-- An engine-side slot an issuing bundle asks for (R194): core, bank, tick, write, and the local address. -/
structure PortReq where
  core : Nat
  bank : Nat
  tick : Nat
  write : Bool
  addr : Nat
  deriving DecidableEq, Repr

/-- The engine-side slots of an access: the peer path, and the write of a timed entry (R168, R194). -/
def memPorts (s : State) (r : MReq) : List PortReq :=
  match localPlace s.iss.core r.addr with
  | none => []
  | some (d, off) =>
    let b := bankOf off
    match r.form with
    | .va => [⟨d, b, r.arg, true, r.addr⟩]
    | f =>
      if r.addr < spadSize then []
      else if f.reads then [⟨d, b, s.now + 4, false, r.addr⟩]
      else if f = .amo then [⟨d, b, s.now + 4, false, r.addr⟩, ⟨d, b, s.now + 4, true, r.addr⟩]
      else [⟨d, b, s.now + 4, true, r.addr⟩]

/-- Reserves the slots a bundle asked for (R194). -/
def State.reservePorts (s : State) (ps : List PortReq) : State :=
  let put (s : State) (p : PortReq) : State :=
    s.modCore p.core (fun k => k.reserve ⟨p.bank, p.tick, p.write, 0, s.iss.core, s.iss.ctx⟩)
  ps.foldl put s

/-- A read word as a load lands it: sign- or zero-extended to 64 bits, or a vector part (R169). -/
def extendLoad (vec sext : Bool) (size v : Nat) : VWord :=
  if vec then BitVec.ofNat 1024 v
  else if sext then BitVec.ofNat 1024 (ofSigned 64 (toSigned (8 * size) v))
  else BitVec.ofNat 1024 v

/-- The landing of a load by its address (R167). -/
def loadLat (addr : Nat) : Nat := if 0x01000000 ≤ addr ∧ addr < 0x02000000 then 9 else 4

/-- Where an access that performs later goes (R165). -/
def targetOf (c addr : Nat) : Target :=
  match localPlace c addr with
  | some (d, off) => .spad d off
  | none =>
    if addr < 0x03000000 then .msg (addr - 0x02000000)
    else if addr < 0x04000000 then .hcw (addr - 0x03000000)
    else .bar (addr - 0x04000000)

/-- Puts the flights of a load into flight, marked as a load's (R183). -/
def State.flyLoad (s : State) (fs : List Flight) : State := s.fly (fs.map (fun f => { f with src := 3 }))

/-- Issues a load: `fl lat fid value` gives its flights (R142, R146, R167, R169). -/
def State.issueLoad (s : State) (r : MReq) (sext : Bool) (fl : Nat → Nat → VWord → List Flight) : State :=
  let c := s.iss.core
  let x := s.iss.ctx
  let a := r.addr
  if 0x05000000 ≤ a ∧ a < 0x06000000 then
    let off := a - 0x05000000
    let h : Nat := ((s.cur.head (off / 128)).getD 0).toNat
    s.flyLoad (fl 4 0 (extendLoad r.vec sext r.size (bitsAt h (8 * (off % 128)) (8 * r.size))))
  else if 0x06000000 ≤ a ∧ a < 0x07000000 then
    let off := a - 0x06000000
    match aregOf off r.size with
    | some (b, _) =>
      s.flyLoad (fl 4 0 (extendLoad r.vec sext r.size (bitsAt (aregValue (s.core c) s.cur b) (8 * (off - b)) (8 * r.size))))
    | none => s
  else
    let acc : Access := ⟨performTick s.now a, s.now, c, x, r.u == .mb, targetOf c a, .load s.nextId sext, r.size, 0, r.vec, 0,
      if r.form == .nb then some r.arg else none⟩
    let s1 := s.reservePorts (memPorts s r)
    { s1.flyLoad (fl (loadLat a) s.nextId 0) with nextId := s.nextId + 1, accesses := s1.accesses ++ [acc] }

/-- Issues an atomic (R173): `fl` gives the flights of the old value. -/
def State.issueAmo (s : State) (r : MReq) (op : Nat) (fl : Nat → Nat → VWord → List Flight) : State :=
  let c := s.iss.core
  let acc : Access := ⟨performTick s.now r.addr, s.now, c, s.iss.ctx, r.u == .mb, targetOf c r.addr, .amo s.nextId op, 8, r.data, false, 0, none⟩
  let s1 := s.reservePorts (memPorts s r)
  { s1.flyLoad (fl (loadLat r.addr) s.nextId 0) with nextId := s.nextId + 1, accesses := s1.accesses ++ [acc] }

/-- Issues a plain or vector store (R75, R146, R167, R169, R175, R179). Each store that writes word 15 of a message buffer sends a packet,
also where two of one bundle write it (R176; log entry 70). -/
def State.issueStore (s : State) (r : MReq) : State :=
  let c := s.iss.core
  let x := s.iss.ctx
  let a := r.addr
  if 0x03000000 ≤ a ∧ a < 0x04000000 then
    let off := a - 0x03000000
    s.fly [⟨0, s.now, s.now + 4, 2, .hcw (off / 0x4000) (off % 0x4000 / 32), r.data, lowMask 256, 0⟩]
  else if 0x04000000 ≤ a ∧ a < 0x05000000 then
    match barStoreOf x r with
    | some (none, b) =>
      let banks (k : Core) : List Nat := match b with
        | .release y m => if s.scrubs c y then (List.range 32).filter (fun i => m.getLsbD i && k.owns y i) else []
        | _ => []
      s.modCore c (fun k => { k.planScrubs (banks k) (s.now + 4) with barStores := k.barStores ++ [⟨s.now + 4, s.now, c, x, b⟩] })
    | some (some p, b) =>
      s.modCore (peerCore c p) (fun k => { k with barStores := k.barStores ++ [⟨s.now + 8, s.now, c, x, b⟩] })
    | none => s
  else if 0x06000000 ≤ a ∧ a < 0x07000000 then
    let off := a - 0x06000000
    if 0x100 ≤ off then s.fly [⟨0, s.now, s.now + 4, 2, .e ((off - 0x100) / 32), r.data, lowMask 256, 0⟩]
    else s.fly [⟨0, s.now, s.now + 4, 2, .areg off, r.data, lowMask (8 * r.size), 0⟩]
  else
    let acc : Access := ⟨performTick s.now a, s.now, c, x, r.u == .mb, targetOf c a, .store, r.size, r.data, r.vec, 0, none⟩
    let s1 := s.reservePorts (memPorts s r)
    let msg : Msg := ⟨c, x, (a - 0x02000000) / 128, s.now + 1, false, 0, 0, 0, 0, s.cur.lx⟩
    { s1 with accesses := s1.accesses ++ [acc], msgs := if r.closes then s1.msgs ++ [msg] else s1.msgs }

/-- Issues a visible-at store into the timed-write buffer of its bank (R172). -/
def State.issueTimed (s : State) (r : MReq) : State :=
  match localPlace s.iss.core r.addr with
  | some (d, off) =>
    let e : TimedEntry := ⟨r.arg, performTick s.now r.addr, s.now, s.iss.core, s.iss.ctx, r.u == .mb, off, r.size, r.data⟩
    (s.reservePorts (memPorts s r)).modCore d (fun k => { k with timed := k.timed ++ [e] })
  | none => s

/-! ## Where an access performs (R167, R173) -/

/-- The five atomics (R173). -/
def amoResult (op : Nat) (old b : Word) : Word :=
  match op with
  | 20 => old + b
  | 21 => old &&& b
  | 22 => old ||| b
  | 23 => if old.slt b then b else old
  | _ => b

/-- The bytes of a context's message buffers at an offset, word by word (R175). -/
def msgRead (c : Ctx) (off n : Nat) : Nat :=
  let w := (List.range (n / 8 + 1)).foldr (fun i acc => (tget c.msgbuf 0 (off / 8 + i)).toNat + acc * 2 ^ 64) 0
  bitsAt w (8 * (off % 8)) (8 * n)

/-- Writes whole words of a context's message buffers (R175). -/
def msgWrite (c : Ctx) (off n : Nat) (v : VWord) : Ctx :=
  let put (t : Table Word) (i : Nat) : Table Word := tput t (off / 8 + i) (BitVec.ofNat 64 (bitsAt v.toNat (64 * i) 64))
  { c with msgbuf := (List.range (n / 8)).foldl put c.msgbuf }

/-- The scratchpad bytes a read performing in tick `t` sees: with every timed entry of that tick (R172, log entry 4). -/
def readTimed (k : Core) (t a n : Nat) : Nat :=
  let m := k.timed.foldl (fun m e => if e.vis = t then mwriteN m e.addr e.size e.data.toNat else m) k.spad
  mreadN m a n

/-- The scratchpad bytes an engine-side read of tick `t` sees: where the write of its bank in that tick was reserved first, the bytes
that write, a timed entry or a store on the peer path, puts there (R194, R211); a write into a bank that is scrubbed puts nothing there
(R202). -/
def State.readEngine (s : State) (d a n : Nat) : Nat :=
  let k := s.core d
  if k.writeFirst (bankOf a) s.now && !(k.scrubbing (bankOf a) s.now) then
    let m := k.timed.foldl (fun m e => if e.vis = s.now then mwriteN m e.addr e.size e.data.toNat else m) k.spad
    mreadN (s.accesses.foldl (fun m x => match x.target, x.kind with
      | .spad c off, .store => if c = d ∧ x.perform ≤ s.now ∧ x.issued + 4 ≤ x.perform then mwriteN m off x.size x.data.toNat else m
      | _, _ => m) m) a n
  else mreadN k.spad a n

/-- What an access reads. -/
def State.accessRead (s : State) (a : Access) : Nat :=
  match a.target with
  | .spad d off => readTimed (s.core d) s.now off a.size
  | .msg off => msgRead (s.ctx a.core a.ctx) off a.size
  | .hcw off => hcwRead (s.core a.core) off a.size
  | .bar off => barRead (s.core a.core) off a.size

/-- A value reaches the flights of a load, in the context or in its saved image (R271, R279). -/
def State.fillLoad (s : State) (a : Access) (fid : Nat) (v : VWord) : State :=
  s.modCore a.core (fun k =>
    { k.setCtx a.ctx ((k.ctx a.ctx).fill fid v) with
      saved := k.saved.map (fun p => if p.1 = a.ctx then (p.1, p.2.fill fid v) else p) })

/-- An access takes the peer path (R167, R168). -/
def Access.peerPath (a : Access) : Bool := decide (a.issued + 4 ≤ a.perform)

/-- The write of an access into a scratchpad. One on the peer path that meets the scrub of its bank finds the slot gone, though it had
reserved it before: it writes nothing, and its context takes the port-reservation fault in the next tick (R194, R202; log entry 65). -/
def State.writeAccess (s : State) (a : Access) (d off n v : Nat) : State :=
  if a.peerPath && (s.core d).scrubbing (bankOf off) s.now then
    if (s.ctx a.core a.ctx).lx = 0 then s
    else s.addStop a.core a.ctx (s.now + 1)
      ⟨13, 2, BitVec.ofNat 64 (localName a.core d off), BitVec.ofNat 64 (pack2 (bankOf off) s.now), 0⟩
  else s.writeSpad d off n v

/-- Performs one access in its tick. -/
def State.performAccess (s : State) (a : Access) : State :=
  match a.kind with
  | .load fid sext => s.fillLoad a fid (extendLoad a.vec sext a.size (s.accessRead a))
  | .amo fid op =>
    match a.target with
    | .spad d off =>
      let old : Word := BitVec.ofNat 64 (s.readSpad d off 8)
      (s.writeAccess a d off 8 (amoResult op old (a.data.setWidth 64)).toNat).fillLoad a fid (old.setWidth 1024)
    | _ => s
  | .store =>
    match a.target with
    | .spad d off =>
      let s1 := s.writeAccess a d off a.size a.data.toNat
      if a.fl = 0 then s1 else s1.modCtx a.core a.ctx (fun c => c.raise a.fl)
    | .msg off => s.modCtx a.core a.ctx (fun c => msgWrite c off a.size a.data)
    | _ => s

/-- The rank of an access in a tick (R167): reads, atomics, (timed entries,) writes; then core, then MA before MB. -/
def accessRank (a : Access) : Nat :=
  (match a.kind with
   | .load _ _ => 0
   | .amo _ _ => 1
   | .store => 2) * 1024 + a.core % 256 * 2 + (if a.mb then 1 else 0)

/-- Inserts an access in rank order, after those of its rank. -/
def insertAccess (a : Access) (l : List Access) : List Access :=
  match l with
  | [] => [a]
  | b :: r => if accessRank a < accessRank b then a :: b :: r else b :: insertAccess a r

/-- Performs the accesses due that satisfy `ok`, in the order of R167. -/
def State.performWhere (s : State) (ok : Access → Bool) : State :=
  let due := (s.accesses.filter (fun a => decide (a.perform ≤ s.now) && ok a)).foldl (fun l a => insertAccess a l) []
  let s1 := { s with accesses := s.accesses.filter (fun a => !(decide (a.perform ≤ s.now) && ok a)) }
  due.foldl (fun s a => s.performAccess a) s1

/-- The same for accesses of a kind. -/
def State.performDue (s : State) (ok : AccKind → Bool) : State := s.performWhere (fun a => ok a.kind)

/-- A TIMED command writes some of `n` bytes of a scratchpad in this tick, its VAT (R186). -/
def State.timedEngine (s : State) (d off n : Nat) : Bool :=
  s.eops.any (fun e => decide (e.tick ≤ s.now) && (match e.act, s.findCmd e.cmd with
    | .wrLocal c a k _ _, some m => c == d && decide (a < off + n) && decide (off < a + k) && m.w0.getLsbD 8
    | _, _ => false))

/-- A load on the peer path whose slot was reserved before the engine-side write of its bank in this tick: it reads before the engines
act (R194, R211), unless it is a not-before load of this tick that a TIMED write of it meets: the pair orders the write first (R213, R216). -/
def State.readsEarly (s : State) (a : Access) : Bool :=
  match a.target, a.kind with
  | .spad d off, .load _ _ => a.peerPath && !((s.core d).writeFirst (bankOf off) s.now)
      && !(a.notBefore == some s.now && s.timedEngine d off a.size)
  | _, _ => false

/-- Such loads are due in this tick. -/
def State.earlyDue (s : State) : Bool := s.accesses.any (fun a => decide (a.perform ≤ s.now) && s.readsEarly a)

end Sys2Proof.Machine
end

