-- ==== Sys2Proof/Machine/Record.lean ====
section
/-! DEFINITION. Engine command records (R184 to R190): their fields, and the checks `e.sub` makes at submission. -/

namespace Sys2Proof.Machine

/-! ## Word 0 (R185) -/

def rcClass (w0 : Nat) : Nat := bitsAt w0 0 4
def rcOp (w0 : Nat) : Nat := bitsAt w0 4 4
def rcTimed (w0 : Nat) : Bool := bitAt w0 8
def rcStrict (w0 : Nat) : Bool := bitAt w0 9
def rcTchk (w0 : Nat) : Bool := bitAt w0 10
def rcBaren (w0 : Nat) : Bool := bitAt w0 11
def rcBar (w0 : Nat) : Nat := bitsAt w0 12 5
def rcBcore (w0 : Nat) : Nat := bitsAt w0 17 3
def rcStart (w0 : Nat) : Nat := bitsAt w0 32 32

/-- LOCAL of an address word, and its address (R185). -/
def awLocal (w : Nat) : Bool := bitAt w 63
def awAddr (w : Nat) : Nat := if awLocal w then bitsAt w 0 32 else bitsAt w 0 56

def Cmd.c0 (c : Cmd) : Nat := c.w0.toNat
def Cmd.c1 (c : Cmd) : Nat := c.w1.toNat
def Cmd.c2 (c : Cmd) : Nat := c.w2.toNat
def Cmd.c3 (c : Cmd) : Nat := c.w3.toNat
def Cmd.cls (c : Cmd) : Nat := rcClass c.c0
def Cmd.op (c : Cmd) : Nat := rcOp c.c0
/-- LEN of a copy, in 128-byte units (R186). -/
def Cmd.len (c : Cmd) : Nat := if bitsAt c.c3 0 16 = 0 then 65536 else bitsAt c.c3 0 16
/-- First channel and number of channels of a cellar launch (R190). -/
def Cmd.ch (c : Cmd) : Nat := bitsAt c.c1 0 8
def Cmd.nch (c : Cmd) : Nat := if bitsAt c.c1 8 8 = 0 then 256 else bitsAt c.c1 8 8

/-- Row bytes, sectors per row, rows, BASE, IDX and DST of a gather. -/
def Cmd.rowBytes (m : Cmd) : Nat := 32 * 2 ^ bitsAt m.c3 16 3
def Cmd.rowSectors (m : Cmd) : Nat := 2 ^ bitsAt m.c3 16 3
def Cmd.rows (m : Cmd) : Nat := bitsAt m.c3 0 16
def Cmd.gBase (m : Cmd) : Nat := bitsAt m.c1 0 56
def Cmd.gIdx (m : Cmd) : Nat := bitsAt m.c2 0 32
def Cmd.gDst (m : Cmd) : Nat := bitsAt m.c2 32 32

/-- The address of a row by its index. -/
def Cmd.rowVa (m : Cmd) (idx : Nat) : Nat := (m.gBase + idx * m.rowBytes) % 2 ^ 56

/-- STAG and ETAG by class (R186 to R190). -/
def Cmd.stag (c : Cmd) : Nat :=
  match c.cls with
  | 0 => bitsAt c.c3 16 16
  | 1 => bitsAt c.c3 19 16
  | 2 => bitsAt c.c3 16 16
  | 3 => bitsAt c.c3 26 16
  | _ => bitsAt c.c3 32 16
def Cmd.etag (c : Cmd) : Nat :=
  match c.cls with
  | 0 => bitsAt c.c3 32 16
  | 1 => bitsAt c.c3 35 16
  | 2 => bitsAt c.c3 0 16
  | 3 => bitsAt c.c3 42 16
  | _ => bitsAt c.c3 48 16

/-- The engines a command goes to, by number within its class (R184): the core's copy engine, the cluster's gather or circuit engine,
the die's collective engine, the cellar engines of its channels. -/
def Cmd.engines (m : Cmd) : List Nat :=
  match m.cls with
  | 0 => [m.core]
  | 1 | 2 => [clusterOf m.core]
  | 3 => [dieOf m.core]
  | _ => (List.range m.nch).map (fun i => m.ch + i)

/-- Some engine that a command goes to already holds 16 commands not begun (R184). -/
def State.engineFull (s : State) (m : Cmd) : Bool :=
  m.engines.any (fun e => decide (16 ≤ (s.cmds.filter (fun d => d.phase == 0 && d.cls == m.cls && d.engines.contains e)).length))

/-- A record fault naming the word and the lowest bit of the field (log entry 16). -/
def recFault (rec word field : Nat) : FaultRec := bfault 21 rec (pack2 word field)

def faultIf (b : Bool) (f : FaultRec) : List FaultRec := if b then [f] else []

/-- The `n` bytes from a local address lie in the own scratchpad, or in the cluster's peer range, where they may run on from one
peer's scratchpad into the next (R165). -/
def inRegion (a n : Nat) : Bool :=
  decide (a + (n - 1) < spadSize) || (decide (0x01000000 ≤ a) && decide (a + (n - 1) < 0x02000000))

/-- The faults of a local address a record names: in a window, or with some of its `n` bytes in no region (R184; log entry 17). -/
def localFaults (a n : Nat) : List FaultRec :=
  if inWindow a then [bfault 10 a 0] else faultIf (!(inRegion a n)) (bfault 9 a 0)

/-- The faults of LEAF, OUT or an update's SRC (R184, R188): the address itself as any local address; a word of the `n` bytes
from it outside its scratchpad is the record fault `f`. -/
def spanFaults (c a n : Nat) (f : FaultRec) : List FaultRec :=
  if inWindow a then [bfault 10 a 0]
  else match localPlace c a, localPlace c (a + (n - 1)) with
    | none, _ => [bfault 9 a 0]
    | some _, none => [f]
    | some (d, _), some (e, _) => faultIf (decide (d ≠ e)) f

/-- The faults of an address word (R185, R186): `unit` is the multiple a local address must keep, `vunit` a device-virtual one. -/
def addressWordFaults (rec word w unit vunit n : Nat) : List FaultRec :=
  if awLocal w then
    faultIf (bitsAt w 32 31 != 0) (recFault rec word 32)
    ++ faultIf (awAddr w % unit != 0) (recFault rec word 0) ++ localFaults (awAddr w) n
  else faultIf (bitsAt w 56 7 != 0) (recFault rec word 56) ++ faultIf (awAddr w % vunit != 0) (recFault rec word 0)

/-- Leaf words of an object (R228). -/
def objLeafWords (o : CObject) : Nat :=
  let w0 := ((o.hdr[0]?).getD 0).toNat
  let nleaf := bitsAt ((o.hdr[1]?).getD 0).toNat 0 13
  if bitAt w0 21 then nleaf else ceilDiv nleaf 2
def objNout (o : CObject) : Nat := bitsAt ((o.hdr[1]?).getD 0).toNat 13 13

/-- The object directory's entry; none where no object is installed (R221, R233). -/
def Circuit.object (g : Circuit) (i : Nat) : Option CObject :=
  if i < 64 then (g.dir.find? (fun p => p.1 == i)).map (·.2) else none

/-- Bytes of a collective's element type (R189). -/
def coeBytes (w3 : Nat) : Nat := if bitsAt w3 16 4 = 1 ∨ bitsAt w3 16 4 = 2 then 2 else 4

/-- The faults of the fields of a record (R184 to R190). LANES 0 or above 16 is no fault here: R233 has the engine raise it at B (log entry
73). LEAF and OUT are judged with the object installed now, and where none is with one word each; one installed by B makes no new
check (log entry 74). A bit that no row of R189 or R190 lists must be 0 (R188; log entry 86). -/
def fieldFaults (s : State) (c rec : Nat) (m : Cmd) : List FaultRec :=
  let w0 := m.c0
  let w1 := m.c1
  let w2 := m.c2
  let w3 := m.c3
  let common :=
    faultIf (decide (4 < m.cls)) (recFault rec 0 0)
    ++ faultIf (decide ((if m.cls = 2 then 1 else 0) < m.op)) (recFault rec 0 4)
    ++ faultIf (rcTimed w0 && m.cls != 0) (recFault rec 0 8)
    ++ faultIf (bitsAt w0 20 12 != 0) (recFault rec 0 20)
  common ++
  (match m.cls with
   | 0 => addressWordFaults rec 1 w1 128 32 (m.len * 128) ++ addressWordFaults rec 2 w2 128 32 (m.len * 128)
   | 1 => faultIf (bitsAt w1 56 8 != 0) (recFault rec 1 56)
      ++ localFaults (bitsAt w2 0 32) (4 * bitsAt w3 0 16)
      ++ localFaults (bitsAt w2 32 32) (bitsAt w3 0 16 * (32 * 2 ^ bitsAt w3 16 3))
      ++ faultIf (bitsAt w3 0 16 == 0) (recFault rec 3 0)
      ++ faultIf (bitsAt w3 51 13 != 0) (recFault rec 3 51)
   | 2 =>
      if m.op = 1 then
        let count := bitsAt w1 44 13
        let src := bitsAt w1 0 32
        faultIf (src % 128 != 0) (recFault rec 1 0) ++ spanFaults c src (ceilDiv count 16 * 128) (recFault rec 1 0)
        ++ faultIf (count == 0 || decide (4096 < count) || decide (4096 < bitsAt w1 32 12 + count)) (recFault rec 1 44)
        ++ faultIf (bitsAt w1 57 7 != 0) (recFault rec 1 57)
        ++ faultIf (w2 != 0) (recFault rec 2 0) ++ faultIf (bitsAt w3 16 48 != 0) (recFault rec 3 16)
      else
        let leaf := bitsAt w1 0 32
        let out := bitsAt w1 32 32
        let o := (s.circuit (clusterOf c)).object (bitsAt w2 0 16)
        let words := match o with
          | some o => objLeafWords o
          | none => 1
        let outs := match o with
          | some o => objNout o
          | none => 1
        faultIf (leaf % 128 != 0) (recFault rec 1 0) ++ spanFaults c leaf (words * 128) (recFault rec 1 0)
        ++ (if bitAt w2 23 then [] else faultIf (out % 128 != 0) (recFault rec 1 32) ++ spanFaults c out (outs * 128) (recFault rec 1 32))
        ++ faultIf (bitsAt w2 21 2 == 3) (recFault rec 2 21)
        ++ faultIf (bitsAt w2 24 40 != 0) (recFault rec 2 24) ++ faultIf (bitsAt w3 32 32 != 0) (recFault rec 3 32)
   | 3 =>
      let n := coeBytes w3 * bitsAt w3 0 16
      let ty := bitsAt w3 16 4
      addressWordFaults rec 1 w1 1 1 n ++ addressWordFaults rec 2 w2 1 1 n
      ++ faultIf (bitsAt w3 0 16 == 0) (recFault rec 3 0)
      ++ faultIf (!(ty == 1 || ty == 2 || ty == 3 || ty == 7)) (recFault rec 3 16)
      ++ faultIf (decide (3 < bitsAt w3 20 3)) (recFault rec 3 20)
      ++ faultIf (decide (3 < bitsAt w3 23 3)) (recFault rec 3 23) ++ faultIf (bitsAt w3 58 6 != 0) (recFault rec 3 58)
   | 4 => faultIf (decide (256 < m.ch + m.nch)) (recFault rec 1 8) ++ faultIf (bitsAt w1 23 41 != 0) (recFault rec 1 23)
      ++ localFaults (bitsAt w2 0 32) 1 ++ localFaults (bitsAt w2 32 32) 1
   | _ => [])

/-- The task start of a context: its launch's start tick (R184). -/
def State.taskStart (s : State) (c x : Nat) : Nat :=
  match s.findLaunch (s.ctx c x).lx with
  | some l => l.start
  | none => 0

/-- The command a record would submit (R184). -/
def State.recordCmd (s : State) (a : Nat) : Cmd :=
  let c := s.iss.core
  let x := s.iss.ctx
  let w (i : Nat) : Word := BitVec.ofNat 64 (s.readSpad c (a + 8 * i) 8)
  { id := s.nextId, core := c, ctx := x, lx := s.cur.lx, w0 := w 0, w1 := w 1, w2 := w 2, w3 := w 3, recAddr := a,
    subNo := s.cur.subNo, beginAt := s.taskStart c x + rcStart (w 0).toNat, phase := 0, endAt := none, pend := 0, buf := [] }

/-- Every fault of an `e.sub` (R184, R199). -/
def esubFaults (s : State) (a : Nat) : List FaultRec :=
  let c := s.iss.core
  if a % 32 ≠ 0 then [bfault 8 a 32]
  else if spadSize ≤ a then [bfault 9 a 0]
  else
    let m := s.recordCmd a
    ownFault (s.core c) s.iss.ctx a
    ++ fieldFaults s c a m
    ++ faultIf (decide (m.beginAt < s.now + 4)) (bfault 22 a (ofSigned 64 ((m.beginAt : Int) - s.now)))
    ++ faultIf (s.engineFull m) (bfault 23 a m.cls)

end Sys2Proof.Machine
end

