-- ==== Sys2Proof/Machine/Checks.lean ====
section
/-! DEFINITION. The checks of a bundle at its issue tick (R11, R19, R94, R136 to R138, R154, R155, R168, R170 to R176, R182,
R184, R194, R199, R200, R342): of each slot, and between slots. -/

namespace Sys2Proof.Machine

/-- The access of a memory instruction, as it issues (R169 to R173). -/
def memReq (s : State) (i : Instr) : Option MReq :=
  match i with
  | .ldI8 u _ _ a o => some ⟨u, .load, false, 1, s.plainAddr a o 1, 0, 0⟩
  | .ldN8 u _ _ a o => some ⟨u, .load, false, 1, s.plainAddr a o 1, 0, 0⟩
  | .ldI16 u _ _ a o => some ⟨u, .load, false, 2, s.plainAddr a o 2, 0, 0⟩
  | .ldN16 u _ _ a o => some ⟨u, .load, false, 2, s.plainAddr a o 2, 0, 0⟩
  | .ldI32 u _ _ a o => some ⟨u, .load, false, 4, s.plainAddr a o 4, 0, 0⟩
  | .ldN32 u _ _ a o => some ⟨u, .load, false, 4, s.plainAddr a o 4, 0, 0⟩
  | .ldI64 u _ _ a o => some ⟨u, .load, false, 8, s.plainAddr a o 8, 0, 0⟩
  | .st8 u _ x a o => some ⟨u, .store, false, 1, s.plainAddr a o 1, 0, (s.sel (memSlot u) x).setWidth 1024⟩
  | .st16 u _ x a o => some ⟨u, .store, false, 2, s.plainAddr a o 2, 0, (s.sel (memSlot u) x).setWidth 1024⟩
  | .st32 u _ x a o => some ⟨u, .store, false, 4, s.plainAddr a o 4, 0, (s.sel (memSlot u) x).setWidth 1024⟩
  | .st64 u _ x a o => some ⟨u, .store, false, 8, s.plainAddr a o 8, 0, (s.sel (memSlot u) x).setWidth 1024⟩
  | .vld u _ w _ a o => some ⟨u, .load, true, widthBytes w, s.plainAddr a o (widthBytes w), 0, 0⟩
  | .vst u _ w v a o => some ⟨u, .store, true, widthBytes w, s.plainAddr a o (widthBytes w), 0, BitVec.ofNat 1024 (s.vreg v)⟩
  | .ldTc u _ _ a q => some ⟨u, .tc, false, 8, s.areg a, (s.sel (memSlot u) q).toNat, 0⟩
  | .vldTc u _ w _ a q => some ⟨u, .tc, true, widthBytes w, s.areg a, (s.sel (memSlot u) q).toNat, 0⟩
  | .ldNb u _ _ a q => some ⟨u, .nb, false, 8, s.areg a, (s.sel (memSlot u) q).toNat, 0⟩
  | .vldNb u _ w _ a q => some ⟨u, .nb, true, widthBytes w, s.areg a, (s.sel (memSlot u) q).toNat, 0⟩
  | .stVa u _ x a q => some ⟨u, .va, false, 8, s.areg a, (s.sel (memSlot u) q).toNat, (s.sel (memSlot u) x).setWidth 1024⟩
  | .vstVa u _ w v a q => some ⟨u, .va, true, widthBytes w, s.areg a, (s.sel (memSlot u) q).toNat, BitVec.ofNat 1024 (s.vreg v)⟩
  | .amoAdd u _ _ a q => some ⟨u, .amo, false, 8, s.areg a, 20, (s.sel (memSlot u) q).setWidth 1024⟩
  | .amoAnd u _ _ a q => some ⟨u, .amo, false, 8, s.areg a, 21, (s.sel (memSlot u) q).setWidth 1024⟩
  | .amoOr u _ _ a q => some ⟨u, .amo, false, 8, s.areg a, 22, (s.sel (memSlot u) q).setWidth 1024⟩
  | .amoMax u _ _ a q => some ⟨u, .amo, false, 8, s.areg a, 23, (s.sel (memSlot u) q).setWidth 1024⟩
  | .amoSwp u _ _ a q => some ⟨u, .amo, false, 8, s.areg a, 24, (s.sel (memSlot u) q).setWidth 1024⟩
  | _ => none

/-! ## Matrix array (R152, R154, R155) -/

/-- An edge count for a drain, or for a push of at most `cap` (R152). -/
def edgeCount (raw cap : Nat) : Nat := Nat.min (if 128 < raw then 128 else raw) cap

/-- The local addresses a beat reads: the push's, then the latch shift's; GEN reads none (R150). -/
def mxReads (s : State) (i : Instr) : List Nat :=
  let pa (p : BitVec 4) : List Nat := if p = 15 then [] else [s.areg p]
  let la (l : BitVec 3) : List Nat := if l = 7 then [] else [s.areg (BitVec.ofNat 4 (8 + l.toNat))]
  match i with
  | .lsh _ _ l => la l
  | .acl _ _ _ l => la l
  | .psh _ p => pa p
  | .psl _ p _ l => pa p ++ la l
  | .pac _ p _ => pa p
  | .pal _ p _ _ l => pa p ++ la l
  | _ => []

def isBeat (i : Instr) : Bool :=
  match i with
  | .lsh _ _ _ | .acc _ _ | .acl _ _ _ _ | .psh _ _ | .psl _ _ _ _ | .pac _ _ _ | .pal _ _ _ _ _ => true
  | _ => false

/-- The fault of a context that does not own the array (R11); word 4 names the owner, 4 for none (log entry 16). -/
def arrayFault (s : State) : List FaultRec :=
  let o := (s.core s.iss.core).arrayOwner
  if o = some s.iss.ctx then [] else [bfault 5 0 (o.getD 4)]

/-- Bytes of an element a drain writes (R155). -/
def drainBytes (ty : Nat) : Nat := match ty with
  | 3 | 7 => 4
  | 1 | 2 => 2
  | _ => 1

/-- The bank words a drain writes: how many. -/
def drainWords (s : State) (ty : BitVec 4) : Nat :=
  ceilDiv (edgeCount (bitsAt (s.core s.iss.core).array.actl.toNat 8 8) 128 * drainBytes ty.toNat) 128

/-- The destination of a drain: A(AR) + OFS × 128 (R155). -/
def drainAddr (s : State) (a : BitVec 4) (o : BitVec 5) : Nat := s.plainAddr a o 128

/-! ## The address queue (R136 to R138) -/

/-- Bytes of a size code (R138). -/
def gatherSize (code : Nat) : Nat := match code with
  | 1 => 64
  | 2 => 32
  | 3 => 16
  | 4 => 8
  | _ => 128

/-- Whether a cadv step matches: equal coordinates, not both the end (R136). -/
def cadvMatch (k : Word) : Bool :=
  let ka := bitsAt k.toNat 32 32
  let kb := bitsAt k.toNat 0 32
  ka == kb && !(ka == 0xFFFFFFFF)

/-- What an instruction pushes onto the address queue: address, rounded down to its size, and size (R136, R138); a fault of the push
records the rounded address (log entry 63). -/
def aqPushes (s : State) (i : Instr) : List (Nat × Nat) :=
  match i with
  | .aqp _ a b =>
    let n := gatherSize (bitsAt (s.sel .x b).toNat 0 3)
    [(bitsAt (s.sel .x a).toNat 0 32 / n * n, n)]
  | .cadvp _ _ a b =>
    if cadvMatch (s.sel .x b) then
      [(bitsAt (s.sel .x a).toNat 32 32 / 8 * 8, 8), (bitsAt (s.sel .x a).toNat 0 32 / 8 * 8, 8)]
    else []
  | _ => []

/-- The faults of pushes: room (R137), region (R138), ownership (R199). -/
def pushFaults (s : State) (ps : List (Nat × Nat)) : List FaultRec :=
  let c := s.cur
  (if ps.length ≠ 0 ∧ 64 < c.aqocc + ps.length then [bfault 4 0 (pack2 1 c.aqocc)] else [])
  ++ ps.flatMap (fun p =>
      if (localPlace s.iss.core p.1).isNone then [bfault 18 p.1 0] else ownFault (s.core s.iss.core) s.iss.ctx p.1)

/-! ## Transfers (R93, R94) -/

/-- Whether a B register may be transferred through in a tick (R91, R94). -/
def Ctx.bOk (c : Ctx) (now b : Nat) : Bool := c.bV.getLsbD b && decide (tget c.bAgain 0 b ≤ now)

/-- The outcome of an xfer (R26, R93): the first path, from `i`, whose test holds, 5 when none of `n` does. -/
def xferOutcome (p : BitVec 16) (pol : Nat) (pb i n : Nat) : Nat :=
  match n with
  | 0 => 5
  | k + 1 => if p.getLsbD (pb + i) != bitAt pol i then i + 1 else xferOutcome p pol pb (i + 1) k

/-- The outcome an instruction of the control slot takes, and its B register: no transfer leaves the outcome 5. -/
def transferOf (c : Ctx) (i : Instr) : Nat × Option Nat :=
  match i with
  | .xfer bt n1 pb pol =>
    let o := xferOutcome c.p pol.toNat pb.toNat 0 (n1.toNat + 1)
    (o, if o = 5 then none else some ((bt.toNat + o - 1) % 8))
  | .go b => (1, some b.toNat)
  | _ => (5, none)

/-! ## Soft errors (R342) -/

/-- The protected registers an instruction reads, by place (log entry 8): 16 × slice + index for G, 80 VS, 256 + i V,
300 + i K, 320 P, 330 + i A, 350 + i B, 360 + i E, 370 FMT, 371 + i the queues. -/
def otherReads (i : Instr) : List Nat :=
  match i with
  | .vadd _ f => [256 + f.va.toNat, 256 + f.vb.toNat, 300 + f.km.toNat]
  | .vsub _ f => [256 + f.va.toNat, 256 + f.vb.toNat, 300 + f.km.toNat]
  | .vmul _ f => [256 + f.va.toNat, 256 + f.vb.toNat, 300 + f.km.toNat]
  | .vfma _ f => [256 + f.va.toNat, 256 + f.vb.toNat, 256 + f.vd.toNat, 300 + f.km.toNat]
  | .vmin _ f => [256 + f.va.toNat, 256 + f.vb.toNat, 300 + f.km.toNat]
  | .vmax _ f => [256 + f.va.toNat, 256 + f.vb.toNat, 300 + f.km.toNat]
  | .vexp2 _ f => [256 + f.va.toNat, 300 + f.km.toNat]
  | .vrsqrt _ f => [256 + f.va.toNat, 300 + f.km.toNat]
  | .vrecip _ f => [256 + f.va.toNat, 300 + f.km.toNat]
  | .vcvt _ f => [256 + f.va.toNat, 300 + f.km.toNat]
  | .vcmp _ f => [256 + f.va.toNat, 256 + f.vb.toNat, 300 + f.km.toNat]
  | .vsel _ f => [256 + f.va.toNat, 256 + f.vb.toNat, 300 + f.km.toNat]
  | .vrot _ f => [256 + f.va.toNat, 300 + f.km.toNat, 80]
  | .vshuf _ f => [256 + f.va.toNat, 256 + f.vb.toNat, 300 + f.km.toNat]
  | .vscan _ f => [256 + f.va.toNat, 300 + f.km.toNat]
  | .vscanx _ f => [256 + f.va.toNat, 300 + f.km.toNat]
  | .vred _ f => [256 + f.va.toNat, 300 + f.km.toNat]
  | .vredx _ f => [256 + f.va.toNat, 300 + f.km.toNat]
  | .vredn _ f => [256 + f.va.toNat, 300 + f.km.toNat]
  | .vcx _ f => [256 + f.va.toNat, 300 + f.km.toNat]
  | .vclmul _ f => [256 + f.va.toNat, 256 + f.vb.toNat, 300 + f.km.toNat]
  | .vpcnt _ f => [256 + f.va.toNat, 300 + f.km.toNat]
  | .vand _ f => [256 + f.va.toNat, 256 + f.vb.toNat, 300 + f.km.toNat]
  | .vor _ f => [256 + f.va.toNat, 256 + f.vb.toNat, 300 + f.km.toNat]
  | .vxor _ f => [256 + f.va.toNat, 256 + f.vb.toNat, 300 + f.km.toNat]
  | .vshl _ f => [256 + f.va.toNat, 256 + f.vb.toNat, 300 + f.km.toNat]
  | .vshr _ f => [256 + f.va.toNat, 256 + f.vb.toNat, 300 + f.km.toNat]
  | .vbc _ f => [300 + f.km.toNat, 80]
  | .vabs _ f => [256 + f.va.toNat, 300 + f.km.toNat]
  | .vneg _ f => [256 + f.va.toNat, 300 + f.km.toNat]
  | .ldI8 _ _ _ a _ => [330 + a.toNat]
  | .ldN8 _ _ _ a _ => [330 + a.toNat]
  | .ldI16 _ _ _ a _ => [330 + a.toNat]
  | .ldN16 _ _ _ a _ => [330 + a.toNat]
  | .ldI32 _ _ _ a _ => [330 + a.toNat]
  | .ldN32 _ _ _ a _ => [330 + a.toNat]
  | .ldI64 _ _ _ a _ => [330 + a.toNat]
  | .st8 _ _ _ a _ => [330 + a.toNat]
  | .st16 _ _ _ a _ => [330 + a.toNat]
  | .st32 _ _ _ a _ => [330 + a.toNat]
  | .st64 _ _ _ a _ => [330 + a.toNat]
  | .ldTc _ _ _ a _ => [330 + a.toNat]
  | .ldNb _ _ _ a _ => [330 + a.toNat]
  | .amoAdd _ _ _ a _ => [330 + a.toNat]
  | .amoAnd _ _ _ a _ => [330 + a.toNat]
  | .amoOr _ _ _ a _ => [330 + a.toNat]
  | .amoMax _ _ _ a _ => [330 + a.toNat]
  | .amoSwp _ _ _ a _ => [330 + a.toNat]
  | .stVa _ _ _ a _ => [330 + a.toNat]
  | .vld _ _ _ _ a _ => [330 + a.toNat]
  | .vldTc _ _ _ _ a _ => [330 + a.toNat]
  | .vldNb _ _ _ _ a _ => [330 + a.toNat]
  | .vst _ _ _ v a _ => [256 + v.toNat, 330 + a.toNat]
  | .vstVa _ _ _ v a _ => [256 + v.toNat, 330 + a.toNat]
  | .drain _ _ _ _ a _ => [330 + a.toNat]
  | .rda _ _ _ a => [330 + a.toNat]
  | .xfer _ _ _ _ => [320]
  | .cmpa _ _ _ _ _ _ | .cmpo _ _ _ _ _ _ | .prd _ _ _ => [320]
  | .fmtr _ _ => [370]
  | .eSub _ a => [330 + a.toNat]
  | _ => []

def regReads (i : Instr) : List Nat :=
  let sl := match slotOf i with
    | some u => sliceIx u
    | none => 0
  (selsOf i).filterMap (fun q => if q.toNat < 16 then some (16 * sl + q.toNat)
    else if 22 ≤ q.toNat ∧ q.toNat ≤ 25 then some (371 + (q.toNat - 22)) else none) ++ otherReads i

/-- The rounding mode field of an element-wise, scan or reduction form (R120). -/
def modOf (i : Instr) : Option Nat :=
  match i with
  | .vadd _ f | .vsub _ f | .vmul _ f | .vfma _ f | .vmin _ f | .vmax _ f | .vexp2 _ f | .vrsqrt _ f | .vrecip _ f | .vcvt _ f
  | .vscan _ f | .vscanx _ f | .vred _ f | .vredx _ f | .vredn _ f => some f.md.toNat
  | _ => none

/-- The push address and the latch address of a beat: a field with the code of a generator reads E (R150). -/
def beatSides (i : Instr) : Option (BitVec 4) × Option (BitVec 3) :=
  match i with
  | .lsh _ _ l | .acl _ _ _ l => (none, some l)
  | .psh _ p | .pac _ p _ => (some p, none)
  | .psl _ p _ l | .pal _ p _ _ l => (some p, some l)
  | _ => (none, none)

/-- The accumulator bank a beat adds into. -/
def beatAcc (i : Instr) : Option (BitVec 2) :=
  match i with
  | .acc _ b | .acl _ b _ _ | .pac _ _ b | .pal _ _ b _ _ => some b
  | _ => none

/-- The rounding code in force for a form that rounds: that of MOD, or of FMT (R46, R120, R156). -/
def roundCode (s : State) (i : Instr) : Option Nat :=
  match i with
  | .drain _ _ _ _ _ _ => some (fmtRmode s.cur.fmt)
  | _ => (modOf i).map (fun n => effCode n s.cur.fmt)

/-- The registers of the context that the forms read beside their operands, by place: FMT, the generator register of a stochastic
draw, the A and E registers of a beat, and the queue or E register that a load finds in a window (R121, R142, R146). -/
def sideReads (s : State) (i : Instr) : List Nat :=
  (if modOf i = some 5 then [370] else [])
  ++ (if roundCode s i = some 4 then [360 + bitsAt s.cur.gsel.toNat 8 3] else [])
  ++ (match memReq s i with
      | some r =>
        if !r.form.reads then []
        else if 0x05000000 ≤ r.addr ∧ r.addr < 0x05000200 then [371 + (r.addr - 0x05000000) / 128]
        else if 0x06000100 ≤ r.addr ∧ r.addr < 0x06000200 then [360 + (r.addr - 0x06000100) / 32]
        else []
      | none => [])
  ++ (match (beatSides i).1 with
      | some p => [370, if p = 15 then 360 + gpsOf s.cur else 330 + p.toNat]
      | none => [])
  ++ (match (beatSides i).2 with
      | some l => if l = 7 then [370, 360 + glsOf s.cur] else [330 + 8 + l.toNat]
      | none => [])
  ++ (match i with
      | .drain _ _ _ _ _ _ => [370]
      | _ => [])

/-- Whether a format code is one the array takes (R45). -/
def arrayFmt (ty : Nat) : Bool := ty == 0 || ty == 1 || ty == 2 || ty == 5
def wide (ty : Nat) : Bool := ty == 1 || ty == 2

/-- The width in bits that shapes a push (R144). -/
def pushWidth (af bf : Nat) : Nat := if arrayFmt af then tyWidth af else if arrayFmt bf then tyWidth bf else 8

/-- The rows of the array's latches and accumulators that a form reads, by place: the rows of latch ALAT that take part in a push, those
below EK′ of its shape (R144, R152), and the accumulator row of a beat or a drain. -/
def arrayReads (s : State) (i : Instr) : List Nat :=
  let a := (s.core s.iss.core).array
  (match (beatSides i).1 with
   | some _ =>
     let ek := edgeCount (bitsAt a.actl.toNat 0 8) (1024 / pushWidth (fmtAfmt s.cur.fmt) (fmtBfmt s.cur.fmt))
     (List.range ek).map (fun r => 128 * bitsAt a.actl.toNat 24 2 + r)
   | none => [])
  ++ (match beatAcc i with
      | some b => [512 + 64 * b.toNat + ptrField a.aptr b.toNat 6]
      | none => [])
  ++ (match i with
      | .drain _ b _ _ _ _ => [512 + 64 * b.toNat + ptrField a.dptr b.toNat 6]
      | _ => [])

/-- The areas of local addresses that a slot reads: a load's or an atomic's bytes, the rows of a beat, and the record of an `e.sub`; what
the address queue names its own engine reads (R139). -/
def areaReads (s : State) (i : Instr) : List (Nat × Nat) :=
  (match memReq s i with
   | some r => if r.form.reads || r.form == .amo then [(r.addr, r.size)] else []
   | none => [])
  ++ (mxReads s i).map (fun a => (a, 128))
  ++ (match i with
      | .eSub _ a => [(s.areg a, 32)]
      | _ => [])

/-- The spoiled words that a load reads beside those of its scratchpad: of the timed entries written in the tick it performs, whose bytes
it sees, and of the HCW entries in its window (R73, R172; log entry 4). -/
def besideWords (s : State) (r : MReq) : List (Nat × Nat × BadWord) :=
  let c := s.iss.core
  if !r.form.reads then []
  else match localPlace c r.addr with
    | some (d, off) =>
      let es := (s.core d).timed.filter (fun e => e.vis == performTick s.now r.addr && decide (off < e.addr + e.size)
        && decide (e.addr < off + r.size))
      ((s.core d).bad.filter (fun w => es.any (fun e => e.holds w) && decide (2 ^ 32 + off < w.place + 8)
        && decide (w.place < 2 ^ 32 + off + r.size))).map (fun w => (d, 2 ^ 32 + localName c d (w.place - 2 ^ 32), w))
    | none =>
      let off := r.addr - 0x03000000
      if 0x03000000 ≤ r.addr ∧ r.addr < 0x03010000 then
        ((s.core c).bad.filter (fun w => w.struct == 3 && decide (2 ^ 16 ≤ w.place)
          && decide (off < 0x4000 * w.ctx + 32 * (w.place - 2 ^ 16) + 32)
          && decide (0x4000 * w.ctx + 32 * (w.place - 2 ^ 16) < off + r.size))).map (fun w => (c, w.place, w))
      else []

/-- The spoiled places a slot reads: core, address or place for the record, and the place (R341, R342). -/
def softWords (s : State) (i : Instr) : List (Nat × Nat × BadWord) :=
  let c := s.iss.core
  let regs := regReads i ++ sideReads s i ++ (match (transferOf s.cur i).2 with
    | some b => [350 + b]
    | none => [])
  ((s.core c).bad.filter (fun w => (w.struct == 1 && w.ctx == s.iss.ctx && regs.contains w.place)
      || (w.struct == 2 && (arrayReads s i).contains w.place))).map (fun w => (c, w.place, w))
  ++ (areaReads s i).flatMap (fun r => match localPlace c r.1 with
      | some (d, off) => ((s.core d).bad.filter (fun w => w.meets off r.2)).map (fun w => (d, localName c d w.place, w))
      | none => [])
  ++ (match memReq s i with
      | some r => besideWords s r
      | none => [])

/-- The soft-error faults of a slot's reads; an HCW entry's parity always corrects (R341, R342). -/
def softFaults (s : State) (i : Instr) : List FaultRec :=
  ((softWords s i).filter (fun p => !p.2.2.fixable && p.2.2.struct != 3)).map (fun p => bfault 34 p.2.1 p.2.2.struct)

/-- The reads of a slot of a bundle that issues correct what they can. -/
def State.fixReads (s : State) (i : Instr) : State :=
  (softWords s i).foldl (fun s p => s.fixBad p.1 (fun w => w == p.2.2)) s

/-! ## One slot -/

/-- The checks an instruction makes beside those of its operands and of a memory access: pushes, drains, records, signals,
transfers and beats (R94, R137, R138, R154, R155, R182, R184). -/
def slotChecks (s : State) (i : Instr) : List FaultRec :=
  match i with
  | .aqp _ _ _ | .cadvp _ _ _ _ => pushFaults s (aqPushes s i)
  | .drain _ _ ty _ a o =>
    let d := drainAddr s a o
    let n := drainWords s ty
    arrayFault s
    ++ faultIf (d % 128 != 0 || (n != 0 && decide (spadSize < d + 128 * n))) (bfault 6 d 0)
    ++ (List.range n).flatMap (fun j => ownFault (s.core s.iss.core) s.iss.ctx (d + 128 * j))
  | .eSub _ a => esubFaults s (s.areg a)
  | .signal _ _ _ b | .signalDrain _ _ _ b =>
    faultIf (decide (4 ≤ (s.cur.signals.filter (fun d => decide (d.issued < s.now))).length)) (bfault 20 0 b.toNat)
  | .xfer _ _ _ _ | .go _ =>
    (match (transferOf s.cur i).2 with
     | some b => faultIf (!(s.cur.bOk s.now b)) (bfault 3 0 b)
     | none => [])
  | _ =>
    if isBeat i then
      arrayFault s
      ++ (mxReads s i).flatMap (fun a =>
          faultIf (a % 128 != 0 || decide (spadSize ≤ a)) (bfault 6 a 0) ++ ownFault (s.core s.iss.core) s.iss.ctx a)
    else []

/-- Every fault of a slot judged by itself. -/
def slotFaults (s : State) (i : Instr) : List FaultRec :=
  (match selFault s.cur (selsOf i) with
   | some f => [f]
   | none => [])
  ++ (match memReq s i with
      | some r => memFaults s r
      | none => [])
  ++ softFaults s i
  ++ slotChecks s i

/-! ## Between slots -/

/-- What a memory slot asks of its core port in its perform tick: bank, read, write, address (R168). -/
structure CoreUse where
  mb   : Bool
  bank : Nat
  rd   : Bool
  wr   : Bool
  addr : Nat
  deriving DecidableEq, Repr

def coreUses (s : State) (i : Instr) : List CoreUse :=
  match i with
  | .drain _ _ ty _ a o =>
    let d := drainAddr s a o
    (List.range (drainWords s ty)).map (fun j => ⟨true, bankOf (d + 128 * j), false, true, d + 128 * j⟩)
  | _ =>
    match memReq s i with
    | some r =>
      if r.addr < spadSize then
        (match r.form with
         | .va => []
         | .amo => [⟨r.u == .mb, bankOf r.addr, true, true, r.addr⟩]
         | .store => [⟨r.u == .mb, bankOf r.addr, false, true, r.addr⟩]
         | _ => [⟨r.u == .mb, bankOf r.addr, true, false, r.addr⟩])
      else []
    | none => []

/-- The bank-conflict faults of a bundle (R154, R168). Word 4 holds the bank and the slots, MA 1, MB 2, MX 4. -/
def bankFaults (s : State) (is : List Instr) : List FaultRec :=
  let us := is.flatMap (coreUses s)
  let ma := us.filter (fun u => !u.mb)
  let mb := us.filter (fun u => u.mb)
  let mx := is.flatMap (mxReads s)
  ma.flatMap (fun u => (mb.filter (fun v => u.bank == v.bank && (u.rd && v.rd || u.wr && v.wr))).map
      (fun _ => bfault 7 u.addr (pack2 u.bank 3)))
  ++ (match mx with
      | [p, l] => faultIf (decide (bitsAt p 10 2 = bitsAt l 10 2)) (bfault 7 p (pack2 (bankOf p) 4))
      | _ => [])
  ++ mx.flatMap (fun a => (us.filter (fun u => u.bank == bankOf a)).map
      (fun u => bfault 7 a (pack2 u.bank (4 + (if u.mb then 2 else 1)))))

/-- The engine-side slots that pushes ask for; the two reads of a cadvp that meet one bank share its slot (R136, R194; log entry 18). -/
def pushPorts (s : State) (ps : List (Nat × Nat)) : List PortReq :=
  ps.foldl (fun acc p => match localPlace s.iss.core p.1 with
    | some (d, off) => if acc.any (fun (q : PortReq) => q.core == d && q.bank == bankOf off) then acc
        else acc ++ [⟨d, bankOf off, s.now + 8, false, p.1⟩]
    | none => acc) []

/-- The engine-side slots an instruction asks for, in order. -/
def portReqs (s : State) (i : Instr) : List PortReq :=
  match memReq s i with
  | some r => memPorts s r
  | none => pushPorts s (aqPushes s i)

/-- The port-reservation faults of a list of requests, in order of reserving (R194). -/
def portFaults (s : State) (rs : List PortReq) (taken : List PortReq) : List FaultRec :=
  match rs with
  | [] => []
  | p :: rest =>
    faultIf ((s.core p.core).slotTaken p.bank p.tick p.write
        || taken.any (fun q => q.core == p.core && q.bank == p.bank && q.tick == p.tick && q.write == p.write))
      (bfault 13 p.addr (pack2 p.bank p.tick))
    ++ portFaults s rest (taken ++ [p])

/-- The timed-buffer faults of a bundle: an entry that would be the seventeenth of its bank (R172). -/
def timedFaults (s : State) (rs : List MReq) (before : List (Nat × Nat)) : List FaultRec :=
  match rs with
  | [] => []
  | r :: rest =>
    match localPlace s.iss.core r.addr, r.form with
    | some (d, off), .va =>
      let held := ((s.core d).timed.filter (fun e => bankOf e.addr == bankOf off)).length
        + (before.filter (fun p => p.1 == d && p.2 == bankOf off)).length
      faultIf (decide (16 ≤ held)) (bfault 17 r.addr (bankOf off)) ++ timedFaults s rest (before ++ [(d, bankOf off)])
    | _, _ => timedFaults s rest before

/-- Word 0 of message buffer `b` of the issuing context as the tick after this one's writes leave it (R176). -/
def msgWord0 (s : State) (b : Nat) (own : List MReq) : Word :=
  let w (v : Word) (off size : Nat) (data : VWord) : Word :=
    if off ≤ 128 * b ∧ 128 * b < off + size then BitVec.ofNat 64 (data.toNat / 2 ^ (8 * (128 * b - off))) else v
  let v1 := s.accesses.foldl (fun v a => match a.target, a.kind with
    | .msg off, .store => if a.core = s.iss.core ∧ a.ctx = s.iss.ctx then w v off a.size a.data else v
    | _, _ => v) (tget s.cur.msgbuf 0 (16 * b))
  own.foldl (fun v r => if r.form = .store ∧ 0x02000000 ≤ r.addr ∧ r.addr < 0x02000200
    then w v (r.addr - 0x02000000) r.size r.data else v) v1

/-- The message faults of a bundle's closing stores (R176). -/
def messageFaults (s : State) (rs : List MReq) : List FaultRec :=
  (rs.filter MReq.closes).flatMap (fun r =>
    let d := msgWord0 s ((r.addr - 0x02000000) / 128) rs
    faultIf (bitsAt d.toNat 10 54 != 0 || (s.core (bitsAt d.toNat 0 8)).retired) (bfault 19 d.toNat 0))

/-- Every fault of the executing slots of a bundle, or of one slot run by itself. -/
def bundleFaults (s : State) (is : List Instr) : List FaultRec :=
  let rs := is.filterMap (memReq s)
  is.flatMap (slotFaults s) ++ rs.flatMap (releaseFault s rs) ++ bankFaults s is ++ portFaults s (is.flatMap (portReqs s)) []
  ++ timedFaults s rs [] ++ messageFaults s rs

/-- The fault of lowest code; of equal codes the first (R270). -/
def lowestFault (fs : List FaultRec) : Option FaultRec :=
  fs.foldl (fun best f => match best with
    | none => some f
    | some b => if f.code < b.code then some f else some b) none

/-- Whether a slot's tag lets it execute under the bundle's outcome (R25, R27). -/
def slotRuns (i : Instr) (s : State) : Bool := tagOf i == 0 || (tagOf i).toNat == s.iss.outcome

/-- Runs a slot's effect where its tag matches; in a bundle whose checks have not been made, a slot that fails one takes its fault instead. -/
def guarded (i : Instr) (s : State) (effect : State) : Result :=
  if !(slotRuns i s) then .next s
  else if s.iss.checked then .next effect
  else match lowestFault (bundleFaults s [i]) with
    | some f => .next (s.bundleFault f)
    | none => .next effect

end Sys2Proof.Machine
end

