-- ==== Sys2Proof/Machine/Scalar.lean ====
section
/-! DEFINITION. The scalar slots SA and SB (R58, R59, R112 to R114). -/

namespace Sys2Proof.Machine

/-! ## The operations of R112 -/

def aluAdd (a b : Word) : Word := a + b
def aluSub (a b : Word) : Word := a - b
def aluAnd (a b : Word) : Word := a &&& b
def aluOr (a b : Word) : Word := a ||| b
def aluXor (a b : Word) : Word := a ^^^ b
def aluAndn (a b : Word) : Word := a &&& ~~~b
/-- The shift count b[5:0]. -/
def shCount (b : Word) : Nat := b.toNat % 64
def aluShl (a b : Word) : Word := a <<< shCount b
def aluShr (a b : Word) : Word := a >>> shCount b
def aluSar (a b : Word) : Word := a.sshiftRight (shCount b)
def aluRol (a b : Word) : Word := a.rotateLeft (shCount b)
def aluMin (a b : Word) : Word := if b.slt a then b else a
def aluMax (a b : Word) : Word := if a.slt b then b else a
def aluMinu (a b : Word) : Word := if b.ult a then b else a
def aluMaxu (a b : Word) : Word := if a.ult b then b else a
def aluMul (a b : Word) : Word := a * b
def aluMulh (a b : Word) : Word := BitVec.ofNat 64 (ofSigned 128 (a.toInt * b.toInt) / 2 ^ 64)
def aluMulhu (a b : Word) : Word := BitVec.ofNat 64 (a.toNat * b.toNat / 2 ^ 64)
def aluClz (a : Word) : Word := BitVec.ofNat 64 (if a = 0 then 64 else 63 - Nat.log2 a.toNat)
/-- Trailing zeros of a number, at most `fuel`. -/
def trailing (fuel n : Nat) : Nat :=
  match fuel with
  | 0 => 0
  | k + 1 => if n % 2 = 1 then 0 else 1 + trailing k (n / 2)
def aluCtz (a : Word) : Word := BitVec.ofNat 64 (trailing 64 a.toNat)
/-- One bits of a number of at most `fuel` bits. -/
def ones (fuel n : Nat) : Nat :=
  match fuel with
  | 0 => 0
  | k + 1 => n % 2 + ones k (n / 2)
def aluPcnt (a : Word) : Word := BitVec.ofNat 64 (ones 64 a.toNat)
def aluSext (a b : Word) : Word := BitVec.ofNat 64 (ofSigned 64 (toSigned (shCount b + 1) a.toNat))
def aluZext (a b : Word) : Word := BitVec.ofNat 64 (a.toNat % 2 ^ (shCount b + 1))
def aluCat7 (a b : Word) : Word := (a <<< 7) ||| (b &&& 0x7F)

/-- How a compare combines with its predicate (R113). -/
inductive CmpKind where
  | set | and | or
  deriving DecidableEq, Repr

def cmpResult (k : CmpKind) (old c : Bool) : Bool :=
  match k with
  | .set => c
  | .and => old && c
  | .or => old || c

/-- Lands one predicate a tick from now (R113). -/
def State.setPred (s : State) (p : BitVec 4) (v : Bool) : State :=
  s.fly [s.flight 1 0 .p (if v then BitVec.ofNat 1024 (2 ^ p.toNat) else 0) (BitVec.ofNat 1024 (2 ^ p.toNat)) 0]

/-! ## The instructions -/

def execAdd (u : ScalarUnit) (t : BitVec 3) (d : Dst) (a b : BitVec 5) (s : State) : Result :=
  guarded (.add u t d a b) s (s.scalarResult (scalarSlot u) d 1 (aluAdd (s.sel (scalarSlot u) a) (s.sel (scalarSlot u) b)))

def execSub (u : ScalarUnit) (t : BitVec 3) (d : Dst) (a b : BitVec 5) (s : State) : Result :=
  guarded (.sub u t d a b) s (s.scalarResult (scalarSlot u) d 1 (aluSub (s.sel (scalarSlot u) a) (s.sel (scalarSlot u) b)))

def execAnd (u : ScalarUnit) (t : BitVec 3) (d : Dst) (a b : BitVec 5) (s : State) : Result :=
  guarded (.and u t d a b) s (s.scalarResult (scalarSlot u) d 1 (aluAnd (s.sel (scalarSlot u) a) (s.sel (scalarSlot u) b)))

def execOr (u : ScalarUnit) (t : BitVec 3) (d : Dst) (a b : BitVec 5) (s : State) : Result :=
  guarded (.or u t d a b) s (s.scalarResult (scalarSlot u) d 1 (aluOr (s.sel (scalarSlot u) a) (s.sel (scalarSlot u) b)))

def execXor (u : ScalarUnit) (t : BitVec 3) (d : Dst) (a b : BitVec 5) (s : State) : Result :=
  guarded (.xor u t d a b) s (s.scalarResult (scalarSlot u) d 1 (aluXor (s.sel (scalarSlot u) a) (s.sel (scalarSlot u) b)))

def execAndn (u : ScalarUnit) (t : BitVec 3) (d : Dst) (a b : BitVec 5) (s : State) : Result :=
  guarded (.andn u t d a b) s (s.scalarResult (scalarSlot u) d 1 (aluAndn (s.sel (scalarSlot u) a) (s.sel (scalarSlot u) b)))

def execShl (u : ScalarUnit) (t : BitVec 3) (d : Dst) (a b : BitVec 5) (s : State) : Result :=
  guarded (.shl u t d a b) s (s.scalarResult (scalarSlot u) d 1 (aluShl (s.sel (scalarSlot u) a) (s.sel (scalarSlot u) b)))

def execShr (u : ScalarUnit) (t : BitVec 3) (d : Dst) (a b : BitVec 5) (s : State) : Result :=
  guarded (.shr u t d a b) s (s.scalarResult (scalarSlot u) d 1 (aluShr (s.sel (scalarSlot u) a) (s.sel (scalarSlot u) b)))

def execSar (u : ScalarUnit) (t : BitVec 3) (d : Dst) (a b : BitVec 5) (s : State) : Result :=
  guarded (.sar u t d a b) s (s.scalarResult (scalarSlot u) d 1 (aluSar (s.sel (scalarSlot u) a) (s.sel (scalarSlot u) b)))

def execRol (u : ScalarUnit) (t : BitVec 3) (d : Dst) (a b : BitVec 5) (s : State) : Result :=
  guarded (.rol u t d a b) s (s.scalarResult (scalarSlot u) d 1 (aluRol (s.sel (scalarSlot u) a) (s.sel (scalarSlot u) b)))

def execMin (u : ScalarUnit) (t : BitVec 3) (d : Dst) (a b : BitVec 5) (s : State) : Result :=
  guarded (.min u t d a b) s (s.scalarResult (scalarSlot u) d 1 (aluMin (s.sel (scalarSlot u) a) (s.sel (scalarSlot u) b)))

def execMax (u : ScalarUnit) (t : BitVec 3) (d : Dst) (a b : BitVec 5) (s : State) : Result :=
  guarded (.max u t d a b) s (s.scalarResult (scalarSlot u) d 1 (aluMax (s.sel (scalarSlot u) a) (s.sel (scalarSlot u) b)))

def execMinu (u : ScalarUnit) (t : BitVec 3) (d : Dst) (a b : BitVec 5) (s : State) : Result :=
  guarded (.minu u t d a b) s (s.scalarResult (scalarSlot u) d 1 (aluMinu (s.sel (scalarSlot u) a) (s.sel (scalarSlot u) b)))

def execMaxu (u : ScalarUnit) (t : BitVec 3) (d : Dst) (a b : BitVec 5) (s : State) : Result :=
  guarded (.maxu u t d a b) s (s.scalarResult (scalarSlot u) d 1 (aluMaxu (s.sel (scalarSlot u) a) (s.sel (scalarSlot u) b)))

def execMul (u : ScalarUnit) (t : BitVec 3) (d : Dst) (a b : BitVec 5) (s : State) : Result :=
  guarded (.mul u t d a b) s (s.scalarResult (scalarSlot u) d 3 (aluMul (s.sel (scalarSlot u) a) (s.sel (scalarSlot u) b)))

def execMulh (u : ScalarUnit) (t : BitVec 3) (d : Dst) (a b : BitVec 5) (s : State) : Result :=
  guarded (.mulh u t d a b) s (s.scalarResult (scalarSlot u) d 3 (aluMulh (s.sel (scalarSlot u) a) (s.sel (scalarSlot u) b)))

def execMulhu (u : ScalarUnit) (t : BitVec 3) (d : Dst) (a b : BitVec 5) (s : State) : Result :=
  guarded (.mulhu u t d a b) s (s.scalarResult (scalarSlot u) d 3 (aluMulhu (s.sel (scalarSlot u) a) (s.sel (scalarSlot u) b)))

def execClz (u : ScalarUnit) (t : BitVec 3) (d : Dst) (a : BitVec 5) (s : State) : Result :=
  guarded (.clz u t d a) s (s.scalarResult (scalarSlot u) d 1 (aluClz (s.sel (scalarSlot u) a)))

def execCtz (u : ScalarUnit) (t : BitVec 3) (d : Dst) (a : BitVec 5) (s : State) : Result :=
  guarded (.ctz u t d a) s (s.scalarResult (scalarSlot u) d 1 (aluCtz (s.sel (scalarSlot u) a)))

def execPcnt (u : ScalarUnit) (t : BitVec 3) (d : Dst) (a : BitVec 5) (s : State) : Result :=
  guarded (.pcnt u t d a) s (s.scalarResult (scalarSlot u) d 1 (aluPcnt (s.sel (scalarSlot u) a)))

def execSext (u : ScalarUnit) (t : BitVec 3) (d : Dst) (a b : BitVec 5) (s : State) : Result :=
  guarded (.sext u t d a b) s (s.scalarResult (scalarSlot u) d 1 (aluSext (s.sel (scalarSlot u) a) (s.sel (scalarSlot u) b)))

def execZext (u : ScalarUnit) (t : BitVec 3) (d : Dst) (a b : BitVec 5) (s : State) : Result :=
  guarded (.zext u t d a b) s (s.scalarResult (scalarSlot u) d 1 (aluZext (s.sel (scalarSlot u) a) (s.sel (scalarSlot u) b)))

def execCat7 (u : ScalarUnit) (t : BitVec 3) (d : Dst) (a b : BitVec 5) (s : State) : Result :=
  guarded (.cat7 u t d a b) s (s.scalarResult (scalarSlot u) d 1 (aluCat7 (s.sel (scalarSlot u) a) (s.sel (scalarSlot u) b)))

def execCmp (u : ScalarUnit) (t : BitVec 3) (p : BitVec 4) (c : BitVec 3) (a b : BitVec 5) (s : State) : Result :=
  guarded (.cmp u t p c a b) s (s.setPred p (cmpResult .set (s.cur.p.getLsbD p.toNat)
    (scalarCond c.toNat (s.sel (scalarSlot u) a) (s.sel (scalarSlot u) b))))

def execCmpa (u : ScalarUnit) (t : BitVec 3) (p : BitVec 4) (c : BitVec 3) (a b : BitVec 5) (s : State) : Result :=
  guarded (.cmpa u t p c a b) s (s.setPred p (cmpResult .and (s.cur.p.getLsbD p.toNat)
    (scalarCond c.toNat (s.sel (scalarSlot u) a) (s.sel (scalarSlot u) b))))

def execCmpo (u : ScalarUnit) (t : BitVec 3) (p : BitVec 4) (c : BitVec 3) (a b : BitVec 5) (s : State) : Result :=
  guarded (.cmpo u t p c a b) s (s.setPred p (cmpResult .or (s.cur.p.getLsbD p.toNat)
    (scalarCond c.toNat (s.sel (scalarSlot u) a) (s.sel (scalarSlot u) b))))

def execPrd (u : ScalarUnit) (t : BitVec 3) (d : Dst) (s : State) : Result :=
  guarded (.prd u t d) s (s.scalarResult (scalarSlot u) d 1 (s.cur.p.setWidth 64))

def execPwr (u : ScalarUnit) (t : BitVec 3) (a : BitVec 5) (s : State) : Result :=
  guarded (.pwr u t a) s (s.fly [s.flight 1 0 .p ((s.sel (scalarSlot u) a).setWidth 1024) (lowMask 16) 0])

end Sys2Proof.Machine
end

