-- ==== Sys2Proof/Machine/Index.lean ====
section
/-! DEFINITION. The index slot X and the address queue (R63, R135 to R140, R143). -/

namespace Sys2Proof.Machine

/-- The address of 128-byte row b from base a (R135). -/
def xLea (a b : Word) : Word := a + (b <<< 7)

/-- One step of two cursors (R136). -/
def cadvStep (c k : Word) : Word :=
  let ka := bitsAt k.toNat 32 32
  let kb := bitsAt k.toNat 0 32
  if ka = 0xFFFFFFFF ∧ kb = 0xFFFFFFFF then c
  else
    let pa := (bitsAt c.toNat 32 32 + (if ka ≤ kb then 8 else 0)) % 2 ^ 32
    let pb := (bitsAt c.toNat 0 32 + (if kb ≤ ka then 8 else 0)) % 2 ^ 32
    BitVec.ofNat 64 (pa * 2 ^ 32 + pb)

/-- Pushes entries onto the address queue at issue and reserves their reads (R137 to R139, R194). -/
def State.aqPush (s : State) (ps : List (Nat × Nat)) (ports : List PortReq) : State :=
  (s.modCur (fun c => { c with
    aqocc := c.aqocc + ps.length
    aq := c.aq ++ ps.map (fun p => ⟨BitVec.ofNat 32 p.1, p.2, s.now, none⟩) })).reservePorts ports

def execXadd (t : BitVec 3) (d : Dst) (a b : BitVec 5) (s : State) : Result :=
  guarded (.xadd t d a b) s (s.scalarResult .x d 1 (aluAdd (s.sel .x a) (s.sel .x b)))

def execXsub (t : BitVec 3) (d : Dst) (a b : BitVec 5) (s : State) : Result :=
  guarded (.xsub t d a b) s (s.scalarResult .x d 1 (aluSub (s.sel .x a) (s.sel .x b)))

def execXshl (t : BitVec 3) (d : Dst) (a b : BitVec 5) (s : State) : Result :=
  guarded (.xshl t d a b) s (s.scalarResult .x d 1 (aluShl (s.sel .x a) (s.sel .x b)))

def execXshr (t : BitVec 3) (d : Dst) (a b : BitVec 5) (s : State) : Result :=
  guarded (.xshr t d a b) s (s.scalarResult .x d 1 (aluShr (s.sel .x a) (s.sel .x b)))

def execXand (t : BitVec 3) (d : Dst) (a b : BitVec 5) (s : State) : Result :=
  guarded (.xand t d a b) s (s.scalarResult .x d 1 (aluAnd (s.sel .x a) (s.sel .x b)))

def execXlea (t : BitVec 3) (d : Dst) (a b : BitVec 5) (s : State) : Result :=
  guarded (.xlea t d a b) s (s.scalarResult .x d 1 (xLea (s.sel .x a) (s.sel .x b)))

def execXmin (t : BitVec 3) (d : Dst) (a b : BitVec 5) (s : State) : Result :=
  guarded (.xmin t d a b) s (s.scalarResult .x d 1 (aluMin (s.sel .x a) (s.sel .x b)))

def execXmax (t : BitVec 3) (d : Dst) (a b : BitVec 5) (s : State) : Result :=
  guarded (.xmax t d a b) s (s.scalarResult .x d 1 (aluMax (s.sel .x a) (s.sel .x b)))

def execXpcnt (t : BitVec 3) (d : Dst) (a : BitVec 5) (s : State) : Result :=
  guarded (.xpcnt t d a) s (s.scalarResult .x d 1 (aluPcnt (s.sel .x a)))

def execCadv (t : BitVec 3) (d : Dst) (a b : BitVec 5) (s : State) : Result :=
  guarded (.cadv t d a b) s (s.scalarResult .x d 2 (cadvStep (s.sel .x a) (s.sel .x b)))

def execCadvp (t : BitVec 3) (d : Dst) (a b : BitVec 5) (s : State) : Result :=
  guarded (.cadvp t d a b) s
    ((s.scalarResult .x d 2 (cadvStep (s.sel .x a) (s.sel .x b))).aqPush (aqPushes s (.cadvp t d a b)) (portReqs s (.cadvp t d a b)))

def execAqp (t : BitVec 3) (a b : BitVec 5) (s : State) : Result :=
  guarded (.aqp t a b) s (s.aqPush (aqPushes s (.aqp t a b)) (portReqs s (.aqp t a b)))

def execAqfree (t : BitVec 3) (d : Dst) (s : State) : Result :=
  guarded (.aqfree t d) s (s.scalarResult .x d 1 (BitVec.ofNat 64 (64 - s.cur.aqocc)))

/-! ## The gather engine (R139, R143) -/

/-- Changes the context, or, where the entry due lies in its saved image, that image (R143, R279). -/
def Core.modLiveOrSaved (k : Core) (x : Nat) (due : Ctx → Bool) (f : Ctx → Ctx) : Core :=
  if due (k.ctx x) then k.setCtx x (f (k.ctx x))
  else { k with saved := k.saved.map (fun p => if p.1 = x ∧ due p.2 then (p.1, f p.2) else p) }

/-- Whether an entry's read performs by tick `now` (R139). -/
def gatherReadDue (now : Nat) (c : Ctx) : Bool := c.aq.any (fun e => e.data.isNone && decide (e.pushed + 8 ≤ now))
/-- The first entry whose read is due. -/
def firstRead (now : Nat) (es : List AqEntry) : Option AqEntry := es.find? (fun e => e.data.isNone && decide (e.pushed + 8 ≤ now))
/-- Whether the oldest entry enters QG by tick `now` (R139). -/
def gatherDeliverDue (now : Nat) (c : Ctx) : Bool :=
  match c.aq with
  | e :: _ => e.data.isSome && decide (e.pushed + 24 ≤ now)
  | [] => false

/-- Reads the first entry due: bytes 0 to size − 1, the rest zero (R139). -/
def readFirst (s : State) (c : Nat) (es : List AqEntry) : List AqEntry :=
  match es with
  | [] => []
  | e :: r =>
    if e.data.isNone ∧ e.pushed + 8 ≤ s.now then
      let v := match localPlace c e.addr.toNat with
        | some (d, off) => s.readEngine d off e.size
        | none => 0
      { e with data := some (BitVec.ofNat 1024 v) } :: r
    else e :: readFirst s c r

/-- Where the read due reads: core, offset and bytes. -/
def Ctx.gatherPlace (c : Ctx) (core now : Nat) : Option (Nat × Nat × Nat) := match firstRead now c.aq with
  | some e => (localPlace core e.addr.toNat).map (fun p => (p.1, p.2, e.size))
  | none => none

/-- The stop of a context whose read finds a word that cannot be corrected: the engine finds it, kind C (R139, R342; log entry 8). -/
def State.gatherStop (s : State) (core : Nat) (c : Ctx) : List (Nat × FaultRec) := match c.gatherPlace core s.now with
  | some (d, off, n) => (match (s.core d).badWord off n with
    | some w => [(s.now + 1, ⟨34, 1, BitVec.ofNat 64 (localName core d w), 0, 0⟩)]
    | none => [])
  | none => []

/-- The context of a number that is due, live or saved. -/
def Core.liveOrSaved (k : Core) (x : Nat) (due : Ctx → Bool) : Ctx :=
  if due (k.ctx x) then k.ctx x
  else match k.saved.find? (fun p => p.1 == x && due p.2) with
    | some p => p.2
    | none => k.ctx x

/-- The read of a push performs; the words it reads are corrected where they can be (R139, R341). -/
def execGatherRead (core ctx : Nat) (s : State) : Result :=
  .next (
    let due := gatherReadDue s.now
    let s1 := match ((s.core core).liveOrSaved ctx due).gatherPlace core s.now with
      | some (d, off, n) => s.fixWords d off n
      | none => s
    s1.modCore core (fun k => k.modLiveOrSaved ctx due (fun c => { c with
      aq := readFirst s core c.aq
      stops := c.stops ++ s.gatherStop core c })))

def execGatherDeliver (core ctx : Nat) (s : State) : Result :=
  .next (s.modCore core (fun k => k.modLiveOrSaved ctx (gatherDeliverDue s.now) (fun c =>
    match c.aq with
    | e :: r => { c with aq := r, qg := c.qg ++ [e.data.getD 0] }
    | [] => c)))

end Sys2Proof.Machine
end

