-- ==== Sys2Proof/Machine/Windows.lean ====
section
/-! DEFINITION. What comes of a memory form after its bundle: timed writes (R172), stores to windows (R75, R146, R179, R200),
barriers (R180), messages (R176 to R178), fences and deferred signals (R182, R183), host signals (R111, R219). -/

namespace Sys2Proof.Machine

/-! ## Timed writes (R172) -/

/-- The order of timed entries in one tick: by issue tick, issuing core, MA before MB (R167). -/
def timedRank (e : TimedEntry) : Nat := (e.issued * 256 + e.src % 256) * 2 + (if e.mb then 1 else 0)

/-- The entry of a core's buffers that is written next in this tick. -/
def Core.timedNext (k : Core) (now : Nat) : Option TimedEntry :=
  k.timed.foldl (fun best e => if e.vis ≤ now then (match best with
    | none => some e
    | some b => if timedRank e < timedRank b then some e else some b) else best) none

/-- The list without its first element that equals `e`. -/
def dropEq {α : Type} [DecidableEq α] (e : α) (l : List α) : List α :=
  match l with
  | [] => []
  | x :: r => if x = e then r else x :: dropEq e r

/-- An entry of the timed-write buffers is written: one of whose words the check bits cannot correct is not, and its context stops
(R172, R341, R342; log entry 8). -/
def execTimedWrite (core : Nat) (s : State) : Result :=
  .next (match (s.core core).timedNext s.now with
    | some e =>
      match (s.core core).bad.find? (fun w => e.holds w && !w.fixable) with
      | some w =>
        (s.modCore core (fun k => { k with timed := dropEq e k.timed })).addStop e.src e.ctx (s.now + 1)
          ⟨34, 2, BitVec.ofNat 64 (2 ^ 32 + localName e.src core (w.place - 2 ^ 32)), 0, 0⟩
      | none => (s.fixBad core e.holds).modCore core (fun k => { k.store e.addr e.size e.data.toNat with timed := dropEq e k.timed })
    | none => s)

/-! ## Landings (R23, R75, R146, R149) -/

/-- The next flight of a context that lands in this tick, whatever it writes. -/
def Ctx.nextDue (c : Ctx) (now : Nat) : Option Flight := c.dueFlight now (fun _ => true)

/-- Whether a flight is a store to the HCW window, and to a register window. -/
def Flight.toHcw (f : Flight) : Bool := match f.dest with
  | .hcw _ _ => true
  | _ => false
def Flight.toWindow (f : Flight) : Bool := f.src == 2 && !f.toHcw

/-- The first due flight of a kind among contexts of a core, in landing order whichever context it is of (R22, R75, R273). -/
def State.dueOf (s : State) (core : Nat) (ok : Flight → Bool) (xs : List Nat) : Option (Nat × Flight) :=
  xs.foldl (fun best x => match (s.ctx core x).dueFlight s.now ok, best with
    | none, b => b
    | some f, none => some (x, f)
    | some f, some b => if landBefore f b.2 then some (x, f) else some b) none

/-- Lands that flight. -/
def State.landKind (s : State) (core : Nat) (ok : Flight → Bool) (xs : List Nat) : State :=
  match s.dueOf core ok xs with
  | some (x, f) => s.landFlight core x f
  | none => s

def execResultLanding (core ctx : Nat) (s : State) : Result :=
  .next (s.landKind core (fun f => !f.toHcw && !f.toWindow) [ctx])

def execHcwEntryWrite (core : Nat) (s : State) : Result := .next (s.landKind core Flight.toHcw [0, 1, 2, 3])

/-! ## Stores to the barrier window (R179, R200) -/

/-- The first store to the barrier window that acts in this tick and is of the kind. -/
def Core.barDue (k : Core) (now : Nat) (ok : BarStore → Bool) : Option BarPend :=
  k.barStores.find? (fun p => decide (p.tick ≤ now) && ok p.st)

def BarStore.isArrival (b : BarStore) : Bool := match b with
  | .barr _ _ => true
  | _ => false
def BarStore.isRelease (b : BarStore) : Bool := match b with
  | .release _ _ => true
  | _ => false
def BarStore.isRegister (b : BarStore) : Bool := match b with
  | .bcfg _ _ | .estat _ _ => true
  | _ => false

/-- Adds arrivals to a barrier, saturating (R179). -/
def Core.arrive (k : Core) (b n : Nat) : Core :=
  let br := tget k.barriers Barrier.reset b
  { k with barriers := tput k.barriers b { br with arrived := Nat.min 0xFFFF (br.arrived + n) } }

/-- What a store to the barrier window does when it acts. -/
def State.actBar (s : State) (core : Nat) (b : BarStore) : State :=
  match b with
  | .bcfg i v =>
    s.modCore core (fun k =>
      let br := tget k.barriers Barrier.reset i
      { k with barriers := tput k.barriers i { br with expect := v.setWidth 16, mirror := BitVec.ofNat 8 (bitsAt v.toNat 16 8) } })
  | .barr i n => s.modCore core (fun k => k.arrive i n)
  | .estat x v => s.modCtx core x (fun c => { c with estat := v &&& 1 })
  | .release x m =>
    s.modCore core (fun k => (List.range 32).foldl (fun k b =>
      if m.getLsbD b && k.owns x b then k.freeBank s.now b (s.scrubs core x) else k) k)

/-- Takes the first due store of a kind and lets it act. -/
def State.takeBar (s : State) (core : Nat) (ok : BarStore → Bool) : State :=
  match (s.core core).barDue s.now ok with
  | some p => (s.modCore core (fun k => { k with barStores := dropEq p k.barStores })).actBar core p.st
  | none => s

def execBarrWrite (core : Nat) (s : State) : Result := .next (s.takeBar core BarStore.isArrival)

def execReleaseWordWrite (core : Nat) (s : State) : Result := .next (s.takeBar core BarStore.isRelease)

/-- A core's own register write lands: of the array and generator window, of BCFG or of ESTAT (R146, R179). -/
def State.landRegister (s : State) (core : Nat) : State :=
  match (s.core core).barDue s.now BarStore.isRegister with
  | some _ => s.takeBar core BarStore.isRegister
  | none => s.landKind core Flight.toWindow [0, 1, 2, 3]

/-! ## Barriers (R180) -/

/-- A barrier completes in tick `now`. -/
def Barrier.completes (b : Barrier) (now : Nat) : Bool :=
  decide (b.expect ≠ 0) && decide (b.expect.toNat ≤ b.arrived) && b.pend == 0 && b.doneAt != now + 1

/-- A completion at c: ARRIVED falls by EXPECT and GEN inverts from c + 1, since every read of tick c has been made; mirrors
invert at c + 8. -/
def execBarrierComplete (core b : Nat) (s : State) : Result :=
  .next (
    let br := tget (s.core core).barriers Barrier.reset b
    if !(br.completes s.now) then s
    else
      let br2 : Barrier := { br with arrived := br.arrived - br.expect.toNat, gen := !br.gen, doneAt := s.now + 1 }
      let s1 := s.modCore core (fun k => { k with barriers := tput k.barriers b br2 })
      (List.range 8).foldl (fun s i =>
        if br.mirror.getLsbD i && i != coreInCluster core then
          s.modCore (peerCore core i) (fun k =>
            let m := tget k.barriers Barrier.reset b
            { k with barriers := tput k.barriers b { m with mirrorFlips := m.mirrorFlips ++ [s.now + 8] } })
        else s) s1)

/-- Whether a mirror flip of a barrier is due. -/
def Barrier.flipDue (b : Barrier) (now : Nat) : Bool := b.mirrorFlips.any (fun t => decide (t ≤ now))

def execBarrierMirrorFlip (core b : Nat) (s : State) : Result :=
  .next (s.modCore core (fun k =>
    let m := tget k.barriers Barrier.reset b
    match m.mirrorFlips.find? (fun t => decide (t ≤ s.now)) with
    | some t => { k with barriers := tput k.barriers b { m with gen := !m.gen, mirrorFlips := dropEq t m.mirrorFlips } }
    | none => k))

/-! ## Messages (R175 to R178) -/

/-- The latency L of a packet (R176). -/
def messageLat (src dst : Nat) : Nat :=
  if src = dst then 12
  else if clusterOf src = clusterOf dst then 16
  else if dieOf src = dieOf dst then 40
  else
    let d := dieOf src ^^^ dieOf dst
    if d = 1 ∨ d = 2 then 72 else 104

/-- The packet of a context that is captured in this tick (R176). -/
def State.captureDue (s : State) (core ctx : Nat) : Option Msg :=
  s.msgs.find? (fun m => m.core == core && m.ctx == ctx && !m.sent && decide (m.capture ≤ s.now))

def execMessageSend (core ctx : Nat) (s : State) : Result :=
  .next (match s.captureDue core ctx with
    | some m =>
      let w := msgRead (s.ctx core ctx) (128 * m.buf) 128
      let dst := bitsAt w 0 8
      let m2 := { m with
        sent := true, dcore := dst, dctx := bitsAt w 8 2, deliver := m.capture - 1 + messageLat core dst
        entry := BitVec.ofNat 1024 (setBits w 0 64 (core % 2 ^ 8 + ctx % 4 * 2 ^ 8)) }
      { s with msgs := s.msgs.map (fun n => if n = m then m2 else n) }
    | none => s)

/-- The next packet that reaches a context in this tick: by source core, then source context (R176). -/
def State.deliverDue (s : State) (core ctx : Nat) : Option Msg :=
  s.msgs.foldl (fun best m =>
    if m.sent && m.dcore == core && m.dctx == ctx && decide (m.deliver ≤ s.now) then
      (match best with
       | none => some m
       | some b => if m.core * 4 + m.ctx < b.core * 4 + b.ctx then some m else some b)
    else best) none

/-- Enters an entry into a QM, or, when it is full, drops it with a message-overflow stop at the next tick (R177). -/
def Ctx.receive (c : Ctx) (now : Nat) (m : Msg) : Ctx :=
  if c.qm.length < 16 then { c with qm := c.qm ++ [m.entry] }
  else { c with stops := c.stops ++ [(now + 1, ⟨31, 2, BitVec.ofNat 64 (bitsAt m.entry.toNat 0 64), 0, 0⟩)] }

def execMessageDeliver (core ctx : Nat) (s : State) : Result :=
  .next (match s.deliverDue core ctx with
    | none => s
    | some m =>
      let s1 := { s with msgs := dropEq m s.msgs }
      let k := s1.core core
      let runs := (k.ctx ctx).status != .empty
      let saved := (k.saved.find? (fun p => p.1 == ctx)).map (·.2)
      let toSaved := match saved with
        | some c => !runs || c.lx == m.lx
        | none => false
      if toSaved then
        s1.modCore core (fun k => { k with saved := k.saved.map (fun p => if p.1 = ctx then (p.1, p.2.receive s.now m) else p) })
      else if runs then s1.modCtx core ctx (fun c => c.receive s.now m)
      else match s1.findLaunch m.lx with
        | some l => if l.phase < 3 then s1.postL l 8 19 else s1
        | none => s1)

/-! ## Fences and signals (R182, R183) -/

/-- Every access a context issued before tick `t`, but for stores to register windows, has performed, counting those of this tick. -/
def State.accessesDone (s : State) (c x t : Nat) : Bool :=
  let mine (core ctx issued : Nat) : Bool := core == c && ctx == x && decide (issued < t)
  s.accesses.all (fun a => !(mine a.core a.ctx a.issued) || decide (a.perform ≤ s.now))
  && s.cores.all (fun p => p.2.barStores.all (fun b => !(mine b.core b.ctx b.issued) || decide (b.tick ≤ s.now)))

/-- The stores to register windows that a context issued before tick `t` have performed by `now`; `caught` dates those that a stop has
caught (R271). -/
def Ctx.windowsDone (k : Ctx) (t now : Nat) (caught : Flight → Bool) : Bool :=
  let old (f : Flight) : Bool := f.src == 2 && decide (f.issued < t)
  k.flights.all (fun f => !(old f) || decide (f.land ≤ now)) && k.shadow.all (fun f => !(old f) || caught f)

/-- Every core-slot access that the context `k`, which issues as context `x`, issued before tick `t` has performed: a store caught in its
shadow buffer performs when it is replayed (R271, R273). -/
def State.coreDone (s : State) (c x : Nat) (k : Ctx) (t : Nat) : Bool := s.accessesDone c x t && k.windowsDone t s.now (fun _ => false)

/-- The listed commands have ended, and the listed device writes have completed. -/
def State.cmdsEnded (s : State) (ids : List Nat) : Bool :=
  ids.all (fun i => !(s.cmds.any (fun d => d.id == i && decide (d.phase < 2)))
    && !(s.hostWrites.any (fun w => w.id == i)) && !(s.hsigs.any (fun h => h.id == i)))

/-- The pending bytes of a context of a launch on the path of a command class (R191). -/
def State.pendBytes (s : State) (c x lx cls : Nat) : Nat :=
  s.cmds.foldl (fun n d => if d.core = c ∧ d.ctx = x ∧ d.lx = lx ∧ d.cls = cls then n + d.pend else n) 0

/-- The pending bytes of a context are 0 on each masked path (R191). -/
def State.pendZero (s : State) (c x lx mask : Nat) : Bool :=
  (List.range 5).all (fun k => !(bitAt mask (k + 1)) || s.pendBytes c x lx k == 0)

/-- Every host write that completed before tick `t` has performed (R219). -/
def State.hostDone (s : State) (t : Nat) : Bool :=
  let done (l : HostLine) : Bool := l.data.isNone || decide (t ≤ l.acc)
  s.channels.all (fun p => p.2.hostQ0.all done && p.2.hostQ1.all done
    && p.2.hostOps.all (fun o => decide (o.1 ≤ s.now) || done o.2))

/-- The conditions of a fence hold in this tick (R183); a masked GTE path counts the reads of earlier pushes too (R209, R217). At
scope context or core rel asks for the end of the commands alone (R183; log entry 89). -/
def State.fenceOk (s : State) (c x : Nat) (f : FenceSt) : Bool :=
  let k := s.ctx c x
  let ended := s.cmdsEnded f.cmds
  let pushes := !(bitAt f.mask 2) || k.aq.all (fun e => decide (f.issued ≤ e.pushed) || e.data.isSome)
  let rel := s.coreDone c x k f.issued && ended && pushes && (decide (f.scope < 2) || s.pendZero c x k.lx f.mask)
  let acq := ended && k.flights.all (fun g => !(g.src == 3 && decide (g.issued < f.issued)) || decide (g.land ≤ s.now))
    && (!(bitAt f.mask 6) || s.hostDone f.issued)
  let sc := s.cores.all (fun p => p.2.timed.all (fun e =>
      !(e.src == c && e.ctx == x && decide (e.issued < f.issued)) || decide (e.vis ≤ s.now)))
    && k.signals.all (fun d => decide (f.issued ≤ d.issued) || d.released)
  decide (f.notBefore ≤ s.now) &&
  (match f.order with
   | 0 => acq
   | 1 => rel
   | 2 => rel && acq
   | _ => rel && acq && sc)

/-- A context that supervisor service or a pre-emption does not hold (R9). -/
def Ctx.runs (c : Ctx) : Bool := c.service.isNone && c.preBy == 0

/-- How a context goes on when its drain or its fence is over: it keeps the issue slot it holds; one that a stop took the slot from is a
ready context since it was resumed, whose idle ticks count in WACC (R9, R96, R106, R183; log entry 44). -/
def Ctx.goOn (c : Ctx) : CtxStatus := match c.backAt with
  | none => .issuing
  | some t => .ready t 0 true

/-- The fences of a context that is held back all hold (R183). -/
def State.fencesHold (s : State) (c x : Nat) : Bool :=
  match (s.ctx c x).status with
  | .fencing fs => fs.all (s.fenceOk c x)
  | _ => false

def execFenceRelease (core ctx : Nat) (s : State) : Result :=
  .next (if s.fencesHold core ctx then
      s.modCtx core ctx (fun c => { c with status := c.goOn })
    else s)

/-- The oldest signal of a context that has not released. -/
def Ctx.nextSignal (c : Ctx) : Option DefSignal := c.signals.find? (fun d => !d.released)

/-- A command of a context begins in this tick on a masked path: its bytes are pending from this tick on, unless its begin faults
(R182, R191). -/
def State.owesNow (s : State) (c x lx mask : Nat) : Bool :=
  s.cmds.any (fun d => d.core == c && d.ctx == x && d.lx == lx && bitAt mask (d.cls + 1) && decide (d.phase = 0) && decide (d.beginAt ≤ s.now))

/-- The conditions of a signal hold in this tick; `c` is the context, its saved image, or what is left of a released one. A row, or a
store to a register window, that a stop has caught counts as leaving the array, or as performing, in the tick in which it would have,
had the context run on (R182, R271, R279). -/
def State.signalOk (s : State) (core x : Nat) (c : Ctx) (saved : Bool) (d : DefSignal) : Bool :=
  let gone (r : RowOut) (exit : Nat) : Bool := decide (d.issued ≤ r.pushed) || decide (exit ≤ s.now)
  let k := s.core core
  decide (d.issued < s.now) && s.accessesDone core x d.issued && s.cmdsEnded d.cmds
  && c.windowsDone d.issued s.now (fun f => decide (c.caughtAt + f.land ≤ s.now))
  && (!(bitAt d.mask 0)
      || ((if !saved && k.arrayOwner == some x then k.array.rows.all (fun r => gone r r.exit) else true)
          && c.shadowRows.all (fun r => gone r (c.caughtAt + r.exit))))
  && (!d.drained || (s.pendZero core x c.lx d.mask && !(s.owesNow core x c.lx d.mask)))

/-- Whether the next signal of a context, live or saved, releases in this tick. -/
def State.signalDue (s : State) (core x : Nat) (c : Ctx) (saved : Bool) : Bool :=
  match c.nextSignal with
  | some d => s.signalOk core x c saved d
  | none => false

/-- The signals with the oldest unreleased one marked released. -/
def releaseFirst (ds : List DefSignal) : List DefSignal :=
  match ds with
  | [] => []
  | d :: r => if d.released then d :: releaseFirst r else { d with released := true } :: r

/-- The oldest signal that released contexts of a number have left, for each of their launches, when it releases in this tick (R110, R182). -/
def State.lateDue (s : State) (core x : Nat) : Option (Nat × Nat × DefSignal) :=
  let ds := (s.core core).lateSignals
  ds.find? (fun d => d.1 == x && ds.find? (fun e => e.1 == x && e.2.1 == d.2.1) == some d
    && s.signalOk core x { Ctx.reset with lx := d.2.1 } true d.2.2)

def execSignalRelease (core ctx : Nat) (s : State) : Result :=
  .next (
    let k := s.core core
    let c := k.ctx ctx
    if s.signalDue core ctx c false then
      match c.nextSignal with
      | some d => s.setCore core ((k.setCtx ctx { c with signals := releaseFirst c.signals }).arrive d.barrier 1)
      | none => s
    else match k.saved.find? (fun p => p.1 == ctx && s.signalDue core ctx p.2 true) with
      | some (_, c2) =>
        (match c2.nextSignal with
         | some d =>
           let saved2 : Table Ctx := k.saved.map (fun p => if p.1 = ctx then (p.1, { p.2 with signals := releaseFirst p.2.signals }) else p)
           s.setCore core ({ k with saved := saved2 }.arrive d.barrier 1)
         | none => s)
      | none => match s.lateDue core ctx with
        | some d => s.setCore core ({ k with lateSignals := dropEq d k.lateSignals }.arrive d.2.2.barrier 1)
        | none => s)

/-! ## Host signals (R111, R219) -/

/-- The timed-write entries a context issued before tick `t` have reached their ticks. -/
def State.timedDone (s : State) (c x t : Nat) : Bool :=
  s.cores.all (fun p => p.2.timed.all (fun e => !(e.src == c && e.ctx == x && decide (e.issued < t)) || decide (e.vis ≤ s.now)))

/-- The stream of a host signal. -/
def State.hsigStream (s : State) (h : HSig) : Option Nat := (s.findLaunch h.lx).map (·.stream)

/-- A host signal may be posted: every core-slot access its context issued before it has performed, timed-write entries too, and no
signal of its stream that issued earlier waits (R111, R209, R219). -/
def State.hsigOk (s : State) (h : HSig) : Bool :=
  s.accessesDone h.core h.ctx h.issued && s.timedDone h.core h.ctx h.issued
  && (match s.owner h.core h.ctx h.lx with
      | some k => k.windowsDone h.issued s.now (fun _ => false)
      | none => true)
  && (s.hsigs.takeWhile (fun g => g.id != h.id)).all (fun g => s.hsigStream g != s.hsigStream h)

/-- Posts the host signals that may be posted, in issue order. -/
def State.postHsigs (s : State) : State :=
  s.hsigs.foldl (fun s h =>
    if s.hsigOk h then
      let s1 := { s with hsigs := dropEq h s.hsigs }
      match s1.findLaunch h.lx with
      | some l => s1.postBy h.id (h.core * 4 + h.ctx + 1) l.stream l.lid 7 0 h.value
      | none => s1
    else s) s

end Sys2Proof.Machine
end

