-- ==== Sys2Proof/Machine/Command.lean ====
section
/-! DEFINITION. What engine commands share: their stops (R192), pending bytes (R191), engine-side slots (R194), ownership at
begin (R199), reads, writes and tags of scratchpad frames (R195, R196), and their ends. -/

namespace Sys2Proof.Machine

/-! ## Stops (R192) -/

/-- The CMD field of a fault record (R269). -/
def Cmd.recWord (c : Cmd) : Word := BitVec.ofNat 64 (c.cls * 2 ^ 16 + c.subNo % 2 ^ 32 * 2 ^ 20)

/-- The circuit engine without the evaluate of a command, whose update's staged entries never take part in a copy (R232, R233). -/
def Circuit.drop (g : Circuit) (id now : Nat) : Circuit :=
  let mine := match g.run with
    | some r => r.cmd == id
    | none => false
  { g with
    run := if mine then none else g.run
    lastEnd := if mine then now else g.lastEnd
    staging := tmap (fun st => if st.cmd = id then { st with endsAt := 0 } else st) g.staging }

/-- A command stops: nothing further of it is read or written, what stands stays, its slots still to come are free again,
and its context takes the fault at the next tick. -/
def State.stopCmd (s : State) (id code addr info : Nat) : State :=
  match s.findCmd id with
  | none => s
  | some m =>
    if m.phase = 3 then s
    else
      let s1 := s.setCmd { m with phase := 3, endAt := some s.now }
      let s2 := { s1 with
        eops := s1.eops.filter (fun e => decide (e.cmd ≠ id))
        cores := tmap (fun (k : Core) => { k with resv := k.resv.filter (fun r => !(r.cmd == id && decide (s.now ≤ r.tick))) }) s1.cores
        circuits := tmap (fun (g : Circuit) => g.drop id s.now) s1.circuits
        channels := tmap (fun (c : Channel) => { c with cellar := { c.cellar with
          cmd := if c.cellar.cmd = id then 0 else c.cellar.cmd, rows := c.cellar.rows.filter (fun r => decide (r.cmd ≠ id)) } }) s1.channels }
      let f : FaultRec := ⟨code, 1, BitVec.ofNat 64 (if code = 21 then m.recAddr else addr), BitVec.ofNat 64 info, m.recWord⟩
      s2.modOwner m.core m.ctx m.lx (fun c => { c with stops := c.stops ++ [(s.now + 1, f)] })

/-- Stops a command for a fault that a check found. -/
def State.stopFor (s : State) (id : Nat) (f : FaultRec) : State := s.stopCmd id f.code f.addr.toNat f.info.toNat

/-- The fault with the lowest code (R270). -/
def lowestCode (fs : List FaultRec) : Option FaultRec :=
  fs.foldl (fun best f => match best with
    | none => some f
    | some b => if f.code < b.code then some f else some b) none

/-! ## Pending bytes (R191) -/

/-- The core and the barrier a command counts in, if any. -/
def Cmd.barrier (c : Cmd) : Option (Nat × Nat) :=
  if rcBaren c.c0 then some (peerCore c.core (rcBcore c.c0), rcBar c.c0) else none

/-- Adds to, or takes from, PEND of a barrier. -/
def State.addPend (s : State) (p : Option (Nat × Nat)) (f : Nat → Nat) : State :=
  match p with
  | none => s
  | some (c, b) => s.modCore c (fun k =>
      let br := tget k.barriers Barrier.reset b
      { k with barriers := tput k.barriers b { br with pend := f br.pend } })

/-- Whether `n` more bytes would take PEND of a command's barrier above its width. -/
def State.pendOver (s : State) (m : Cmd) (n : Nat) : Bool :=
  match m.barrier with
  | none => false
  | some (c, b) => decide (2 ^ 36 ≤ (tget (s.core c).barriers Barrier.reset b).pend + n)

/-- A command owes `n` destination bytes. -/
def State.owe (s : State) (id n : Nat) : State :=
  match s.findCmd id with
  | none => s
  | some m => (s.setCmd { m with pend := m.pend + n }).addPend m.barrier (· + n)

/-- `n` bytes of a command have become visible. -/
def State.visible (s : State) (id n : Nat) : State :=
  match s.findCmd id with
  | none => s
  | some m => (s.setCmd { m with pend := m.pend - n }).addPend m.barrier (· - n)

/-! ## Engine-side slots and ownership (R194, R199) -/

/-- An engine-side slot a command asks for: core, byte offset in its scratchpad, tick, and whether it writes. -/
structure Use where
  core  : Nat
  off   : Nat
  tick  : Nat
  write : Bool
  deriving DecidableEq, Repr

/-- The bytes `n` from local address `a`, cut at bank words: core, offset, count, and the first byte's place in the whole. -/
def cutWords (c a n : Nat) : List (Nat × Nat × Nat × Nat) :=
  (List.range (n / 128 + 2)).filterMap (fun i =>
    let lo := Nat.max a ((a / 128 + i) * 128)
    let hi := Nat.min (a + n) ((a / 128 + i + 1) * 128)
    match decide (lo < hi), localPlace c lo with
    | true, some (d, off) => some (d, off, hi - lo, lo - a)
    | _, _ => none)

/-- The first slot of a list that is taken, by an earlier reservation or by an earlier one of the list. -/
def State.firstTaken (s : State) (us : List Use) (seen : List (Nat × Nat × Nat × Bool)) : Option Use :=
  match us with
  | [] => none
  | u :: r =>
    let key := (u.core, bankOf u.off, u.tick, u.write)
    if seen.contains key || (s.core u.core).slotTaken (bankOf u.off) u.tick u.write then some u
    else s.firstTaken r (key :: seen)

/-- Reserves slots for a command. -/
def State.reserveUses (s : State) (m : Cmd) (us : List Use) : State :=
  us.foldl (fun s u => s.modCore u.core (fun k => k.reserve ⟨bankOf u.off, u.tick, u.write, m.id, m.core, m.ctx⟩)) s

/-- The port-reservation fault of a list of slots (R194). -/
def State.portFaults (s : State) (m : Cmd) (us : List Use) : List FaultRec :=
  match s.firstTaken us [] with
  | some u => [bfault 13 (localName m.core u.core u.off) (pack2 (bankOf u.off) u.tick)]
  | none => []

/-- The ownership fault of a command whose own-scratchpad addresses reach a bank its context does not own (R199). -/
def State.ownFaults (s : State) (m : Cmd) (addrs : List Nat) : List FaultRec :=
  let k := s.core m.core
  let ok (b : Nat) : Bool := if (k.ctx m.ctx).lx = m.lx then k.owns m.ctx b else k.ownsSaved m.ctx b
  match addrs.find? (fun a => decide (a < spadSize) && !(ok (bankOf a))) with
  | some a => [bfault 11 a (pack2 (bankOf a) (tget k.own 0 (bankOf a)))]
  | none => []

/-- The first byte of each bank word among `n` bytes from `a`. -/
def wordAddrs (a n : Nat) : List Nat := (List.range (ceilDiv (a % 128 + n) 128)).map (fun i => if i = 0 then a else (a / 128 + i) * 128)

/-! ## Micro-operations -/

/-- The tick of the last write of a command into each of the frames its list of (core, frame, tick) names. -/
def frameEnds (ws : List (Nat × Nat × Nat)) : List (Nat × Nat × Nat) :=
  ws.foldl (fun acc w =>
    if acc.any (fun p => p.1 == w.1 && p.2.1 == w.2.1) then
      acc.map (fun p => if p.1 = w.1 ∧ p.2.1 = w.2.1 then (p.1, p.2.1, Nat.max p.2.2 w.2.2) else p)
    else acc ++ [w]) []

/-- The tags a command gives to the frames it writes, each in the tick of its last byte there (R195). -/
def tagOps (m : Cmd) (ws : List (Nat × Nat × Nat)) : List EOp :=
  (frameEnds ws).map (fun p => ⟨p.2.2, m.id, .setTag p.1 p.2.1⟩)

/-- The tag checks of a command under TCHK, each at its first read of a frame (R192). -/
def checkOps (m : Cmd) (rs : List (Nat × Nat × Nat)) : List EOp :=
  if rcTchk m.c0 then
    (rs.foldl (fun (acc : List (Nat × Nat × Nat)) r =>
      if acc.any (fun p => p.1 == r.1 && p.2.1 == r.2.1) then acc else acc ++ [r]) []).map (fun p => ⟨p.2.2, m.id, .tchk p.1 p.2.1⟩)
  else []

/-- `n` bytes of a command's buffer from byte `off` of a slot; they may run into the next slot. -/
def Cmd.bytes (m : Cmd) (slot off n : Nat) : Nat :=
  bitsAt ((tget m.buf 0 slot).toNat + (tget m.buf 0 (slot + 1)).toNat * 2 ^ 1024) (8 * off) (8 * n)

/-- The command with `n` bytes within a buffer slot replaced. -/
def Cmd.setIn (m : Cmd) (slot off n v : Nat) : Cmd :=
  { m with buf := tput m.buf slot (BitVec.ofNat 1024 (setBits (tget m.buf 0 slot).toNat (8 * off) (8 * n) v)) }

/-- The command with `n` bytes of its buffer from byte `off` of a slot replaced; they may run into the next slot. -/
def Cmd.setBytes (m : Cmd) (slot off n v : Nat) : Cmd :=
  if off + n ≤ 128 then m.setIn slot off n v
  else (m.setIn slot off (128 - off) v).setIn (slot + 1) 0 (off + n - 128) (v / 2 ^ (8 * (128 - off)))

/-- A read of a scratchpad into a command's buffer; a word it meets whose soft error cannot be corrected
stops it (R342). -/
def State.readLocal (s : State) (m : Cmd) (d a n slot off : Nat) : State :=
  match (s.core d).badWord a n with
  | some w => s.stopCmd m.id 34 (localName m.core d w) 0
  | none => (s.fixWords d a n).setCmd (m.setBytes slot off n (s.readEngine d a n))

/-- A write of a command into a scratchpad; one that meets the scrub of its bank finds the slot gone, though the command had reserved
it before, and stops the command by the port-reservation fault (R192, R194, R202; log entry 65). -/
def State.writeBytes (s : State) (m : Cmd) (d a n v : Nat) : State :=
  if (s.core d).scrubbing (bankOf a) s.now then s.stopCmd m.id 13 (localName m.core d a) (pack2 (bankOf a) s.now)
  else (s.writeSpad d a n v).visible m.id n

/-- A write of a command's bytes into a scratchpad. -/
def State.writeLocal (s : State) (m : Cmd) (d a n slot off : Nat) : State := s.writeBytes m d a n (m.bytes slot off n)

/-- A tag check (R192): the first read of a frame. -/
def State.checkTag (s : State) (m : Cmd) (d frame : Nat) : State :=
  let tag := (tget (s.core d).tags 0 frame).toNat
  if tag = m.etag then s else s.stopCmd m.id 24 (localName m.core d (frame * 4096)) (pack2 m.etag tag)

/-- A frame's tag changes at the end of this tick (R195, R196). -/
def State.giveTag (s : State) (m : Cmd) (d frame : Nat) : State :=
  s.modCore d (fun k => { k with tagPend := k.tagPend ++ [(frame, BitVec.ofNat 16 m.stag, m.beginAt, m.id)] })

/-- The command begins in this tick (R184). -/
def Cmd.beginsNow (m : Cmd) (now : Nat) : Bool := decide (m.phase = 0) && decide (m.beginAt ≤ now)

/-- The rank of a command among those of one begin tick: class, core, context, submission (R194). -/
def Cmd.rank (m : Cmd) : Nat := ((m.cls * 256 + m.core) * 4 + m.ctx) * 2 ^ 64 + m.id % 2 ^ 64

/-- Two commands ask for one engine that runs one command at a time: evaluates for the circuit engine of their cluster, launches for
the cellar engine of a channel (R233, R297). -/
def Cmd.meets (m d : Cmd) : Bool :=
  m.cls == d.cls && (match m.cls with
    | 2 => m.op == 0 && d.op == 0 && clusterOf m.core == clusterOf d.core
    | 4 => decide (m.ch < d.ch + d.nch) && decide (d.ch < m.ch + m.nch)
    | _ => false)

/-- Of two such commands of one begin tick the one submitted first begins first (R184; log entry 48). -/
def Cmd.yields (m d : Cmd) (now : Nat) : Bool := d.beginsNow now && decide (d.id < m.id) && m.meets d

/-! ## The end of a command (R186) -/

/-- Whether a command ends in this tick. -/
def Cmd.endsNow (m : Cmd) (now : Nat) : Bool :=
  decide (m.phase = 1) && (match m.endAt with
    | some t => decide (t ≤ now)
    | none => false)

def execEngineCommandEnd (id : Nat) (s : State) : Result :=
  .next (match s.findCmd id with
    | some m =>
      if m.endsNow s.now then
        let s1 := s.setCmd { m with phase := 2 }
        { s1 with circuits := tmap (fun (g : Circuit) => match g.run with
            | some r => if r.cmd = id then { g with run := none, lastEnd := s.now } else g
            | none => g) s1.circuits }
      else s
    | none => s)

/-- Records of a page land, which the steps of later ticks see (R236). -/
def EAct.lands (a : EAct) : Bool := match a with
  | .landRecords _ _ _ _ _ _ => true
  | _ => false

/-- The first micro-operation of a kind that is due in this tick; landings of records come after all others. -/
def State.dueOf' (s : State) (ok : EOp → Bool) : Option EOp :=
  match s.eops.find? (fun e => ok e && decide (e.tick ≤ s.now) && !e.act.lands) with
  | some e => some e
  | none => s.eops.find? (fun e => ok e && decide (e.tick ≤ s.now))

/-- The first micro-operation of a command that is due in this tick. -/
def State.dueOp (s : State) (id : Nat) : Option EOp := s.dueOf' (fun e => e.cmd == id)

end Sys2Proof.Machine
end

