-- ==== Sys2Proof/Machine/Dram.lean ====
section
/-! DEFINITION. Main memory (R203 to R208, R281 to R295): translation and layout, sectors, the expansion of sector streams into
bank commands and its check, plans, refresh, host windows and lines, and what the stacks report. -/

namespace Sys2Proof.Machine

/-! ## Timing (R283) -/

structure DramTm where
  ccd : Nat
  rcd : Nat
  ras : Nat
  rp  : Nat
  rc  : Nat
  rrd : Nat
  faw : Nat
  rl  : Nat
  wr  : Nat
  rtw : Nat
  wtr : Nat
  rfm : Nat
  lead : Nat
  deriving DecidableEq, Repr

def tmOf (tier : Nat) : DramTm :=
  if tier = 0 then ⟨1, 32, 56, 32, 88, 4, 24, 24, 32, 4, 8, 200, 40⟩ else ⟨3, 48, 96, 48, 144, 8, 48, 40, 48, 6, 12, 300, 56⟩

/-- Channels of a tier, channels per stack, bytes of a bank (R203, R281). -/
def channelsOf (tier : Nat) : Nat := if tier = 0 then 256 else 128
def perStack (tier : Nat) : Nat := if tier = 0 then 32 else 16
/-- The die whose controllers hold a channel: those of stacks 2d and 2d + 1 of both tiers (R282). -/
def dieOfChannel (tier ch : Nat) : Nat := ch / perStack tier / 2
def bankBytes (tier : Nat) : Nat := if tier = 0 then 2 ^ 26 else 2 ^ 28

/-! ## Translation (R203 to R208) -/

/-- A place in main memory with the ECC mode of an access. -/
structure Place where
  tier : Nat
  ch   : Nat
  bank : Nat
  byte : Nat
  mode : Nat
  deriving DecidableEq, Repr

/-- A range or a page: first and last address, layout-space start, layout, tier, ECC mode, RO and CH. -/
structure XEntry where
  base   : Nat
  last   : Nat
  offset : Nat
  layout : Nat
  tier   : Nat
  mode   : Nat
  ro     : Bool
  ch     : Nat
  deriving DecidableEq, Repr

def wordAt (ws : List Word) (i : Nat) : Nat := ((ws[i]?).getD 0).toNat

/-- A range entry in use (R203). -/
def rangeOf (ws : List Word) : Option XEntry :=
  let w3 := wordAt ws 3
  if bitAt w3 0 then
    some ⟨bitsAt (wordAt ws 0) 0 44 * 4096, bitsAt (wordAt ws 1) 0 44 * 4096 + 4095, bitsAt (wordAt ws 2) 0 40, bitsAt w3 1 3,
      bitsAt w3 4 1, if bitAt w3 5 then bitsAt w3 6 2 + 1 else 0, bitAt w3 8, bitsAt w3 16 8⟩
  else none

/-- A page of a snapshot (R207). -/
def pageOf (ws : List Word) : XEntry :=
  let w0 := wordAt ws 0
  let w1 := wordAt ws 1
  let base := bitsAt w0 0 44 * 4096
  ⟨base, base + 4096 * 2 ^ bitsAt w0 44 5 - 1, bitsAt w1 0 40, bitsAt w1 40 3, bitsAt w1 43 1,
    if bitAt w1 44 then bitsAt w1 45 2 + 1 else 0, bitAt w1 47, bitsAt w1 48 8⟩

/-- The channels of a tier in service that a test admits, ascending. -/
def State.channelList (s : State) (tier : Nat) (ok : Nat → Bool) : List Nat :=
  (List.range (channelsOf tier)).filter (fun c => ok c && !(s.channel tier c).retired)

/-- The list L of a layout (R205). -/
def State.layList (s : State) (l : Launch) (e : XEntry) : List Nat :=
  if e.layout = 2 then (if l.ownsCh e.tier e.ch then [e.ch] else [])
  else if e.layout = 3 then s.channelList e.tier (fun c => l.ownsCh e.tier c && c / perStack e.tier == e.ch % 8)
  else s.channelList e.tier (l.ownsCh e.tier)

/-- lay() of R205 for layouts 0 to 3: channel, bank and byte. -/
def layOn (g : Nat) (ls : List Nat) (off : Nat) : Option (Nat × Nat × Nat) :=
  let i := off / g
  match ls[i % ls.length]? with
  | some c => some (c, i / ls.length % 32, i / ls.length / 32 * g + off % g)
  | none => none

/-- The place of an offset of an entry; none where no channel of the launch holds it. -/
def State.placeOf (s : State) (l : Launch) (e : XEntry) (off : Nat) : Option Place :=
  if e.layout = 4 then
    let t := e.tier
    let ch := if t = 0 then bitsAt off 36 3 * 32 + bitsAt off 31 5 else bitsAt off 37 3 * 16 + bitsAt off 33 4
    if l.ownsCh t ch && !(bitAt off 39 && t == 0) then
      some ⟨t, ch, if t = 0 then bitsAt off 26 5 else bitsAt off 28 5, if t = 0 then bitsAt off 0 26 else bitsAt off 0 28, e.mode⟩
    else none
  else match layOn (if e.layout = 1 then 1024 else 256) (s.layList l e) off with
    | some (c, b, y) => if y < bankBytes e.tier then some ⟨e.tier, c, b, y, e.mode⟩ else none
    | none => none

/-- The entry that covers an address: a range first, then a page (R204). -/
def Launch.entryFor (l : Launch) (v : Nat) : Option XEntry :=
  match (l.ranges.filterMap rangeOf).find? (fun e => decide (e.base ≤ v ∧ v ≤ e.last)) with
  | some e => some e
  | none => (l.pages.map pageOf).find? (fun e => decide (e.base ≤ v ∧ v ≤ e.last))

/-- The tier of the entry that covers an address, also where R204 rejects the access; 0 where no entry covers it (R208, log entry 49). -/
def Launch.tierAt (l : Launch) (v : Nat) : Nat := match l.entryFor v with
  | some e => e.tier
  | none => 0

/-- Translation of a device virtual address; none is a translation fault (R204). -/
def State.xlate (s : State) (l : Launch) (v : Nat) (write : Bool) : Option Place :=
  match l.entryFor v with
  | none => none
  | some e => if write && e.ro then none else s.placeOf l e (e.offset + (v - e.base))

/-! ## Sectors (R281, R294, R295) -/

/-- The address of a byte of a bank in its channel's storage. -/
def chanAddr (tier bank byte : Nat) : Nat := bank * bankBytes tier + byte

/-- Whether bit `i` of a sector is covered by the check bits of a mode: 0 regular, then tolerant TD8, BF16 and FP16 (R294). -/
def eccCovers (mode i : Nat) : Bool :=
  match mode with
  | 0 => true
  | 1 => decide (3 ≤ i % 8)
  | 2 => decide (7 ≤ i % 16)
  | _ => decide (10 ≤ i % 16)

/-- The covered bits of a sector in a mode, by place, ascending: eight of them to a data symbol (R294; log entry 52). -/
def eccPlaces (mode : Nat) : List Nat := (List.range 256).filter (eccCovers mode)

/-- The symbols of a sector that an error pattern has spoiled: data symbols, then the four of the check bits. -/
def badSymbols (mode : Nat) (err : BitVec 288) : Nat :=
  let ps := eccPlaces mode
  let data := (List.range (ps.length / 8)).filter (fun k => ((ps.drop (8 * k)).take 8).any err.getLsbD)
  let check := [0, 1, 2, 3].filter (fun k => (List.range 8).any (fun j => err.getLsbD (256 + 8 * k + j)))
  data.length + check.length

/-- How many symbols a mode corrects (R294). -/
def eccLimit (mode : Nat) : Nat := if mode = 0 then 1 else 2

/-- Those bits of an error pattern that a mode's check bits do not cover, which stay as they are. -/
def uncovered (mode : Nat) (err : BitVec 288) : Nat :=
  ((List.range 256).filter (fun i => !(eccCovers mode i) && err.getLsbD i)).foldl (fun n i => n + 2 ^ i) 0

/-- What an access in a mode finds in a sector written in that mode with data `v` and spoiled by an error pattern: the value, none when
it reports uncorrectable, and whether symbols were corrected (R294, R295). Beyond what the code is sure to detect, what comes is
open (log entry 14). -/
def eccDecode (mode v : Nat) (err : BitVec 288) : Option Nat × Bool :=
  let n := badSymbols mode err
  if n ≤ eccLimit mode then (some (v ^^^ uncovered mode err), n != 0)
  else if mode = 0 ∧ n = 2 then (none, false)
  else (Config.eccBeyond mode v err.toNat, false)

/-- A sector as an access in an ECC mode finds it, and whether it was corrected. -/
def Channel.decodeSector (c : Channel) (tier bank byte mode : Nat) : Option Nat × Bool :=
  let a := chanAddr tier bank byte / 32 * 32
  let wrote := tget c.modes 0 (a / 32)
  let v := mreadN c.mem a 32
  let err := tget c.errs 0 (a / 32)
  if wrote = mode then (if err = 0 then (some v, false) else eccDecode mode v err)
  else (Config.eccMismatch wrote mode (v ^^^ (err.toNat % 2 ^ 256)), false)

/-- A sector as an access in an ECC mode reads it; none when it reports uncorrectable. -/
def Channel.readSector (c : Channel) (tier bank byte mode : Nat) : Option Nat := (c.decodeSector tier bank byte mode).1

/-- Writes a sector in an ECC mode, with its check bits. -/
def Channel.writeSector (c : Channel) (tier bank byte mode v : Nat) : Channel :=
  let a := chanAddr tier bank byte / 32 * 32
  { c with
    mem := mwriteN c.mem a 32 v
    modes := if mode = 0 then tdel c.modes (a / 32) else tput c.modes (a / 32) mode
    errs := tdel c.errs (a / 32) }

def State.modChannel (s : State) (tier ch : Nat) (f : Channel → Channel) : State := s.setChannel tier ch (f (s.channel tier ch))

/-- A read of a sector counts where it was corrected: in CECNT of its channel and in SECOR (R295, R341). -/
def State.countFix (s : State) (tier ch bank byte mode : Nat) : State :=
  if ((s.channel tier ch).decodeSector tier bank byte mode).2 then
    (s.modChannel tier ch (fun c => { c with cecnt := Nat.min 0xFFFF (c.cecnt + 1) })).corrected (chKey tier ch) 0 5
      (BitVec.ofNat 64 (chanAddr tier bank byte / 32 * 32))
  else s

/-- A read of a sector finds what its check bits say: a correction counts, an uncorrectable sector is reported (R295, R341, R342). -/
def State.markRead (s : State) (tier ch bank byte mode : Nat) : State :=
  if ((s.channel tier ch).readSector tier bank byte mode).isNone then
    s.reportSoft 5 (BitVec.ofNat 64 (chanAddr tier bank byte / 32 * 32))
  else s.countFix tier ch bank byte mode

/-- The 32 sectors of a row are read, in one mode or each in its own (R295, R341, R343). -/
def State.markRow (s : State) (tier ch bank row : Nat) (mode : Option Nat) : State :=
  (List.range 32).foldl (fun s i =>
    let byte := row * 1024 + 32 * i
    s.markRead tier ch bank byte (mode.getD (tget (s.channel tier ch).modes 0 (chanAddr tier bank byte / 32)))) s

/-- Device memory at a CXL.mem offset: tier, channel, bank, byte; none out of service (R331). -/
def State.hostPlace (s : State) (off : Nat) : Option (Nat × Nat × Nat × Nat) :=
  let tier := if off < 2 ^ 39 then 0 else 1
  match layOn 256 (s.channelList tier (fun _ => true)) (if tier = 0 then off else off - 2 ^ 39) with
  | some (c, b, y) => if y < bankBytes tier then some (tier, c, b, y) else none
  | none => none

/-- An 8-byte word of device memory as the supervisor reads it; 0 out of service. -/
def State.devWord (s : State) (off : Nat) : Word :=
  match s.hostPlace off with
  | some (t, c, b, y) => BitVec.ofNat 64 (mreadN (s.channel t c).mem (chanAddr t b y) 8)
  | none => 0

def State.devWords (s : State) (off n : Nat) : List Word := (List.range n).map (fun i => s.devWord (off + 8 * i))

/-- The supervisor has read `n` bytes of device memory: the sectors they meet are read, in the regular mode (R294, R341). -/
def State.markDevice (s : State) (off n : Nat) : State :=
  (List.range (ceilDiv (off % 32 + n) 32)).foldl (fun s i => match s.hostPlace (off / 32 * 32 + 32 * i) with
    | some (t, c, b, y) => s.markRead t c b y 0
    | none => s) s

/-! ## Bank commands (R285, R286, R291) -/

/-- The bursts of a sector stream: `tick i` is the column tick of its i-th sector. -/
def burstsOf (m pace : Nat) (wr : Bool) (tick : Nat → Nat) (i : Nat) (cur : Option (Place × Nat)) (ps : List Place) :
    List (Nat × Nat × Burst) :=
  let close (p : Place) (n : Nat) : Nat × Nat × Burst :=
    let t := tmOf p.tier
    let c0 := tick (i - n)
    let cz := tick (i - 1)
    (p.tier, p.ch, ⟨m, p.bank, p.byte / 1024, c0 - t.rcd, Nat.max (c0 - t.rcd + t.ras) (cz + (if wr then t.wr else t.ccd)), c0, n, pace, wr⟩)
  match ps, cur with
  | [], none => []
  | [], some (p, n) => [close p n]
  | q :: r, none => burstsOf m pace wr tick (i + 1) (some (q, 1)) r
  | q :: r, some (p, n) =>
    if q.tier = p.tier ∧ q.ch = p.ch ∧ q.bank = p.bank ∧ q.byte / 1024 = p.byte / 1024 then
      burstsOf m pace wr tick (i + 1) (some (p, n + 1)) r
    else close p n :: burstsOf m pace wr tick (i + 1) (some (q, 1)) r

def pcOf (bank : Nat) : Nat := bank / 16

/-- The column ticks of a burst. -/
def Burst.cols (b : Burst) : List Nat := (List.range b.ncol).map (fun i => b.c0 + i * b.pace)

/-- Two bursts of one pseudo-channel break the column rule (rule 2). -/
def colsClash (t : DramTm) (a b : Burst) : Bool :=
  a.cols.any (fun x => b.cols.any (fun y =>
    let d := if x ≤ y then y - x else x - y
    let first := if x ≤ y then a.wr else b.wr
    decide (d < t.ccd) || (a.wr != b.wr && decide (d < (if first then t.wtr else t.rtw)))))

/-- A bank is not free for a burst beside another (rule 1). -/
def bankClash (t : DramTm) (a b : Burst) : Bool :=
  !((decide (b.pre + t.rp ≤ a.act) && decide (b.act + t.rc ≤ a.act)) || (decide (a.pre + t.rp ≤ b.act) && decide (a.act + t.rc ≤ b.act)))

/-- A list of ACT ticks of one pseudo-channel leaves no room for one more at `a` (rule 4). -/
def actClash (t : DramTm) (acts : List Nat) (a : Nat) : Bool :=
  acts.any (fun x => decide (x < a + t.rrd) && decide (a < x + t.rrd))
  || (a :: acts).any (fun x => decide (a < x + t.faw) && decide (x ≤ a)
        && decide (4 < ((a :: acts).filter (fun y => decide (x ≤ y) && decide (y < x + t.faw))).length))

/-- The planned refreshes of a bank from now that begin before tick `t` (R288). -/
def Channel.refreshes (c : Channel) (bank t : Nat) : List Nat :=
  let at0 := if pcOf bank = 0 then c.refAt0 else c.refAt1
  let rot := if pcOf bank = 0 then c.rot0 else c.rot1
  let first := at0 + (bank % 16 + 16 - rot) % 16 * c.plan.refp
  (List.range (ticksBefore first (16 * c.plan.refp) t)).map (fun k => first + k * (16 * c.plan.refp))

/-- The planned refresh-management slots of a bank from now that begin before tick `t` (R288). -/
def Channel.rfmSlots (c : Channel) (bank t : Nat) : List Nat :=
  c.rfmAt.flatMap (fun p =>
    match c.plan.rfm[p.1]? with
    | some (_, b, per) =>
      if b ≠ bank ∨ t ≤ p.2 then []
      else if per = 0 then [p.2]
      else (List.range (ticksBefore p.2 per t)).map (fun k => p.2 + k * per)
    | none => [])

/-- A host window of a bank's pseudo-channel meets the ticks from `lo` to before `hi` (rule 6). -/
def Channel.windowMeets (c : Channel) (tier bank lo hi : Nat) : Bool :=
  let nxt := if pcOf bank = 0 then c.winAt0 else c.winAt1
  let cur := if pcOf bank = 0 then c.winEnd0 else c.winEnd1
  let n := ticksBefore nxt c.plan.hwp hi
  decide (lo < cur) || (decide (0 < n) && decide (lo < nxt + (n - 1) * c.plan.hwp + hwinOf tier))

/-- RAA after a list of events in tick order: falls, then ACTs; none when an ACT passes the ceiling (R291). -/
def raaRun (mx : Nat) (raa : Nat) (evs : List (Nat × Nat)) : Option Nat :=
  match evs with
  | [] => some raa
  | (_, d) :: r => if d = 0 then (if mx < raa + 1 then none else raaRun mx (raa + 1) r) else raaRun mx (raa - d) r

/-- Inserts an event by tick, a fall before an ACT of its tick. -/
def insertEv (e : Nat × Nat) (l : List (Nat × Nat)) : List (Nat × Nat) :=
  match l with
  | [] => [e]
  | f :: r => if e.1 < f.1 ∨ (e.1 = f.1 ∧ e.2 ≠ 0 ∧ f.2 = 0) then e :: f :: r else f :: insertEv e r

/-- The activation budget of a bank holds with one more ACT at `a` (rule 7). -/
def Channel.budgetOk (c : Channel) (now bank a : Nat) : Bool :=
  let acts := a :: (c.bursts.filter (fun b => b.bank == bank && decide (now ≤ b.act))).map (·.act)
  let until' := acts.foldl Nat.max 0 + 1
  let evs := acts.map (fun x => (x, 0)) ++ (c.refreshes bank until').map (fun x => (x, 16)) ++ (c.rfmSlots bank until').map (fun x => (x, 32))
  (raaRun c.raamax (tget c.raa 0 bank) (evs.foldl (fun l e => insertEv e l) [])).isSome

/-- The number of the first rule of R286 that a burst breaks on its channel; 0: none. -/
def Channel.breaks (c : Channel) (tier now : Nat) (b : Burst) : Nat :=
  let t := tmOf tier
  let closed := b.pre + t.rp
  let peers := c.bursts.filter (fun x => pcOf x.bank == pcOf b.bank)
  if c.bursts.any (fun x => x.bank == b.bank && bankClash t b x) then 1
  else if peers.any (colsClash t b) then 2
  else if actClash t (peers.map (·.act)) b.act then 4
  else if c.occ.any (fun o => o.1 == b.bank && decide (o.2.1 < closed) && decide (b.act < o.2.2))
      || (c.refreshes b.bank closed).any (fun r => decide (b.act < r + rfcOf tier))
      || (c.rfmSlots b.bank closed).any (fun r => decide (b.act < r + t.rfm)) then 5
  else if c.windowMeets tier b.bank b.act closed then 6
  else if !(c.budgetOk now b.bank b.act) then 7
  else 0

/-- Accepts the bursts of a list one after another; the INFO word of R286 where one breaks a rule. -/
def State.acceptBursts (s : State) (bs : List (Nat × Nat × Burst)) : Except Nat State :=
  match bs with
  | [] => .ok s
  | (tier, ch, b) :: r =>
    let c := s.channel tier ch
    let n := c.breaks tier s.now b
    if n = 0 then (s.setChannel tier ch { c with bursts := c.bursts ++ [b] }).acceptBursts r
    else .error (bitsAt (ch * 32 + b.bank) 0 13 + n * 2 ^ 16)

/-- The burst of a list that a controller refuses. -/
def State.refusedBurst (s : State) (bs : List (Nat × Nat × Burst)) : Option (Nat × Nat × Burst) :=
  match bs with
  | [] => none
  | (tier, ch, b) :: r =>
    let c := s.channel tier ch
    if c.breaks tier s.now b = 0 then (s.setChannel tier ch { c with bursts := c.bursts ++ [b] }).refusedBurst r else some (tier, ch, b)

/-- A sector of a command's streams: its column tick, its place and its address (R285). -/
structure Mark where
  tick  : Nat
  place : Place
  addr  : Nat
  deriving DecidableEq, Repr

/-- The marks of a stream's sectors. -/
def marksOf (ps : List Place) (tick addr : Nat → Nat) : List Mark := ps.zipIdx.map (fun p => ⟨tick p.2, p.1, addr p.2⟩)

/-- The address of the first sector of a burst. -/
def burstAddr (ms : List Mark) (b : Nat × Nat × Burst) : Nat :=
  ((ms.find? (fun m => m.tick == b.2.2.c0 && m.place.tier == b.1 && m.place.ch == b.2.1 && m.place.bank == b.2.2.bank)).map (·.addr)).getD 0

/-- The timing fault of bursts that the controllers do not accept: it names the address of the refused burst (R268, R286). -/
def State.burstFaults (s : State) (bs : List (Nat × Nat × Burst)) (ms : List Mark) : List FaultRec :=
  match s.acceptBursts bs with
  | .ok _ => []
  | .error info => [bfault 24 (((s.refusedBurst bs).map (burstAddr ms)).getD 0) info]

/-- The state with bursts accepted that a check has passed. -/
def State.takeBursts (s : State) (bs : List (Nat × Nat × Burst)) : State :=
  match s.acceptBursts bs with
  | .ok t => t
  | .error _ => s

/-! ## Plan events (R288 to R291) -/

/-- RAA of a bank falls (R291). -/
def Channel.relax (c : Channel) (bank n : Nat) : Channel :=
  { c with raa := if tget c.raa 0 bank ≤ n then tdel c.raa bank else tput c.raa bank (tget c.raa 0 bank - n) }

/-- DEBT falls at a refresh, and never below −8 (R289). -/
def Channel.payDebt (c : Channel) (pc : Nat) : Channel :=
  if pc = 0 then { c with debt0 := max (-8) (c.debt0 - 1) } else { c with debt1 := max (-8) (c.debt1 - 1) }

/-- The next bank of a pseudo-channel's rotation, and the rotation's advance (R288, R290). -/
def Channel.nextBank (c : Channel) (pc : Nat) : Nat := pc * 16 + (if pc = 0 then c.rot0 else c.rot1)
def Channel.rotate (c : Channel) (pc : Nat) : Channel :=
  if pc = 0 then { c with rot0 := (c.rot0 + 1) % 16 } else { c with rot1 := (c.rot1 + 1) % 16 }

/-- A bank is occupied from tick `lo` to before tick `hi`. -/
def Channel.occupy (c : Channel) (bank lo hi : Nat) : Channel := { c with occ := c.occ ++ [(bank, lo, hi)] }

/-- A refresh of a bank: its RAA and its pseudo-channel's DEBT fall (R289, R291). -/
def Channel.refreshed (c : Channel) (pc bank : Nat) : Channel := (c.relax bank 16).payDebt pc

/-- A refresh of the next bank of a rotation occupies it from tick `t` (R288, R290). -/
def Channel.refreshBank (c : Channel) (tier pc t : Nat) : Channel :=
  ((c.refreshed pc (c.nextBank pc)).occupy (c.nextBank pc) t (t + rfcOf tier)).rotate pc

/-- A bank is open, or not closed for tRP yet, at tick `t` (R286, R291). -/
def Channel.openAt (c : Channel) (tier bank t : Nat) : Bool :=
  c.bursts.any (fun b => b.bank == bank && decide (b.act ≤ t) && decide (t < b.pre + (tmOf tier).rp))

/-- A bank is occupied by refresh or refresh management in some tick from `lo` to before `hi`. -/
def Channel.occupied (c : Channel) (bank lo hi : Nat) : Bool :=
  c.occ.any (fun o => o.1 == bank && decide (o.2.1 < hi) && decide (lo < o.2.2))

/-- Whether a planned refresh is due. -/
def Channel.refreshDue (c : Channel) (pc now : Nat) : Bool := decide ((if pc = 0 then c.refAt0 else c.refAt1) ≤ now)

def execRefresh (tier ch pc : Nat) (s : State) : Result :=
  .next (
    let c := s.channel tier ch
    if c.refreshDue pc s.now then
      let c1 := c.refreshBank tier pc s.now
      s.setChannel tier ch (if pc = 0 then { c1 with refAt0 := c1.refAt0 + c1.plan.refp } else { c1 with refAt1 := c1.refAt1 + c1.plan.refp })
    else s)

/-- A refresh-management slot of a bank runs in tick `t`. -/
def Channel.inSlot (c : Channel) (tier bank t : Nat) : Bool :=
  c.occ.any (fun o => o.1 == bank && o.2.2 == o.2.1 + (tmOf tier).rfm && decide (o.2.1 ≤ t) && decide (t < o.2.2))

/-- A bank that takes a refresh-management slot of the hand-over in this tick: in the 512 ticks before S its RAA is not 0, and it is
closed and in no such slot yet; a refresh that occupies it does not put the slot off (R288, R291; log entry 50). -/
def Channel.handBank (c : Channel) (tier now : Nat) (ok : Nat → Bool) : Option Nat :=
  match c.handAt with
  | some t => if t ≤ now then
      (c.raa.find? (fun p => decide (p.2 ≠ 0) && ok p.1 && !(c.openAt tier p.1 now) && !(c.inSlot tier p.1 now))).map (·.1) else none
  | none => none

/-- A refresh-management slot of a bank in this tick (R288, R291). -/
def Channel.manage (c : Channel) (tier bank now : Nat) : Channel := (c.relax bank 32).occupy bank now (now + (tmOf tier).rfm)

/-- The refresh-management entry of a bank that is due, by its index in the plan. -/
def Channel.rfmDue (c : Channel) (now : Nat) (ok : Nat → Bool) : Option (Nat × Nat × Nat) :=
  (c.rfmAt.filterMap (fun p => match c.plan.rfm[p.1]? with
    | some (_, b, per) => if p.2 ≤ now ∧ ok b then some (p.1, b, per) else none
    | none => none)).head?

def execRefreshManagement (tier ch bank : Nat) (s : State) : Result :=
  .next (
    let c := s.channel tier ch
    match c.rfmDue s.now (fun b => b == bank) with
    | some (i, _, per) =>
      let c1 := c.manage tier bank s.now
      s.setChannel tier ch { c1 with rfmAt := if per = 0 then tdel c1.rfmAt i else tput c1.rfmAt i (tget c1.rfmAt 0 i + per) }
    | none => if (c.handBank tier s.now (fun b => b == bank)).isSome then s.setChannel tier ch (c.manage tier bank s.now) else s)

/-! ## Host lines (R293, R331) -/

def Channel.queue (c : Channel) (pc : Nat) : List HostLine := if pc = 0 then c.hostQ0 else c.hostQ1
def Channel.setQueue (c : Channel) (pc : Nat) (q : List HostLine) : Channel := if pc = 0 then { c with hostQ0 := q } else { c with hostQ1 := q }

/-- The lines a window serves, in order, and those that wait (R293). -/
def pickLines (busy : Nat → Bool) (n : Nat) (used : List Nat) (q : List HostLine) : List HostLine × List HostLine :=
  match q with
  | [] => ([], [])
  | l :: r =>
    if n = 0 ∨ used.contains l.bank ∨ busy l.bank then
      let p := pickLines busy n (l.bank :: used) r
      (p.1, l :: p.2)
    else
      let p := pickLines busy (n - 1) (l.bank :: used) r
      (l :: p.1, p.2)

/-- The two column accesses of the j-th line a window at `w` serves (R293). -/
def lineOps (tier w j : Nat) (l : HostLine) : List (Nat × HostLine) :=
  let t0 := if tier = 0 then w + 8 * j + 32 else w + 12 * j + 48
  let half (i : Nat) : HostLine := { l with byte := l.byte + 32 * i, off := l.off + 32 * i, data := l.data.map (fun d => d.ushiftRight (256 * i)) }
  [(t0, half 0), (t0 + (tmOf tier).ccd, half 1)]

/-- The ACT, the columns and the PRE of the j-th line a window at `w` serves, which belong to no command (R293). -/
def lineBurst (tier w j : Nat) (l : HostLine) : Burst :=
  let act := if tier = 0 then w + 8 * j else w + 12 * j
  let rcd := if tier = 0 then 32 else 48
  ⟨0, l.bank, l.byte / 1024, act, act + (if tier = 0 then 65 else 99), act + rcd, 2, (tmOf tier).ccd, l.data.isSome⟩

/-- Whether a window of a pseudo-channel opens in this tick, and the first host column due there. -/
def Channel.windowDue (c : Channel) (pc now : Nat) : Bool := decide ((if pc = 0 then c.winAt0 else c.winAt1) ≤ now)
def Channel.hostDue (c : Channel) (pc now : Nat) : Option (Nat × HostLine) :=
  c.hostOps.find? (fun o => decide (o.1 ≤ now) && pcOf o.2.bank == pc)

/-- A host column performs: a write stores its sector in the regular mode, a read is returned on CXL, poisoned when the
sector is uncorrectable (R219, R293, R295). -/
def State.hostColumn (s : State) (tier ch : Nat) (o : Nat × HostLine) : State :=
  let c := s.channel tier ch
  let c1 := { c with hostOps := dropEq o c.hostOps }
  match o.2.data with
  | some d => { s.setChannel tier ch (c1.writeSector tier o.2.bank o.2.byte 0 (d.toNat % 2 ^ 256)) with performed := s.performed ++ [o.2.acc] }
  | none =>
    let r := c.readSector tier o.2.bank o.2.byte 0
    let s1 := (s.setChannel tier ch c1).markRead tier ch o.2.bank o.2.byte 0
    { s1 with outputs := s1.outputs ++ [.line s.now o.2.off (r.getD 0) r.isNone] }

def execHostWindow (tier ch pc : Nat) (s : State) : Result :=
  .next (
    let c := s.channel tier ch
    match c.hostDue pc s.now with
    | some o => s.hostColumn tier ch o
    | none =>
      if c.windowDue pc s.now then
        let t := tmOf tier
        let busy (b : Nat) : Bool := c.bursts.any (fun x => x.bank == b && decide (x.act < s.now + hwinOf tier) && decide (s.now < x.pre + t.rp))
          || c.occupied b s.now (s.now + hwinOf tier)
        let p := pickLines busy 4 [] (c.queue pc)
        let c1 := { c.setQueue pc p.2 with
          hostOps := c.hostOps ++ p.1.zipIdx.flatMap (fun (l : HostLine × Nat) => lineOps tier s.now l.2 l.1)
          bursts := c.bursts ++ p.1.zipIdx.map (fun (l : HostLine × Nat) => lineBurst tier s.now l.2 l.1) }
        s.setChannel tier ch (if pc = 0 then { c1 with winAt0 := c1.winAt0 + c1.plan.hwp, winEnd0 := s.now + hwinOf tier }
          else { c1 with winAt1 := c1.winAt1 + c1.plan.hwp, winEnd1 := s.now + hwinOf tier })
      else s)

/-- Takes a host line into its channel's queue, and returns the completion of a write (R219); a full queue withholds credits, and the
access is offered again (R293). -/
def State.acceptLine (s : State) (i : Instr) (off : Nat) (data : Option (BitVec 512)) : State :=
  let o := off / 64 * 64
  match s.hostPlace o with
  | none => { s with outputs := s.outputs ++ [.unsupported s.now o] }
  | some (t, ch, b, y) =>
    let c := s.channel t ch
    let q := c.queue (pcOf b)
    if 16 ≤ q.length then { s with inputs := s.inputs ++ [(s.now + 1, i)] }
    else
      let s1 := s.setChannel t ch (c.setQueue (pcOf b) (q ++ [⟨s.now, o, b, y, data⟩]))
      if data.isSome then { s1 with outputs := s1.outputs ++ [.accepted s.now o] } else s1

def execHostMemWrite (off : Nat) (data : BitVec 512) (s : State) : Result := .next (s.acceptLine (.hostMemWrite off data) off (some data))

def execHostMemRead (off : Nat) (s : State) : Result := .next (s.acceptLine (.hostMemRead off) off none)

/-! ## Refresh beyond the plan, and what the stacks report (R289, R290, R292) -/

def execDebtInterval (tier ch pc : Nat) (s : State) : Result :=
  .next (
    let c := s.channel tier ch
    let d := if pc = 0 then c.debt0 else c.debt1
    let c1 := if pc = 0 then { c with debt0 := min 8 (d + 1) } else { c with debt1 := min 8 (d + 1) }
    s.setChannel tier ch (if d = 7 then { c1 with forced := c1.forced ++ [(pc, s.now + 1)] } else c1))

/-- A burst cut at tick `x`: no column from `x` on, and the bank closes then; none when it had not begun. -/
def Burst.cut (b : Burst) (x : Nat) : Option Burst :=
  if x ≤ b.act then none
  else some { b with ncol := (b.cols.filter (fun c => decide (c < x))).length, pre := Nat.min b.pre x }

/-- The address of the first sector of a gather's row in a bank, by the index for which its bank commands were accepted (R187, R285). -/
def State.rowVaIn (s : State) (m : Cmd) (idx tier ch bank : Nat) : Option Nat :=
  ((List.range m.rowSectors).map (fun i => (m.rowVa idx + 32 * i) % 2 ^ 56)).find? (fun va =>
    match (s.findLaunch m.lx).bind (fun l => s.xlate l va false) with
    | some p => p.tier == tier && p.ch == ch && p.bank == bank
    | none => false)

/-- The device virtual address of a command's first access to a bank that is still to come, that of a gather's row whose index has not
been read yet among them; 0 where it has none. -/
def State.nextVa (s : State) (id tier ch bank : Nat) : Nat :=
  let read := s.eops.findSome? (fun e => match e.act with
    | .rdDram t c b _ _ _ va _ | .wrDram t c b _ _ _ _ va _ => if e.cmd = id ∧ t = tier ∧ c = ch ∧ b = bank then some va else none
    | _ => none)
  let row := (s.findCmd id).bind (fun m => s.eops.findSome? (fun e => match e.act with
    | .index _ idx _ _ => if e.cmd = id ∧ idx < 2 ^ 32 then s.rowVaIn m idx tier ch bank else none
    | _ => none))
  (read.or row).getD 0

/-- Closes a bank from `x` and stops every command with a bank command there before `hi` (R290, R292). -/
def State.cutBank (s : State) (tier ch bank x hi code info : Nat) : State :=
  let c := s.channel tier ch
  let hit := c.bursts.filter (fun b => b.bank == bank && decide (x ≤ b.pre) && decide (b.act < hi))
  let c1 := { c with bursts := c.bursts.filterMap (fun b => if hit.contains b then b.cut x else some b) }
  hit.foldl (fun s b => s.stopCmd b.cmd code (s.nextVa b.cmd tier ch bank) info) (s.setChannel tier ch c1)

/-- The forced refresh of a pseudo-channel that is due, and the refresh itself where the bank had to be closed first (R290). -/
def Channel.forcedDue (c : Channel) (pc now : Nat) : Option (Nat × Nat) := c.forced.find? (fun f => f.1 == pc && decide (f.2 ≤ now))
def Channel.lateDue (c : Channel) (pc now : Nat) : Option (Nat × Nat) := c.late.find? (fun f => pcOf f.1 == pc && decide (f.2 ≤ now))

def execForcedRefresh (tier ch pc : Nat) (s : State) : Result :=
  .next (
    let c := s.channel tier ch
    match c.lateDue pc s.now, c.forcedDue pc s.now with
    | some f, _ => s.setChannel tier ch { c.refreshed pc f.1 with late := dropEq f c.late }
    | none, none => s
    | none, some f =>
      let bank := c.nextBank pc
      let open' := c.bursts.any (fun b => b.bank == bank && decide (b.act < s.now) && decide (s.now ≤ b.pre))
      let at' := if open' then s.now + (tmOf tier).rp else s.now
      let s1 := s.cutBank tier ch bank s.now (at' + rfcOf tier) 25 (pack2 ch bank)
      s1.modChannel tier ch (fun c =>
        if open' then { (c.occupy bank s.now (at' + rfcOf tier)).rotate pc with forced := dropEq f c.forced, late := c.late ++ [(bank, at')] }
        else { c.refreshBank tier pc s.now with forced := dropEq f c.forced }))

def execDisturbReport (tier ch bank row : Nat) (corrupt : Bool) (s : State) : Result :=
  .next (
    let t := tmOf tier
    let s1 := s.cutBank tier ch bank s.now (s.now + t.rp + 400) 30 (pack2 ch row)
    s1.modChannel tier ch (fun c => { c with
      dlog := if c.dlog.length < 0xFFFF then c.dlog ++ [(bank, row, corrupt)] else c.dlog
      occ := c.occ ++ [(bank, s.now, s.now + t.rp + 400)] }))

def execTemperatureClassChange (tier stack : Nat) (hot : Bool) (s : State) : Result :=
  .next ((List.range (perStack tier)).foldl (fun s i => s.modChannel tier (stack * perStack tier + i) (fun c => { c with cls := hot })) s)

/-! ## Plans (R287, R288) -/

/-- A plan takes effect on a channel with its origin (R288). -/
def Channel.usePlan (c : Channel) (p : Plan) (origin : Nat) : Channel :=
  { c with
    plan := p, origin := origin, rot0 := 0, rot1 := 0, handAt := none
    refAt0 := origin + p.ref0, refAt1 := origin + p.ref1, winAt0 := origin + p.hw0, winAt1 := origin + p.hw1
    rfmAt := (List.range p.rfm.length).filterMap (fun i => (p.rfm[i]?).map (fun e => (i, origin + e.1))) }

/-- The plan of the next launch that owns a channel: the staged block, which serves one launch; else the reset column. A staged
block also loads the cellar program memory, unless it keeps it (R287). -/
def Channel.startPlan (c : Channel) (tier lx origin : Nat) : Channel :=
  let c1 := match c.staged with
    | some p =>
      let prog : Table (BitVec 32) := (List.range 128).filterMap (fun i => match p.prog[i]? with
        | some w => if w = 0 then none else some (i, w)
        | none => none)
      let cel := if p.keep then c.cellar else { c.cellar with prog := prog }
      { c.usePlan p origin with cellar := cel, staged := none }
    | none => c.usePlan (Plan.idle tier) origin
  { c1 with owner := lx, idle := false }

/-- The channel returns to the idle plan, which runs from its fixed origin (R287, R288). -/
def Channel.endPlan (c : Channel) (tier now : Nat) : Channel :=
  let i := Channel.at' tier now
  { c with
    plan := i.plan, origin := 0, owner := 0, idle := true, rot0 := i.rot0, rot1 := i.rot1, refAt0 := i.refAt0, refAt1 := i.refAt1
    winAt0 := i.winAt0, winAt1 := i.winAt1, rfmAt := [] }

/-- A patrol scrub of a channel in a host window of the idle plan: it changes no value, counts the sectors it corrects and reports
those it cannot (R342). -/
def execDramPatrolScrub (tier ch : Nat) (s : State) : Result :=
  .next (
    let c := s.channel tier ch
    if c.idle && (decide (s.now < c.winEnd0) || decide (s.now < c.winEnd1)) then
      c.errs.foldl (fun s p =>
        s.markRead tier ch (32 * p.1 / bankBytes tier) (32 * p.1 % bankBytes tier) (tget c.modes 0 p.1)) s
    else s)

end Sys2Proof.Machine
end

