-- ==== Sys2Proof/Machine/Vector.lean ====
section
/-! DEFINITION. The vector slots VA and VB (R64 to R67, R115 to R134). -/

namespace Sys2Proof.Machine

/-! ## Elements of an instruction (R115 to R117) -/

def elemW (f : VecFields) : Nat := tyWidth f.ty.toNat
def vecWid (f : VecFields) : Nat := 256 * 2 ^ f.w.toNat
def vecN (f : VecFields) : Nat := vecWid f / elemW f
def vecInt (f : VecFields) : Bool := tyIsInt f.ty.toNat
def vecFmt (f : VecFields) : FFmt := tyFmt f.ty.toNat

/-- An element as an integer of type `ty`. -/
def intVal (ty w : Nat) : Int := if tySigned ty then toSigned (tyWidth ty) w else (w % 2 ^ tyWidth ty : Nat)

/-- Every vector result: the elements written, with their flags; the others keep their bits (R116, R117). -/
def State.vland (s : State) (vd : BitVec 5) (lat e : Nat) (rs : List (Option (Nat × Flags))) : State :=
  let vals := rs.map (fun r => match r with
    | some p => p.1
    | none => 0)
  let fl := rs.foldl (fun acc r => match r with
    | some p => acc ||| p.2
    | none => acc) flNone
  s.fly [s.flight lat 0 (.v vd.toNat) (BitVec.ofNat 1024 (packElems e vals))
    (BitVec.ofNat 1024 (packMask e (rs.map Option.isSome))) fl]

/-- The results of the elements KM leaves on, from the elements of VA, VB and VD (R116). -/
def State.masked (s : State) (f : VecFields) (g : Nat → Nat → Nat → Nat → Nat × Flags) : List (Option (Nat × Flags)) :=
  let e := elemW f
  let k := s.kreg f.km
  let a := s.vreg f.va
  let b := s.vreg f.vb
  let d := s.vreg f.vd
  (List.range (vecN f)).map (fun i => if maskBit k e i then some (g i (elem a e i) (elem b e i) (elem d e i)) else none)

/-- An element-wise instruction (R116, R122). -/
def State.elementwise (s : State) (f : VecFields) (lat : Nat) (g : Nat → Nat → Nat → Nat → Nat × Flags) : State :=
  s.vland f.vd lat (elemW f) (s.masked f g)

/-! ## Rounding (R120, R121) -/

/-- The rounding code in force. -/
def State.vcode (s : State) (f : VecFields) : Nat := effCode f.md.toNat s.cur.fmt

/-- The mode of a result of row `row` (R121). -/
def State.vmode (s : State) (f : VecFields) (row : Nat) : RMode :=
  modeOf (s.vcode f) (drawOf s.cur.sr s.cur.vwc.toNat row f.vd.toNat)

/-- The instruction counts in VWC when its mode is stochastic (R121). -/
def State.countWrite (s : State) (f : VecFields) : State :=
  if s.vcode f = 4 then s.modCur (fun c => { c with vwc := c.vwc + 1 }) else s

/-- An element-wise form with a rounding MOD. -/
def State.rounded (s : State) (f : VecFields) (lat : Nat) (g : RMode → FV → FV → FV → Nat × Flags) : State :=
  let fm := vecFmt f
  (s.elementwise f lat (fun i a b d => g (s.vmode f i) (fdecode fm a) (fdecode fm b) (fdecode fm d))).countWrite f

/-! ## Integers (R123) -/

/-- The exact integer stored by integer mode `md`: wrapped, or clamped with OF. -/
def intStore (ty md : Nat) (r : Int) : Nat × Flags :=
  let n := tyWidth ty
  let lo := intMin (tySigned ty) n
  let hi := intMax (tySigned ty) n
  if md = 1 then
    if r < lo then (ofSigned n lo, flOF) else if hi < r then (ofSigned n hi, flOF) else (ofSigned n r, flNone)
  else (ofSigned n r, flNone)

/-- An element-wise integer form. -/
def State.integers (s : State) (f : VecFields) (g : Int → Int → Int) : State :=
  let ty := f.ty.toNat
  s.elementwise f 2 (fun _ a b _ => intStore ty f.md.toNat (g (intVal ty a) (intVal ty b)))

/-- A form that chooses by the kind of TY. -/
def State.byKind (s : State) (f : VecFields) (lat : Nat) (g : RMode → FV → FV → FV → Nat × Flags) (h : Int → Int → Int) : State :=
  if vecInt f then s.integers f h else s.rounded f lat g

def intMin2 (a b : Int) : Int := if b < a then b else a
def intMax2 (a b : Int) : Int := if a < b then b else a

/-! ## R124, R125 -/

/-- The fused multiply-add of a lane (R124). -/
def laneFma (f : FFmt) (m : RMode) (a b d : FV) : Nat × Flags :=
  if (fvIsInf a && fvIsZero b) || (fvIsZero a && fvIsInf b) then
    (if fvIsNaN d && !(fvSignalling d) then ((fencode f m d).1, flNV) else (f.nanBits, flNV))
  else roundRes f m (fmaV m a b d [a, b, d])

/-- 2^a of a lane (R125). -/
def laneExp2 (f : FFmt) (m : RMode) (a : FV) : Nat × Flags :=
  match a with
  | .nan _ _ => fencode f m a
  | .inf true => (0, flNone)
  | .inf false => (f.infBits, flNone)
  | .fin _ _ => roundMag f m false (exp2Q (fvQ a))

/-- 1/√a of a lane (R125). -/
def laneRsqrt (f : FFmt) (m : RMode) (a : FV) : Nat × Flags :=
  match a with
  | .nan _ _ => fencode f m a
  | .inf true => (f.nanBits, flNV)
  | .inf false => (0, flNone)
  | .fin neg q =>
    if qIsZero q then (withSign f neg f.infBits, flDZ)
    else if neg then (f.nanBits, flNV)
    else roundMag f m false (rsqrtQ q)

/-- 1/a of a lane (R125). -/
def laneRecip (f : FFmt) (m : RMode) (a : FV) : Nat × Flags :=
  match a with
  | .nan _ _ => fencode f m a
  | .inf neg => (withSign f neg 0, flNone)
  | .fin neg q =>
    if qIsZero q then (withSign f neg f.infBits, flDZ)
    else roundMag f m neg ⟨q.den, q.num.natAbs⟩

/-! ## Conversion (R126) -/

/-- One element of type `src` as type `dst`. -/
def convert (dst src : Nat) (m : RMode) (w : Nat) : Nat × Flags :=
  if src = dst then (if src = 4 then (w % 2 ^ 40, flNone) else (w, flNone))
  else if tyIsInt dst then
    if tyIsInt src then intStore dst 1 (intVal src w)
    else toInt m (tySigned dst) (tyWidth dst) (tyDecode src w).1
  else if dst = 0 then td8Encode m (tyDecode src w).1
  else if src = 0 then
    let r := fencode (tyFmt dst) .rn (tyDecode src w).1
    (r.1, r.2 ||| (tyDecode src w).2)
  else fencode (tyFmt dst) m (tyDecode src w).1

/-- The elements of a conversion. -/
def State.converted (s : State) (f : VecFields) : List (Option (Nat × Flags)) :=
  let dst := f.ty.toNat
  let src := f.vb.toNat % 16
  let ed := tyWidth dst
  let es := tyWidth src
  let k := s.kreg f.km
  let a := s.vreg f.va
  (List.range (vecWid f / Nat.max es ed)).map (fun i =>
    if maskBit k ed i then some (convert dst src (s.vmode f i) (elem a es i)) else none)

/-! ## Scans and reductions (R51, R53, R130, R131) -/

/-- What a scan or a reduction combines with. -/
inductive RedOp where
  | sum | max | min
  deriving DecidableEq, Repr

def redIdentity (op : RedOp) : FV := match op with
  | .sum => fvZero false
  | .max => .inf true
  | .min => .inf false

/-- One combination: the pattern rounded, read again, and its flags. -/
def redStep (op : RedOp) (f : FFmt) (m : RMode) (a b : FV) : FV × Flags :=
  let r := match op with
    | .sum => roundRes f m (addV m a b)
    | .max => roundRes f .rn (maxV a b)
    | .min => roundRes f .rn (minV a b)
  (fdecode f r.1, r.2)

/-- The float scan: a NaN of the lowest active lane so far takes precedence (R53, R130). -/
def floatScan (op : RedOp) (f : FFmt) (m : Nat → RMode) (i : Nat) (acc : FV) (nan : Option FV)
    (xs : List (Option Nat)) : List (Option (Nat × Flags)) :=
  match xs with
  | [] => []
  | none :: r => none :: floatScan op f m (i + 1) acc nan r
  | some w :: r =>
    let x := fdecode f w
    let sig := flIf (fvSignalling x) flNV
    match nan with
    | some q => some ((fencode f .rn q).1, sig) :: floatScan op f m (i + 1) acc nan r
    | none =>
      if fvIsNaN x then some ((fencode f .rn (fvQuiet x)).1, sig) :: floatScan op f m (i + 1) acc (some (fvQuiet x)) r
      else
        let a := redStep op f (m i) acc x
        some ((fencode f .rn a.1).1, a.2) :: floatScan op f m (i + 1) a.1 none r

/-- The integer identity of a reduction. -/
def intIdentity (op : RedOp) (ty : Nat) : Int := match op with
  | .sum => 0
  | .max => intMin (tySigned ty) (tyWidth ty)
  | .min => intMax (tySigned ty) (tyWidth ty)

/-- One integer combination: sums wrap. -/
def intCombine (op : RedOp) (ty : Nat) (a b : Int) : Int := match op with
  | .sum => intVal ty (ofSigned (tyWidth ty) (a + b))
  | .max => intMax2 a b
  | .min => intMin2 a b

/-- The integer scan (R130). -/
def intScan (op : RedOp) (ty : Nat) (acc : Int) (xs : List (Option Nat)) : List (Option (Nat × Flags)) :=
  match xs with
  | [] => []
  | none :: r => none :: intScan op ty acc r
  | some w :: r =>
    let a := intCombine op ty acc (intVal ty w)
    some (ofSigned (tyWidth ty) a, flNone) :: intScan op ty a r

/-- One level of the pairwise tree: level `l`, position `j` (R51, R131). -/
def treeLevel (op : RedOp) (f : FFmt) (m : Nat → RMode) (l j : Nat) (xs : List FV) : List FV × Flags :=
  match xs with
  | a :: b :: r =>
    let c := redStep op f (m (l * 2 ^ 16 + j)) a b
    let t := treeLevel op f m l (j + 1) r
    (c.1 :: t.1, c.2 ||| t.2)
  | r => (r, flNone)

/-- The levels from `l` on; `fuel` is the number of levels. -/
def treeReduce (op : RedOp) (f : FFmt) (m : Nat → RMode) (fuel l : Nat) (xs : List FV) : FV × Flags :=
  match fuel with
  | 0 => (xs.headD (fvZero false), flNone)
  | k + 1 =>
    let t := treeLevel op f m l 0 xs
    let r := treeReduce op f m k (l + 1) t.1
    (r.1, t.2 ||| r.2)

/-- A float reduction of the lanes, masked-off ones none (R53). -/
def floatReduce (op : RedOp) (f : FFmt) (m : Nat → RMode) (xs : List (Option Nat)) : Nat × Flags :=
  let vs := xs.map (fun x => match x with
    | some w => fdecode f w
    | none => redIdentity op)
  match firstNaN vs with
  | some (v, fl) => ((fencode f .rn v).1, fl)
  | none =>
    let r := treeReduce op f m (Nat.log2 xs.length) 1 vs
    ((fencode f .rn r.1).1, r.2)

/-- An integer reduction of the lanes. -/
def intReduce (op : RedOp) (ty : Nat) (xs : List (Option Nat)) : Nat × Flags :=
  (ofSigned (tyWidth ty) (xs.foldl (fun acc x => match x with
    | some w => intCombine op ty acc (intVal ty w)
    | none => acc) (intIdentity op ty)), flNone)

/-- The elements of VA, none where KM masks them off. -/
def State.lanes (s : State) (f : VecFields) : List (Option Nat) :=
  (s.masked f (fun _ a _ _ => (a, flNone))).map (fun r => r.map (·.1))

def State.scan (s : State) (f : VecFields) (op : RedOp) : State :=
  if vecInt f then
    s.vland f.vd 7 (elemW f) (intScan op f.ty.toNat (intIdentity op f.ty.toNat) (s.lanes f))
  else
    (s.vland f.vd 7 (elemW f) (floatScan op (vecFmt f) (s.vmode f) 0 (redIdentity op) none (s.lanes f))).countWrite f

/-- Element 0 takes the result; the others within the width are zero bits (R131). -/
def State.reduce (s : State) (f : VecFields) (op : RedOp) : State :=
  let zeros := List.replicate (vecN f - 1) (some (0, flNone))
  if vecInt f then s.vland f.vd 7 (elemW f) (some (intReduce op f.ty.toNat (s.lanes f)) :: zeros)
  else
    (s.vland f.vd 7 (elemW f) (some (floatReduce op (vecFmt f) (s.vmode f) (s.lanes f)) :: zeros)).countWrite f

/-! ## Compare-exchange (R132) -/

/-- The total order of R132 on patterns of a float format: NaNs above all and equal among themselves. -/
def cxGreaterF (f : FFmt) (x y : Nat) : Bool :=
  let a := fdecode f x
  let b := fdecode f y
  if fvIsNaN a then !(fvIsNaN b) else if fvIsNaN b then false else ltV b a

def cxGreater (ty x y : Nat) : Bool :=
  if tyIsInt ty then decide (intVal ty y < intVal ty x) else cxGreaterF (tyFmt ty) x y

/-- Element `i` after one stage at distance d = 2^md: its pair's lower element gives the direction. -/
def cxElem (ty k e n a md i : Nat) : Nat :=
  let d := 2 ^ md
  let x (j : Nat) : Nat := elem a e j
  let swaps (lo : Nat) : Bool :=
    if maskBit k e lo then cxGreater ty (x lo) (x (lo + d)) else cxGreater ty (x (lo + d)) (x lo)
  if n ≤ d then x i
  else if i / d % 2 = 0 then (if swaps i then x (i + d) else x i)
  else (if swaps (i - d) then x (i - d) else x i)

/-! ## Bit operations (R133, R134) -/

/-- The carry-less product of `n` bits of `b` with `a` (R133). -/
def clmul (n a b : Nat) : Nat :=
  match n with
  | 0 => 0
  | k + 1 => clmul k a b ^^^ (if bitAt b k then a * 2 ^ k else 0)

def shiftLeftElem (e a b : Nat) : Nat := if e ≤ b then 0 else a * 2 ^ b % 2 ^ e
def shiftRightElem (ty e a b : Nat) : Nat :=
  if tySigned ty then ofSigned e (toSigned e a / (2 ^ Nat.min b e : Nat)) else if e ≤ b then 0 else a / 2 ^ b

/-- An element-wise form without flags that lands at 2. -/
def State.bitwise (s : State) (f : VecFields) (g : Nat → Nat → Nat → Nat) : State :=
  s.elementwise f 2 (fun i a b _ => (g i a b, flNone))

/-! ## The instructions -/

def execVadd (u : VecUnit) (f : VecFields) (s : State) : Result :=
  guarded (.vadd u f) s (s.byKind f 3 (fun m a b _ => fAdd (vecFmt f) m a b) (fun a b => a + b))

def execVsub (u : VecUnit) (f : VecFields) (s : State) : Result :=
  guarded (.vsub u f) s (s.byKind f 3 (fun m a b _ => fSub (vecFmt f) m a b) (fun a b => a - b))

def execVmul (u : VecUnit) (f : VecFields) (s : State) : Result :=
  guarded (.vmul u f) s (s.byKind f 5 (fun m a b _ => fMul (vecFmt f) m a b) (fun a b => a * b))

def execVfma (u : VecUnit) (f : VecFields) (s : State) : Result :=
  guarded (.vfma u f) s (s.rounded f 6 (laneFma (vecFmt f)))

/-- A float minimum or maximum: no rounding, MOD is 0 (R65, R122). -/
def State.extremum (s : State) (f : VecFields) (g : FV → FV → FV × Flags) (h : Int → Int → Int) : State :=
  if vecInt f then s.integers f h
  else s.elementwise f 3 (fun _ a b _ => roundRes (vecFmt f) .rn (g (fdecode (vecFmt f) a) (fdecode (vecFmt f) b)))

def execVmin (u : VecUnit) (f : VecFields) (s : State) : Result := guarded (.vmin u f) s (s.extremum f minV intMin2)

def execVmax (u : VecUnit) (f : VecFields) (s : State) : Result := guarded (.vmax u f) s (s.extremum f maxV intMax2)

def execVexp2 (u : VecUnit) (f : VecFields) (s : State) : Result :=
  guarded (.vexp2 u f) s (s.rounded f 9 (fun m a _ _ => laneExp2 (vecFmt f) m a))

def execVrsqrt (u : VecUnit) (f : VecFields) (s : State) : Result :=
  guarded (.vrsqrt u f) s (s.rounded f 9 (fun m a _ _ => laneRsqrt (vecFmt f) m a))

def execVrecip (u : VecUnit) (f : VecFields) (s : State) : Result :=
  guarded (.vrecip u f) s (s.rounded f 9 (fun m a _ _ => laneRecip (vecFmt f) m a))

def execVcvt (u : VecUnit) (f : VecFields) (s : State) : Result :=
  guarded (.vcvt u f) s ((s.vland f.vd 3 (elemW f) (s.converted f)).countWrite f)

/-- The condition of one element of vcmp (R127). -/
def vcmpElem (f : VecFields) (a b : Nat) : Bool × Flags :=
  if vecInt f then (intCond f.md.toNat (intVal f.ty.toNat a) (intVal f.ty.toNat b), flNone)
  else floatCond f.md.toNat (fdecode (vecFmt f) a) (fdecode (vecFmt f) b)

/-- The results of vcmp fill the mask bits of their elements' byte lanes (R127). -/
def State.compare (s : State) (f : VecFields) : State :=
  let eb := elemW f / 8
  let rs := s.masked f (fun _ a b _ => let r := vcmpElem f a b; (if r.1 then 2 ^ eb - 1 else 0, r.2))
  let vals := rs.map (fun r => match r with
    | some p => p.1
    | none => 0)
  let fl := rs.foldl (fun acc r => match r with
    | some p => acc ||| p.2
    | none => acc) flNone
  s.fly [s.flight 2 0 (.k (f.vd.toNat % 8)) (BitVec.ofNat 1024 (packElems eb vals))
    (BitVec.ofNat 1024 (packMask eb (rs.map Option.isSome))) fl]

def execVcmp (u : VecUnit) (f : VecFields) (s : State) : Result := guarded (.vcmp u f) s (s.compare f)

/-- Every element within the width is written (R128, R132). -/
def State.allElems (s : State) (f : VecFields) (g : Nat → Nat) : State :=
  s.vland f.vd 2 (elemW f) ((List.range (vecN f)).map (fun i => some (g i, flNone)))

def execVsel (u : VecUnit) (f : VecFields) (s : State) : Result :=
  guarded (.vsel u f) s (s.allElems f (fun i =>
    if maskBit (s.kreg f.km) (elemW f) i then elem (s.vreg f.va) (elemW f) i else elem (s.vreg f.vb) (elemW f) i))

def execVrot (u : VecUnit) (f : VecFields) (s : State) : Result :=
  guarded (.vrot u f) s (s.bitwise f (fun i _ _ =>
    let n := vecN f
    elem (s.vreg f.va) (elemW f) ((i + (n - s.cur.vs.toNat % n)) % n)))

def execVshuf (u : VecUnit) (f : VecFields) (s : State) : Result :=
  guarded (.vshuf u f) s (s.bitwise f (fun _ _ b => elem (s.vreg f.va) (elemW f) (b % vecN f)))

def execVscan (u : VecUnit) (f : VecFields) (s : State) : Result := guarded (.vscan u f) s (s.scan f .sum)

/-- A maximum scan: MOD is 0, no rounding mode counts (R65). -/
def execVscanx (u : VecUnit) (f : VecFields) (s : State) : Result := guarded (.vscanx u f) s (s.scan f .max)

def execVred (u : VecUnit) (f : VecFields) (s : State) : Result := guarded (.vred u f) s (s.reduce f .sum)

def execVredx (u : VecUnit) (f : VecFields) (s : State) : Result := guarded (.vredx u f) s (s.reduce f .max)

def execVredn (u : VecUnit) (f : VecFields) (s : State) : Result := guarded (.vredn u f) s (s.reduce f .min)

def execVcx (u : VecUnit) (f : VecFields) (s : State) : Result :=
  guarded (.vcx u f) s (s.allElems f (cxElem f.ty.toNat (s.kreg f.km) (elemW f) (vecN f) (s.vreg f.va) f.md.toNat))

/-- The halves of the carry-less product of an even element and its odd neighbour (R133). -/
def clmulElem (a b i : Nat) : Nat :=
  let p := clmul 64 (elem a 64 (i / 2 * 2)) (elem b 64 (i / 2 * 2))
  if i % 2 = 0 then p % 2 ^ 64 else p / 2 ^ 64

def execVclmul (u : VecUnit) (f : VecFields) (s : State) : Result :=
  guarded (.vclmul u f) s (s.elementwise f 4 (fun i _ _ _ => (clmulElem (s.vreg f.va) (s.vreg f.vb) i, flNone)))

/-- One bits of a number of `n` bits. -/
def popCount (n w : Nat) : Nat :=
  match n with
  | 0 => 0
  | k + 1 => w % 2 + popCount k (w / 2)

def execVpcnt (u : VecUnit) (f : VecFields) (s : State) : Result :=
  guarded (.vpcnt u f) s (s.bitwise f (fun _ a _ => popCount (elemW f) a))

def execVand (u : VecUnit) (f : VecFields) (s : State) : Result := guarded (.vand u f) s (s.bitwise f (fun _ a b => a &&& b))

def execVor (u : VecUnit) (f : VecFields) (s : State) : Result := guarded (.vor u f) s (s.bitwise f (fun _ a b => a ||| b))

def execVxor (u : VecUnit) (f : VecFields) (s : State) : Result := guarded (.vxor u f) s (s.bitwise f (fun _ a b => a ^^^ b))

def execVshl (u : VecUnit) (f : VecFields) (s : State) : Result :=
  guarded (.vshl u f) s (s.bitwise f (fun _ a b => shiftLeftElem (elemW f) a b))

def execVshr (u : VecUnit) (f : VecFields) (s : State) : Result :=
  guarded (.vshr u f) s (s.bitwise f (fun _ a b => shiftRightElem f.ty.toNat (elemW f) a b))

def execVbc (u : VecUnit) (f : VecFields) (s : State) : Result :=
  guarded (.vbc u f) s (s.bitwise f (fun _ _ _ => s.cur.vs.toNat % 2 ^ (if f.ty = 4 then 40 else elemW f)))

def execVabs (u : VecUnit) (f : VecFields) (s : State) : Result :=
  guarded (.vabs u f) s
    (if vecInt f then s.integers f (fun a _ => (a.natAbs : Int))
     else s.elementwise f 3 (fun _ a _ _ => (a % 2 ^ (elemW f - 1), flNone)))

def execVneg (u : VecUnit) (f : VecFields) (s : State) : Result :=
  guarded (.vneg u f) s
    (if vecInt f then s.integers f (fun a _ => -a)
     else s.elementwise f 3 (fun _ a _ _ => (a ^^^ 2 ^ (elemW f - 1), flNone)))

end Sys2Proof.Machine
end

