-- ==== Sys2Proof/Machine/Engines.lean ====
section
/-! DEFINITION. The copy, gather and collective engines (R184 to R189, R191, R192, R285): what a command reads and writes at which
tick, and its micro-operations. A command's meaning begins it at its begin tick, and then performs its next micro-operation
that is due. -/

namespace Sys2Proof.Machine

/-! ## Beginning (R184, R194) -/

/-- What a command does from its begin tick on: the faults of its begin, the engine-side slots and bank commands it takes, the
bytes it owes, its micro-operations and its end tick. -/
structure Expansion where
  faults : List FaultRec
  uses   : List Use
  bursts : List (Nat × Nat × Burst)
  marks  : List Mark
  owed   : Nat
  ops    : List EOp
  endAt  : Option Nat
  deriving DecidableEq, Repr

/-- A command begins as its expansion says, or stops with the lowest of its faults and does nothing. -/
def State.begin (s : State) (m : Cmd) (x : Expansion) : State :=
  let owing := if s.pendOver m x.owed then [recFault m.recAddr 0 11] else []
  match lowestCode (x.faults ++ owing ++ s.portFaults m x.uses ++ s.burstFaults x.bursts x.marks) with
  | some f => s.stopFor m.id f
  | none =>
    let s1 := (((s.setCmd { m with phase := 1, endAt := x.endAt }).reserveUses m x.uses).takeBursts x.bursts).owe m.id x.owed
    { s1 with eops := s1.eops ++ x.ops }

/-- The launch of a command. -/
def State.launchOf (s : State) (m : Cmd) : Option Launch := s.findLaunch m.lx

/-- Where sector `i` of a stream from address `v` begins: at `v` itself, then at each multiple of 32. -/
def secAt (v i : Nat) : Nat := if i = 0 then v else v / 32 * 32 + 32 * i

/-- Sectors that `n` bytes from `v` meet. -/
def secCount (v n : Nat) : Nat := ceilDiv (v % 32 + n) 32

/-- The bytes of sector `i` that belong to `n` bytes from `v`. -/
def secLen (v n i : Nat) : Nat := Nat.min (32 - secAt v i % 32) (n - (secAt v i - v))

/-- The first `count` sectors from device virtual address `v`, up to the first that does not translate. -/
def State.sectors (s : State) (m : Cmd) (v count : Nat) (write : Bool) : List Place :=
  let at' (i : Nat) : Option Place := match s.launchOf m with
    | some l => s.xlate l (secAt v i % 2 ^ 56) write
    | none => none
  (((List.range count).map at').takeWhile Option.isSome).filterMap id

/-- The tiers of a stream's sectors, the one whose translation is rejected among them (R208, R285). -/
def State.streamTiers (s : State) (m : Cmd) (v count : Nat) (write : Bool) : List Nat :=
  let ps := s.sectors m v count write
  ps.map (·.tier) ++ (if ps.length < count then (s.launchOf m).toList.map (fun l => l.tierAt (secAt v ps.length % 2 ^ 56)) else [])

/-- The tier of the first sector of a stream. -/
def firstTier (ts : List Nat) : Nat := ts.headD 0

/-- The pace P of a command: the largest tCCD of its DRAM ends (R285). -/
def paceOf (ts : List Nat) : Nat := ts.foldl (fun n t => Nat.max n (tmOf t).ccd) 1

/-- A read of each sector of a stream into buffer words, and the rejected translation where it breaks off. -/
def readOps (m : Cmd) (v count : Nat) (ps : List Place) (tick : Nat → Nat) : List EOp :=
  (List.range ps.length).filterMap (fun i => (ps[i]?).map (fun (p : Place) =>
    let at' := secAt v i - v
    ⟨tick i, m.id, .rdDram p.tier p.ch p.bank p.byte (at' / 128) (at' % 128) (secAt v i % 2 ^ 56) p.mode⟩))
  ++ (if ps.length < count then [⟨tick ps.length, m.id, .badVa (secAt v ps.length % 2 ^ 56) false⟩] else [])

/-- A write of each sector of a stream out of buffer words from slot `slot0`; `total` bytes in all. -/
def writeOps (m : Cmd) (v count total slot0 : Nat) (ps : List Place) (tick : Nat → Nat) : List EOp :=
  (List.range ps.length).filterMap (fun i => (ps[i]?).map (fun (p : Place) =>
    let at' := secAt v i - v
    ⟨tick i, m.id, .wrDram p.tier p.ch p.bank p.byte (secLen v total i) (slot0 + at' / 128) (at' % 128) (secAt v i % 2 ^ 56) p.mode⟩))
  ++ (if ps.length < count then [⟨tick ps.length, m.id, .badVa (secAt v ps.length % 2 ^ 56) true⟩] else [])

/-! ## The copy engine (R186, R285) -/

/-- The ticks of a copy: column i of its stream, the read of unit i, the write of unit j, and its end. -/
structure CopyTicks where
  col : Nat
  pace : Nat
  rl  : Nat
  srcLocal : Bool
  dstLocal : Bool
  peer : Bool
  begin' : Nat
  len : Nat
  deriving DecidableEq, Repr

def CopyTicks.column (k : CopyTicks) (i : Nat) : Nat := k.col + i * k.pace
def CopyTicks.read (k : CopyTicks) (i : Nat) : Nat :=
  if k.srcLocal then (if k.dstLocal then k.begin' + i else k.column (4 * i) - 6) else k.column i
def CopyTicks.write (k : CopyTicks) (j : Nat) : Nat :=
  if k.srcLocal then (if k.dstLocal then k.begin' + j + (if k.peer then 6 else 2) else k.column j)
  else if k.dstLocal then k.column (4 * j + 3) + k.rl + 2 else k.column j + k.rl + 8
def CopyTicks.last (k : CopyTicks) : Nat :=
  if k.srcLocal then (if k.dstLocal then k.begin' + k.len else k.column (4 * k.len - 1))
  else k.write (if k.dstLocal then k.len - 1 else 4 * k.len - 1)

/-- When word j of a copy into scratchpad is written, and how: at its arrival, held to VAT, late, or not at all because a strict
write missed its deadline (R186, R216). -/
inductive Arrival where
  | plain (t : Nat)
  | late (t : Nat)
  | missed (t : Nat)
  deriving DecidableEq, Repr

def arrivalOf (timed strict : Bool) (vat t : Nat) : Arrival :=
  if !timed then .plain t else if t ≤ vat then .plain vat else if strict then .missed t else .late t

/-- The writes of a copy into scratchpad, up to one that misses its deadline. -/
def arrivals (m : Cmd) (k : CopyTicks) (j n : Nat) : List (Nat × Arrival) :=
  match n with
  | 0 => []
  | n + 1 =>
    let a := arrivalOf (rcTimed m.c0) (rcStrict m.c0) (m.beginAt + bitsAt m.c3 48 16) (k.write j)
    match a with
    | .missed _ => [(j, a)]
    | _ => (j, a) :: arrivals m k (j + 1) n

/-- The expansion of a copy. -/
def State.copyExpansion (s : State) (m : Cmd) : Expansion :=
  let n := m.len
  let srcL := awLocal m.c1
  let dstL := awLocal m.c2
  let src := awAddr m.c1
  let dst := awAddr m.c2
  let sp := if srcL then [] else s.sectors m src (4 * n) false
  let dp := if dstL then [] else s.sectors m dst (4 * n) true
  let st := if srcL then [] else s.streamTiers m src (4 * n) false
  let dt := if dstL then [] else s.streamTiers m dst (4 * n) true
  let lead := (tmOf (if srcL then firstTier dt else firstTier st)).lead
  let k : CopyTicks := ⟨m.beginAt + lead, paceOf (st ++ dt), (tmOf (firstTier st)).rl, srcL, dstL, decide (spadSize ≤ dst), m.beginAt, n⟩
  let place (a i : Nat) : Nat × Nat := (localPlace m.core (a + 128 * i)).getD (m.core, 0)
  let reads := if srcL then (List.range n).map (fun i => (place src i, k.read i, i)) else []
  let ws := if dstL then arrivals m k 0 n else []
  let writes := ws.filterMap (fun (w : Nat × Arrival) => match w.2 with
    | .plain t | .late t => some (place dst w.1, t, w.1)
    | .missed _ => none)
  let others := ws.filterMap (fun (w : Nat × Arrival) => match w.2 with
    | .plain _ => none
    | .late t => some (⟨t, m.id, .late⟩ : EOp)
    | .missed t => some ⟨t, m.id, .missed (dst + 128 * w.1)⟩)
  { faults :=
      (if rcTimed m.c0 && !dstL && !dp.isEmpty then [recFault m.recAddr 0 8] else [])
      ++ s.ownFaults m ((if srcL then wordAddrs src (128 * n) else []) ++ (if dstL then wordAddrs dst (128 * n) else []))
    uses := reads.map (fun r => ⟨r.1.1, r.1.2, r.2.1, false⟩) ++ writes.map (fun w => ⟨w.1.1, w.1.2, w.2.1, true⟩)
    bursts := burstsOf m.id k.pace false k.read 0 none sp ++ burstsOf m.id k.pace true k.write 0 none dp
    marks := marksOf sp k.read (fun i => secAt src i % 2 ^ 56) ++ marksOf dp k.write (fun i => secAt dst i % 2 ^ 56)
    owed := 128 * n
    ops :=
      checkOps m (reads.map (fun r => (r.1.1, frameOf r.1.2, r.2.1)))
      ++ reads.map (fun r => ⟨r.2.1, m.id, .rdLocal r.1.1 r.1.2 128 r.2.2 0⟩)
      ++ (if srcL then [] else readOps m src (4 * n) sp k.read)
      ++ others
      ++ writes.map (fun w => ⟨w.2.1, m.id, .wrLocal w.1.1 w.1.2 128 w.2.2 0⟩)
      ++ (if dstL then
            let whole := if writes.length < n then writes.filter (fun w => frameOf w.1.2 != frameOf (place dst writes.length).2) else writes
            tagOps m (whole.map (fun w => (w.1.1, frameOf w.1.2, w.2.1)))
          else writeOps m dst (4 * n) (128 * n) 0 dp k.write)
    endAt := some k.last }

/-! ## Micro-operations -/

/-- Performs the micro-operations that every engine shares. -/
def State.runShared (s : State) (m : Cmd) (a : EAct) : State :=
  match a with
  | .rdLocal d x n slot off => s.readLocal m d x n slot off
  | .wrLocal d x n slot off => s.writeLocal m d x n slot off
  | .rdDram t ch b y slot off va mode =>
    (match (s.channel t ch).readSector t b y mode with
     | some v => (s.countFix t ch b y mode).setCmd (m.setBytes slot off (32 - y % 32) (v / 2 ^ (8 * (y % 32))))
     | none => (s.markRead t ch b y mode).stopCmd m.id 27 va (pack2 ch b))
  | .wrDram t ch b y n slot off va mode =>
    -- a write of part of a sector keeps the rest as its stored mode finds it
    let wrote := tget (s.channel t ch).modes 0 (chanAddr t b y / 32)
    (match if n = 32 then some 0 else (s.channel t ch).readSector t b y wrote with
     | some old => ((if n = 32 then s else s.countFix t ch b y wrote).modChannel t ch (fun c => c.writeSector t b y mode
        (setBits old (8 * (y % 32)) (8 * n) (m.bytes slot off n)))).visible m.id n
     | none => (s.markRead t ch b y wrote).stopCmd m.id 27 va (pack2 ch b))
  | .tchk d f => s.checkTag m d f
  | .setTag d f => s.giveTag m d f
  | .badVa va w => s.stopCmd m.id 26 va (if w then 1 else 0)
  | .badRow _ => s.stopCmd m.id 21 0 (pack2 1 0)
  | .missed x => s.stopCmd m.id 16 x (m.beginAt + bitsAt m.c3 48 16)
  | .late => s.modOwner m.core m.ctx m.lx (fun c => { c with estat := c.estat ||| 1 })
  | .index _ _ _ _ | .stage _ _ _ | .evalStep | .evalOut _ _ _ | .landRecords _ _ _ _ _ _ | .combine _ _ => s
  | .ceRead _ _ _ _ _ _ | .ceWrite _ _ _ _ => s

/-- Takes the next micro-operation of a command that is due and performs it. -/
def State.runNext (s : State) (m : Cmd) (run : State → Cmd → EAct → State) : State :=
  match s.dueOp m.id with
  | some e => run { s with eops := dropEq e s.eops } m e.act
  | none => s

/-- One step of a command of a class: it begins, or performs its next micro-operation. -/
def State.command (s : State) (id : Nat) (expand : Cmd → Expansion) (run : State → Cmd → EAct → State) : State :=
  match s.findCmd id with
  | some m => if m.beginsNow s.now then s.begin m (expand m) else s.runNext m run
  | none => s

def execCopyCommand (id : Nat) (s : State) : Result := .next (s.command id s.copyExpansion State.runShared)

/-! ## The gather engine (R187, R285) -/

/-- Where the index list stands in a command's buffer. -/
def idxSlot : Nat := 2 ^ 24

/-- Index `j` of a gather's list as the scratchpads stand. -/
def State.gatherIdx (s : State) (m : Cmd) (j : Nat) : Nat :=
  (cutWords m.core (m.gIdx + 4 * j) 4).foldl (fun n (p : Nat × Nat × Nat × Nat) => n + s.readSpad p.1 p.2.1 p.2.2.1 * 2 ^ (8 * p.2.2.2)) 0

/-- A row of a gather as its controllers expand it: its index, the tiers of its sectors and their places. -/
structure GRow where
  idx    : Nat
  tiers  : List Nat
  places : List Place
  deriving DecidableEq, Repr

/-- The rows of a gather from row `j` on by the index list as it stands, up to one that cannot be fetched whole (R187, R285, R286;
log entry 40). -/
def State.gatherPlan (s : State) (m : Cmd) (j n : Nat) : List GRow :=
  match n with
  | 0 => []
  | n + 1 =>
    let idx := s.gatherIdx m j
    let va := m.rowVa idx
    if va % m.rowBytes ≠ 0 then [⟨idx, [], []⟩]
    else
      let ps := s.sectors m va m.rowSectors false
      let g : GRow := ⟨idx, s.streamTiers m va m.rowSectors false, ps⟩
      if ps.length < m.rowSectors then [g] else g :: s.gatherPlan m (j + 1) n

/-- The ticks of a gather: column 0 of its stream, the pace, the lead, and tRL by row. -/
structure GTicks where
  col  : Nat
  pace : Nat
  lead : Nat
  rl   : Nat → Nat

def gatherTicks (m : Cmd) (rows : List GRow) : GTicks :=
  let first := firstTier (rows.flatMap (·.tiers))
  ⟨m.beginAt + (tmOf first).lead, paceOf (rows.flatMap (·.tiers)), (tmOf first).lead, fun j => (tmOf (match rows[j]? with
    | some g => g.tiers.headD first
    | none => first)).rl⟩

/-- Column tick `i` of a gather's stream, and the tick at which the index of row `j` is read. -/
def GTicks.column (k : GTicks) (i : Nat) : Nat := k.col + i * k.pace
def GTicks.index (k : GTicks) (m : Cmd) (j : Nat) : Nat := k.column (j * m.rowSectors) - k.lead + 1

/-- The pieces of the destination: core, offset, bytes, place in the whole, and write tick. -/
def gatherWrites (m : Cmd) (k : GTicks) : List (Nat × Nat × Nat × Nat × Nat) :=
  let size := m.rowBytes
  (List.range m.rows).flatMap (fun j =>
    (cutWords m.core (m.gDst + j * size) size).map (fun (p : Nat × Nat × Nat × Nat) =>
      let lastByte := if size < 128 then size - 1 else p.2.2.2 + p.2.2.1 - 1
      (p.1, p.2.1, p.2.2.1, j * size + p.2.2.2, k.column (j * m.rowSectors + lastByte / 32) + k.rl j + 2)))

/-- The expansion of a gather. Its bank commands are those of the index list as it stands at B, and are accepted or refused as a whole
(R286); each row is fetched when its index has been read. -/
def State.gatherExpansion (s : State) (m : Cmd) : Expansion :=
  let rows := s.gatherPlan m 0 m.rows
  let k := gatherTicks m rows
  let reads := (List.range m.rows).flatMap (fun j =>
    (cutWords m.core (m.gIdx + 4 * j) 4).map (fun (p : Nat × Nat × Nat × Nat) => (p.1, p.2.1, p.2.2.1, p.2.2.2, k.index m j, j)))
  let ws := gatherWrites m k
  { faults := s.ownFaults m (wordAddrs m.gIdx (4 * m.rows) ++ wordAddrs m.gDst (m.rows * m.rowBytes))
    uses := reads.map (fun r => ⟨r.1, r.2.1, r.2.2.2.2.1, false⟩) ++ ws.map (fun w => ⟨w.1, w.2.1, w.2.2.2.2, true⟩)
    bursts := burstsOf m.id k.pace false k.column 0 none (rows.flatMap (·.places))
    marks := marksOf (rows.flatMap (·.places)) k.column (fun i => match rows[i / m.rowSectors]? with
      | some g => (m.rowVa g.idx + 32 * (i % m.rowSectors)) % 2 ^ 56
      | none => 0)
    owed := m.rows * m.rowBytes
    ops :=
      checkOps m (reads.map (fun r => (r.1, frameOf r.2.1, r.2.2.2.2.1)))
      ++ reads.map (fun r => ⟨r.2.2.2.2.1, m.id, .rdLocal r.1 r.2.1 r.2.2.1 (idxSlot + r.2.2.2.2.2) r.2.2.2.1⟩)
      ++ (List.range m.rows).map (fun j =>
          ⟨k.index m j, m.id, .index j (match rows[j]? with
            | some g => g.idx
            | none => 2 ^ 32) (k.column (j * m.rowSectors)) k.pace⟩)
      ++ ws.map (fun w => ⟨w.2.2.2.2, m.id, .wrLocal w.1 w.2.1 w.2.2.1 (w.2.2.2.1 / 128) (w.2.2.2.1 % 128)⟩)
      ++ tagOps m (ws.map (fun w => (w.1, frameOf w.2.1, w.2.2.2.2)))
    endAt := some (ws.foldl (fun t w => Nat.max t w.2.2.2.2) m.beginAt) }

/-- The burst of a command that a new burst continues: same bank and row, at the next column tick (R285). -/
def Channel.continued (c : Channel) (b : Burst) : Option Burst :=
  c.bursts.find? (fun x => x.cmd == b.cmd && x.bank == b.bank && x.row == b.row && decide (x.c0 + x.ncol * x.pace = b.c0))

/-- Accepts the bursts of a row, the first one merged with the burst it continues (R285, R286). -/
def State.acceptRow (s : State) (bs : List (Nat × Nat × Burst)) : Except Nat State :=
  match bs with
  | (tier, ch, b) :: r =>
    (match (s.channel tier ch).continued b with
     | some x =>
       let t := tmOf tier
       let n := x.ncol + b.ncol
       let y : Burst := { x with ncol := n, pre := Nat.max (x.act + t.ras) (x.c0 + (n - 1) * x.pace + t.ccd) }
       (s.modChannel tier ch (fun c => { c with bursts := dropEq x c.bursts })).acceptBursts ((tier, ch, y) :: r)
     | none => s.acceptBursts bs)
  | [] => .ok s

/-- Row `j` of a gather, by its index as it was read, can be fetched whole. -/
def State.rowWhole (s : State) (m : Cmd) (j : Nat) : Bool :=
  let va := m.rowVa (m.bytes (idxSlot + j) 0 4)
  va % m.rowBytes == 0 && (s.sectors m va m.rowSectors false).length == m.rowSectors

/-- A row that the expansion at B did not reach, because a row before it cannot be fetched whole, has no bank commands and is not
fetched, as long as this is so (R208, R286; log entry 40). -/
def State.rowCut (s : State) (m : Cmd) (j expect : Nat) : Bool := expect == 2 ^ 32 && (List.range j).any (fun i => !(s.rowWhole m i))

/-- The index of row `j` has been read: its address, the reads of its sectors from column tick `col`, and, where the list has changed
since B, the bank commands of its own (log entry 40). -/
def State.gatherRow (s : State) (m : Cmd) (j expect col pace : Nat) : State :=
  let idx := m.bytes (idxSlot + j) 0 4
  let va := m.rowVa idx
  if va % m.rowBytes ≠ 0 then s.stopCmd m.id 21 0 (pack2 1 0)
  else if s.rowCut m j expect then s
  else
    let k := m.rowSectors
    let ps := s.sectors m va k false
    let tick (i : Nat) : Nat := col + i * pace
    match if idx = expect then .ok s else s.acceptRow (burstsOf m.id pace false tick 0 none ps) with
    | .error info => s.stopCmd m.id 24 va info
    | .ok t =>
      let ops := (List.range ps.length).filterMap (fun i => (ps[i]?).map (fun (p : Place) =>
        let at' := j * m.rowBytes + 32 * i
        (⟨tick i, m.id, .rdDram p.tier p.ch p.bank p.byte (at' / 128) (at' % 128) ((va + 32 * i) % 2 ^ 56) p.mode⟩ : EOp)))
      let bad : List EOp := if ps.length < k then [⟨tick ps.length, m.id, .badVa ((va + 32 * ps.length) % 2 ^ 56) false⟩] else []
      { t with eops := t.eops ++ ops ++ bad }

/-- A micro-operation of a gather. -/
def State.runGather (s : State) (m : Cmd) (a : EAct) : State :=
  match a with
  | .index j e c p => s.gatherRow m j e c p
  | a => s.runShared m a

def execGatherCommand (id : Nat) (s : State) : Result := .next (s.command id s.gatherExpansion State.runGather)

/-! ## The collective engine (R52, R53, R189, R285) -/

/-- ⌈log2 n⌉. -/
def ceilLog2 (n : Nat) : Nat := if n ≤ 1 then 0 else Nat.log2 (n - 1) + 1

def Cmd.coeTy (m : Cmd) : Nat := bitsAt m.c3 16 4
def Cmd.coeCount (m : Cmd) : Nat := bitsAt m.c3 0 16
def Cmd.coeLen (m : Cmd) : Nat := m.coeCount * coeBytes m.c3

/-- The collective records of a context that begin with a command's, in submission order. -/
def State.coeCmds (s : State) (m : Cmd) (core : Nat) : List Cmd :=
  s.cmds.filter (fun d => d.core == core && d.ctx == m.ctx && d.lx == m.lx && d.cls == 3 && d.beginAt == m.beginAt)

/-- The record that each rank of this module submitted beside a command; none where a rank submitted none. -/
def State.coePeers (s : State) (m : Cmd) : List (Option Cmd) :=
  let n := ((s.coeCmds m m.core).filter (fun d => decide (d.subNo < m.subNo))).length
  match s.launchOf m with
  | some l => l.cores.map (fun c => (s.coeCmds m c)[n]?)
  | none => [some m]

/-- The first rank whose record disagrees with rank 0's, as an index on this module (R189). -/
def State.coeMismatch (s : State) (m : Cmd) : Option Nat :=
  let ps := s.coePeers m
  let lead := match ps with
    | some d :: _ => bitsAt d.c3 0 26
    | _ => 2 ^ 26
  let bad (p : Option Cmd) : Bool := match p with
    | some d => bitsAt d.c3 0 26 != lead
    | none => true
  ((List.range ps.length).find? (fun i => match ps[i]? with
    | some p => bad p
    | none => true))

/-- Ranks of the whole gang. -/
def State.gangSize (s : State) (m : Cmd) : Nat := match s.launchOf m with
  | some l => (l.ncore + 1) * (l.nmod + 1)
  | none => 1

/-- The sectors of a collective's DRAM ends. -/
def Cmd.coeSrcN (m : Cmd) : Nat := secCount (awAddr m.c1) m.coeLen
def Cmd.coeDstN (m : Cmd) : Nat := secCount (awAddr m.c2) m.coeLen

/-- Column tick `i` of a collective's stream, its first one by the first DRAM end, and that end's tRL (R285). -/
def State.coeCol (s : State) (m : Cmd) (i : Nat) : Nat × Nat :=
  let st := if awLocal m.c1 then [] else s.streamTiers m (awAddr m.c1) m.coeSrcN false
  let dt := if awLocal m.c2 then [] else s.streamTiers m (awAddr m.c2) m.coeDstN true
  let t := tmOf (if awLocal m.c1 then firstTier dt else firstTier st)
  (m.beginAt + t.lead + i * paceOf (st ++ dt), t.rl)

/-- The tick at which sector `i` of a rank's vector has been read and combined: the rank's own part of a destination tick. -/
def State.coeReady (s : State) (m : Cmd) (i : Nat) : Nat :=
  let g := s.gangSize m
  if awLocal m.c1 && awLocal m.c2 then m.beginAt + i / 4 + 1 + Config.collectiveTicks g m.coeCount
  else (s.coeCol m i).1 + (s.coeCol m i).2 + 8 + 16 * ceilLog2 g

/-- The write tick of sector `i`: every rank's part has come. -/
def State.coeWrite (s : State) (m : Cmd) (i : Nat) : Nat :=
  (s.coePeers m).foldl (fun n p => match p with
    | some d => Nat.max n (s.coeReady d i)
    | none => n) 0

/-- The read tick of unit `i` of a collective's source: a sector of DRAM, or the i-th bank word of a scratchpad, which stands 6 ticks
before a column of a destination in DRAM, as a copy's does (R285; log entry 83). -/
def State.coeRead (s : State) (m : Cmd) (i : Nat) : Nat :=
  if awLocal m.c1 then (if awLocal m.c2 then m.beginAt + i else (s.coeCol m (4 * i)).1 - 6) else (s.coeCol m i).1

/-- The first buffer slot of a collective's result. -/
def resSlot : Nat := 2 ^ 20

/-- The expansion of a collective. -/
def State.coeExpansion (s : State) (m : Cmd) : Expansion :=
  let n := m.coeLen
  let ns := m.coeSrcN
  let nd := m.coeDstN
  let srcL := awLocal m.c1
  let dstL := awLocal m.c2
  let src := awAddr m.c1
  let dst := awAddr m.c2
  let sp := if srcL then [] else s.sectors m src ns false
  let dp := if dstL then [] else s.sectors m dst nd true
  let pace := paceOf ((if srcL then [] else s.streamTiers m src ns false) ++ (if dstL then [] else s.streamTiers m dst nd true))
  let rp := if srcL then cutWords m.core src n else []
  let reads := (List.range rp.length).filterMap (fun i => (rp[i]?).map (fun (p : Nat × Nat × Nat × Nat) => (p, s.coeRead m i)))
  let writes := (if dstL then cutWords m.core dst n else []).map (fun (p : Nat × Nat × Nat × Nat) =>
    (p, s.coeWrite m (((if srcL then 0 else src % 32) + p.2.2.2 + p.2.2.1 - 1) / 32)))
  { faults := (match s.coeMismatch m with
      | some r => [bfault 29 0 (r + (match s.launchOf m with
          | some l => l.modix * (l.ncore + 1)
          | none => 0))]
      | none => [])
      ++ s.ownFaults m ((if srcL then wordAddrs src n else []) ++ (if dstL then wordAddrs dst n else []))
    uses := reads.map (fun r => ⟨r.1.1, r.1.2.1, r.2, false⟩) ++ writes.map (fun w => ⟨w.1.1, w.1.2.1, w.2, true⟩)
    bursts := burstsOf m.id pace false (s.coeRead m) 0 none sp ++ burstsOf m.id pace true (s.coeWrite m) 0 none dp
    marks := marksOf sp (s.coeRead m) (fun i => secAt src i % 2 ^ 56) ++ marksOf dp (s.coeWrite m) (fun i => secAt dst i % 2 ^ 56)
    owed := n
    ops :=
      checkOps m (reads.map (fun r => (r.1.1, frameOf r.1.2.1, r.2)))
      ++ reads.map (fun r => ⟨r.2, m.id, .rdLocal r.1.1 r.1.2.1 r.1.2.2.1 (r.1.2.2.2 / 128) (r.1.2.2.2 % 128)⟩)
      ++ (if srcL then [] else readOps m src ns sp (s.coeRead m))
      ++ writes.map (fun w => ⟨w.2, m.id, .combine w.1.2.2.2 w.1.2.2.1⟩)
      ++ (if dstL then [] else (List.range dp.length).map (fun i => ⟨s.coeWrite m i, m.id, .combine (secAt dst i - dst) (secLen dst n i)⟩))
      ++ writes.map (fun w => ⟨w.2, m.id, .wrLocal w.1.1 w.1.2.1 w.1.2.2.1 (resSlot + w.1.2.2.2 / 128) (w.1.2.2.2 % 128)⟩)
      ++ (if dstL then tagOps m (writes.map (fun w => (w.1.1, frameOf w.1.2.1, w.2))) else writeOps m dst nd n resSlot dp (s.coeWrite m))
    endAt := some (if dstL then writes.foldl (fun t w => Nat.max t w.2) m.beginAt else s.coeWrite m (nd - 1)) }

/-- One element of a collective's result, from the ranks' elements in rank order (R52, R53). -/
def coeElement (m : Cmd) (xs : List Nat) : Nat × Flags :=
  let ty := m.coeTy
  let op : RedOp := match bitsAt m.c3 20 3 with
    | 1 => .max
    | 2 => .min
    | _ => .sum
  if bitsAt m.c3 20 3 = 3 then (xs.headD 0, flNone)
  else if tyIsInt ty then intReduce op ty (xs.map some)
  else
    let f := tyFmt ty
    let vs := xs.map (fdecode f)
    match firstNaN vs with
    | some (v, fl) => ((fencode f .rn v).1, fl)
    | none =>
      let r := treeReduce op f (fun _ => modeOf (bitsAt m.c3 23 3) 0) (ceilLog2 vs.length) 1 vs
      ((fencode f .rn r.1).1, r.2)

/-- The ranks' values of element `e`: those of this module from their buffers, those of other modules free values (log entry 11). A
rank whose command has stopped brings what its buffer holds (log entry 84). -/
def State.coeValues (s : State) (m : Cmd) (e : Nat) : List Nat :=
  let b := coeBytes m.c3
  let here := (s.coePeers m).map (fun p => match p with
    | some d => d.bytes (b * e / 128) (b * e % 128) b
    | none => 0)
  match s.launchOf m with
  | some l =>
    let k := l.ncore + 1
    (List.range (l.nmod + 1)).flatMap (fun i =>
      if i = l.modix then here
      else (List.range k).map (fun j => Config.freeBits (((m.lx * 2 ^ 64 + m.beginAt) * 2 ^ 16 + e) * 2 ^ 16 + i * k + j) % 2 ^ (8 * b)))
  | none => here

/-- Forms bytes of a collective's result in its buffer; the flags of their elements are set in the rank's own context in this tick (log
entry 85). -/
def State.coeCombine (s : State) (m : Cmd) (off n : Nat) : State :=
  let b := coeBytes m.c3
  let e0 := off / b
  let es := (List.range ((off + n - 1) / b + 1 - e0)).map (fun i => coeElement m (s.coeValues m (e0 + i)))
  let v := es.foldr (fun r acc => r.1 + acc * 2 ^ (8 * b)) 0
  let fl := es.foldl (fun f r => f ||| r.2) flNone
  let part := bitsAt v (8 * (off - e0 * b)) (8 * n)
  let s1 := s.setCmd (m.setBytes (resSlot + off / 128) (off % 128) n part)
  if fl = 0 then s1 else s1.modOwner m.core m.ctx m.lx (fun c => c.raise fl)

/-- A micro-operation of a collective. -/
def State.runCollective (s : State) (m : Cmd) (a : EAct) : State :=
  match a with
  | .combine off n => s.coeCombine m off n
  | a => s.runShared m a

def execCollectiveCommand (id : Nat) (s : State) : Result := .next (s.command id s.coeExpansion State.runCollective)

end Sys2Proof.Machine
end

