-- ==== Sys2Proof/Machine/Matrix.lean ====
section
/-! DEFINITION. The matrix array and the generators (R48 to R50, R68, R69, R144 to R164): beats, drains, row exits, and the
operations of the E slot. -/

namespace Sys2Proof.Machine

/-! ## Generator rows (R157 to R161) -/

def fOne (b : Bool) : Nat := if b then 0x3F800000 else 0

/-- The value of a generator register at logical coordinates, as FP32 (R159). -/
def genValue (seed : BitVec 32 × BitVec 32) (kind p0 p1 row col : Nat) : Nat :=
  let h := mix seed.1 seed.2 (BitVec.ofNat 32 row) (BitVec.ofNat 32 col)
  if kind = 0 then 0
  else if kind = 1 then (if h.getLsbD 31 then 0xBF800000 else 0x3F800000)
  else if kind = 2 then (fFma fmtF .rn (.fin false ⟨bitsAt h.toNat 8 24, 2 ^ 24⟩) (fdecode fmtF p0) (fdecode fmtF p1)).1
  else if kind = 3 then
    let sum : Int := (bitsAt h.toNat 0 8 + bitsAt h.toNat 8 8 + bitsAt h.toNat 16 8 + bitsAt h.toNat 24 8 : Nat) - 510
    let z := (fMul fmtF .rn (fvOfQ (qOfInt sum)) (fdecode fmtF 0x3BDDB446)).1
    (fFma fmtF .rn (fdecode fmtF z) (fdecode fmtF p0) (fdecode fmtF p1)).1
  else if kind = 4 then rotCos row col p0 p1
  else if kind = 5 then rotSin row col p0 p1
  else if kind = 6 then fOne (decide (col ≤ row))
  else if kind = 7 then fOne (decide (Nat.max row col - Nat.min row col ≤ p0))
  else fOne (decide (bitsAt h.toNat 8 24 < p0 % 2 ^ 24))

/-- A generated value in a beat's format, to nearest-even and without flags (R161). -/
def genEncode (ty v : Nat) : Nat :=
  match ty with
  | 0 => (td8Encode .rn (fdecode fmtF v)).1
  | 5 => (toInt .rn true 8 (fdecode fmtF v)).1
  | _ => (fencode (tyFmt ty) .rn (fdecode fmtF v)).1

/-- The default NaN of a beat's format: NaR in .d8, 0 in .i8 (R161). -/
def genNaN (ty : Nat) : Nat :=
  match ty with
  | 0 => 0x80
  | 5 => 0
  | _ => (tyFmt ty).nanBits

/-- CUR of a generator register. -/
def genCur (e : BitVec 256) : Nat := bitsAt e.toNat 80 16

/-- The register with CUR advanced (R158). -/
def genAdvance (e : BitVec 256) (by' : Nat) : BitVec 256 := BitVec.ofNat 256 (setBits e.toNat 80 16 ((genCur e + by') % 2 ^ 16))

/-- Beat `i` of generator register `e` in format `ty`: its 128 bytes, and whether it sets NV (R158, R161). -/
def genRow (lseed : Word) (rank : Nat) (e : BitVec 256) (i ty : Nat) : VWord × Bool :=
  if !(arrayFmt ty) then (0, true)
  else
    let w := tyWidth ty
    let n := 1024 / w
    let kind := bitsAt e.toNat 224 4
    if 8 < kind ∨ bitsAt e.toNat 230 26 ≠ 0 then (BitVec.ofNat 1024 (packElems w (List.replicate n (genNaN ty))), true)
    else
      let seed := effSeed lseed e rank
      let row0 := bitsAt e.toNat 96 32
      let col0 := bitsAt e.toNat 128 32
      let p0 := bitsAt e.toNat 160 32
      let p1 := bitsAt e.toNat 192 32
      let el (k : Nat) : Nat :=
        let row := if bitAt e.toNat 228 then (row0 + k) % 2 ^ 32 else (row0 + i) % 2 ^ 32
        let col := if bitAt e.toNat 228 then (col0 + i) % 2 ^ 32 else (col0 + k) % 2 ^ 32
        genEncode ty (genValue seed kind p0 p1 row col)
      (BitVec.ofNat 1024 (packElems w ((List.range n).map el)), false)

/-! ## One push (R48 to R50, R144, R152, R153) -/

/-- An operand of the array: its value, and whether a NaN of it sets NV (R31, R50). -/
structure ArrOp where
  v  : FV
  nv : Bool
  deriving DecidableEq, Repr

def arrDecode (ty w : Nat) : ArrOp :=
  if ty = 0 then ⟨td8Decode (w % 256), td8IsNaR (w % 256)⟩
  else
    let v := (tyDecode ty w).1
    ⟨v, fvSignalling v⟩

/-- The result of a column that holds a special operand: R50 steps 1 to 3; none where it holds none. -/
def columnSpecial (ps : List (ArrOp × ArrOp)) : Option (Nat × Flags) :=
  let isNaN (p : ArrOp × ArrOp) : Bool := fvIsNaN p.1.v || fvIsNaN p.2.v
  let isInf (p : ArrOp × ArrOp) : Bool := !(isNaN p) && (fvIsInf p.1.v || fvIsInf p.2.v)
  let invalid (p : ArrOp × ArrOp) : Bool := isInf p && (fvIsZero p.1.v || fvIsZero p.2.v)
  let infs (neg : Bool) : Bool := ps.any (fun p => isInf p && ((fvNeg p.1.v != fvNeg p.2.v) == neg))
  if ps.any invalid || (infs true && infs false) then some (fmtF.nanBits, flNV)
  else if ps.any isNaN then
    some (fmtF.nanBits, flIf (ps.any (fun p => fvIsNaN p.1.v && p.1.nv || fvIsNaN p.2.v && p.2.nv)) flNV)
  else if infs false then some (fmtF.infBits, flNone)
  else if infs true then some (withSign fmtF true fmtF.infBits, flNone)
  else none

/-- The exact sum of the products. -/
def productSum (ps : List (ArrOp × ArrOp)) : Q :=
  ps.foldl (fun acc p => qAdd acc (qMul (fvQ p.1.v) (fvQ p.2.v))) (match ps with
    | p :: _ => ⟨0, (fvQ p.1.v).den * (fvQ p.2.v).den⟩
    | [] => ⟨0, 1⟩)

/-- One segment rounded to FP32 (R48 steps 2 and 3); a product of zero and a number of the other sign is −0 in every format. -/
def segment (ps : List (ArrOp × ArrOp)) : Nat × Flags :=
  let q := productSum ps
  let negZero := ps.all (fun p => (fvIsZero p.1.v || fvIsZero p.2.v) && (fvNeg p.1.v != fvNeg p.2.v))
  if qIsZero q then (withSign fmtF negZero 0, flNone) else roundMag fmtF .rn (qNegative q) (qAbs q)

/-- Cuts a list into blocks of `b`; the empty list gives none. -/
def blocks {α : Type} (fuel b : Nat) (xs : List α) : List (List α) :=
  match fuel with
  | 0 => []
  | k + 1 => if xs.isEmpty then [] else xs.take b :: blocks k b (xs.drop b)

/-- The segment results of a column in floating mode: `gs` holds the scale of each block, none when unscaled (R48). -/
def columnSegments (b : Nat) (gs : Option (List FV)) (ps : List (ArrOp × ArrOp)) : List (BitVec 32) × Flags :=
  match columnSpecial ps with
  | some (w, fl) => ([BitVec.ofNat 32 w], fl)
  | none =>
    let rs := (blocks 128 b ps).zipIdx.map (fun x =>
      let r := segment x.1
      match gs with
      | none => r
      | some l =>
        let m := fMul fmtF .rn (fdecode fmtF r.1) (l.getD x.2 (fvZero false))
        (m.1, r.2 ||| m.2))
    (rs.map (fun r => BitVec.ofNat 32 r.1), rs.foldl (fun acc r => acc ||| r.2) flNone)

/-- The scales of a push under format records, with the block size; none when a record is ill-formed (R153). -/
def recordScales (arec lrec : Nat) : Option (Nat × List FV) :=
  let b := recBlock (bitsAt arec 0 16)
  if b = 0 then none
  else
    let js := List.range (128 / b)
    let ok (r : Nat) : Bool := recBlock r == b
    if js.all (fun j => ok (bitsAt arec (16 * j) 16) && ok (bitsAt lrec (16 * j) 16)) then
      some (b, js.map (fun j => scaleG (recD (bitsAt arec (16 * j) 16) + recD (bitsAt lrec (16 * j) 16))))
    else none

/-- The row a push sends across the array (R144). -/
def pushRow (k : Core) (fmt : BitVec 32) (now : Nat) (row : VWord) : RowOut :=
  let a := k.array
  let af := fmtAfmt fmt
  let bf := fmtBfmt fmt
  let w := pushWidth af bf
  let cap := 1024 / w
  let ek := edgeCount (bitsAt a.actl.toNat 0 8) cap
  let en := edgeCount (bitsAt a.actl.toNat 8 8) cap
  let allNaN : RowOut := ⟨now, now + 136, en, false, List.replicate en [BitVec.ofNat 32 fmtF.nanBits], flNV⟩
  if !(arrayFmt af) || !(arrayFmt bf) || wide af != wide bf then allNaN
  else
    let alat := bitsAt a.actl.toNat 24 2
    let scaled := fmtScaled fmt && !(wide af)
    let scales := recordScales a.arec.toNat (tget a.lrec 0 alat).toNat
    if scaled && scales.isNone then allNaN
    else
      let as := (List.range ek).map (fun j => arrDecode af (elem row.toNat w j))
      let ws := (List.range ek).map (fun j => (tget a.w 0 (128 * alat + j)).toNat)
      let col (c : Nat) : List (ArrOp × ArrOp) := as.zip (ws.map (fun r => arrDecode bf (elem r w c)))
      if af = 5 && bf = 5 && !scaled then
        ⟨now, now + 136, en, true, (List.range en).map (fun c => [BitVec.ofNat 32 (ofSigned 32 (productSum (col c)).num)]), flNone⟩
      else
        let b := if scaled then (scales.getD (128, [])).1 else 128
        let gs := if scaled then scales.map (·.2) else none
        let rs := (List.range en).map (fun c => columnSegments b gs (col c))
        ⟨now, now + 136, en, false, rs.map (·.1), rs.foldl (fun acc r => acc ||| r.2) flNone⟩

/-! ## Accumulation (R48 step 5, R49, R150) -/

/-- One accumulator word with a column's segment results added; of two NaNs the word's is taken before the segment's (R36, R48; log
entry 72). -/
def accumulateWord (int : Bool) (w : Nat) (segs : List (BitVec 32)) : Nat × Flags :=
  if int then
    segs.foldl (fun acc s =>
      let x := toSigned 32 acc.1 + toSigned 32 s.toNat
      if x < intMin true 32 then (ofSigned 32 (intMin true 32), acc.2 ||| flOF)
      else if intMax true 32 < x then (ofSigned 32 (intMax true 32), acc.2 ||| flOF)
      else (ofSigned 32 x, acc.2)) (w, flNone)
  else
    segs.foldl (fun acc s =>
      let r := fAdd fmtF .rn (fdecode fmtF acc.1) (fdecode fmtF s.toNat)
      (r.1, acc.2 ||| r.2)) (w, flNone)

/-- An accumulator row with a leaving row added; columns from EN′ on keep their words. -/
def accumulateRow (old : BitVec 4096) (r : RowOut) : BitVec 4096 × Flags :=
  let ws := (List.range 128).map (fun c =>
    let w := elem old.toNat 32 c
    match r.cols[c]? with
    | some segs => accumulateWord r.int w segs
    | none => (w, flNone))
  (BitVec.ofNat 4096 (packElems 32 (ws.map (·.1))), ws.foldl (fun acc w => acc ||| w.2) r.flags)

/-! ## The beat (R149 to R151) -/

/-- The whole pointer register with one field changed (R149). -/
def ptrPut (r : BitVec 32) (b len v : Nat) : VWord := BitVec.ofNat 1024 (setBits r.toNat (8 * b) len v)

/-- FILL′ (R147). -/
def fillEff (actl : BitVec 32) : Nat :=
  let f := bitsAt actl.toNat 16 8
  if f = 0 ∨ 128 < f then 128 else f

/-- A bank word read by a beat in its issue tick, in step 1 of R167's order (R150, R209). -/
def State.readRow (s : State) (a : Nat) : VWord := BitVec.ofNat 1024 (s.readSpad s.iss.core a 128)

/-- A beat: its parts are present or not; the push and the shift name a generator by none (R150, R158). -/
structure Beat where
  push  : Option (Option Nat)
  acc   : Option Nat
  shift : Option (Nat × Option Nat)
  deriving DecidableEq, Repr

/-- The beat of an instruction, from its address registers. -/
def State.beatOf (s : State) (push : Option (BitVec 4)) (acc : Option (BitVec 2)) (shift : Option (BitVec 2 × BitVec 3)) : Beat :=
  { push := push.map (fun p => if p = 15 then none else some (s.areg p))
    acc := acc.map BitVec.toNat
    shift := shift.map (fun p => (p.1.toNat, if p.2 = 7 then none else some (s.areg (BitVec.ofNat 4 (8 + p.2.toNat))))) }

/-- What the generators of a beat give: the push's row, the shift's row, NV, and the advances of CUR by register (R158). -/
def State.beatRows (s : State) (b : Beat) : VWord × VWord × Bool × List (Nat × Nat) :=
  let c := s.cur
  let gp := gpsOf c
  let gl := glsOf c
  let pushGen := b.push == some none
  let shiftGen := (b.shift.map (·.2)) == some none
  let eReg (i : Nat) : BitVec 256 := tget c.e 0 i
  let p : VWord × Bool := match b.push with
    | some (some a) => (s.readRow a, false)
    | some none => genRow c.lseed c.rank (eReg gp) (genCur (eReg gp)) (fmtAfmt c.fmt)
    | none => (0, false)
  let ahead := if pushGen && gp == gl then 1 else 0
  let l : VWord × Bool := match b.shift with
    | some (_, some a) => (s.readRow a, false)
    | some (_, none) => genRow c.lseed c.rank (eReg gl) ((genCur (eReg gl) + ahead) % 2 ^ 16) (fmtBfmt c.fmt)
    | none => (0, false)
  let adv := (if pushGen && !(shiftGen && gp == gl) then [(gp, 1)] else []) ++ (if shiftGen then [(gl, 1 + ahead)] else [])
  (p.1, l.1, p.2 || l.2, adv)

/-- A beat's effect (R150). Flags of a generator, and of an accumulation, are set in the beat's tick (log entry 20). -/
def State.beat (s : State) (b : Beat) : State :=
  let c := s.iss.core
  let a := (s.core c).array
  let x := s.beatRows b
  let s1 := match b.push with
    | some _ => s.modCore c (fun k => { k with array := { k.array with rows := k.array.rows ++ [pushRow k s.cur.fmt s.now x.1] } })
    | none => s
  let s2 := match b.acc with
    | some n =>
      let key := 64 * n + ptrField a.aptr n 6
      let adv := [s.flight 1 0 (.areg 0x04) (ptrPut a.aptr n 6 ((ptrField a.aptr n 6 + 1) % 64)) (lowMask 32) 0]
      (match a.rows.find? (fun (r : RowOut) => r.exit == s.now) with
       | some r =>
         let out := accumulateRow (tget a.acc 0 key) r
         (s1.modCore c (fun k => { k with array := { k.array with acc := tput k.array.acc key out.1 } })).fly
           (s.flight 0 0 .none 0 0 out.2 :: adv)
       | none => s1.fly adv)
    | none => s1
  let s3 := match b.shift with
    | some (n, _) =>
      let lp := ptrField a.lptr n 7
      let fill := fillEff a.actl
      s2.fly ([s.flight 4 0 (.wrow n lp) x.2.1 (lowMask 1024) 0,
          s.flight 1 0 (.areg 0x0C) (ptrPut a.lptr n 7 ((lp + 1) % fill)) (lowMask 32) 0]
        ++ (if lp + 1 = fill ∧ a.actl.getLsbD 26 then
              [s.flight 4 0 (.areg 0x00) (BitVec.ofNat 1024 (n * 2 ^ 24)) (BitVec.ofNat 1024 (3 * 2 ^ 24)) 0] else []))
    | none => s2
  let adv := x.2.2.2.map (fun p => s.flight 1 0 (.e p.1) ((genAdvance (tget s.cur.e 0 p.1) p.2).setWidth 1024) (lowMask 256) 0)
  s3.fly (adv ++ (if x.2.2.1 then [s.flight 0 0 .none 0 0 flNV] else []))

def execLsh (t : BitVec 3) (lw : BitVec 2) (la : BitVec 3) (s : State) : Result :=
  guarded (.lsh t lw la) s (s.beat (s.beatOf none none (some (lw, la))))

def execAcc (t : BitVec 3) (b : BitVec 2) (s : State) : Result :=
  guarded (.acc t b) s (s.beat (s.beatOf none (some b) none))

def execAcl (t : BitVec 3) (b : BitVec 2) (lw : BitVec 2) (la : BitVec 3) (s : State) : Result :=
  guarded (.acl t b lw la) s (s.beat (s.beatOf none (some b) (some (lw, la))))

def execPsh (t : BitVec 3) (pa : BitVec 4) (s : State) : Result :=
  guarded (.psh t pa) s (s.beat (s.beatOf (some pa) none none))

def execPsl (t : BitVec 3) (pa : BitVec 4) (lw : BitVec 2) (la : BitVec 3) (s : State) : Result :=
  guarded (.psl t pa lw la) s (s.beat (s.beatOf (some pa) none (some (lw, la))))

def execPac (t : BitVec 3) (pa : BitVec 4) (b : BitVec 2) (s : State) : Result :=
  guarded (.pac t pa b) s (s.beat (s.beatOf (some pa) (some b) none))

def execPal (t : BitVec 3) (pa : BitVec 4) (b : BitVec 2) (lw : BitVec 2) (la : BitVec 3) (s : State) : Result :=
  guarded (.pal t pa b lw la) s (s.beat (s.beatOf (some pa) (some b) (some (lw, la))))

/-- Rows that no accumulate beat of this tick took leave the array and are gone (R151). -/
def execArrayRowExit (core : Nat) (s : State) : Result :=
  .next (s.modCore core (fun k => { k with array := { k.array with rows := k.array.rows.filter (fun (r : RowOut) => decide (s.now < r.exit)) } }))

/-! ## The drain (R155, R156) -/

/-- One word of a drain converted (R156). -/
def drainConvert (ty : Nat) (m : RMode) (w : Nat) : Nat × Flags :=
  match ty with
  | 0 => td8Encode m (fdecode fmtF w)
  | 1 => fencode fmtH m (fdecode fmtF w)
  | 2 => fencode fmtB m (fdecode fmtF w)
  | 5 =>
    let x := toSigned 32 w
    if x < -128 then (ofSigned 8 (-128), flOF) else if 127 < x then (127, flOF) else (ofSigned 8 x, flNone)
  | _ => (w, flNone)

/-- The elements a drain writes and the flags they raise. -/
def drainElems (s : State) (b ty : Nat) : List (Nat × Flags) :=
  let k := s.core s.iss.core
  let a := k.array
  let row := (tget a.acc 0 (64 * b + ptrField a.dptr b 6)).toNat
  (List.range (edgeCount (bitsAt a.actl.toNat 8 8) 128)).map (fun c =>
    drainConvert ty (modeOf (fmtRmode s.cur.fmt) (drawOf s.cur.sr a.awc.toNat (tget a.drow 0 b).toNat c)) (elem row 32 c))

/-- A drain's effect: its bytes go out as stores of MB in the next tick, with the flags (R155, R156). -/
def State.drainRow (s : State) (b ty : Nat) (zero : Bool) (addr : Nat) : State :=
  let c := s.iss.core
  let a := (s.core c).array
  let es := drainElems s b ty
  let size := drainBytes ty
  let bytes := packElems (8 * size) (es.map (·.1))
  let n := es.length * size
  let fl := es.foldl (fun acc e => acc ||| e.2) flNone
  let acc (j : Nat) : Access :=
    ⟨s.now + 1, s.now, c, s.iss.ctx, true, .spad c (addr + 128 * j), .store, Nat.min 128 (n - 128 * j),
      BitVec.ofNat 1024 (bitsAt bytes (1024 * j) 1024), true, if j = 0 then fl else 0, none⟩
  let s1 := { s with accesses := s.accesses ++ (List.range (ceilDiv n 128)).map acc }
  let key := 64 * b + ptrField a.dptr b 6
  let s2 := if zero then s1.modCore c (fun k => { k with array := { k.array with acc := tput k.array.acc key 0 } }) else s1
  s2.fly [s.flight 1 0 (.areg 0x08) (ptrPut a.dptr b 6 ((ptrField a.dptr b 6 + 1) % 64)) (lowMask 32) 0,
    s.flight 1 0 (.areg (0x20 + 4 * b)) (((tget a.drow 0 b) + 1).setWidth 1024) (lowMask 32) 0]

def execDrain (t : BitVec 3) (b : BitVec 2) (ty : BitVec 4) (z : BitVec 1) (a : BitVec 4) (o : BitVec 5) (s : State) : Result :=
  guarded (.drain t b ty z a o) s (s.drainRow b.toNat ty.toNat (z == 1) (drainAddr s a o))

/-! ## The E slot (R69, R162, R163) -/

/-- A write to fields of FMT that lands at 4. -/
def State.fmtWrite (s : State) (v mask : Nat) : State :=
  s.fly [s.flight 4 0 .fmt (BitVec.ofNat 1024 v) (BitVec.ofNat 1024 mask) 0]

def execFmtw (t : BitVec 3) (q : BitVec 5) (s : State) : Result :=
  guarded (.fmtw t q) s (s.fmtWrite (fmtStore (s.sel .e q).toNat).toNat (2 ^ 32 - 1))

def execFmtr (t : BitVec 3) (g : BitVec 4) (s : State) : Result :=
  guarded (.fmtr t g) s (s.scalarResult .sa ⟨g, 0⟩ 1 (s.cur.fmt.setWidth 64))

def execRmode (t : BitVec 3) (m : BitVec 3) (s : State) : Result := guarded (.rmode t m) s (s.fmtWrite m.toNat 7)

def execAfmt (t : BitVec 3) (ty : BitVec 4) (s : State) : Result := guarded (.afmt t ty) s (s.fmtWrite (ty.toNat * 2 ^ 4) (15 * 2 ^ 4))

def execBfmt (t : BitVec 3) (ty : BitVec 4) (s : State) : Result := guarded (.bfmt t ty) s (s.fmtWrite (ty.toNat * 2 ^ 8) (15 * 2 ^ 8))

def execScal (t : BitVec 3) (v : BitVec 1) (s : State) : Result := guarded (.scal t v) s (s.fmtWrite (v.toNat * 2 ^ 12) (2 ^ 12))

def execFclr (t : BitVec 3) (m : BitVec 5) (s : State) : Result := guarded (.fclr t m) s (s.fmtWrite 0 (m.toNat * 2 ^ 16))

/-- A write to a field of GSEL that lands at 4. -/
def State.gselWrite (s : State) (lo : Nat) (e : BitVec 3) : State :=
  s.fly [s.flight 4 0 .gsel (BitVec.ofNat 1024 (e.toNat * 2 ^ lo)) (BitVec.ofNat 1024 (7 * 2 ^ lo)) 0]

def execGpsh (t : BitVec 3) (e : BitVec 3) (s : State) : Result := guarded (.gpsh t e) s (s.gselWrite 0 e)

def execGlat (t : BitVec 3) (e : BitVec 3) (s : State) : Result := guarded (.glat t e) s (s.gselWrite 4 e)

def execGsr (t : BitVec 3) (e : BitVec 3) (s : State) : Result := guarded (.gsr t e) s (s.gselWrite 8 e)

/-- Submits the record at a local address (R184). -/
def State.submit (s : State) (a : Nat) : State :=
  let s1 := { s with cmds := s.cmds ++ [s.recordCmd a], nextId := s.nextId + 1 }
  s1.modCur (fun c => { c with subNo := c.subNo + 1 })

def execESub (t : BitVec 3) (a : BitVec 4) (s : State) : Result := guarded (.eSub t a) s (s.submit (s.areg a))

end Sys2Proof.Machine
end

