-- ==== Sys2Proof/Machine/Cellar.lean ====
section
/-! DEFINITION. The cellar engines (R190, R296 to R309). A launch of one begins its engines; each cellar instruction runs on the
engine of channel `ceCh` at its start tick, and its results land as R300 states. -/

namespace Sys2Proof.Machine

/-! ## Results landing (R300) -/

/-- A result lands in the accumulator sets. -/
def Cellar.put (e : Cellar) (p : CePend) : Cellar :=
  let old := tget e.acc 0 p.key
  match p.how with
  | 0 => { e with acc := tput e.acc p.key p.value, cflg := e.cflg ||| p.flags }
  | 1 =>
    let r := fAdd fmtF .rn (fdecode fmtF old.toNat) (fdecode fmtF p.value.toNat)
    { e with acc := tput e.acc p.key (BitVec.ofNat 32 r.1), cflg := e.cflg ||| p.flags ||| r.2 }
  | 2 =>
    let r := accumulateWord true old.toNat [p.value]
    { e with acc := tput e.acc p.key (BitVec.ofNat 32 r.1), cflg := e.cflg ||| p.flags ||| r.2 }
  | _ => { e with acc := e.acc.filter (fun x => decide (x.1 / 64 ≠ p.key)) }

/-- Inserts a result among others in start order. -/
def insertPend (p : CePend) (l : List CePend) : List CePend :=
  match l with
  | [] => [p]
  | q :: r => if p.start < q.start then p :: q :: r else q :: insertPend p r

/-- Bytes reach the activation buffers. -/
def Cellar.fillAb (e : Cellar) (p : AbPend) : Cellar :=
  let w := p.pos / 128
  { e with ab := tput e.ab w (BitVec.ofNat 1024 (setBits (tget e.ab 0 w).toNat (8 * (p.pos % 128)) (8 * p.n) p.value.toNat)) }

/-- Every result due by tick `t` lands, those of one tick in start order. -/
def Cellar.landDue (e : Cellar) (t : Nat) : Cellar :=
  let due := (e.pend.filter (fun p => decide (p.land ≤ t))).foldl (fun l p => insertPend p l) []
  let e1 := due.foldl Cellar.put e
  let e2 := (e.abPend.filter (fun p => decide (p.land ≤ t))).foldl Cellar.fillAb e1
  { e2 with pend := e.pend.filter (fun p => decide (t < p.land)), abPend := e.abPend.filter (fun p => decide (t < p.land)) }

/-! ## Row reads (R294, R295, R304, R305) -/

/-- Integer mode (R304). -/
def ceInt (wty aty : Nat) : Bool := wty == 1 && aty == 1

/-- A weight or activation byte of a type (R304). -/
def ceDecode (ty w : Nat) : ArrOp := arrDecode (if ty = 0 then 0 else 5) w

/-- The dot product of two lists of bytes: exact in integer mode, else rounded once to FP32, with R50 for special operands. -/
def ceDot (wty aty : Nat) (ws qs : List Nat) : Nat × Flags :=
  let ps := (ws.map (ceDecode wty)).zip (qs.map (ceDecode aty))
  if ceInt wty aty then (ofSigned 32 (productSum ps).num, flNone)
  else match columnSpecial ps with
    | some r => r
    | none => segment ps

/-- The bytes of 128-byte words, in order. -/
def wordsBytes (ws : List VWord) : List Nat := ws.flatMap (fun w => (List.range 128).map (fun i => elem w.toNat 8 i))

/-- The results of a row whose 1,024 bytes have been read. -/
def CeRow.results (r : CeRow) (bytes : List Nat) : List CePend :=
  let int := ceInt r.wty r.aty
  if r.width = 0 then
    r.bufs.zipIdx.map (fun (b : List VWord × Nat) =>
      let v := ceDot r.wty r.aty bytes (wordsBytes b.1)
      ⟨r.land, r.start, if !r.add then 0 else if int then 2 else 1, 64 * b.2 + r.e, BitVec.ofNat 32 v.1, v.2⟩)
  else
    let q := (wordsBytes (r.bufs.headD [])).take r.width
    ((List.range (1024 / r.width)).filter (fun j => decide (r.e + j < 64))).map (fun j =>
      let v := ceDot r.wty r.aty ((bytes.drop (j * r.width)).take r.width) q
      ⟨r.land, r.start, 0, 64 * r.set + r.e + j, BitVec.ofNat 32 v.1, v.2⟩)

/-- A row read performs: its results are on their way, or the launch stops at an uncorrectable sector; corrected sectors count and
uncorrectable ones are reported (R295, R308, R342). -/
def State.ceReadRow (s : State) (ch : Nat) (r : CeRow) : State :=
  let c := s.channel 0 ch
  let s0 := s.setChannel 0 ch { c with cellar := { c.cellar with rows := dropEq r c.cellar.rows } }
  let s1 := s0.markRow 0 ch r.bank r.row (some r.ecc)
  let sectors := (List.range 32).map (fun i => c.readSector 0 r.bank (r.row * 1024 + 32 * i) r.ecc)
  if sectors.any Option.isNone then s1.stopCmd r.cmd 27 0 (pack2 ch r.bank)
  else
    let bytes := sectors.flatMap (fun v => (List.range 32).map (fun i => elem (v.getD 0) 8 i))
    s1.modChannel 0 ch (fun c => { c with cellar := { c.cellar with pend := c.cellar.pend ++ r.results bytes } })

/-! ## One instruction -/

/-- The engine whose instruction runs, and its command. -/
def State.cel (s : State) : Cellar := (s.channel 0 s.ceCh).cellar
def State.celCmd (s : State) : Option Cmd := s.findCmd s.cel.cmd
def State.modCel (s : State) (f : Cellar → Cellar) : State := s.modChannel 0 s.ceCh (fun c => { c with cellar := f c.cellar })
def Cellar.jr (e : Cellar) (a : BitVec 3) : Nat := (tget e.j 0 a.toNat).toNat
def Cellar.setJ (e : Cellar) (d : BitVec 3) (v : BitVec 32) : Cellar := { e with j := tput e.j d.toNat v }
/-- The word of element `i` of a set. -/
def Cellar.as (e : Cellar) (c : BitVec 3) (i : Nat) : BitVec 32 := tget e.acc 0 (64 * c.toNat + i)

/-- An instruction of duration `d` has started: the engine's next one starts when it has passed (R300). -/
def State.ceNext (s : State) (d : Nat) (f : Cellar → Cellar) : State :=
  s.modCel (fun e => f { e with cpc := e.cpc + 1, nextAt := s.now + d, count := e.count + 1 })

/-- Runs an instruction of a command that the checks admit, or stops the launch with the lowest fault (R308). -/
def State.ceChecked (s : State) (fs : Cmd → List FaultRec) (go : Cmd → State) : State :=
  match s.celCmd with
  | none => s
  | some m => match lowestCode (fs m) with
    | some f => s.stopFor m.id f
    | none => go m

def execCeNop (n : BitVec 12) (s : State) : Result := .next (s.ceNext (Nat.max 1 n.toNat) id)

def execCeJset (d : BitVec 3) (imm : BitVec 24) (s : State) : Result := .next (s.ceNext 1 (fun e => e.setJ d (imm.signExtend 32)))

def execCeJadd (d a : BitVec 3) (imm : BitVec 21) (s : State) : Result :=
  .next (s.ceNext 1 (fun e => e.setJ d (tget e.j 0 a.toNat + imm.signExtend 32)))

def execCeBnz (d : BitVec 3) (target : BitVec 7) (s : State) : Result :=
  .next (s.ceNext 1 (fun e =>
    let v := tget e.j 0 d.toNat - 1
    let e1 := e.setJ d v
    if v = 0 then e1 else { e1 with cpc := target.toNat }))

def execCeWait (a : BitVec 3) (s : State) : Result :=
  .next (match s.celCmd with
    | some m => s.ceNext (Nat.max 1 (m.beginAt + s.cel.jr a - s.now)) id
    | none => s)

def execCeCfmt (wty aty ecc : BitVec 2) (s : State) : Result :=
  .next (s.ceNext 1 (fun e => { e with wty := wty.toNat, aty := aty.toNat, ecc := ecc.toNat }))

/-- The sets a mask names. -/
def maskSets (m : BitVec 8) : List Nat := (List.range 8).filter (fun c => m.getLsbD c)

/-- A set becomes zero at tick `land`. -/
def zeroSet (start land c : Nat) : CePend := ⟨land, start, 3, c, 0, flNone⟩

def execCeClr (m : BitVec 8) (s : State) : Result :=
  .next (s.ceNext 1 (fun e => { e with pend := e.pend ++ (maskSets m).map (zeroSet s.now (s.now + 1)) }))

def execCeScl (a : BitVec 3) (m : BitVec 8) (s : State) : Result :=
  .next (
    let e := s.cel
    let g := scaleG (toSigned 8 (e.jr a))
    let one (k : Nat) : CePend :=
      let r := fMul fmtF .rn (fdecode fmtF (tget e.acc 0 k).toNat) g
      ⟨s.now + 2, s.now, 0, k, BitVec.ofNat 32 r.1, r.2⟩
    s.ceNext 2 (fun e => { e with pend := e.pend ++ (maskSets m).flatMap (fun c => (List.range 64).map (fun i => one (64 * c + i))) }))

/-! ## Scratchpad traffic (R298, R300, R302) -/

/-- The pieces of `n` bytes at an offset of ACT or OUT, by bank word of the command: core, offset, bytes, place in the whole, and
the word's number. -/
def cePieces (m : Cmd) (base off n : Nat) : List (Nat × Nat × Nat × Nat × Nat) :=
  (List.range (ceilDiv n 128)).flatMap (fun i =>
    (cutWords m.core ((base + off + 128 * i) % 2 ^ 32) (Nat.min 128 (n - 128 * i))).map (fun (p : Nat × Nat × Nat × Nat) =>
      (p.1, p.2.1, p.2.2.1, 128 * i + p.2.2.2, i)))

/-- The faults of an area: an offset that is no multiple of 128, bytes outside the scratchpads, banks not owned (R199, R308). -/
def State.areaFaults (s : State) (m : Cmd) (word field base off n : Nat) : List FaultRec :=
  let ps := cePieces m base off n
  let inside := ps.foldl (fun k p => k + p.2.2.1) 0
  (if off % 128 ≠ 0 ∨ inside ≠ n then [recFault m.recAddr word field] else [])
  ++ s.ownFaults m (ps.map (fun p => (base + off + p.2.2.2.1) % 2 ^ 32))

def execCeAld (b a : BitVec 3) (s : State) : Result :=
  .next (
    let off := s.cel.jr a
    let base (m : Cmd) : Nat := bitsAt m.c2 0 32
    let uses (m : Cmd) : List Use := (cePieces m (base m) off 1024).map (fun p => ⟨p.1, p.2.1, s.now + 2 * p.2.2.2.2, false⟩)
    s.ceChecked (fun m => s.areaFaults m 2 0 (base m) off 1024 ++ s.portFaults m (uses m))
      (fun m =>
        let s1 := (s.reserveUses m (uses m)).ceNext 64 id
        { s1 with eops := s1.eops ++ (cePieces m (base m) off 1024).map (fun p =>
          ⟨s.now + 2 * p.2.2.2.2, m.id, .ceRead s.ceCh p.1 p.2.1 p.2.2.1 (1024 * b.toNat + p.2.2.2.1) (s.now + 64)⟩) }))

/-- Writes `n` bytes of a result at OUT plus an offset: its slots, its pending bytes and its writes from t + 40 (R298, R300). -/
def State.ceResult (s : State) (off n data : Nat) (f : Cellar → Cellar) : State :=
  let base (m : Cmd) : Nat := bitsAt m.c2 32 32
  let uses (m : Cmd) : List Use := (cePieces m (base m) off n).map (fun p => ⟨p.1, p.2.1, s.now + 40 + 2 * p.2.2.2.2, true⟩)
  s.ceChecked (fun m => s.areaFaults m 2 32 (base m) off n ++ s.portFaults m (uses m)
      ++ (if s.pendOver m n then [recFault m.recAddr 0 11] else []))
    (fun m =>
      let s1 := ((s.reserveUses m (uses m)).owe m.id n).ceNext (40 + 2 * ceilDiv n 128) f
      { s1 with eops := s1.eops ++ (cePieces m (base m) off n).map (fun p =>
        ⟨s.now + 40 + 2 * p.2.2.2.2, m.id, .ceWrite p.1 p.2.1 p.2.2.1 (BitVec.ofNat 1024 (bitsAt data (8 * p.2.2.2.1) (8 * p.2.2.1)))⟩) })

/-- Word `x` ranks above word `y` (R306). -/
def ceBetter (int : Bool) (x y : BitVec 32) : Bool :=
  if int then decide (toSigned 32 y.toNat < toSigned 32 x.toNat)
  else
    let a := fdecode fmtF x.toNat
    let b := fdecode fmtF y.toNat
    if fvIsNaN a then false else if fvIsNaN b then true else fvLess b a

/-- Inserts an element index into a ranking, below every element it does not beat. -/
def ceRank (better : Nat → Nat → Bool) (i : Nat) (l : List Nat) : List Nat :=
  match l with
  | [] => [i]
  | j :: r => if better i j then i :: j :: r else j :: ceRank better i r

def execCePtop (c : BitVec 3) (k1 : BitVec 6) (d f : BitVec 3) (s : State) : Result :=
  .next (
    let e := s.cel
    let k := k1.toNat + 1
    let best := (List.range 64).foldl (fun l i => ceRank (fun i j => ceBetter (ceInt e.wty e.aty) (e.as c i) (e.as c j)) i l) []
    let words := (best.take k).map (fun i => (e.jr d + i) % 2 ^ 32)
    s.ceResult (e.jr f) (4 * k) (packElems 32 words) id)

/-- The element type code of R29 that `out.T` writes. -/
def ceOutTy (ty : BitVec 3) : Nat := match ty.toNat with
  | 1 => 1
  | 2 => 2
  | 3 => 0
  | _ => 3

def execCeOut (c f ty : BitVec 3) (z : BitVec 1) (s : State) : Result :=
  .next (
    let e := s.cel
    let zero (e : Cellar) : Cellar := if z = 1 then { e with pend := e.pend ++ [zeroSet s.now (s.now + 1) c.toNat] } else e
    if ty = 4 then s.ceResult (e.jr f) 4 e.cflg.toNat zero
    else
      let w := tyWidth (ceOutTy ty)
      let rs := (List.range 64).map (fun i => convert (ceOutTy ty) 3 .rn (e.as c i).toNat)
      let fl := rs.foldl (fun a r => a ||| r.2) flNone
      s.ceResult (e.jr f) (64 * (w / 8)) (packElems w (rs.map (·.1))) (fun e => zero { e with cflg := e.cflg ||| fl }))

/-! ## Rows (R304, R305) -/

/-- Starts a row read: its address and bank commands are checked, and it performs at t + 32 (R300, R308). -/
def State.ceRow (s : State) (a : BitVec 3) (d : Nat) (r : CeRow) : State :=
  let j := s.cel.jr a
  let burst (m : Cmd) : List (Nat × Nat × Burst) := [(0, s.ceCh, ⟨m.id, j % 32, bitsAt j 5 16, s.now, s.now + 56, s.now, 0, 1, false⟩)]
  s.ceChecked (fun m => (if bitsAt j 21 11 ≠ 0 then [recFault m.recAddr 3 0] else []) 
      ++ s.burstFaults (burst m) [⟨s.now, ⟨0, s.ceCh, j % 32, bitsAt j 5 16 * 1024, 0⟩, chanAddr 0 (j % 32) (bitsAt j 5 16 * 1024)⟩])
    (fun m => (s.takeBursts (burst m)).ceNext d (fun e => { e with rows := e.rows ++ [{ r with
      cmd := m.id, perform := s.now + 32, start := s.now, bank := j % 32, row := bitsAt j 5 16
      wty := e.wty, aty := e.aty, ecc := e.ecc }] }))

/-- Activation buffer `b` of an engine. -/
def Cellar.buf (e : Cellar) (b : Nat) : List VWord := (List.range 8).map (fun i => tget e.ab 0 (8 * (b % 8) + i))

/-- wdot with its add bit. -/
def State.ceWdot (s : State) (a b s1 : BitVec 3) (e : BitVec 6) (add : Bool) : State :=
  let n := s1.toNat + 1
  let d := Nat.max 7 (ceilDiv (32 * n) 5)
  s.ceRow a d ⟨0, 0, 0, s.now + 32 + d, 0, 0, (List.range n).map (fun i => s.cel.buf (b.toNat + i)), 0, 0, 0, 0, 0, e.toNat, add⟩

def execCeWdot (a b s1 : BitVec 3) (e : BitVec 6) (s : State) : Result := .next (s.ceWdot a b s1 e false)

def execCeWdotAdd (a b s1 : BitVec 3) (e : BitVec 6) (s : State) : Result := .next (s.ceWdot a b s1 e true)

def execCePsc (a b c : BitVec 3) (e : BitVec 6) (w : BitVec 2) (s : State) : Result :=
  .next (s.ceRow a 7 ⟨0, 0, 0, s.now + 39, 0, 0, [s.cel.buf b.toNat], 0, 0, 0, 32 * 2 ^ w.toNat, c.toNat, e.toNat, false⟩)

/-! ## The launch and its end (R190, R298) -/

/-- Whether an engine still runs a command's program, or a write of it is to come. -/
def State.ceBusy (s : State) (id : Nat) : Bool :=
  s.channels.any (fun p => p.2.cellar.cmd == id)
  || s.eops.any (fun e => e.cmd == id && (match e.act with
      | .ceWrite _ _ _ _ => true
      | _ => false))

/-- The command ends in this tick when nothing of it is left to do. -/
def State.ceFinish (s : State) (id : Nat) : State :=
  match s.findCmd id with
  | some m => if s.ceBusy id then s else s.setCmd { m with endAt := some s.now }
  | none => s

def execCeEnd (s : State) : Result :=
  .next (
    let id := s.cel.cmd
    (s.modCel (fun e => { e with cmd := 0, cpc := e.cpc + 1, count := e.count + 1 })).ceFinish id)

/-- The engines of a launch, by channel. -/
def Cmd.channels (m : Cmd) : List Nat := (List.range m.nch).map (fun i => m.ch + i)

/-- A launch begins on its engines: the state of span kernel is reset, and J0, J1 and CPC are set (R297, R298). -/
def State.ceBegin (s : State) (m : Cmd) : State :=
  let mine (ch : Nat) : Bool := (match s.launchOf m with
    | some l => l.ownsCh 0 ch
    | none => false) && (s.channel 0 ch).cellar.cmd == 0
  if m.channels.all mine then
    m.channels.foldl (fun s ch => s.modChannel 0 ch (fun c =>
      let e := c.cellar
      { c with cellar := { Cellar.reset with
        prog := e.prog, pend := e.pend, abPend := e.abPend, rows := e.rows
        cpc := bitsAt m.c1 16 7, j := [(0, BitVec.ofNat 32 m.c3), (1, BitVec.ofNat 32 (ch - m.ch))], cmd := m.id, nextAt := s.now } }))
      (s.setCmd { m with phase := 1, endAt := none })
  else s.stopFor m.id (recFault m.recAddr 1 0)

/-- The first read of a frame under TCHK is checked (R192, R298); the command's buffer marks the frames that were. -/
def State.ceCheck (s : State) (m : Cmd) (d frame : Nat) : State :=
  let key := 2 ^ 30 + 512 * d + frame
  if rcTchk m.c0 && tget m.buf 0 key == 0 then (s.setCmd { m with buf := tput m.buf key 1 }).checkTag m d frame else s

/-- The bytes that `out.T` writes: 64 converted words, or CFLG (R307). -/
def ceOutBytes (ty : BitVec 3) : Nat := if ty = 4 then 4 else 64 * (tyWidth (ceOutTy ty) / 8)

/-- An engine goes on to write bytes that satisfy a test, an area as offset and count: its program read ahead, of which only the J
registers and the branches matter (R195, R301). -/
def Cellar.writesAhead (hit : Nat → Nat → Bool) (fuel : Nat) (e : Cellar) : Bool :=
  match fuel with
  | 0 => false
  | n + 1 =>
    let next : Cellar := { e with cpc := e.cpc + 1 }
    if 128 ≤ e.cpc then false
    else match toOpt (decodeCellar (tget e.prog 0 e.cpc).toNat) with
    | some (.ceJset d imm) => (next.setJ d (imm.signExtend 32)).writesAhead hit n
    | some (.ceJadd d a imm) => (next.setJ d (tget e.j 0 a.toNat + imm.signExtend 32)).writesAhead hit n
    | some (.ceBnz d target) =>
      let v := tget e.j 0 d.toNat - 1
      ((if v = 0 then next else { next with cpc := target.toNat }).setJ d v).writesAhead hit n
    | some (.cePtop _ k1 _ f) => hit (e.jr f) (4 * (k1.toNat + 1)) || next.writesAhead hit n
    | some (.ceOut _ f ty _) => hit (e.jr f) (ceOutBytes ty) || next.writesAhead hit n
    | some .ceEnd | none => false
    | some _ => next.writesAhead hit n

/-- A launch is still to write into a frame: by a write on its way, or by an instruction that one of its engines has not reached (R195;
log entry 26). -/
def State.ceMore (s : State) (m : Cmd) (d frame : Nat) : Bool :=
  s.eops.any (fun e => e.cmd == m.id && (match e.act with
    | .ceWrite d' x' _ _ => d' == d && frameOf x' == frame
    | _ => false))
  || m.channels.any (fun ch =>
    let e := (s.channel 0 ch).cellar
    e.cmd == m.id && e.writesAhead (fun off n => (cePieces m (bitsAt m.c2 32 32) off n).any (fun p => p.1 == d && frameOf p.2.1 == frame))
      (2 ^ 24 - e.count))

/-- A micro-operation of a cellar launch. -/
def State.runCellar (s : State) (m : Cmd) (a : EAct) : State :=
  match a with
  | .ceRead ch d x n pos land =>
    let s1 := s.ceCheck m d (frameOf x)
    (match s1.findCmd m.id with
     | some k =>
       if k.phase = 3 then s1
       else match (s1.core d).badWord x n with
         | some w => s1.stopCmd m.id 34 (localName m.core d w) 0
         | none =>
           let v : AbPend := ⟨land, pos, n, BitVec.ofNat 1024 (s1.readEngine d x n)⟩
           (s1.fixWords d x n).modChannel 0 ch (fun c => { c with cellar := { c.cellar with abPend := c.cellar.abPend ++ [v] } })
     | none => s1)
  | .ceWrite d x n data =>
    (match (s.core d).badWord x n with
     | some w => s.stopCmd m.id 34 (localName m.core d w) 0
     | none =>
       let s1 := s.writeBytes m d x n data.toNat
       if (s1.findCmd m.id).all (fun k => k.phase == 3) then s1
       else (if s1.ceMore m d (frameOf x) then s1 else s1.giveTag m d (frameOf x)).ceFinish m.id)
  | a => s.runShared m a

/-- Whether an engine of a command is due with no instruction left: CPC has passed word 127, or 2^24 have run (R308). -/
def State.ceOverrun (s : State) (m : Cmd) : Bool :=
  m.channels.any (fun ch =>
    let e := (s.channel 0 ch).cellar
    e.cmd == m.id && decide (e.nextAt ≤ s.now) && (decide (128 ≤ e.cpc) || decide (2 ^ 24 ≤ e.count)))

def execCellarLaunch (id : Nat) (s : State) : Result :=
  .next (match s.findCmd id with
    | some m =>
      if m.beginsNow s.now then s.ceBegin m
      else if (s.dueOp id).isSome then s.runNext m State.runCellar
      else if s.ceOverrun m then s.stopFor id (recFault m.recAddr 1 16)
      else s
    | none => s)

end Sys2Proof.Machine
end

