-- ==== Sys2Proof/Machine/Circuit.lean ====
section
/-! DEFINITION. The circuit engine (R221 to R238): node records and their arithmetic, the evaluate, parameter updates, pages, and
the checks of an object image. -/

namespace Sys2Proof.Machine

/-! ## Node records (R223, R224) -/

def ndOp (r : Nat) : Nat := bitsAt r 0 4
def ndLast (r : Nat) : Bool := bitAt r 4
def ndDst (r : Nat) : Nat := bitsAt r 5 13
def ndA (r : Nat) : Nat := bitsAt r 18 13
def ndB (r : Nat) : Nat := bitsAt r 31 13
def ndPar (r : Nat) : Nat := bitsAt r 44 12
/-- The fields an operation uses. -/
def opDst (op : Nat) : Bool := decide (1 ≤ op ∧ op ≤ 9)
def opA (op : Nat) : Bool := decide (2 ≤ op ∧ op ≤ 8) || op == 10
def opB (op : Nat) : Bool := decide (2 ≤ op ∧ op ≤ 7)
def opPar (op : Nat) : Bool := op == 1 || decide (6 ≤ op ∧ op ≤ 10)

/-- CF40 one (R38). -/
def cfOne : Nat := 16383 * 2 ^ 24

/-- A leaf value as CF40: FP32 converts exactly, a NaN bit for bit; CF40 is copied (R225, R228). -/
def leafValue (c40 : Bool) (w : Nat) : Nat :=
  if c40 then w % 2 ^ 40
  else match fdecode fmtF w with
    | .nan _ _ => bitsAt w 31 1 * 2 ^ 39 + 0x7FFF * 2 ^ 24 + bitsAt w 0 23 * 2
    | v => (fencode fmtC .rn v).1

/-- The result of a node from the values of a, b and p (R224, R225); of a NaN b beside the product of 0 and ∞ see `fmaV`. -/
def nodeValue (op a b p : Nat) : Nat × Flags :=
  let va := fdecode fmtC a
  let vb := fdecode fmtC b
  let vp := fdecode fmtC p
  match op with
  | 2 => fAdd fmtC .rn va vb
  | 3 => fSub fmtC .rn va vb
  | 4 => fMul fmtC .rn va vb
  | 5 => roundRes fmtC .rn (maxV va vb)
  | 6 => roundRes fmtC .rn (fmaV .rn va vp vb [va, vp, vb])
  | 7 => roundRes fmtC .rn (fmaV .rn (fvNegate va) vp vb [va, vp, vb])
  | 8 => if p = cfOne then (a, flNone) else fMul fmtC .rn va vp
  | 9 => (p, flNone)
  | _ => (a, flNone)

/-! ## Soft errors (R341, R342; log entry 8) -/

/-- The places of a node record and of a parameter among those of a circuit engine; value slot i of lane l stands at 16 i + l. -/
def nodePlace (a : Nat) : Nat := 2 ^ 20 + a
def paramPlace (p : Nat) : Nat := 2 ^ 21 + p

/-- A place has been written whole: no error stands there. -/
def Circuit.heal (g : Circuit) (p : Nat) : Circuit := { g with bad := g.bad.filter (fun w => decide (w.place ≠ p)) }

/-! ## The evaluate (R227 to R230, R236) -/

def hdrNrec (h : List Word) : Nat := bitsAt (wordAt h 0) 0 20
def hdrPaged (h : List Word) : Bool := bitAt (wordAt h 0) 20
def hdrC40 (h : List Word) : Bool := bitAt (wordAt h 0) 21
def hdrNleaf (h : List Word) : Nat := bitsAt (wordAt h 1) 0 13
def hdrNout (h : List Word) : Nat := bitsAt (wordAt h 1) 13 13
def hdrNbase (h : List Word) : Nat := bitsAt (wordAt h 1) 26 14
def hdrNwin (h : List Word) : Nat := bitsAt (wordAt h 1) 40 15
def hdrImg (h : List Word) : Nat := bitsAt (wordAt h 2) 0 56
def hdrNpage (h : List Word) : Nat := bitsAt (wordAt h 3) 0 6

def Cmd.obj (m : Cmd) : Nat := bitsAt m.c2 0 16
def Cmd.lanes (m : Cmd) : Nat := bitsAt m.c2 16 5
def Cmd.res (m : Cmd) : Nat := bitsAt m.c2 21 2
def Cmd.toQ (m : Cmd) : Bool := bitAt m.c2 23
def Cmd.leafAt (m : Cmd) : Nat := bitsAt m.c1 0 32
def Cmd.outAt (m : Cmd) : Nat := bitsAt m.c1 32 32
/-- The core of an output that goes to QC. -/
def toQueue : Nat := 256

/-- The node address of object record `j`. -/
def nodeAddr (h : List Word) (j : Nat) : Nat := hdrNbase h + j % Nat.max 1 (hdrNwin h)

/-- Record `j` of a paged object as device memory holds it, 0 where it does not translate. -/
def State.pagedRecord (s : State) (m : Cmd) (h : List Word) (j : Nat) : Nat :=
  let va := hdrImg h + 8 * j
  match s.sectors m (va / 32 * 32) 1 false with
  | p :: _ => mreadN (s.channel p.tier p.ch).mem (chanAddr p.tier p.bank p.byte + va % 32) 8
  | [] => 0

/-- S: the steps of an object, which end at the records with LAST (R226; log entry 21 for a paged one). -/
def State.stepCount (s : State) (m : Cmd) (g : Circuit) (h : List Word) : Nat :=
  ((List.range (hdrNrec h)).filter (fun j =>
    ndLast (if hdrPaged h then s.pagedRecord m h j else (tget g.nodes 0 (nodeAddr h j)).toNat) || j + 1 == hdrNrec h)).length

/-- Where page `p`'s sector `i` stands in a command's buffer. -/
def pageSlot (p i : Nat) : Nat := 2 ^ 16 + p * 2 ^ 20 + i / 4

/-- The reads, landings and bursts of one page of a paged object (R235, R236, R285). Every record lands by tRL of the tier of the page's
first sector, also where its own sector stands in the other tier (log entry 76). -/
def State.pageOps (s : State) (m : Cmd) (h : List Word) (p : Nat) (e : Word) : List EOp × List (Nat × Nat × Burst) × List Mark :=
  let first := bitsAt e.toNat 0 20
  let count := bitsAt e.toNat 20 15
  let start := m.beginAt + bitsAt e.toNat 35 29
  let lo := hdrImg h + 8 * first
  let v := lo / 32 * 32
  let n := ceilDiv (lo + 8 * count - v) 32
  let ps := s.sectors m v n false
  let ts := s.streamTiers m v n false
  let t := tmOf (firstTier ts)
  let tick (i : Nat) : Nat := start + t.lead + i * paceOf ts
  let rd := (List.range ps.length).filterMap (fun i => (ps[i]?).map (fun (q : Place) =>
    (⟨tick i, m.id, .rdDram q.tier q.ch q.bank q.byte (pageSlot p i) (i % 4 * 32) ((v + 32 * i) % 2 ^ 56) q.mode⟩ : EOp)))
  let bad : List EOp := if ps.length < n then [⟨tick ps.length, m.id, .badVa ((v + 32 * ps.length) % 2 ^ 56) false⟩] else []
  let land := (List.range ps.length).map (fun i =>
    let a := Nat.max lo (v + 32 * i)
    let b := Nat.min (lo + 8 * count) (v + 32 * i + 32)
    (⟨tick i + t.rl + 1, m.id, .landRecords (hdrNbase h) (hdrNwin h) (first + (a - lo) / 8) ((b - a) / 8) (pageSlot p i) (i % 4 * 32 + (a - (v + 32 * i)))⟩ : EOp))
  (rd ++ bad ++ land, burstsOf m.id (paceOf ts) false tick 0 none ps, marksOf ps tick (fun i => (v + 32 * i) % 2 ^ 56))

/-- The expansion of an evaluate (R227, R228, R233). Where the object has changed since the submission, a leaf or an output word that lies
in no scratchpad is read or written at offset 0 of the own one (log entry 74). -/
def State.evalExpansion (s : State) (m : Cmd) : Expansion :=
  let g := s.circuit (clusterOf m.core)
  let busy := g.run.isSome || decide (m.beginAt < g.lastEnd)
  let none' (f : List FaultRec) : Expansion := ⟨f, [], [], [], 0, [], none⟩
  match g.object m.obj with
  | none => none' [recFault m.recAddr 2 0]
  | some o =>
    if busy then none' [recFault m.recAddr 2 0]
    else if m.lanes = 0 ∨ 16 < m.lanes then none' [recFault m.recAddr 2 16]
    else
      let h := o.hdr
      let w := objLeafWords o
      let n := hdrNout h
      let st := s.stepCount m g h
      let t1 := m.beginAt + 1 + w
      let t2 := t1 + st
      let place (a i : Nat) : Nat × Nat := (localPlace m.core (a + 128 * i)).getD (m.core, 0)
      let reads := (List.range w).map (fun i => (place m.leafAt i, m.beginAt + 1 + i, i))
      let outs := if m.toQ then [] else (List.range n).map (fun k => (place m.outAt k, t2 + k, k))
      let pages := if hdrPaged h then (List.range o.pages.length).map (fun p => s.pageOps m h p ((o.pages[p]?).getD 0)) else []
      { faults := s.ownFaults m (wordAddrs m.leafAt (128 * w) ++ (if m.toQ then [] else wordAddrs m.outAt (128 * n)))
        uses := reads.map (fun r => ⟨r.1.1, r.1.2, r.2.1, false⟩) ++ outs.map (fun r => ⟨r.1.1, r.1.2, r.2.1, true⟩)
        bursts := pages.flatMap (fun p => p.2.1)
        marks := pages.flatMap (fun p => p.2.2)
        owed := if m.toQ then 0 else 128 * n
        ops :=
          checkOps m (reads.map (fun r => (r.1.1, frameOf r.1.2, r.2.1)))
          ++ reads.map (fun r => ⟨r.2.1, m.id, .rdLocal r.1.1 r.1.2 128 r.2.2 0⟩)
          ++ (List.range st).map (fun i => ⟨t1 + i, m.id, .evalStep⟩)
          ++ pages.flatMap (fun p => p.1)
          ++ (if m.toQ then (List.range n).map (fun k => ⟨t2 + k, m.id, .evalOut k toQueue 0⟩)
              else outs.map (fun r => ⟨r.2.1, m.id, .evalOut r.2.2 r.1.1 r.1.2⟩))
          ++ tagOps m (outs.map (fun r => (r.1.1, frameOf r.1.2, r.2.1)))
        endAt := some (m.beginAt + w + st + n) }

/-- Staged parameters whose update ended before tick `b` enter the parameter store (R232). -/
def Circuit.applyStaged (g : Circuit) (b : Nat) : Circuit :=
  let ready (st : Stage) : Bool := decide (0 < st.endsAt ∧ st.endsAt < b)
  { g.staging.foldl (fun (h : Circuit) p => if ready p.2 then h.heal (paramPlace p.1) else h) g with
    params := g.staging.foldl (fun t p => if ready p.2 then tput t p.1 p.2.value else t) g.params
    staging := g.staging.filter (fun p => !(ready p.2)) }

/-- An evaluate that has begun: the staged parameters are applied, the lane flags cleared (R227). -/
def State.startEval (s : State) (m : Cmd) : State :=
  match s.findCmd m.id with
  | some d =>
    if d.phase = 1 then
      let i := clusterOf m.core
      let g := s.circuit i
      match g.object m.obj with
      | some o => s.setCircuit i { g.applyStaged m.beginAt with lflags := [], run := some ⟨m.id, m.obj, o.hdr, 0, []⟩ }
      | none => s
    else s
  | none => s

/-- The records of the step that begins at record `j`, at most eight where the load check passed them (R226, R237); `fuel` bounds
their number. -/
def stepRecords (g : Circuit) (h : List Word) (fuel j : Nat) : List (Nat × Nat) :=
  match fuel with
  | 0 => []
  | n + 1 =>
    if hdrNrec h ≤ j then []
    else
      let r := (tget g.nodes 0 (nodeAddr h j)).toNat
      (j, r) :: (if ndLast r then [] else stepRecords g h n (j + 1))

/-- Slot `i` of the value store in lane `l`. -/
def Circuit.value (g : Circuit) (i l : Nat) : Nat := (tget g.values 0 (16 * i + l)).toNat

/-- One node in one lane of an evaluate: its result and flags. -/
def nodeLane (g : Circuit) (m : Cmd) (h : List Word) (r l : Nat) : Nat × Flags :=
  let p := ndPar r
  if ndOp r = 1 then
    (leafValue (hdrC40 h)
      (if hdrC40 h then m.bytes p (8 * l) 8 else m.bytes (p / 2) (p % 2 * 64 + 4 * l) 4), flNone)
  else nodeValue (ndOp r) (g.value (ndA r) l) (g.value (ndB r) l) ((tget g.params 0 p).toNat % 2 ^ 40)

/-- The effect of one node's result in one lane: on the state of the engine and on the outputs. -/
def nodeStore (r l : Nat) (v : Nat × Flags) (acc : Circuit × Table (BitVec 64)) : Circuit × Table (BitVec 64) :=
  let g := { acc.1 with lflags := if v.2 = 0 then acc.1.lflags else tput acc.1.lflags l (tget acc.1.lflags 0 l ||| v.2) }
  let w : BitVec 64 := BitVec.ofNat 64 v.1
  if ndOp r = 10 then (g, tput acc.2 (16 * ndPar r + l) w)
  else if opDst (ndOp r) then ({ g.heal (16 * ndDst r + l) with values := tput g.values (16 * ndDst r + l) w }, acc.2)
  else (g, acc.2)

/-- The containers and records a step reads, by place: records, values of the active lanes, and parameters (R341; log entry 8). -/
def stepReads (m : Cmd) (h : List Word) (rs : List (Nat × Nat)) : List Nat :=
  rs.flatMap (fun r =>
    let op := ndOp r.2
    [nodePlace (nodeAddr h r.1)]
    ++ (List.range m.lanes).flatMap (fun l => (if opA op then [16 * ndA r.2 + l] else []) ++ (if opB op then [16 * ndB r.2 + l] else []))
    ++ (if opPar op && op != 1 && op != 10 then [paramPlace (ndPar r.2)] else []))

/-- The next step of an evaluate (R226, R236): its records' index tags are checked; every node reads the state before the step. -/
def State.evalStep (s : State) (m : Cmd) : State :=
  let i := clusterOf m.core
  let g := s.circuit i
  match g.run with
  | none => s
  | some e =>
    let rs := stepRecords g e.hdr (hdrNrec e.hdr) e.rec'
    match rs.find? (fun r => (tget g.tags (BitVec.allOnes 20) (nodeAddr e.hdr r.1)).toNat != r.1) with
    | some r => s.stopCmd m.id 24 (hdrImg e.hdr + 8 * r.1) r.1
    | none =>
      let soft := g.bad.filter (fun w => (stepReads m e.hdr rs).contains w.place)
      match soft.find? (fun w => !w.fixable) with
      | some w => s.stopCmd m.id 34 w.place 4
      | none =>
        let vs := rs.flatMap (fun r => (List.range m.lanes).map (fun l => (r.2, l, nodeLane g m e.hdr r.2 l)))
        let z := vs.foldl (fun acc v => nodeStore v.1 v.2.1 v.2.2 acc) (g, e.outs)
        let s1 := soft.foldl (fun s w => s.corrected (1024 + i) 0 4 (BitVec.ofNat 64 w.place)) s
        s1.setCircuit i { soft.foldl (fun g w => g.heal w.place) z.1 with run := some { e with rec' := e.rec' + rs.length, outs := z.2 } }

/-- The container of one lane of an output (R229). -/
def resContainer (res x : Nat) (fl : Flags) : Nat :=
  match res with
  | 0 => x % 2 ^ 40
  | 1 =>
    let c := convert 3 4 .rn (x % 2 ^ 40)
    c.1 + (fl ||| c.2).toNat * 2 ^ 32
  | _ =>
    let l := match fdecode fmtC x with
      | .nan _ _ => 0x7FC00000
      | .inf _ => 0x7F800000
      | .fin _ q => if qIsZero q then 0xFF800000 else rnF (log2Q (qAbs q))
    l + bitsAt x 39 1 * 2 ^ 32

/-- Output `k` leaves the engine: to scratchpad, or to QC, which is full at 16 entries held and on their way (R229, R230). -/
def State.evalOut (s : State) (m : Cmd) (k core addr : Nat) : State :=
  let g := s.circuit (clusterOf m.core)
  match g.run with
  | none => s
  | some e =>
    let word := (List.range m.lanes).foldr (fun l acc =>
      acc + resContainer m.res (tget e.outs 0 (16 * k + l)).toNat (tget g.lflags 0 l) * 2 ^ (64 * l)) 0
    if core = toQueue then
      match s.owner m.core m.ctx m.lx with
      | some c =>
        if 16 ≤ c.qc.length + c.qcPend.length then s.stopCmd m.id 28 0 k
        else s.modOwner m.core m.ctx m.lx (fun c => { c with qcPend := c.qcPend ++ [⟨s.now + 4, BitVec.ofNat 1024 word⟩] })
      | none => s
    else s.writeBytes m core addr 128 word

/-- A record enters node memory with its index tag (R236, R238). -/
def Circuit.putNode (g : Circuit) (a : Nat) (rec' : BitVec 64) (tag : BitVec 20) : Circuit :=
  { (g.heal (nodePlace a)) with nodes := tput g.nodes a rec', tags := tput g.tags a tag }

/-- Records of a page reach the window of their object with their index tags, whatever has become of the evaluate (R236). -/
def State.landRecords (s : State) (m : Cmd) (base win j n slot off : Nat) : State :=
  let i := clusterOf m.core
  s.setCircuit i ((List.range n).foldl (fun (g : Circuit) r =>
    g.putNode (base + (j + r) % Nat.max 1 win) (BitVec.ofNat 64 (m.bytes slot (off + 8 * r) 8)) (BitVec.ofNat 20 (j + r))) (s.circuit i))

/-- A micro-operation of an evaluate. -/
def State.runEval (s : State) (m : Cmd) (a : EAct) : State :=
  match a with
  | .evalStep => s.evalStep m
  | .evalOut k c x => s.evalOut m k c x
  | .landRecords base win j n slot off => s.landRecords m base win j n slot off
  | a => s.runShared m a

def execCircuitEvaluate (id : Nat) (s : State) : Result :=
  .next (match s.findCmd id with
    | some m => if m.beginsNow s.now then (s.begin m (s.evalExpansion m)).startEval m else s.runNext m State.runEval
    | none => s)

/-- Whether a micro-operation belongs to the page channel. -/
def EAct.isPage (a : EAct) : Bool := match a with
  | .rdDram _ _ _ _ _ _ _ _ | .badVa _ _ | .landRecords _ _ _ _ _ _ => true
  | _ => false

/-- The page channel's next micro-operation of an evaluate (R236). -/
def execPageFetch (id : Nat) (s : State) : Result :=
  .next (match s.findCmd id, s.dueOf' (fun e => e.cmd == id && e.act.isPage) with
    | some m, some e => { s with eops := dropEq e s.eops }.runEval m e.act
    | _, _ => s)

/-! ## Parameter updates (R231) -/

/-- The expansion of an update. -/
def State.updateExpansion (s : State) (m : Cmd) : Expansion :=
  let src := bitsAt m.c1 0 32
  let first := bitsAt m.c1 32 12
  let count := bitsAt m.c1 44 13
  let n := ceilDiv count 16
  let place (i : Nat) : Nat × Nat := (localPlace m.core (src + 128 * i)).getD (m.core, 0)
  let reads := (List.range n).map (fun i => (place i, m.beginAt + 1 + i, i))
  { faults := s.ownFaults m (wordAddrs src (128 * n))
    uses := reads.map (fun r => ⟨r.1.1, r.1.2, r.2.1, false⟩)
    bursts := []
    marks := []
    owed := 0
    ops :=
      checkOps m (reads.map (fun r => (r.1.1, frameOf r.1.2, r.2.1)))
      ++ reads.flatMap (fun r => [⟨r.2.1, m.id, .rdLocal r.1.1 r.1.2 128 r.2.2 0⟩,
          ⟨r.2.1, m.id, .stage r.2.2 (first + 16 * r.2.2) (Nat.min 16 (count - 16 * r.2.2))⟩])
    endAt := some (m.beginAt + n) }

/-- Containers of a buffer word enter staging (R231). -/
def State.stageWord (s : State) (m : Cmd) (slot first n : Nat) : State :=
  let i := clusterOf m.core
  let g := s.circuit i
  s.setCircuit i { g with
    staging := (List.range n).foldl (fun t k => tput t (first + k) ⟨BitVec.ofNat 64 (m.bytes slot (8 * k) 8), m.id, m.endAt.getD 0⟩) g.staging }

/-- A micro-operation of an update. -/
def State.runUpdate (s : State) (m : Cmd) (a : EAct) : State :=
  match a with
  | .stage slot first n => s.stageWord m slot first n
  | a => s.runShared m a

def execParameterUpdate (id : Nat) (s : State) : Result := .next (s.command id s.updateExpansion State.runUpdate)

/-! ## The load check (R234 to R237) -/

/-- The fields of a record are admitted (R223, R237). -/
def recordOk (h : List Word) (r : Nat) : Bool :=
  let op := ndOp r
  decide (1 ≤ op ∧ op ≤ 10) && bitsAt r 56 8 == 0
  && (opDst op || ndDst r == 0) && (opA op || ndA r == 0) && (opB op || ndB r == 0) && (opPar op || ndPar r == 0)
  && (op != 1 || decide (ndPar r < hdrNleaf h)) && (op != 10 || decide (ndPar r < hdrNout h))

/-- The slots a record reads. -/
def ndReads (r : Nat) : List Nat := (if opA (ndOp r) then [ndA r] else []) ++ (if opB (ndOp r) then [ndB r] else [])
def ndWrites (r : Nat) : List Nat := if opDst (ndOp r) then [ndDst r] else []
def ndOuts (r : Nat) : List Nat := if ndOp r = 10 then [ndPar r] else []

/-- A list holds no element twice. -/
def noTwice (l : List Nat) : Bool := match l with
  | [] => true
  | x :: r => !(r.contains x) && noTwice r

/-- The limits within one step (R226); `written` are the slots of earlier steps, `outs` their outputs. -/
def stepOk (rs : List Nat) (written outs : List Nat) : Bool :=
  let reads := rs.flatMap ndReads
  (List.range 8).all (fun b => decide ((reads.filter (fun x => x / 1024 == b)).length ≤ 2))
  && noTwice ((rs.flatMap ndWrites).map (· / 1024))
  && (List.range rs.length).all (fun i => (List.range rs.length).all (fun j =>
      i == j || (ndReads ((rs[i]?).getD 0)).all (fun x => !((ndWrites ((rs[j]?).getD 0)).contains x))))
  && reads.all (fun x => written.contains x)
  && noTwice (rs.flatMap ndOuts) && (rs.flatMap ndOuts).all (fun o => !(outs.contains o))

/-- The records of an object, step by step. -/
def recordsOk (h : List Word) (rs cur written outs : List Nat) : Bool :=
  match rs with
  | [] => cur == [] && outs.length == hdrNout h
  | r :: t =>
    let c := cur ++ [r]
    recordOk h r && decide (c.length ≤ 8) &&
    (if ndLast r then stepOk c written outs && recordsOk h t [] (written ++ c.flatMap ndWrites) (outs ++ c.flatMap ndOuts)
     else recordsOk h t c written outs)

/-- The page entries of a paged object run on in record order from `at'` (R235, R237). -/
def pagesOk (h : List Word) (ps : List Word) (at' start : Nat) : Bool :=
  match ps with
  | [] => at' == hdrNrec h
  | p :: r =>
    let n := bitsAt p.toNat 20 15
    let st := bitsAt p.toNat 35 29
    bitsAt p.toNat 0 20 == at' && decide (1 ≤ n ∧ n ≤ hdrNwin h) && decide (start ≤ st) && pagesOk h r (at' + n) st

/-- The header is admitted (R234). -/
def headerOk (h : List Word) : Bool :=
  bitsAt (wordAt h 0) 22 42 == 0 && decide (1 ≤ hdrNrec h) && bitsAt (wordAt h 1) 55 9 == 0
  && decide (1 ≤ hdrNleaf h ∧ hdrNleaf h ≤ 4096) && decide (1 ≤ hdrNout h ∧ hdrNout h ≤ 4096)
  && decide (1 ≤ hdrNwin h ∧ hdrNwin h ≤ 16384 ∧ hdrNbase h + hdrNwin h ≤ 16384)
  && bitsAt (wordAt h 2) 56 8 == 0 && bitsAt (wordAt h 3) 6 58 == 0 && decide (hdrNpage h ≤ 56)
  && [4, 5, 6, 7].all (fun i => wordAt h i == 0)
  && (if hdrPaged h then hdrImg h % 128 == 0 else decide (hdrNrec h ≤ hdrNwin h) && hdrNpage h == 0 && hdrImg h == 0)

/-- An image is accepted for object `i` of a circuit engine (R237). -/
def Circuit.accepts (g : Circuit) (i : Nat) (h pages : List Word) (recs : List Nat) : Bool :=
  headerOk h
  && (!(hdrPaged h) || pagesOk h pages 0 0) && recordsOk h recs [] [] []
  && g.dir.all (fun p => p.1 == i || decide (hdrNbase p.2.hdr + hdrNwin p.2.hdr ≤ hdrNbase h)
      || decide (hdrNbase h + hdrNwin h ≤ hdrNbase p.2.hdr))
  && (match g.run with
      | some e => e.obj != i
      | none => true)

/-- The engine with an accepted image installed: its entry, records and tags in one tick (R238). -/
def Circuit.install (g : Circuit) (i : Nat) (h pages : List Word) (recs : List Nat) : Circuit :=
  let g1 := { g with dir := tput g.dir i ⟨h, pages⟩ }
  if hdrPaged h then g1
  else (List.range recs.length).foldl (fun (g : Circuit) j =>
    g.putNode (nodeAddr h j) (BitVec.ofNat 64 ((recs[j]?).getD 0)) (BitVec.ofNat 20 j)) g1

end Sys2Proof.Machine
end

