-- ==== Sys2Proof/Machine/Control.lean ====
section
/-! DEFINITION. The control slot: targets, transfers, loops, masks, waits, budget, traps, halt and system operations
(R57, R88 to R111), and the nops of every slot (R56, R61). -/

namespace Sys2Proof.Machine

def execNop (u : SlotName) (s : State) : Result := guarded (.nop u) s s

def execMemNop (u : MemUnit) (s : State) : Result := guarded (.memNop u) s s

/-- Puts a B register's target into flight; it is valid 6 ticks later (R92). -/
def State.prepare (s : State) (b : BitVec 3) (target : BitVec 16) : State :=
  s.fly [s.flight 6 0 (.b b.toNat) (target.setWidth 1024) (lowMask 16) 0]

def execPrep (b : BitVec 3) (disp : BitVec 12) (s : State) : Result :=
  guarded (.prep b disp) s (s.prepare b (s.cur.pc + disp.signExtend 16))

def execPrepr (b : BitVec 3) (q : BitVec 5) (s : State) : Result :=
  guarded (.prepr b q) s (s.prepare b ((s.sel .c q).setWidth 16))

/-- Takes a transfer: the outcome governs the tags, and the next word is the target of the register it names (R93). -/
def State.transfer (s : State) (o : Nat × Option Nat) : State :=
  { s with iss := { s.iss with
    outcome := o.1
    next := match o.2 with
      | some b => tget s.cur.bT 0 b
      | none => s.cur.pc + 1 } }

def execXfer (bt : BitVec 3) (n1 : BitVec 2) (pb pol : BitVec 4) (s : State) : Result :=
  guarded (.xfer bt n1 pb pol) s (s.transfer (transferOf s.cur (.xfer bt n1 pb pol)))

def execGo (b : BitVec 3) (s : State) : Result := guarded (.go b) s (s.transfer (transferOf s.cur (.go b)))

def execLoop (lvl : BitVec 2) (q : BitVec 5) (s : State) : Result :=
  guarded (.loop lvl q) s (s.fly [
    s.flight 1 0 (.lc lvl.toNat) (((s.sel .c q).setWidth 32).setWidth 1024) (lowMask 32) 0,
    s.flight 1 0 (.lsw lvl.toNat) ((s.cur.pc + 1).setWidth 1024) (lowMask 16) 0])

def execLdelta (lvl : BitVec 2) (a : BitVec 4) (q : BitVec 5) (s : State) : Result :=
  guarded (.ldelta lvl a q) s
    (s.fly [s.flight 1 0 (.delta lvl.toNat a.toNat) (((s.sel .c q).setWidth 32).setWidth 1024) (lowMask 32) 0])

def execLdk (k : BitVec 3) (q : BitVec 5) (half : BitVec 1) (s : State) : Result :=
  guarded (.ldk k q half) s
    (let sh := 64 * half.toNat
     s.fly [s.flight 1 0 (.k k.toNat) ((s.sel .c q).setWidth 1024 <<< sh) (lowMask 64 <<< sh) 0])

/-- Asks for a wait at the end of the bundle (R103, R104). -/
def State.askWait (s : State) (w : WaitReq) : State := { s with iss := { s.iss with wait := some w } }

/-- A barrier of a core. -/
def Core.barrier (k : Core) (b : Nat) : Barrier := tget k.barriers Barrier.reset b

def execWaitBarrier (b : BitVec 5) (s : State) : Result :=
  guarded (.waitBarrier b) s (s.askWait (.cond (.barrier b.toNat ((s.core s.iss.core).barrier b.toNat).gen)))

def execWaitQueue (q : BitVec 2) (s : State) : Result := guarded (.waitQueue q) s (s.askWait (.cond (.queue q.toNat)))

def execWaitTick (q : BitVec 5) (s : State) : Result := guarded (.waitTick q) s (s.askWait (.cond (.tick (s.sel .c q))))

def execWaitEngine (cls : BitVec 3) (s : State) : Result := guarded (.waitEngine cls) s (s.askWait (.engine cls.toNat))

def execBudr (d : Dst) (s : State) : Result := guarded (.budr d) s (s.scalarResult .c d 1 s.cur.bud)

def execTrap (code : BitVec 8) (s : State) : Result :=
  guarded (.trap code) s { s with iss := { s.iss with trap := some code.toNat } }

def execHalt (s : State) : Result := guarded .halt s { s with iss := { s.iss with halt := true } }

/-- A trace record (R111). -/
def traceRecord (now x : Nat) (v : Word) : BitVec 128 :=
  BitVec.ofNat 128 (now % 2 ^ 64 * 2 ^ 64 + x % 4 * 2 ^ 62 + v.toNat % 2 ^ 48)

def execTmark (q : BitVec 5) (s : State) : Result :=
  guarded (.tmark q) s (s.modCore s.iss.core (fun k =>
    let l := k.trace ++ [traceRecord s.now s.iss.ctx (s.sel .c q)]
    { k with trace := l.drop (l.length - 256) }))

/-- A host signal waits for the context's earlier accesses, then it is posted (R111, R219). -/
def execHsig (q : BitVec 5) (s : State) : Result :=
  guarded (.hsig q) s
    { s with nextId := s.nextId + 1, hsigs := s.hsigs ++ [⟨s.nextId, s.now, s.iss.core, s.iss.ctx, s.cur.lx, s.sel .c q⟩] }

end Sys2Proof.Machine
end

