-- ==== Sys2Proof/Machine/Issue.lean ====
section
/-! DEFINITION. The issue of bundles (R9 to R16, R25 to R27, R89 to R100, R104 to R110, R263): the selector, a bundle's checks,
its end, drains, waits and the budget. -/

namespace Sys2Proof.Machine

/-! ## Waits (R103, R104) -/

/-- The condition of a wait of a context, live or saved, holds as the state stands. -/
def State.condOf (s : State) (core : Nat) (c : Ctx) (w : WaitCond) : Bool :=
  match w with
  | .barrier b g0 => (tget (s.core core).barriers Barrier.reset b).gen != g0
  | .queue q => c.queueReady q
  | .tick v => decide (v.toNat ≤ s.now)
  | .engine ids => s.cmdsEnded ids

/-- The condition of a wait of the context that stands on its core. -/
def State.condMet (s : State) (core ctx : Nat) (w : WaitCond) : Bool := s.condOf core (s.ctx core ctx) w

/-- Whether a blocked context becomes ready in this tick: its condition holds, or held while it was in service or saved (R105). -/
def State.waitDue (s : State) (core ctx : Nat) : Bool :=
  let c := s.ctx core ctx
  match c.status with
  | .waiting w issued met => c.runs && decide (issued < s.now) && (met || s.condMet core ctx w)
  | _ => false

/-- Whether the condition of a blocked context that does not run, in service, stopped or saved, is met in this tick (R105). -/
def State.metAway (s : State) (core : Nat) (saved : Bool) (c : Ctx) : Bool :=
  match c.status with
  | .waiting w issued met => (saved || !c.runs) && !met && decide (issued < s.now) && s.condOf core c w
  | _ => false

/-- The same of either context of a number. -/
def State.awayDue (s : State) (core ctx : Nat) : Bool :=
  s.metAway core false (s.ctx core ctx) || (s.core core).saved.any (fun p => p.1 == ctx && s.metAway core true p.2)

/-- A blocked context whose condition counts as met when it resumes. -/
def Ctx.noteMet (c : Ctx) : Ctx := match c.status with
  | .waiting w issued _ => { c with status := .waiting w issued true }
  | _ => c

def execWaitMet (core ctx : Nat) (s : State) : Result :=
  .next (if s.waitDue core ctx then
      let delay := if (s.core core).lastCtx = some ctx then 1 else 2
      s.modCtx core ctx (fun c => { c with status := .ready s.now delay true })
    else if s.metAway core false (s.ctx core ctx) then s.modCtx core ctx Ctx.noteMet
    else if (s.core core).saved.any (fun p => p.1 == ctx && s.metAway core true p.2) then
      s.modCore core (fun k => { k with
        saved := k.saved.map (fun p => if p.1 = ctx ∧ s.metAway core true p.2 then (p.1, p.2.noteMet) else p) })
    else s)

/-! ## Drains (R96) -/

/-- Whether a result counts for a drain: all but matrix-array outputs and writes to memory, the HCW window and registers of the
array and generator window among them (R96). A write of GSEL counts, a row of the latches and an automatic change of ALAT do not: they
stand in neither list of R96 (log entry 68). -/
def Flight.counted (f : Flight) : Bool :=
  match f.dest with
  | .slice _ _ | .latch _ | .vs | .v _ | .k _ | .p | .b _ | .a _ | .lc _ | .lsw _ | .delta _ _ | .fmt | .gsel => true
  | .e _ | .hcw _ _ | .areg _ | .wrow _ _ | .none => false

/-- The issue tick of the bundle after a draining one. -/
def drainTick (now : Nat) (fs : List Flight) : Nat :=
  fs.foldl (fun d f => if f.counted then Nat.max d f.land else d) (now + 1)

/-- Whether a drain ends in this tick. -/
def State.drainDue (s : State) (core ctx : Nat) : Bool :=
  let c := s.ctx core ctx
  match c.status with
  | .draining d => c.runs && decide (d ≤ s.now)
  | _ => false

def execDrainingBranch (core ctx : Nat) (s : State) : Result :=
  .next (if s.drainDue core ctx then s.modCtx core ctx (fun c => { c with status := c.goOn }) else s)

/-! ## The budget (R106, R107) -/

/-- Whether the present tick is a waiting tick of a context; those of a wait count in service and until a pre-emption has saved the
context too (R106, R277, R279). -/
def State.waitingTick (s : State) (core ctx : Nat) : Bool :=
  let k := s.core core
  let c := k.ctx ctx
  c.bcast != 2 &&
  (match c.status with
   | .waiting _ issued _ => decide (issued < s.now)
   | .ready _ _ counts => counts && k.issuedAt != some s.now
   | .draining _ | .fencing _ => c.runs && k.issuedAt != some s.now
   | _ => false)

/-- A waiting tick adds one to WACC. -/
def Ctx.countWait (c : Ctx) : Ctx :=
  if c.wacc = 255 then { c with wacc := 0, wrapDue := true } else { c with wacc := c.wacc + 1 }

/-- The members of a broadcast gang on this module: core and delay, their gang rank times SKEW; rank 0 is the lead (R258, R263). -/
def State.members (s : State) (lx : Nat) : List (Nat × Nat) :=
  match s.findLaunch lx with
  | some l => ((List.range (l.ncore + 1)).map (fun i => (l.fcore + i, (l.modix * (l.ncore + 1) + i) * l.skew))).filter
      (fun m => m.1 != l.fcore || l.modix != 0)
  | none => []

/-- Hands a word, or a waiting tick, of the lead's tick `at'` to the members on this module. -/
def State.handOut (s : State) (ctx lx at' : Nat) (b : BWord) : State :=
  (s.members lx).foldl (fun s m =>
    s.modOwner m.1 ctx lx (fun c => { c with bq := c.bq ++ [{ b with tick := at' + m.2 }] })) s

/-- What another module's members are told of a word of tick `t` (log entry 46). -/
def BWord.packed (b : BWord) (t lid : Nat) : Word :=
  BitVec.ofNat 64 (b.word.toNat + b.pc.toNat * 2 ^ 16 + b.outcome % 8 * 2 ^ 32 + (if b.wait then 2 ^ 35 else 0) + t % 2 ^ 12 * 2 ^ 36
    + lid % 2 ^ 16 * 2 ^ 48)

/-- The word that such a message hands over, and the lead's tick of it, the latest one that fits. -/
def leadWord (now v : Nat) : BWord × Nat :=
  (⟨0, bitAt v 35, BitVec.ofNat 16 (bitsAt v 0 16), BitVec.ofNat 16 (bitsAt v 16 16), bitsAt v 32 3⟩,
    now - (now + 2 ^ 12 - bitsAt v 36 12) % 2 ^ 12)

/-- Hands a word, or a waiting tick, of the lead to its members, those of other modules by a message. -/
def State.broadcast (s : State) (ctx lx : Nat) (b : BWord) : State :=
  let s1 := s.handOut ctx lx s.now b
  match s.findLaunch lx with
  | some l => if l.nmod = 0 then s1 else s1.tell 15 5 (b.packed s.now l.lid)
  | none => s1

/-- Counts the waiting ticks of one context: its own, or those its lead handed to it. -/
def State.countCtx (s : State) (core ctx : Nat) : State :=
  let c := s.ctx core ctx
  if s.waitingTick core ctx then
    let s1 := s.modCtx core ctx Ctx.countWait
    if c.bcast = 1 then s1.broadcast ctx c.lx ⟨0, true, 0, 0, 0⟩ else s1
  else match c.bq with
    | b :: r => if c.runs && !c.bheld && b.wait && decide (b.tick ≤ s.now) then
        s.setCtx core ctx { c.countWait with bq := r } else s
    | [] => s

/-- Counts the waiting ticks of this tick, once. -/
def State.countWaits (s : State) : State :=
  let s1 := s.cores.foldl (fun s p => p.2.ctxs.foldl (fun s q => s.countCtx p.1 q.1) s) s
  { s1 with counted := true }

/-- A wrap of WACC takes one from BUD; a BUD of 0, which waits for its trap, stays (log entry 45). -/
def Ctx.spendWrap (c : Ctx) : Ctx := { c with bud := if c.bud = 0 then 0 else c.bud - 1, wrapDue := false }

def execWaccWrap (core ctx : Nat) (s : State) : Result :=
  .next (if (s.ctx core ctx).wrapDue then s.modCtx core ctx Ctx.spendWrap else s)

/-- Whether a context takes the budget trap in this tick: before its next bundle, or in the tick a wait spends the last
unit (R107). -/
def State.budgetDue (s : State) (core ctx : Nat) : Bool :=
  let k := s.core core
  let c := k.ctx ctx
  c.bud == 0 && c.runs && !(c.stops.any (fun p => p.2.code == 0 && p.2.kind == 3))
  && !(k.issuedAt == some s.now && k.lastCtx == some ctx)
  && (match c.status with
      | .empty | .banks | .halted => false
      | _ => true)

def execBudgetTrap (core ctx : Nat) (s : State) : Result :=
  .next (if s.budgetDue core ctx then s.addStop core ctx s.now ⟨0, 3, 0, 0, 0⟩ else s)

/-! ## The selector (R9, R104, R261, R263) -/

/-- Of two contexts that have issued nothing since S, the second one's launch starts in the same tick and was admitted later (R261). -/
def State.startsBefore (s : State) (c d : Ctx) : Bool :=
  c.fresh && d.fresh && (match s.findLaunch c.lx, s.findLaunch d.lx with
    | some l, some m => l.lx != m.lx && l.start == m.start && decide (l.order < m.order)
    | _, _ => false)

/-- Whether a ready context asks for the issue slot in this tick. One that is still inside the delay of R104 does not, and one with a
shorter delay may pass it on an idle core (R9, R104; log entry 79). -/
def State.readyNow (s : State) (core ctx : Nat) : Bool :=
  let c := s.ctx core ctx
  match c.status with
  | .ready since delay _ => c.runs && c.bcast != 2 && decide (since + delay ≤ s.now)
  | _ => false

/-- The tick from which a context is ready; in a drain or a fence, the tick it was resumed in it. -/
def Ctx.since (c : Ctx) : Nat := match c.status with
  | .ready t _ _ => t
  | _ => c.backAt.getD 0

/-- A context that was resumed in a drain or a fence contends for the issue slot as a ready one, though it has still to leave ticks
empty, and so does one whose wait is met while the fence of the wait's bundle does not hold yet (R9, R183, R273, R280; log entry 44). -/
def State.contends (s : State) (core x : Nat) : Bool :=
  let c := s.ctx core x
  s.readyNow core x || (match c.status with
    | .draining _ | .fencing _ => c.runs && c.bcast != 2 && c.backAt.isSome
    | _ => false)

/-- How long a context counts as ready before the selector: one tick longer than one of a launch with the same S that was admitted
later and waits beside it (R9, R261). Smaller goes first. -/
def State.readyKey (s : State) (core x : Nat) : Nat :=
  let c := s.ctx core x
  c.since + 4 - ([0, 1, 2, 3].filter (fun y => s.readyNow core y && s.startsBefore c (s.ctx core y))).length

/-- Whether a member of a broadcast gang issues in this tick. -/
def State.memberNow (s : State) (core ctx : Nat) : Bool :=
  let c := s.ctx core ctx
  c.bcast == 2 && c.runs && !c.bheld
  && (match c.status with
      | .issuing | .ready _ _ _ => true
      | _ => false)
  && (match c.bq with
      | b :: _ => !b.wait && decide (b.tick ≤ s.now)
      | [] => false)

/-- A context that the selector chooses has still to leave this tick empty: its fence does not hold, or its drain is not over. -/
def State.mustWait (s : State) (core x : Nat) : Bool :=
  let c := s.ctx core x
  match c.status with
  | .ready _ _ _ => !(c.fenceLater.all (s.fenceOk core x))
  | .draining _ | .fencing _ => true
  | _ => false

/-- Such a context takes the issue slot and issues nothing yet: its empty ticks move the issue to no other context (R9, R183). -/
def Ctx.takeSlot (c : Ctx) : Ctx := { c with
  status := match c.status with
    | .ready _ _ _ => .fencing c.fenceLater
    | st => st
  fenceLater := [], backAt := none }

/-- The context that has the issue slot of a core in this tick or is chosen for it, if any. A launch whose S falls into the two ticks
after a block, or into the empty ticks of a drain or a fence, waits for them as any other (R9, R198; log entry 87). -/
def State.selectCtx (s : State) (core : Nat) : Option Nat :=
  let k := s.core core
  let xs := [0, 1, 2, 3]
  let st (x : Nat) : CtxStatus := (k.ctx x).status
  if k.issuedAt = some s.now ∨ s.now < k.issueFrom then none
  else match xs.find? (fun x => (k.ctx x).runs && (k.ctx x).bcast != 2 && st x == .issuing) with
    | some x => some x
    | none =>
      if xs.any (fun x => (k.ctx x).runs && (k.ctx x).holdsSlot && st x != .issuing) then none
      else match xs.find? (s.memberNow core) with
        | some x => some x
        | none => xs.foldl (fun best x => if s.contends core x then (match best with
            | none => some x
            | some b => if s.readyKey core x < s.readyKey core b then some x else some b) else best) none

/-! ## A bundle's issue (R12 to R16, R19, R71, R94) -/

/-- The literal of an issue word, sign-extended (R12). -/
def wordLit (w : BitVec 16) : Word := BitVec.ofNat 64 (ofSigned 64 (toSigned 7 w.toNat))
def wordIndex (w : BitVec 16) : Nat := bitsAt w.toNat 7 9

/-- Whether a word lies in a context's window (R13). -/
def Ctx.inWindow (c : Ctx) (pc : BitVec 16) : Bool :=
  decide (c.ibase.toNat ≤ pc.toNat) && decide (pc.toNat < c.ibase.toNat + c.ilim.toNat)

/-- The faults of a pop mask that pops an empty queue (R19). -/
def popFaults (c : Ctx) (pop : BitVec 4) : List FaultRec :=
  [0, 1, 2, 3].filterMap (fun q => if pop.getLsbD q then c.emptyFault q else none)

/-- Lands every flight of a context due in this tick; `fuel` bounds their number. -/
def State.landAll (s : State) (core ctx fuel : Nat) : State :=
  match fuel with
  | 0 => s
  | n + 1 =>
    match (s.ctx core ctx).nextDue s.now with
    | some f => (s.landFlight core ctx f).landAll core ctx n
    | none => s

/-- The context as its next bundle sees it: replayed results land from this tick (R273). -/
def State.withReplay (s : State) (core ctx : Nat) : State :=
  let c := s.ctx core ctx
  if c.shadow.isEmpty && c.shadowRows.isEmpty then s
  else (s.modCore core (fun k => k.replay ctx s.now)).landAll core ctx (c.shadow.length + c.flights.length)

/-- The latch of a bundle about to issue. -/
def issueOf (core ctx : Nat) (word : BitVec 16) (e : Entry) (pc : BitVec 16) (outcome : Nat) : Issue :=
  { Issue.reset with core := core, ctx := ctx, word := word, lit := wordLit word, entry := e, outcome := outcome, next := pc + 1 }

/-- The word a context issues next, with its index, as instruction memory stands in the issue tick (log entry 60): a member's comes
from the lead (R263). -/
def State.nextWord (s : State) (core : Nat) (c : Ctx) : BitVec 16 × BitVec 16 :=
  match c.bcast, c.bq with
  | 2, b :: _ => (b.word, b.pc)
  | _, _ => (tget (s.core core).imem 0 c.pc.toNat, c.pc)

/-- The slots of the bundle in the latch that execute. -/
def State.bundleSlots (s : State) (member : Bool) : List Instr :=
  ((decodeSlots s.iss.entry allSlots).getD []).filter (fun i => slotRuns i s && !(member && isTransfer i))

/-- The A registers that a header's loop end reads when it goes round, among the spoiled places of the context (R99, R341). -/
def State.loopBad (s : State) (c : Ctx) : List BadWord :=
  let n := hdrLend s.iss.entry
  if n ≠ 0 ∧ 1 < (tget c.lc 0 (n - 1)).toNat then
    (s.core s.iss.core).bad.filter (fun w => w.struct == 1 && w.ctx == s.iss.ctx && decide (330 ≤ w.place) && decide (w.place < 346))
  else []

/-- All faults of the bundle. -/
def State.bundleCheck (s : State) (c : Ctx) (member : Bool) : List FaultRec :=
  bundleFaults s (s.bundleSlots member) ++ popFaults c (hdrPop s.iss.entry)
  ++ ((s.loopBad c).filter (fun w => !w.fixable)).map (fun w => bfault 34 w.place 1)

/-- The word and the entry of a bundle are read, whether it issues or faults: a shadow copy corrects their parity (R341). -/
def State.fixFetch (s : State) (iss : Issue) (member : Bool) (pc : BitVec 16) : State :=
  s.fixBad iss.core (fun w => w.struct == 3 && ((!member && w.place == pc.toNat)
    || (w.ctx == iss.ctx && w.place == 2 ^ 16 + wordIndex iss.word)))

/-- What the issue of a bundle reads is corrected: its word and entry, and the reads of its header and slots (R341). -/
def State.fixBundle (s : State) (c : Ctx) (member : Bool) (pc : BitVec 16) : State :=
  let s1 := s.fixFetch s.iss member pc
  (s1.bundleSlots member).foldl (fun s i => s.fixReads i) (s1.fixBad s.iss.core (fun w => (s1.loopBad c).contains w))

/-- A bundle's fault before it issues: the first of the window, the entry's validity, and its checks with some more (R13, R15, R270). -/
def State.faultWith (s : State) (c : Ctx) (member : Bool) (pc : BitVec 16) (more : List FaultRec) : Option FaultRec :=
  let idx := wordIndex s.iss.word
  if !member && !(c.inWindow pc) then some (bfault 2 pc.toNat (pack2 c.ibase.toNat c.ilim.toNat))
  else if !(c.hcwValid.getLsbD idx) then some (bfault 1 0 idx)
  else lowestFault (s.bundleCheck c member ++ more)

/-- The outcome a bundle takes: its own transfer's, or the lead's (R26, R263). -/
def Ctx.outcomeOf (c : Ctx) (e : Entry) : Nat :=
  match c.bcast, c.bq with
  | 2, b :: _ => b.outcome
  | _, _ => match toOpt (decodeSlot .c (slotBits e .c)) with
    | some i => (transferOf c i).1
    | none => 5

/-- The banks for whose scrub the bundle in the latch stores to the release word (R200, R202). -/
def State.scrubsBegun (s : State) (member : Bool) : List Nat :=
  (s.bundleSlots member).flatMap (fun i => match (memReq s i).bind (barStoreOf s.iss.ctx) with
    | some (none, .release x m) => if s.scrubs s.iss.core x then
        (List.range 32).filter (fun b => m.getLsbD b && (s.core s.iss.core).owns x b) else []
    | _ => [])

/-- The state with the next bundle of a context in the latch. -/
def State.latched (s : State) (core ctx : Nat) : State :=
  let s1 := s.withReplay core ctx
  let c := s1.ctx core ctx
  let w := s1.nextWord core c
  let e := tget c.hcw 0 (wordIndex w.1)
  { s1 with iss := issueOf core ctx w.1 e w.2 (c.outcomeOf e) }

/-- A stop of a context is due and it is not held by an earlier one (R270). -/
def Ctx.stopDue (c : Ctx) (now : Nat) (ok : FaultRec → Bool) : Bool :=
  c.lx != 0 && c.runs && c.stops.any (fun p => decide (p.1 ≤ now) && ok p.2)

/-- The banks whose scrub a bundle of core `d` begins that is still to issue in this tick. -/
def State.scrubsAhead (s : State) (d : Nat) : List Nat :=
  match s.selectCtx d with
  | none => []
  | some x =>
    let t := s.latched d x
    let c := t.ctx d x
    let member := c.bcast == 2
    if s.mustWait d x || (s.core d).ctxs.any (fun q => q.2.stopDue s.now (fun _ => true)) || (t.faultWith c member (t.nextWord d c).2 []).isSome then []
    else t.scrubsBegun member

/-- A scrub goes before every other write that asks for its slot in the tick of its release, be it of a core of lower number or of the
releasing bundle itself (R194, R202; log entry 65). -/
def State.scrubFaults (s : State) (member : Bool) : List FaultRec :=
  (((s.bundleSlots member).flatMap (portReqs s)).filter (fun p => p.write && decide (s.now + 4 ≤ p.tick) && decide (p.tick < s.now + 516)
    && (if p.core = s.iss.core then (s.scrubsBegun member).contains p.bank
        else decide (s.iss.core < p.core) && (s.scrubsAhead p.core).contains p.bank))).map (fun p => bfault 13 p.addr (pack2 p.bank p.tick))

/-- A bundle's fault before it issues. -/
def State.issueFault (s : State) (c : Ctx) (member : Bool) (pc : BitVec 16) : Option FaultRec :=
  s.faultWith c member pc (s.scrubFaults member)

/-- The words that a member holds count from tick `d` on. -/
def Ctx.freeWords (c : Ctx) (d : Nat) : Ctx :=
  if c.bheld then { c with bheld := false, bq := c.bq.map (fun b => { b with tick := b.tick + d }) } else c

/-- The words held by the members of a gang on this module, live or saved, count from tick `d` on (R263, R279). -/
def State.releaseWords (s : State) (ctx lx d : Nat) : State :=
  (s.members lx).foldl (fun s m => s.modOwner m.1 ctx lx (fun c => c.freeWords d)) s

/-- The gang's parts on other modules are told by how many ticks its words are later (R263; log entry 46). -/
def State.tellResume (s : State) (lx d : Nat) : State := match s.findLaunch lx with
  | some l => if l.nmod = 0 then s else s.tell 15 10 (BitVec.ofNat 64 (l.lid % 2 ^ 16 + d * 2 ^ 16))
  | none => s

/-- A lead, live or saved, lets its gang go on after a stop: its members' words count from this tick (R263). -/
def State.releaseMembers (s : State) (core ctx lx : Nat) : State :=
  let s1 := s.releaseWords ctx lx s.now
  match s.owner core ctx lx with
  | some c => if c.bheld then (s1.modOwner core ctx lx (fun c => { c with bheld := false })).tellResume lx (s.now - c.caughtAt) else s1
  | none => s1

/-- A bundle issues: the checks of R13, R15, R19 and of every executing slot are made; on a fault the bundle is not issued and
its context stops in this tick; else its slots stand in the issue latch, BUD falls by one, and DRN stands as its header says until
the context's next bundle (R12, R96, R106, R267). A chosen context that must leave the tick empty takes the slot alone (R9). -/
def execIssueWord (core ctx : Nat) (s : State) : Result :=
  .next (if s.mustWait core ctx then s.modCtx core ctx Ctx.takeSlot else
    let s2 := s.latched core ctx
    let c := s2.ctx core ctx
    let w := s2.nextWord core c
    match s2.issueFault c (c.bcast == 2) w.2 with
    | some f =>
      let s0 := if f.code = 2 then s else s.fixFetch s2.iss (c.bcast == 2) w.2
      (s0.modCore core (fun k => { k with issueFrom := Nat.max k.issueFrom (s.now + 3) })).addStop core ctx s.now f
    | none =>
      let s3 := { (s2.fixBundle c (c.bcast == 2) w.2) with iss := { s2.iss with left := allSlots, checked := true } }
      let s4 := s3.modCore core (fun k => { k with lastCtx := some ctx, issuedAt := some s.now })
      let s5 := s4.modCtx core ctx (fun c => { c with
        status := .issuing, backAt := none, bud := c.bud - 1, again := (0, 0), fenceLater := [], fresh := false, pc := w.2
        drn := hdrDrain s2.iss.entry
        bq := if c.bcast = 2 then c.bq.tail else c.bq })
      if c.bcast = 1 then s5.releaseMembers core ctx c.lx else s5)

/-! ## The end of a bundle -/

/-- The loop end of a header: the flights of its advance and the next word (R99). -/
def loopEnd (s : State) (c : Ctx) (n : Nat) : List Flight × Option (BitVec 16) :=
  let fl (d : Dest) (v : BitVec 32) : Flight := ⟨0, s.now, s.now + 1, 0, d, v.setWidth 1024, lowMask 32, 0⟩
  let lc := tget c.lc 0 n
  if lc.toNat ≤ 1 then ([fl (.lc n) 0], none)
  else
    (fl (.lc n) (lc - 1) :: (List.range 16).map (fun a => fl (.a a) (tget c.a 0 a + tget c.delta 0 (16 * n + a))),
      some (tget c.lsw 0 n))

/-- The header's pops and loop end, and the program counter (R13, R19, R99). -/
def State.endHeader (s : State) : State :=
  let e := s.iss.entry
  let c := s.cur
  let l := if hdrLend e = 0 then ([], none) else loopEnd s c (hdrLend e - 1)
  let pop := hdrPop e
  let s0 := s.modCur (fun c => [0, 1, 2, 3].foldl (fun c q => if pop.getLsbD q then c.pop q else c) c)
  let gone (w : BadWord) : Bool := w.struct == 1 && w.ctx == s.iss.ctx && decide (371 ≤ w.place) && pop.getLsbD (w.place - 371)
  let s1 := s0.modCore s.iss.core (fun k => { k with bad := k.bad.filter (fun w => !(gone w)) })
  (s1.fly l.1).modCur (fun c => { c with pc := l.2.getD s.iss.next })

/-- The condition the wait of the bundle stands for at its end (R103). -/
def State.waitCond (s : State) (w : WaitReq) : WaitCond :=
  match w with
  | .cond c => c
  | .engine cls => .engine ((s.cmds.filter (fun d => d.core == s.iss.core && d.ctx == s.iss.ctx && d.lx == s.cur.lx
      && d.cls == cls && decide (d.phase < 2))).map (·.id))

/-- What the bundle leaves its context in: halted, blocked, held by fences, in a drain, or issuing (R96, R104, R110, R183).
A member of a broadcast gang follows its lead (R263). -/
def State.endStatus (s : State) : State :=
  let c := s.cur
  let core := s.iss.core
  let blockNext (s : State) : State := s.modCore core (fun k => { k with issueFrom := s.now + 3 })
  let d := drainTick s.now c.flights
  let drain := hdrDrain s.iss.entry
  if s.iss.halt then blockNext (s.modCur (fun c => { c with status := .halted }))
  else if c.bcast = 2 then s
  else
    let blocked := match s.iss.wait with
      | some w => !(s.condMet core s.iss.ctx (s.waitCond w))
      | none => false
    if blocked then
      match s.iss.wait with
      | some w => blockNext (s.modCur (fun c => { c with status := .waiting (s.waitCond w) s.now false, fenceLater := s.iss.fence }))
      | none => s
    else if s.iss.fence ≠ [] then
      s.modCur (fun c => { c with
        status := .fencing (s.iss.fence.map (fun f => { f with notBefore := if drain then d else f.notBefore })) })
    else if drain && decide (s.now + 1 < d) then s.modCur (fun c => { c with status := .draining d })
    else s

/-- The end of a bundle whose slots have all run. -/
def State.finishBundle (s : State) : State :=
  let c := s.iss.core
  let x := s.iss.ctx
  let lead := s.cur.bcast == 1
  let s1 := if lead then s.broadcast x s.cur.lx ⟨0, false, s.iss.word, s.cur.pc, s.iss.outcome⟩ else s
  let s2 := s1.endHeader.endStatus
  let s3 := match s.iss.trap with
    | some code => s2.addStop c x (s.now + 1) ⟨33, 3, 0, BitVec.ofNat 64 code, BitVec.ofNat 64 s.cur.pc.toNat⟩
    | none => s2
  { s3 with iss := Issue.reset }

/-- The slot at the front of the latch has run: the next one stands there; after the last the bundle ends. A slot that took a
fault has emptied the latch. -/
def State.retire (s : State) : State :=
  match s.iss.left with
  | [] => s
  | [_] => { s with iss := { s.iss with left := [] } }.finishBundle
  | _ :: r => { s with iss := { s.iss with left := r } }

end Sys2Proof.Machine
end

