-- ==== Sys2Proof/Machine/Traps.lean ====
section
/-! DEFINITION. Stops, service and kills (R265, R267 to R276), pre-emption and restore (R262, R277 to R280), and the release of
contexts and banks (R110, R197 to R202, R260). -/

namespace Sys2Proof.Machine

/-! ## Broadcast gangs stop as one (R263) -/

/-- The cores of a launch on this module. -/
def State.coresOf (s : State) (lx : Nat) : List Nat := match s.findLaunch lx with
  | some l => l.cores
  | none => []

/-- The words a member is still to issue count from the gang's stop at `σ`, and keep their ticks where the lead is on another module,
`σ` 0; the lead remembers the stop. -/
def Ctx.holdWords (c : Ctx) (σ : Nat) : Ctx :=
  if c.bcast = 2 ∧ !c.bheld then { c with bheld := true, bq := c.bq.map (fun b => { b with tick := b.tick - σ }) }
  else if c.bcast = 1 then { c with bheld := true } else c

/-- What has come about in the tick of a stop stands before the stop: a context whose drain is over, or whose fence holds, stands at its
next bundle (R183, R273, R274). -/
def State.settle (s : State) (c x : Nat) : State :=
  match (s.ctx c x).status with
  | .draining d => if d ≤ s.now then s.modCtx c x (fun k => { k with status := k.goOn }) else s
  | .fencing _ => if s.fencesHold c x then s.modCtx c x (fun k => { k with status := k.goOn }) else s
  | .ready _ _ _ =>
    if (s.ctx c x).fenceLater.all (s.fenceOk c x) then s.modCtx c x (fun k => { k with fenceLater := [] }) else s
  | _ => s

/-- From which tick the words of a launch's members count while its gang stands: a lead of another module counts them. -/
def State.holdFrom (s : State) (lx : Nat) : Nat := match s.findLaunch lx with
  | some l => if l.modix = 0 then s.now else 0
  | none => s.now

/-- A context stops with its gang: no fault of its own, and it resumes when the gang does. A lead that has issued in the stop tick
has its next bundle one tick after it. -/
def State.stopPeer (s : State) (c x code : Nat) : State :=
  let k := s.core c
  let c0 := k.ctx x
  let c1 := if c0.bcast = 1 ∧ c0.status = .issuing ∧ k.issuedAt = some s.now ∧ k.lastCtx = some x then
    { c0 with status := .draining (s.now + 1) } else c0
  let b := Nat.max s.now s.pauseTo
  (s.setCore c ((k.setCtx x c1).stopAt x s.now)).modCtx c x (fun k => { k with service := some ⟨s.now, b, b + 512, 0, code, none⟩ })

/-! ## Taking a stop (R267) -/

/-- The supervisor, free again after an update, writes the record that a service owes (R346). -/
def Ctx.owesNow (c : Ctx) (now : Nat) : Bool := match c.service with
  | some v => v.owes.isSome && decide (v.begins ≤ now)
  | none => false

/-- The contexts of a broadcast gang on this module stop as one: with their own stops where they have one, else with the gang. One that
stands still already, in service or saved, holds its words with the others (R263). -/
def State.stopGang (s : State) (lx ctx code : Nat) : State :=
  (s.coresOf lx).foldl (fun s d =>
    let k := s.ctx d ctx
    let s1 :=
      if k.lx ≠ lx ∨ !k.runs then s
      else if k.stopDue s.now (fun _ => true) then (s.settle d ctx).takeStop d ctx
      else (s.settle d ctx).stopPeer d ctx code
    s1.modOwner d ctx lx (fun k => k.holdWords (s.holdFrom lx))) s

/-- Another module's part of a gang learns of the stop (R263; log entry 46). -/
def State.tellStop (s : State) (lx : Nat) : State := match s.findLaunch lx with
  | some l => if l.nmod = 0 then s else s.tell 15 9 (BitVec.ofNat 64 (l.lid + l.modix * 2 ^ 16))
  | none => s

def execFaultStop (core ctx : Nat) (s : State) : Result :=
  .next (
    let c := s.ctx core ctx
    if c.stopDue s.now (fun _ => true) then
      if c.bcast = 0 then (s.settle core ctx).takeStop core ctx
      else
        (s.stopGang c.lx ctx (((c.stops.head?).map (·.2.code)).getD 0)).tellStop c.lx
    else match c.service with
      | some v => match v.owes with
        | some (f, others) =>
          (s.report core ctx v.sigma v.action f others).modCtx core ctx (fun k => { k with service := some { v with owes := none } })
        | none => s
      | none => s)

/-! ## Release and kill (R110, R143, R178, R201, R265) -/

/-- A context that no kernel holds any more: results in flight, queues, table and B registers are empty (R76, R95, R143). -/
def Ctx.cleared (c : Ctx) : Ctx :=
  { c with
    status := .empty, lx := 0, flights := [], shadow := [], shadowRows := [], signals := [], aq := [], aqocc := 0, qg := []
    qc := [], qcPend := [], qm := [], hcw := [], hcwValid := BitVec.allOnes 512, bV := 0, bAgain := [], stops := []
    service := none, wrapDue := false, fenceLater := [], bcast := 0, bq := [], bheld := false, preBy := 0, preAt := 0, backAt := none }

/-- A context, live or saved, waits for a bank: its launch lists it, and it does not own it yet (R197, R198). -/
def State.wantsBank (s : State) (c : Ctx) (owns : Nat → Bool) (b : Nat) : Bool :=
  c.status == .banks && (match s.findLaunch c.lx with
    | some l => bitAt l.banks b
    | none => false) && !(owns b)

/-- How many contexts wait for each bank (R197). -/
def State.countWaitq (s : State) (core : Nat) : State :=
  let k := s.core core
  let one (t : Table Nat) (b : Nat) : Table Nat :=
    let n := ([0, 1, 2, 3].filter (fun x => s.wantsBank (k.ctx x) (k.owns x) b)).length
      + (k.saved.filter (fun p => s.wantsBank p.2 (k.ownsSaved p.1) b)).length
    if n = 0 then t else tput t b n
  s.setCore core { k with waitq := (List.range 32).foldl one [] }

/-- A launch with no context left ends: KIND 3, its channels run the idle plan again, and a retry asked for is made (R260, R276). -/
def State.endIfDone (s : State) (lx : Nat) : State :=
  match s.findLaunch lx with
  | none => s
  | some l =>
    let held := s.cores.any (fun p => p.2.ctxs.any (fun q => q.2.lx == lx) || p.2.saved.any (fun q => q.2.lx == lx))
    if l.phase ≠ 2 ∨ held then s
    else
      let s1 := (s.setLaunch { l with phase := 3 }).postL l 3 0
      let s2 := (List.range 256).foldl (fun s ch => if l.ownsCh 0 ch then s.modChannel 0 ch (fun c => c.endPlan 0 s.now) else s) s1
      let s3 := (List.range 128).foldl (fun s ch => if l.ownsCh 1 ch then s.modChannel 1 ch (fun c => c.endPlan 1 s.now) else s) s2
      if l.wantRetry then
        let st := s3.stream l.stream
        s3.setStream l.stream { st with retry := st.retry ++ [l.descAt] }
      else s3

/-- The image saved under a context number is restored over 512 ticks, from the tick after the running context's release (R262, R280). -/
def Core.beginRestore (k : Core) (x now : Nat) : Core :=
  { k with saved := k.saved.map (fun p => if p.1 = x then (p.1, { p.2 with preBy := 0, preAt := now + 513 }) else p) }

/-- A context is taken from its launch, by its halt or by a kill: banks, array and what it holds in flight go; the signals that a halted
one has deferred are still to come (R110, R182, R265). -/
def State.dropCtx (s : State) (core ctx : Nat) (kill : Bool) : State :=
  let c := s.ctx core ctx
  let scrub := s.scrubs core ctx
  let s1 := s.modCore core (fun k =>
    let k1 := k.markRelease ctx false scrub
    let k2 := if k1.arrayOwner = some ctx then { k1 with arrayOwner := none, array := { k1.array with rows := [] } } else k1
    let owed := if kill then [] else (c.signals.filter (fun d => !d.released)).map (fun d => (ctx, c.lx, d))
    ({ k2 with lateSignals := k2.lateSignals ++ owed }.setCtx ctx c.cleared).beginRestore ctx s.now)
  (s1.countWaitq core).endIfDone c.lx

/-- The commands of a context after its kill: those not begun are cancelled, and the pending bytes of stopped ones are released
(R192, R265). -/
def State.dropCmds (s : State) (core ctx lx : Nat) : State :=
  let mine (m : Cmd) : Bool := m.core == core && m.ctx == ctx && m.lx == lx && (m.phase == 0 || m.phase == 3)
  let s1 := (s.cmds.filter mine).foldl (fun s m => s.addPend m.barrier (· - m.pend)) s
  { s1 with cmds := s1.cmds.filter (fun m => !(mine m)) }

/-- Kills a context of a launch, live or saved (R265). -/
def State.killCtx (s : State) (core ctx lx : Nat) : State :=
  let s1 := s.dropCmds core ctx lx
  if (s1.ctx core ctx).lx = lx then s1.dropCtx core ctx true
  else
    match (s1.core core).saved.find? (fun p => p.1 == ctx && p.2.lx == lx) with
    | none => s1
    | some _ =>
      let scrub := match s1.findLaunch lx with
        | some l => l.scrub
        | none => false
      (s1.modCore core (fun k =>
        let k1 := k.markRelease ctx true scrub
        let arr := if k1.savedBy = some ctx then none else k1.savedArray
        { k1 with saved := tdel k1.saved ctx, savedArray := arr, savedBy := if k1.savedBy = some ctx then none else k1.savedBy })
          |>.countWaitq core).endIfDone lx

/-- The abort of R264, sent to the other modules of a gang. -/
def State.sendAbort (s : State) (l : Launch) : State :=
  if l.nmod = 0 then s
  else s.tell 15 4 (BitVec.ofNat 64 (l.lid + l.modix * 2 ^ 16))

/-- Kills every context of a launch: KIND 6 once, the abort, and the retry where the action asks for one (R275, R276). -/
def State.killLaunch (s : State) (lx code : Nat) (retry : Bool) : State :=
  match s.findLaunch lx with
  | none => s
  | some l =>
    if l.phase ≠ 2 then s
    else
      let s1 := ((s.postL l 6 code).sendAbort l).setLaunch { l with wantRetry := retry }
      l.cores.foldl (fun s c => s.killCtx c l.ctxNo lx) s1

/-- Adds the faults held during a service to MORE of the record of a launch's context, live or saved, and puts their spoiled words right
(R270, R342). -/
def State.addMore (s : State) (core ctx lx : Nat) (held : List FaultRec) : State :=
  (s.modOwner core ctx lx (fun c => { c with record := c.record.set 5 (((c.record[5]?).getD 0) + BitVec.ofNat 64 held.length) })).repairAll
    core ctx held

/-! ## The end of service (R265, R275) -/

/-- The refill of a budget trap. -/
def Ctx.refill (c : Ctx) (l : Option Launch) : Ctx :=
  { c with bud := BitVec.ofNat 64 (match l with
      | some l => l.word 18
      | none => 0), refills := c.refills + 1 }

/-- The service of a context, live or saved, that ends in this tick. -/
def State.serviceDue (s : State) (core ctx : Nat) : Option (Bool × Ctx × Service) :=
  let ok (c : Ctx) : Option Service := match c.service with
    | some v => if v.endsAt ≤ s.now ∧ v.owes.isNone then some v else none
    | none => none
  let c := s.ctx core ctx
  match ok c with
  | some v => some (false, c, v)
  | none => (s.core core).saved.findSome? (fun p => if p.1 = ctx then (ok p.2).map (fun v => (true, p.2, v)) else none)

/-- The lead of a gang on this module stands still and is to go on: not when it has halted or is gone. -/
def State.leadStands (s : State) (ctx lx : Nat) : Bool := match s.findLaunch lx with
  | some l => l.modix == 0 && (match s.owner l.fcore ctx lx with
    | some k => k.bheld && !(k.runs && k.status == .halted)
    | none => false)
  | none => false

/-- A member goes on whose lead has ended: no lead lets the gang go, and the words held count from this tick (R263; log entry 34). -/
def State.memberResumes (s : State) (core ctx : Nat) : State :=
  let c := s.ctx core ctx
  if c.bcast = 2 ∧ c.bheld ∧ !(s.leadStands ctx c.lx) ∧ s.holdFrom c.lx = s.now then
    (s.releaseWords ctx c.lx s.now).tellResume c.lx (s.now - c.caughtAt)
  else s

/-- After a lead's own stop, its members go on from the tick in which its wait or drain does; one that resumes at a bundle lets them
go when it issues (R263). -/
def State.leadResumes (s : State) (core ctx : Nat) : State :=
  let c := s.ctx core ctx
  match c.status with
  | .ready _ _ _ => s
  | _ => if c.bcast = 1 then s.releaseMembers core ctx c.lx else s

def execServiceEnd (core ctx : Nat) (s : State) : Result :=
  .next (match s.serviceDue core ctx with
    | none => s
    | some (saved, c, v) =>
      let l := s.findLaunch c.lx
      let held := (c.stops.filter (fun p => decide (p.1 ≤ s.now))).map (·.2)
      match v.action with
      | 1 => (s.addMore core ctx c.lx held).killLaunch c.lx v.code false
      | 2 => (s.addMore core ctx c.lx held).killLaunch c.lx v.code true
      | 4 =>
        let s1 := s.addMore core ctx c.lx held
        let s2 := match l with
          | some l => s1.postL l 6 0
          | none => s1
        (if c.bcast = 1 then s2.releaseMembers core ctx c.lx else s2).killCtx core ctx c.lx
      | a =>
        let c1 := if a = 3 then c.refill l else c
        if saved then s.modCore core (fun k => { k with saved := tput k.saved ctx { c1 with service := none } })
        else if c.preBy ≠ 0 then s.setCtx core ctx { c1 with service := none }
        else (((s.setCtx core ctx c1).resumeCtx core ctx).leadResumes core ctx).memberResumes core ctx)

/-! ## Pre-emption and restore (R262, R277 to R280) -/

/-- The cores on which a launch's pre-emption is due in this tick. -/
def State.preemptCores (s : State) (lx : Nat) : List Nat :=
  match s.findLaunch lx with
  | some l =>
    if l.phase = 1 ∧ l.victim ≠ 0 ∧ l.start ≤ s.now + 512 then
      l.cores.filter (fun c => (s.ctx c l.ctxNo).lx == l.victim && (s.ctx c l.ctxNo).preBy == 0)
    else []
  | none => []

/-- The victim's contexts stop at σ; one in service has stopped already, and its service goes on (R262, R279). The words of a gang are
held where its lead does not run on. -/
def execPreemption (lx : Nat) (s : State) : Result :=
  .next (match s.findLaunch lx with
    | some l =>
      let cs := s.preemptCores lx
      let hold : Bool := match s.findLaunch l.victim with
        | some v =>
          let k := s.ctx v.fcore l.ctxNo
          v.modix == 0 && (cs.contains v.fcore || !(k.lx == l.victim && k.runs && k.status != .halted))
        | none => false
      cs.foldl (fun s c =>
        let s0 := s.settle c l.ctxNo
        let s1 := if (s.ctx c l.ctxNo).runs then s0.modCore c (fun k => k.stopAt l.ctxNo s.now) else s
        (s1.modCtx c l.ctxNo (fun k => { (if hold then k.holdWords s.now else k) with preBy := lx, preAt := s.now })).countWaitq c) s
    | none => s)

/-- The saved image of a context whose restore ends in this tick. -/
def State.restoreDue (s : State) (core ctx : Nat) : Option Ctx :=
  ((s.core core).saved.find? (fun p => p.1 == ctx && p.2.preBy == 0 && decide (p.2.preAt ≤ s.now))).map (·.2)

def execRestore (core ctx : Nat) (s : State) : Result :=
  .next (match s.restoreDue core ctx with
    | none => s
    | some c =>
      let k := s.core core
      let mine := k.savedBy = some ctx
      let k1 : Core := { k with
        saved := tdel k.saved ctx
        kept := k.kept.filter (fun p => decide (p.2 ≠ ctx + 1))
        array := if mine then k.savedArray.getD k.array else k.array
        savedArray := if mine then none else k.savedArray
        savedBy := if mine then none else k.savedBy
        arrayOwner := if mine then some ctx else k.arrayOwner }
      let s1 := s.setCore core (k1.setCtx ctx c)
      let s1 := s1.readStore core ctx (savePlace ctx)
      if c.service.isSome then s1.countWaitq core
      else ((((s1.resumeCtx core ctx).leadResumes core ctx).memberResumes core ctx).countWaitq core))

/-! ## Halt (R110) and the release of banks (R201, R202) -/

/-- A halted context has nothing left to land or to end. -/
def State.releaseDue (s : State) (core ctx : Nat) : Bool :=
  let k := s.core core
  let c := k.ctx ctx
  c.status == .halted && c.runs && c.flights.isEmpty && c.shadow.isEmpty && c.stops.isEmpty && c.shadowRows.isEmpty
  && (k.arrayOwner != some ctx || k.array.rows.all (fun (r : RowOut) => decide (r.exit ≤ s.now)))
  && s.cmds.all (fun m => !(m.core == core && m.ctx == ctx && m.lx == c.lx && decide (m.phase < 2)))

def execContextRelease (core ctx : Nat) (s : State) : Result := .next (if s.releaseDue core ctx then s.dropCtx core ctx false else s)

/-- A bank of a context has no engine access of its context reserved and no timed-write entry left; both count through their own tick, so
that the bank is free in the tick after (R201; log entry 88). -/
def Core.bankIdle (k : Core) (now core x b : Nat) : Bool :=
  k.resv.all (fun r => !(r.bank == b && r.core == core && r.ctx == x && decide (now ≤ r.tick)))
  && k.timed.all (fun e => !(bankOf e.addr == b && decide (now ≤ e.vis)))

/-- The banks that a halted or killed context gives back (R201, R265). -/
def Core.releasingOf (k : Core) (x : Nat) : List Nat := (List.range 32).filter (fun b => tget k.own 0 b == x + 1 && tget k.releasing 0 b != 0)

/-- Its banks are freed together, in the first tick in which nothing is left in any of them; those of a context killed while it was saved
by themselves (R201, R265; log entry 36). -/
def State.freeNow (s : State) (core ctx : Nat) : List Nat :=
  let k := s.core core
  [true, false].flatMap (fun saved =>
    let bs := (k.releasingOf ctx).filter (fun b => decide (tget k.kept 0 b ≠ 0) == saved)
    if bs.all (k.bankIdle s.now core ctx) then bs else [])

def execHaltBankRelease (core ctx : Nat) (s : State) : Result :=
  .next ((s.freeNow core ctx).foldl (fun s b => s.modCore core (fun k => k.freeBank s.now b (tget k.releasing 0 b % 2 == 0))) s)

def execScrubEnd (core : Nat) (s : State) : Result :=
  .next (s.modCore core (fun k =>
    let due := k.scrubs.filter (fun p => decide (p.2 ≤ s.now))
    { k with
      scrubs := k.scrubs.filter (fun p => decide (s.now < p.2))
      own := due.foldl (fun t p => if tget t 0 p.1 = 5 then tput t p.1 0 else t) k.own }))

/-! ## The hand-out of banks (R198) -/

/-- Inserts a waiter by admission order, after those of equal order. -/
def insertWaiter (w : Nat × Nat × Launch) (l : List (Nat × Nat × Launch)) : List (Nat × Nat × Launch) :=
  match l with
  | [] => [w]
  | v :: r => if w.1 < v.1 then w :: v :: r else v :: insertWaiter w r

/-- Contexts of a core that wait for banks, running, stopped or saved, the earliest admitted first, ties to the lower context number;
a saved one stands under its number plus 4. -/
def State.bankWaiters (s : State) (core : Nat) : List (Nat × Nat × Launch) :=
  let of (key : Nat) (c : Ctx) : Option (Nat × Nat × Launch) :=
    if c.status = .banks then (s.findLaunch c.lx).map (fun l => (l.order, key, l)) else none
  let ws := [0, 1, 2, 3].filterMap (fun x => of x (s.ctx core x)) ++ (s.core core).saved.filterMap (fun p => of (p.1 + 4) p.2)
  ws.foldl (fun l w => insertWaiter w l) []

/-- Gives a bank that is free to the first waiter that lists it; a saved context keeps it (R198, R279). -/
def Core.giveBank (k : Core) (ws : List (Nat × Nat × Launch)) (b : Nat) : Core :=
  if tget k.own 0 b = 0 then
    match ws.find? (fun w => bitAt w.2.2.banks b) with
    | some w => { k with own := tput k.own b (w.2.1 % 4 + 1), kept := if w.2.1 < 4 then k.kept else tput k.kept b (w.2.1 % 4 + 1) }
    | none => k
  else k

/-- A waiter on its core that runs and owns every bank it lists. -/
def Core.hasBanks (k : Core) (w : Nat × Nat × Launch) : Bool :=
  decide (w.2.1 < 4) && (k.ctx w.2.1).runs && (List.range 32).all (fun b => !(bitAt w.2.2.banks b) || k.owns w.2.1 b)

/-- Such a waiter is ready: at S without delay, later as a blocked context whose condition is met (R104). -/
def Core.bankReady (k : Core) (now : Nat) (w : Nat × Nat × Launch) : Core :=
  if k.hasBanks w then
    let delay := if now = w.2.2.start then 0 else if k.lastCtx = some w.2.1 then 1 else 2
    k.setCtx w.2.1 { k.ctx w.2.1 with status := .ready now delay false }
  else k

def execBankGrant (core : Nat) (s : State) : Result :=
  .next (
    let ws := s.bankWaiters core
    let k := (List.range 32).foldl (fun k b => k.giveBank ws b) (s.core core)
    (s.setCore core (ws.foldl (fun k w => k.bankReady s.now w) k)).countWaitq core)

/-- Whether a free bank finds a waiter, or a waiter has all its banks. -/
def State.grantDue (s : State) (core : Nat) : Bool :=
  let k := s.core core
  (s.bankWaiters core).any (fun w =>
    (List.range 32).any (fun b => bitAt w.2.2.banks b && tget k.own 0 b == 0) || k.hasBanks w)

end Sys2Proof.Machine
end

