-- ==== Sys2Proof/Machine/Streams.lean ====
section
/-! DEFINITION. The command window, the streams and their commands other than launch (R254 to R257, R287), and the registers the
host writes (R255, R324, R338). -/

namespace Sys2Proof.Machine

/-! ## The command window (R254) -/

/-- A host store to word `w` of packet slot `k`: discarded, with DROP, when its size is not 8 or the slot is closed; word 63 closes. -/
def Stream.store (st : Stream) (now k w size : Nat) (v : Word) : Stream :=
  if size ≠ 8 ∨ st.closed.any (fun p => p.1 == k) then { st with drop := true }
  else
    let st1 := { st with slots := tput st.slots (64 * k + w) v }
    if w = 63 then { st1 with closed := st1.closed ++ [(k, now)] } else st1

def execPacketWordWrite (q k word size : Nat) (v : BitVec 64) (s : State) : Result :=
  .next (s.setStream q ((s.stream q).store s.now k word size v))

def execPacketClose (q k : Nat) (v : BitVec 64) (s : State) : Result := .next (s.setStream q ((s.stream q).store s.now k 63 8 v))

/-! ## Stream registers (R255) -/

/-- A write to SCFG; a module whose Pupol was refused keeps its streams disabled (R334). -/
def execScfgWrite (q : Nat) (v : BitVec 64) (s : State) : Result :=
  .next (
    let st := s.stream q
    let en := v.getLsbD 2 && s.pupolOk
    s.setStream q { st with prio := bitsAt v.toNat 0 2, en := en, ended := if en && !st.en then false else st.ended })

def execSstatWrite (q : Nat) (v : BitVec 64) (s : State) : Result :=
  .next (
    let st := s.stream q
    s.setStream q { st with drop := st.drop && !(v.getLsbD 8), evovf := st.evovf && !(v.getLsbD 10) })

/-- A host write to a register of a stream that has no further behaviour, by its offset in the block (R255). A write to EVHEAD, which
the device advances, changes nothing (log entry 77). -/
def Stream.putReg (st : Stream) (off : Nat) (v : Word) : Stream :=
  if off = 0x10 then { st with evbase := v &&& ~~~(0x3F#64) }
  else if off = 0x18 then
    let n := bitsAt v.toNat 0 5
    { st with evlog := if 4 ≤ n ∧ n ≤ 16 then n else 4 }
  else if off = 0x28 then { st with evtail := v.setWidth 32 }
  else st

/-- A host write to a register of the third range that has no row of its own: TRIP, the nonce, and SOP with a reserved code
(R324, R337, R338, R343). -/
def State.putTime (s : State) (off : Nat) (v : Word) : State :=
  if off = 0x008 then { s with trip := s.trip && (s.tripOn || !(v.getLsbD 7)) }
  else if 0x100 ≤ off ∧ off < 0x120 then { s with nonce := tput s.nonce ((off - 0x100) / 8) v }
  else if off = 0xC18 then
    if s.sbusy then { s with sres := 4 }
    else if bitsAt v.toNat 0 4 = 0 ∨ 9 < bitsAt v.toNat 0 4 then
      { s with sres := 1, stgt := BitVec.ofNat 8 (bitsAt v.toNat 4 8), sarg := BitVec.ofNat 52 (bitsAt v.toNat 12 52) }
    else s
  else s

/-- A write to a register with no row of its own: a core's own write lands, or the host writes a register of memory range
`core` (0: the command window and stream registers; 2: the time, security and service registers). -/
def execRegisterWrite (host : Bool) (core off : Nat) (v : BitVec 64) (s : State) : Result :=
  .next (
    if !host then s.landRegister core
    else if core = 0 then
      (if 0x8000 ≤ off ∧ off < 0x8100 then
        let q := (off - 0x8000) / 0x40
        s.setStream q ((s.stream q).putReg ((off - 0x8000) % 0x40) v)
      else s)
    else if core = 2 then s.putTime off v
    else s)

/-! ## The CXL completion of a device write (R219, R255) -/

/-- The oldest device write completes and performs: an event counts in EVHEAD and raises its stream's vector (R330); a trace-ring copy ends its operation (R343). -/
def execDeviceWriteCompletion (s : State) : Result :=
  .next (match s.hostWrites with
    | [] => s
    | w :: r =>
      let s1 := { s with hostWrites := r, hostMem := mwriteN s.hostMem w.addr w.bytes w.data }
      match w.stream with
      | some q => (s1.setStream q { s1.stream q with evhead := (s1.stream q).evhead + 1 }).interrupt q
      | none => { s1 with service := s1.service.map (fun o => { o with doneAt := some s1.now }) })

/-! ## Taking and finishing a command (R256) -/

/-- The words of a packet slot. -/
def Stream.packet (st : Stream) (k : Nat) : List Word := (List.range 64).map (fun i => tget st.slots 0 (64 * k + i))

def Held.word (h : Held) (i : Nat) : Nat := wordAt h.words i
def Held.code (h : Held) : Nat := bitsAt (h.word 0) 0 8
/-- A held retry is no packet of the host: its slot is 8 (R276). -/
def Held.isRetry (h : Held) : Bool := h.slot == 8

/-- A packet in hand that a retry goes ahead of: a launch not taken yet, a wait, a host signal, or a load that has not begun (R276). -/
def Held.yields (h : Held) : Bool :=
  !h.isRetry && (match h.code with
    | 1 => decide (h.prog ≤ 1)
    | 2 | 3 => true
    | 4 => h.actAt.isNone
    | _ => false)

/-- No command is in hand, or a retry has come that goes ahead of it. -/
def Stream.handFree (st : Stream) : Bool := match st.held with
  | none => true
  | some h => !st.retry.isEmpty && h.yields

/-- A stream takes a packet in this tick: enabled, not ended, with no command in hand, and not paused; or a retry, which is no packet and
needs neither EN nor a stream that goes on (R254 to R256, R276, R346). A packet that a retry displaces is taken again after it. -/
def State.takesPacket (s : State) (q : Nat) : Bool :=
  let st := s.stream q
  st.handFree && decide (st.freeAt ≤ s.now) && decide (s.pauseTo ≤ s.now)
  && (!st.retry.isEmpty || (st.en && !st.ended && (match st.closed with
      | (_, t) :: _ => decide (t < s.now)
      | [] => false)))

/-- The packet a stream holds is consumed, and the stream takes its next one from the next tick (R254, R256). -/
def State.finishHeld (s : State) (q : Nat) : State :=
  let st := s.stream q
  let closed := match st.held with
    | some h => if h.isRetry then st.closed else st.closed.tail
    | none => st.closed
  s.setStream q { st with held := none, closed := closed, freeAt := s.now + 1 }

def execStreamNextPacket (q : Nat) (s : State) : Result :=
  .next (
    let st := s.stream q
    if s.takesPacket q then
      match st.retry, st.closed with
      | a :: r, _ => s.setStream q { st with retry := r, held := some ⟨8, 0, [1, BitVec.ofNat 64 a], s.now, none, 0, none⟩ }
      | [], (k, t) :: _ =>
        let ws := st.packet k
        let h : Held := ⟨k, t, ws, s.now, none, 0, none⟩
        let s1 := s.setStream q { st with held := some h }
        if bitsAt (h.word 0) 8 56 ≠ 0 ∨ h.code = 0 ∨ 7 < h.code then (s1.finishHeld q).post q 0 4 1 s.nowW else s1
      | [], [] => s
    else s)

/-- The command a stream holds, when it is of a code. -/
def State.heldOf (s : State) (q code : Nat) : Option Held := match (s.stream q).held with
  | some h => if h.code = code then some h else none
  | none => none

/-! ## Wait-for-tick, signal host, end -/

def State.tickCome (s : State) (q : Nat) : Bool := match s.heldOf q 2 with
  | some h => decide (h.word 1 ≤ s.now)
  | none => false

def execWaitForTick (q : Nat) (s : State) : Result := .next (if s.tickCome q then s.finishHeld q else s)

/-- Every launch the stream admitted has ended. -/
def State.streamDone (s : State) (q : Nat) : Bool :=
  (s.heldOf q 3).isSome && s.launches.all (fun l => l.stream != q || decide (l.phase ≠ 1 ∧ l.phase ≠ 2))

def execSignalHost (q : Nat) (s : State) : Result :=
  .next (match s.heldOf q 3 with
    | some h => if s.streamDone q then (s.post q 0 7 0 ((h.words[1]?).getD 0)).finishHeld q else s
    | none => s)

def execEndStream (q : Nat) (s : State) : Result :=
  .next (match s.heldOf q 7 with
    | some _ =>
      let s1 := s.finishHeld q
      s1.setStream q { s1.stream q with ended := true }
    | none => s)

/-! ## Load code (R91, R257) -/

/-- Core, context, LIVE, IBASE and WSTART of a load code command. -/
def Held.lcCore (h : Held) : Nat := bitsAt (h.word 2) 0 8
def Held.lcCtx (h : Held) : Nat := bitsAt (h.word 2) 8 2
def Held.lcLive (h : Held) : Bool := bitAt (h.word 2) 10
def Held.lcBase (h : Held) : Nat := bitsAt (h.word 2) 16 16

/-- Some of `n` words from `base` lie in a context's window. -/
def Ctx.windowMeets (c : Ctx) (base n : Nat) : Bool :=
  (List.range n).any (fun i => c.inWindow (BitVec.ofNat 16 (base + i)))

/-- The B registers of a context whose 16-word span holds word `i` are refilled, and valid again from tick `w` + 6 (R91). -/
def Ctx.refillB (c : Ctx) (w i : Nat) : Ctx :=
  let meets (b : Nat) : Bool := c.bV.getLsbD b && decide ((i + 2 ^ 16 - (tget c.bT 0 b).toNat) % 2 ^ 16 < 16)
  { c with bAgain := (List.range 8).foldl (fun t b => if meets b then tput t b (w + 6) else t) c.bAgain }

/-- A word of instruction memory is written: B registers of any context, live or saved, whose span it meets are refilled (R91). -/
def Core.putWord (k : Core) (now a : Nat) (w : BitVec 16) : Core :=
  let i := a % 2 ^ 16
  { k with
    imem := tput k.imem i w
    bad := k.bad.filter (fun b => !(b.struct == 3 && b.place == i))
    ctxs := tmap (fun (c : Ctx) => c.refillB now i) k.ctxs
    saved := tmap (fun (c : Ctx) => c.refillB now i) k.saved }

/-- The image of a load code command. -/
def State.imageOf (s : State) (h : Held) : Image := h.image.getD (Config.kernelImage s.channels (h.word 1))

/-- The data words a load writes: those for every rank. -/
def Image.common (i : Image) : List DataWord := i.datas.filter (fun d => d.rank.isNone)

/-- The items a load code command writes, one a tick. -/
def Image.items (i : Image) (live : Bool) : Nat := if live then i.words.length else i.words.length + i.entries.length + i.common.length

/-- The staged image as a load begins: empty of entries. -/
def newStaged (i : Image) (base : Nat) : Staged where
  hcw := []
  hcwValid := BitVec.allOnes 512
  deltas := i.deltas.foldl (fun t d => tput t (16 * d.1 + d.2.1) d.2.2) []
  params := i.params
  rankData := i.datas.filter (fun d => d.rank.isSome)
  ibase := base
  count := i.words.length
  complete := false

/-- An entry enters the staged table through the validation of R74. -/
def Staged.putEntry (g : Staged) (idx : Nat) (e : Entry) : Staged :=
  let bit : BitVec 512 := BitVec.ofNat 512 (2 ^ idx)
  { g with hcw := tput g.hcw idx e, hcwValid := if entryValid e then g.hcwValid ||| bit else g.hcwValid &&& ~~~bit }

/-- Writes `n` bytes of a data word; they lie in one bank word. -/
def Core.putData (k : Core) (d : DataWord) : Core :=
  k.store (d.addr % spadSize) (Nat.min d.n (128 - d.addr % 128)) d.value.toNat

/-- A load code command ends with an event. -/
def State.endLoad (s : State) (q kind detail : Nat) : State := (s.post q 0 kind detail s.nowW).finishHeld q

/-- Changes the staged image of a context. -/
def State.modStaged (s : State) (h : Held) (f : Staged → Staged) : State :=
  s.modCore h.lcCore (fun k => { k with staged := k.staged.map (fun p => if p.1 = h.lcCtx then (p.1, f p.2) else p) })

/-- Writes item `i` of a load; a data word for a bank that is not free is refused. -/
def State.loadItem (s : State) (q : Nat) (h : Held) (img : Image) (i : Nat) : State :=
  let n := img.words.length
  let m := img.entries.length
  let s1 := if i = 0 ∧ !h.lcLive then
    s.modCore h.lcCore (fun k => { k with staged := tput k.staged h.lcCtx (newStaged img h.lcBase) }) else s
  let on (s : State) : State := s.setStream q { s.stream q with held := some { h with prog := i + 1, actAt := some (s.now + 1), image := some img } }
  let done (s : State) : State :=
    if h.lcLive && !(img.entries.isEmpty && img.datas.isEmpty) then s
    else if i + 1 = img.items h.lcLive then ((s.modStaged h (fun g => if h.lcLive then g else { g with complete := true })).endLoad q 9 0)
    else s
  if i < n then
    done (on (s1.modCore h.lcCore (fun k => k.putWord s.now (h.lcBase + i) ((img.words[i]?).getD 0))))
  else if i < n + m then
    match img.entries[i - n]? with
    | some (idx, e) => done (on (s1.modStaged h (fun g => g.putEntry (idx % 512) e)))
    | none => s1
  else
    match img.common[i - n - m]? with
    | some d =>
      if tget (s1.core h.lcCore).own 0 (bankOf d.addr) ≠ 0 then s1.endLoad q 4 10
      else done (on (s1.modCore h.lcCore (fun k => k.putData d)))
    | none => s1

/-- The next action of a load code command: its checks, until no running kernel's window meets its words; then one item a tick from W. -/
def execLoadCode (q : Nat) (s : State) : Result :=
  .next (match s.heldOf q 4 with
    | none => s
    | some h =>
      let img := s.imageOf h
      let k := s.core h.lcCore
      let n := img.words.length
      match h.actAt with
      | none =>
        if !h.lcLive && [0, 1, 2, 3].any (fun x => (k.ctx x).lx != 0 && (k.ctx x).windowMeets h.lcBase n) then s
        else
          let s1 := s.markDevice (h.word 1) (Config.kernelBytes s.channels (h.word 1))
          if k.saved.any (fun p => p.2.windowMeets h.lcBase n) then s1.endLoad q 4 10
          else s1.setStream q { s1.stream q with held := some { h with
            actAt := some (Nat.max s.now (Nat.max (h.word 3) (h.taken + 64))), image := some img } }
      | some t =>
        if s.now < t then s
        else if h.lcLive && decide (n ≤ h.prog) && !(img.entries.isEmpty && img.datas.isEmpty) then s.endLoad q 4 10
        else if img.items h.lcLive = 0 then
          (if h.lcLive then s.endLoad q 9 0
           else (s.modCore h.lcCore (fun k => { k with staged := tput k.staged h.lcCtx { newStaged img h.lcBase with complete := true } })).endLoad q 9 0)
        else s.loadItem q h img h.prog)

/-- Whether a load code command acts in this tick. -/
def State.loadActs (s : State) (q : Nat) : Bool := match s.heldOf q 4 with
  | none => false
  | some h => match h.actAt with
    | some t => decide (t ≤ s.now)
    | none =>
      let k := s.core h.lcCore
      h.lcLive || !([0, 1, 2, 3].any (fun x => (k.ctx x).lx != 0 && (k.ctx x).windowMeets h.lcBase (s.imageOf h).words.length))

/-! ## Load circuit object (R234 to R238) -/

def execLoadCircuitObject (q : Nat) (s : State) : Result :=
  .next (match s.heldOf q 5 with
    | none => s
    | some h =>
      let c := bitsAt (h.word 2) 0 5
      let obj := bitsAt (h.word 2) 5 6
      let hdr := s.devWords (h.word 1) 8
      let pages := s.devWords (h.word 1 + 64) (hdrNpage hdr)
      let recs := if hdrPaged hdr then (List.range (hdrNrec hdr)).map (Config.pagedRecord s.channels (h.word 1))
        else (s.devWords (h.word 1 + 64 + 8 * hdrNpage hdr) (Nat.min (hdrNrec hdr) 16385)).map (·.toNat)
      let s := s.markDevice (h.word 1) (64 + 8 * hdrNpage hdr + (if hdrPaged hdr then 0 else 8 * Nat.min (hdrNrec hdr) 16385))
      let g := s.circuit c
      if !g.retired && g.accepts obj hdr pages recs then
        ((s.setCircuit c (g.install obj hdr pages recs)).post q 0 9 0 s.nowW).finishHeld q
      else (s.post q 0 4 9 s.nowW).finishHeld q)

/-! ## Load timeline (R287) -/

/-- The words of a plan block: header, refresh-management entries, and program words two to a word. -/
def planLength (w2 : Nat) : Nat := 3 + bitsAt w2 0 8 + ceilDiv (bitsAt w2 8 8) 2

/-- The plan of a block; none when a field is outside its range or a program word is of a reserved form (R287, R299). -/
def planOf (tier : Nat) (ws : List Word) : Option Plan :=
  let w0 := wordAt ws 0
  let w1 := wordAt ws 1
  let w2 := wordAt ws 2
  let refp := bitsAt w0 0 9
  let hot := bitAt w0 9
  let hwp := bitsAt w1 0 16
  let nrfm := bitsAt w2 0 8
  let nprog := bitsAt w2 8 8
  let rfm := (List.range nrfm).map (fun i =>
    let w := wordAt ws (3 + i)
    (bitsAt w 0 36, bitsAt w 36 5, bitsAt w 41 23))
  let prog := (List.range nprog).map (fun i => BitVec.ofNat 32 (bitsAt (wordAt ws (3 + nrfm + i / 2)) (32 * (i % 2)) 32))
  let spare := decide (nprog % 2 = 0) || bitsAt (wordAt ws (3 + nrfm + nprog / 2)) 32 32 == 0
  if bitsAt w0 10 6 = 0 ∧ bitsAt w0 48 16 = 0 ∧ bitsAt w1 48 16 = 0 ∧ bitsAt w2 17 47 = 0 ∧ spare
      ∧ 1 ≤ refp ∧ refp ≤ (if hot then 182 else 365) ∧ bitsAt w0 16 16 < refp ∧ bitsAt w0 32 16 < refp
      ∧ 2 * hwinOf tier ≤ hwp ∧ bitsAt w1 16 16 < hwp ∧ bitsAt w1 32 16 < hwp
      ∧ nprog ≤ 128 ∧ (tier = 0 ∨ nprog = 0) ∧ prog.all (fun w => (toOpt (decodeCellar w.toNat)).isSome) then
    some ⟨refp, hot, bitsAt w0 16 16, bitsAt w0 32 16, hwp, bitsAt w1 16 16, bitsAt w1 32 16, bitAt w2 16, rfm, prog⟩
  else none

/-- Stages the blocks of `n` channels from `ch`; the number of refused blocks, each with its KIND 4. -/
def State.stagePlans (s : State) (q tier n ch addr bad : Nat) : State × Nat :=
  match n with
  | 0 => (s, bad)
  | n + 1 =>
    let len := planLength (s.devWord (addr + 16)).toNat
    let s := s.markDevice addr (8 * len)
    match planOf tier (s.devWords addr len) with
    | some p => (s.modChannel tier ch (fun c => { c with staged := some p })).stagePlans q tier n (ch + 1) (addr + 8 * len) bad
    | none => (s.post q (tier * 2 ^ 8 + ch) 4 11 s.nowW).stagePlans q tier n (ch + 1) (addr + 8 * len) (bad + 1)

def execLoadTimeline (q : Nat) (s : State) : Result :=
  .next (match s.heldOf q 6 with
    | none => s
    | some h =>
      let first := bitsAt (h.word 2) 0 8
      let count := if bitsAt (h.word 2) 8 8 = 0 then 256 else bitsAt (h.word 2) 8 8
      let tier := bitsAt (h.word 2) 16 1
      if channelsOf tier < first + count then (s.post q 0 4 1 s.nowW).finishHeld q
      else
        let r := s.stagePlans q tier count first (h.word 1) 0
        (if r.2 = 0 then r.1.post q 0 9 0 s.nowW else r.1).finishHeld q)

end Sys2Proof.Machine
end

