-- ==== Sys2Proof/Machine/Launches.lean ====
section
/-! DEFINITION. Launches: descriptors, readiness, admission and its checks, the start of a launch, and gangs across modules
(R206, R258 to R264, R266). -/

namespace Sys2Proof.Machine

/-! ## Descriptors (R258) -/

def Launch.ibase (l : Launch) : Nat := bitsAt (l.word 13) 0 16
def Launch.ilim (l : Launch) : Nat := bitsAt (l.word 13) 16 17
def Launch.nrng (l : Launch) : Nat := bitsAt (l.word 14) 0 7
def Launch.npg (l : Launch) : Nat := bitsAt (l.word 16) 0 13
def Launch.pval (l : Launch) : Nat := bitsAt (l.word 17) 0 56
def Launch.nparam (l : Launch) : Nat := bitsAt (l.word 17) 56 8
/-- The gang rank of this module's first core. -/
def Launch.rank0 (l : Launch) : Nat := l.modix * (l.ncore + 1)

/-- A descriptor can be read: 64-byte aligned, in device memory in service. -/
def State.readable (s : State) (a : Nat) : Bool := decide (a % 64 = 0) && (s.hostPlace a).isSome

/-- The fields of a descriptor are admitted; its words 20 to 31 are among the bits that must be 0 (R258, R263, R264; log entry 66). -/
def Launch.wellFormed (l : Launch) : Bool :=
  l.descAt % 64 == 0 && bitsAt (l.word 0) 27 37 == 0 && l.lid != 0 && bitsAt (l.word 2) 32 32 == 0
  && decide (l.fcore + l.ncore ≤ 255) && decide (l.modix ≤ l.nmod) && bitsAt (l.word 12) 32 32 == 0
  && bitsAt (l.word 13) 33 31 == 0 && decide (1 ≤ l.ilim ∧ l.ilim ≤ 65536)
  && bitsAt (l.word 14) 7 57 == 0 && decide (l.nrng ≤ 64) && bitsAt (l.word 15) 56 8 == 0 && bitsAt (l.word 16) 13 51 == 0
  && bitsAt (l.word 19) 16 48 == 0 && (List.range 12).all (fun i => l.word (20 + i) == 0)
  && (!l.bcast || decide (1 ≤ l.skew ∧ l.skew ≤ 4)) && (l.nmod == 0 || !l.asap)

/-- The launch a stream's held command names, as its descriptor stands; the descriptor is read again when the scheduler takes it. -/
def State.headLaunch (s : State) (q : Nat) (h : Held) : Launch :=
  let a := h.word 1
  { lx := s.nextLx, stream := q, prio := (s.stream q).prio, descAt := a
    desc := if s.readable a then s.devWords a 32 else [], ranges := [], pages := [], admitAt := 0, start := 0, phase := 0, order := 0
    p15 := false, isRetry := h.isRetry, refusal := 0, shut := h.shut, taken := s.now, wantRetry := false, confirmed := [], victim := 0, plans := [] }

def execLaunch (q : Nat) (s : State) : Result :=
  .next (match s.heldOf q 1 with
    | some h => if h.prog = 0 then s.setStream q { s.stream q with held := some { h with prog := 1 } } else s
    | none => s)

/-! ## Readiness (R259, R262, R277) -/

/-- Launches that are admitted and have not ended. -/
def State.liveLaunches (s : State) : List Launch := s.launches.filter (fun l => l.phase == 1 || l.phase == 2)

def Launch.usesCore (l : Launch) (c : Nat) : Bool := decide (l.fcore ≤ c) && decide (c ≤ l.fcore + l.ncore)
/-- Two launches own a channel in common. -/
def Launch.sharesCh (a b : Launch) : Bool :=
  [6, 7, 8, 9, 10, 11].any (fun i => (BitVec.ofNat 64 (a.word i) &&& BitVec.ofNat 64 (b.word i)) != 0)

/-- The launches that hold a context, from their admission to their end (R259). -/
def State.holders (s : State) (c x : Nat) : List Launch := s.liveLaunches.filter (fun m => m.ctxNo == x && m.usesCore c)

/-- The tick at which a launch taken now would start (R259, R276). -/
def State.startIfTaken (s : State) (l : Launch) : Nat :=
  let a := s.now + 1024 + (if 4096 < l.npg then 0 else l.npg)
  if l.isRetry then a + 4096 else if l.asap then a + l.word 1 else l.word 1

/-- A launch may pre-empt another: one that has started, at the latest at S − 512 (R262; log entry 78). -/
def State.mayPreempt (s : State) (l v : Launch) : Bool :=
  v.preempt && v.phase == 2 && decide (v.prio < l.prio) && decide (v.start + 512 ≤ s.startIfTaken l) && !(l.sharesCh v)
  && l.cores.all (fun c => !(v.usesCore c) || (List.range 32).all (fun b => !(bitAt l.banks b && (s.core c).owns v.ctxNo b)))

/-- The array of a core is free for a launch: unowned, or owned by a context that the launch pre-empts; no saved context's array stands
there, and no launch that is still to start has asked for it (R259, R277). -/
def State.arrayOk (s : State) (vx c : Nat) : Bool :=
  let k := s.core c
  (match k.arrayOwner with
   | some x => vx != 0 && (k.ctx x).lx == vx
   | none => true)
  && k.savedBy.isNone && s.liveLaunches.all (fun m => !(m.array && m.usesCore c && m.phase == 1 && m.lx != vx))

/-- Whether a launch is ready, and the launch it would pre-empt, 0 for none, by its descriptor as it stands, malformed or not; one that
cannot be read names no context (R259). -/
def State.readyFor (s : State) (l : Launch) : Option Nat :=
  if l.desc.isEmpty then some 0
  else
    let hs := l.cores.flatMap (fun c => s.holders c l.ctxNo)
    let vx := match hs with
      | m :: _ => m.lx
      | [] => 0
    let ok := hs.all (fun m => m.lx == vx && s.mayPreempt l m)
    let saved := l.cores.any (fun c => (s.core c).saved.any (fun p => p.1 == l.ctxNo))
    let chans := s.liveLaunches.any (fun m => m.sharesCh l)
    let arrays := !l.array || l.cores.all (s.arrayOk vx)
    if ok && !saved && !chans && arrays then some vx else none

/-! ## The checks of admission (R206, R257, R259) -/

/-- The lines of a staged image that bind parameters of a rank (R258). -/
def Staged.lines (g : Staged) (rank : Nat) : List Param := g.params.filter (fun p => match p.rank with
  | some r => r == rank
  | none => true)

/-- The staged image of a launch's context on its core number `i`. -/
def State.stagedFor (s : State) (l : Launch) (i : Nat) : Option Staged :=
  ((s.core (l.fcore + i)).staged.find? (fun p => p.1 == l.ctxNo)).map (·.2)

/-- A staged image fits the descriptor (DETAIL 13). -/
def Launch.imageOk (l : Launch) (g : Option Staged) : Bool := match g with
  | some g => g.complete && g.ibase == l.ibase && decide (g.count ≤ l.ilim) && decide (l.ibase + g.count ≤ 65536)
  | none => false

/-- The target a pending service operation names, or the launch's own, out of service (DETAIL 6). -/
def State.outOfService (s : State) (l : Launch) : Bool :=
  let core (c : Nat) : Bool := (s.core c).retired || (match s.service with
    | some o => ((o.sop == 1 || o.sop == 9) && o.tgt == c) || (o.sop == 2 && o.tgt % 32 == clusterOf c)
    | none => false)
  let chan (t c : Nat) : Bool := (s.channel t c).retired || (match s.service with
    | some o => ((o.sop == 3 || o.sop == 4) && o.tgt == c && bitsAt o.arg 0 1 == t) || (o.sop == 7 && o.tgt == dieOfChannel t c)
    | none => false)
  l.cores.any core || (List.range 256).any (fun c => l.ownsCh 0 c && chan 0 c) || (List.range 128).any (fun c => l.ownsCh 1 c && chan 1 c)

/-- The cores of a broadcast gang's members on this module: those of gang rank 1 and up (R258, R263). -/
def Launch.memberCores (l : Launch) : List Nat := if l.modix = 0 then l.cores.tail else l.cores

/-- A broadcast member core is not dedicated (DETAIL 7, R263). -/
def State.notDedicated (s : State) (l : Launch) : Bool :=
  let held (c : Nat) (x : Nat) : Bool := !(s.holders c x).isEmpty
  (l.bcast && l.memberCores.any (fun c => [0, 1, 2, 3].any (fun x => x != l.ctxNo && held c x)))
  || s.liveLaunches.any (fun m => m.bcast && m.ctxNo != l.ctxNo && m.memberCores.any l.usesCore)

/-- An entry passes the checks of R206 that concern it alone. -/
def State.entryOk (s : State) (l : Launch) (e : XEntry) : Bool :=
  let last := e.offset + (e.last - e.base)
  decide (e.base ≤ e.last) && e.offset % 4096 == 0 && decide (e.layout ≤ 4)
  && (if e.layout = 2 then true else if e.layout = 3 then decide (e.ch < 8) else e.ch == 0)
  && (if e.layout = 4 then decide (e.tier = 1 ∨ last < 2 ^ 39)
      else !(s.layList l e).isEmpty && (s.placeOf l e last).isSome)

/-- Entries that share no address. -/
def disjointEntries (es : List XEntry) : Bool := match es with
  | [] => true
  | e :: r => r.all (fun f => decide (e.last < f.base) || decide (f.last < e.base)) && disjointEntries r

/-- The reserved bits of a valid range entry are 0, and its TOLF is no reserved code (R203). -/
def rangeBitsOk (ws : List Word) : Bool :=
  bitsAt (wordAt ws 0) 44 20 == 0 && bitsAt (wordAt ws 1) 44 20 == 0 && bitsAt (wordAt ws 2) 40 24 == 0
  && bitsAt (wordAt ws 3) 9 7 == 0 && bitsAt (wordAt ws 3) 24 40 == 0 && bitsAt (wordAt ws 3) 6 2 != 3

/-- The same for a page, whose base is aligned to its size (R207). -/
def pageBitsOk (ws : List Word) : Bool :=
  let w0 := wordAt ws 0
  let w1 := wordAt ws 1
  bitsAt w0 49 15 == 0 && decide (bitsAt w0 44 5 ≤ 18) && bitsAt w0 0 44 % 2 ^ bitsAt w0 44 5 == 0
  && bitsAt w1 56 8 == 0 && bitsAt w1 45 2 != 3

/-- The ranges and pages of a launch pass R206 and R207. -/
def State.rangesOk (s : State) (l : Launch) : Bool :=
  let valid := l.ranges.filter (fun ws => bitAt (wordAt ws 3) 0)
  let es := valid.filterMap rangeOf ++ l.pages.map pageOf
  decide (l.npg ≤ 4096) && valid.all rangeBitsOk && l.pages.all pageBitsOk && es.all (s.entryOk l) && disjointEntries es

/-- The refusal that the checks made when the scheduler takes a launch find: the first of 1, 12, 6, 7, 13, 2; 0: none (R259). -/
def State.refusalOf (s : State) (l : Launch) : Nat :=
  let is := List.range (l.ncore + 1)
  if !l.wellFormed then 1
  else if is.any (fun i => match s.stagedFor l i with
      | some g => decide ((g.lines (l.rank0 + i)).length ≠ l.nparam)
      | none => false) then 1
  else if l.asap && s.cexm then 12
  else if s.outOfService l then 6
  else if s.notDedicated l then 7
  else if is.any (fun i => !(l.imageOk (s.stagedFor l i))) then 13
  else if !(s.rangesOk l) then 2
  else 0

/-! ## Admission (R259) -/

/-- The streams whose held launch waits for the scheduler. -/
def State.waiting (s : State) (q : Nat) : Option Launch := match s.heldOf q 1 with
  | some h => if h.prog = 1 then some (s.headLaunch q h) else none
  | none => none

/-- How far a stream stands behind the one last served at a priority. -/
def State.turn (s : State) (prio q : Nat) : Nat := match s.served.find? (fun p => p.1 == prio) with
  | some (_, last) => (q + 3 - last) % 4
  | none => q

/-- A launch is in admission (R259). -/
def State.inAdmission (s : State) : Bool := s.launches.any (fun l => l.phase == 0)

/-- The ready head the idle scheduler takes; it is idle from the tick after an admission ends. -/
def State.chosen (s : State) : Option (Nat × Launch × Nat) :=
  if s.inAdmission || s.admitted == some s.now then none
  else [0, 1, 2, 3].foldl (fun best q => match s.waiting q with
    | none => best
    | some l => match s.readyFor l with
      | none => best
      | some v => match best with
        | none => some (q, l, v)
        | some (p, m, _) =>
          if m.prio < l.prio ∨ (m.prio = l.prio ∧ s.turn l.prio q < s.turn l.prio p) then some (q, l, v) else best) none

/-- Every host write accepted before tick `t` has performed in an earlier tick (R219, R259). -/
def State.hostBefore (s : State) (t : Nat) : Bool :=
  let done (l : HostLine) : Bool := l.data.isNone || decide (t ≤ l.acc)
  s.channels.all (fun p => p.2.hostQ0.all done && p.2.hostQ1.all done && p.2.hostOps.all (fun o => done o.2))
  && s.performed.all (fun a => decide (t ≤ a))

/-- The launch whose admission ends in this tick. -/
def State.admitDue (s : State) : Option Launch :=
  s.launches.find? (fun l => l.phase == 0 && decide (l.admitAt ≤ s.now) && s.hostBefore l.shut)

/-- Contexts that a launch has stopped for its pre-emption go on, when it is dropped. -/
def State.releaseVictim (s : State) (l : Launch) : State :=
  l.cores.foldl (fun s c =>
    let k := s.ctx c l.ctxNo
    if k.preBy ≠ l.lx ∨ l.lx = 0 then s
    else
      let s1 := s.setCtx c l.ctxNo { k with preBy := 0, preAt := 0 }
      if k.service.isSome then s1 else ((s1.resumeCtx c l.ctxNo).leadResumes c l.ctxNo).memberResumes c l.ctxNo) s

/-- The channels a launch owns: tier and number. -/
def Launch.ownedChannels (l : Launch) : List (Nat × Nat) :=
  ((List.range 256).filter (l.ownsCh 0)).map (fun c => (0, c)) ++ ((List.range 128).filter (l.ownsCh 1)).map (fun c => (1, c))

/-- From a tick on the channels of an admitted launch are handed over to it; none: no more (R288). -/
def State.handOver (s : State) (l : Launch) (t : Option Nat) : State :=
  l.ownedChannels.foldl (fun s p => s.modChannel p.1 p.2 (fun c => { c with handAt := t })) s

/-- A launch that has not started is dropped. -/
def State.dropLaunch (s : State) (l : Launch) (kind detail : Nat) : State :=
  let s1 := if l.phase = 0 then { s.finishHeld l.stream with admitted := some s.now } else s.handOver l none
  let s2 : State := { s1 with launches := s1.launches.filter (fun m => m.lx != l.lx) }
  (s2.releaseVictim l).postL l kind detail

/-- The scheduler takes a launch: it reads the descriptor, its ranges and its pages, and checks them. -/
def State.takeLaunch (s : State) (q : Nat) (l : Launch) (v : Nat) : State :=
  let ok := l.wellFormed
  let ranges := if ok then (List.range l.nrng).map (fun i => s.devWords (l.descAt + 0x100 + 32 * i) 4) else []
  let pages := if ok && decide (l.npg ≤ 4096) then
    (List.range l.npg).map (fun i => s.devWords (bitsAt (l.word 15) 0 56 + 16 * i) 2) else []
  let l1 := { l with ranges := ranges, pages := pages, victim := v, admitAt := s.now + 1024 + l.npg, taken := s.now }
  let mine := s.gangMsgs.filter (fun g => g.1 == l.lid && l.nmod != 0)
  let l2 := { l1 with refusal := s.refusalOf l1, confirmed := mine.map (fun g => g.2.1) }
  let s0 := if l.desc = [] then s else s.markDevice l.descAt 256
  let s0 := if ranges = [] then s0 else s0.markDevice (l.descAt + 0x100) (32 * l.nrng)
  let s0 := if pages = [] then s0 else s0.markDevice (bitsAt (l.word 15) 0 56) (16 * l.npg)
  let st := s0.stream q
  let s1 := { s0.setStream q { st with held := st.held.map (fun h => { h with prog := 2 }) } with
    launches := s.launches ++ [l2], nextLx := s.nextLx + 1, served := tput s.served l.prio q
    gangMsgs := s.gangMsgs.filter (fun g => !(mine.contains g)) }
  if mine.any (fun g => g.2.2) then s1.dropLaunch l2 5 0 else s1

/-- The refusal as it stands at the admission tick A, with the start tick S that A fixes; cycle-exact mode is judged at A too (R259,
R264, R266, R276, R329). -/
def State.finalRefusal (s : State) (l : Launch) (start : Nat) : Nat :=
  if l.refusal = 1 then 1
  else if l.asap ∧ s.cexm then 12
  else if l.refusal ≠ 0 then l.refusal
  else if start < s.now + 512 then 3
  else if l.nmod ≠ 0 ∧ (s.lock ≠ 2 ∨ start < s.now + 65536) then 5
  else 0

/-- The start tick: START, A + START under ASAP, A′ + 4,096 for a retry. -/
def Launch.startAt (l : Launch) (a : Nat) : Nat := if l.isRetry then a + 4096 else if l.asap then a + l.word 1 else l.word 1

/-- A launch is admitted or refused at A. -/
def State.admitNow (s : State) (l : Launch) : State :=
  let start := l.startAt s.now
  let d := s.finalRefusal l start
  let s1 := { (s.finishHeld l.stream) with admitted := some s.now }
  if d ≠ 0 then (({ s1 with launches := s1.launches.filter (fun m => m.lx != l.lx) }).postL l 4 d).sendAbort l
  else
    let m := { l with phase := 1, start := start, admitAt := s.now, order := s.nextOrder, p15 := l.lowp && s.pdeg }
    let s2 := (({ s1 with nextOrder := s.nextOrder + 1 }.setLaunch m).handOver m (some (start - 512))).postL m 1 0
    if l.nmod = 0 then s2
    else s2.tell 15 3 (BitVec.ofNat 64 (l.lid + l.modix * 2 ^ 16))

def execAdmission (s : State) : Result :=
  .next (match s.admitDue with
    | some l => s.admitNow l
    | none => match s.chosen with
      | some (q, l, v) => s.takeLaunch q l v
      | none => s)

/-- A launch with an absolute START that is not ready and whose time has passed (DETAIL 4). -/
def State.lateLaunch (s : State) (q : Nat) : Option Launch := match s.waiting q with
  | some l =>
    if !l.asap && !l.isRetry && (s.readyFor l).isNone && decide (l.word 1 < s.now + 1024 + l.npg + 512) then some l else none
  | none => none

def execLaunchRefuseLate (q : Nat) (s : State) : Result :=
  .next (match s.lateLaunch q with
    | some l => ((s.finishHeld q).postL l 4 4).sendAbort l
    | none => s)

/-! ## The start of a launch (R260 to R262, R277, R340) -/

/-- The pre-empted context that stands under a number is complete as a save image: it moves to the save store, keeps its banks, and
the array it owns goes with it; what a soft error has spoiled of it is spoiled in the image. -/
def Core.saveCtx (k : Core) (x : Nat) : Core :=
  let c := k.ctx x
  let kept := (List.range 32).foldl (fun t b => if k.owns x b then tput t b (x + 1) else t) k.kept
  let mine := k.arrayOwner = some x
  { k with
    saved := tput k.saved x c, kept := kept
    savedArray := if mine then some k.array else k.savedArray
    savedBy := if mine then some x else k.savedBy
    arrayOwner := if mine then none else k.arrayOwner
    array := if mine then ArrayState.reset else k.array
    bad := k.bad.map (fun w => if (w.struct == 1 && w.ctx == x) || (mine && w.struct == 2 && decide (w.place < 1024))
      then { w with struct := 2, ctx := x, place := savePlace x } else w) }

/-- A parameter value enters the register and slices its line names (R84, R258). -/
def Ctx.bindParam (c : Ctx) (p : Param) (v : Word) : Ctx :=
  let put (g : Table Word) (j : Nat) : Table Word := if p.slices.getLsbD j then tput g (16 * j + p.idx) v else g
  let c1 := { c with g := (List.range 5).foldl put c.g }
  if p.vs then { c1 with vs := v } else c1

/-- The context of core number `i` of a launch as it stands at S; its fault record reads zeros from then on (log entry 71). -/
def State.initialCtx (s : State) (l : Launch) (i : Nat) : Ctx :=
  let rank := l.rank0 + i
  let g := (s.stagedFor l i).getD (newStaged default 0)
  let c0 : Ctx := { Ctx.reset with
    status := .banks, lx := l.lx, rank := rank, pc := BitVec.ofNat 16 l.ibase, ibase := BitVec.ofNat 16 l.ibase
    ilim := BitVec.ofNat 17 l.ilim, hcw := g.hcw, hcwValid := g.hcwValid, delta := g.deltas
    lseed := BitVec.ofNat 64 (l.word 4), qrseed := BitVec.ofNat 64 (l.word 5) ^^^ BitVec.ofNat 64 rank
    bud := BitVec.ofNat 64 (l.word 3), p := if l.p15 then 0x8000 else 0, fresh := true
    bcast := if l.bcast then (if rank = 0 then 1 else 2) else 0 }
  (g.lines rank).zipIdx.foldl (fun c p => c.bindParam p.1 (s.devWord (l.pval + 8 * (rank * l.nparam + p.2)))) c0

/-- One core of a launch takes its initial state; the core's barrier registers stay as an earlier launch left them (log entry 55),
and the `.data` words of the rank are written at once (log entry 59). -/
def State.startCore (s : State) (l : Launch) (i : Nat) : State :=
  let c := l.fcore + i
  let x := l.ctxNo
  let rank := l.rank0 + i
  let k := s.core c
  let k1 := if (k.ctx x).preBy = l.lx then k.saveCtx x else k
  let data := match s.stagedFor l i with
    | some g => g.rankData.filter (fun (d : DataWord) => d.rank == some rank)
    | none => []
  let k2 := data.foldl (fun k d => k.putData d) (k1.setCtx x (s.initialCtx l i))
  let k3 := if l.array then { k2 with array := ArrayState.reset, arrayOwner := some x } else k2
  let fresh (w : BadWord) : Bool := (decide (w.struct = 1 ∨ w.struct = 3) && w.ctx == x && (w.struct == 1 || decide (2 ^ 16 ≤ w.place)))
    || (l.array && w.struct == 2 && decide (w.place < 1024))
  let lines := ((s.stagedFor l i).map (fun g => (g.lines rank).length)).getD 0
  ((s.setCore c { k3 with bad := k3.bad.filter (fun w => !(fresh w)) }).countWaitq c).markDevice (l.pval + 8 * (rank * l.nparam)) (8 * lines)

/-- The launch a retry repeats: the last one of its stream and descriptor whose kill asked for it (R276). -/
def State.retried (s : State) (l : Launch) : Option Launch :=
  if l.isRetry then s.launches.reverse.find? (fun m => m.stream == l.stream && m.descAt == l.descAt && m.wantRetry) else none

/-- The staged plan a channel takes with a launch: its own, or, for a retry, the one the killed attempt took (R276, R287). -/
def State.planFor (s : State) (l : Launch) (t c : Nat) : Option Plan :=
  match s.retried l with
  | some m => (m.plans.find? (fun p => p.1 == chKey t c)).map (·.2)
  | none => (s.channel t c).staged

/-- The channels of a launch take their plans. -/
def State.startChannels (s : State) (l : Launch) : State :=
  l.ownedChannels.foldl (fun s p => s.modChannel p.1 p.2 (fun h =>
    let keep := (s.retried l).isSome
    { { h with staged := s.planFor l p.1 p.2 }.startPlan p.1 l.lx l.start with staged := if keep then h.staged else none })) s

/-- The staged plans a launch takes. -/
def State.plansOf (s : State) (l : Launch) : List (Nat × Plan) :=
  l.ownedChannels.filterMap (fun p => (s.planFor l p.1 p.2).map (fun q => (chKey p.1 p.2, q)))

def execLaunchStart (lx : Nat) (s : State) : Result :=
  .next (match s.findLaunch lx with
    | some l =>
      if l.phase = 1 ∧ l.start ≤ s.now then
        let s1 := (List.range (l.ncore + 1)).foldl (fun s i => s.startCore l i) s
        ((s1.startChannels l).setLaunch { l with phase := 2, plans := s1.plansOf l }).postL l 2 0
      else s
    | none => s)

/-! ## Gangs across modules (R264, R329) -/

/-- Every context of a running launch stops with the gang-abort fault; `by'` is the aborting module. -/
def State.abortRunning (s : State) (l : Launch) (by' : Nat) : State :=
  let f : FaultRec := ⟨32, 2, 0, BitVec.ofNat 64 by', 0⟩
  l.cores.foldl (fun s c => s.modOwner c l.ctxNo l.lx (fun k => { k with stops := k.stops ++ [(s.now + 1, f)] })) s

/-- This module gives up a gang: it sends the abort, and its own part is dropped or stops. -/
def State.giveUp (s : State) (l : Launch) : State :=
  let s1 := s.sendAbort l
  if l.phase = 2 then s1.abortRunning l l.modix else s1.dropLaunch l 5 0

/-- The deadline that a command misses: of a TIMED copy the first word that it has still to write, and VAT (R186, R268). -/
def State.deadlineOf (s : State) (m : Cmd) : Nat × Nat :=
  if m.cls = 0 ∧ rcTimed m.c0 then
    ((s.eops.findSome? (fun e => match e.act with
      | .wrLocal d off _ _ _ => if e.cmd = m.id then some (localName m.core d off) else none
      | _ => none)).getD (awAddr m.c2), m.beginAt + bitsAt m.c3 48 16)
  else (0, 0)

/-- Commands that a test of their launch admits and that have not ended take the missed-deadline fault (R216, R329). -/
def State.missDeadlines (s : State) (ok : Launch → Bool) : State :=
  (s.cmds.filter (fun m => decide (m.phase < 2) && (match s.findLaunch m.lx with
    | some l => ok l
    | none => false))).foldl (fun s m => s.stopCmd m.id 16 (s.deadlineOf m).1 (s.deadlineOf m).2) s

/-- The gangs across modules that run here, or whose confirmations are complete, are given up (R264, R329; log entry 32). -/
def State.giveUpGangs (s : State) : State :=
  (s.liveLaunches.filter (fun l => l.nmod != 0 && (l.phase == 2 || l.confirmed.contains l.modix))).foldl (fun s l => s.giveUp l) s

/-- Time lock is lost: KIND 10 where it was locked, deadlines across modules are missed, and gangs across modules are given up (R216,
R264, R327, R329). -/
def State.loseLock (s : State) (lk detail : Nat) : State :=
  let s1 := { s with lock := lk, syncGood := 0 }
  if s.lock = 2 then ((s1.postAll 10 detail s.nowW).missDeadlines (fun l => l.nmod != 0)).giveUpGangs else s1

/-- A launch of a gang on this module, by its launch id. -/
def State.gangOf (s : State) (lid : Nat) : Option Launch :=
  s.launches.find? (fun l => l.lid == lid && l.nmod != 0 && decide (l.phase < 3))

/-- A confirmation, or an abort, that comes before this module has taken its own launch is kept for it; an abort of a gang that has
ended here is over (log entry 47). -/
def State.keepGangMsg (s : State) (lid modix : Nat) (abort : Bool) : State :=
  if s.gangMsgs.contains (lid, modix, abort) || (abort && s.launches.any (fun l => l.lid == lid && l.nmod != 0)) then s
  else { s with gangMsgs := s.gangMsgs ++ [(lid, modix, abort)] }

/-- A confirmation of a gang, and an abort, by another module (R264). -/
def State.gangConfirm (s : State) (lid modix : Nat) : State :=
  match s.gangOf lid with
  | some l => if l.confirmed.contains modix then s else s.setLaunch { l with confirmed := modix :: l.confirmed }
  | none => s.keepGangMsg lid modix false
def State.gangAbort (s : State) (lid modix : Nat) : State :=
  match s.gangOf lid with
  | some l => if l.phase = 2 then s.abortRunning l modix else s.dropLaunch l 5 0
  | none => s.keepGangMsg lid modix true

def execGangConfirm (lid modix : Nat) (s : State) : Result := .next (s.gangConfirm lid modix)

def execGangAbort (lid modix : Nat) (s : State) : Result := .next (s.gangAbort lid modix)

/-- The confirmation deadline of a launch has come and has not been judged; judging it is marked by the module's own index. -/
def State.deadlineDue (s : State) (lx : Nat) : Bool := match s.findLaunch lx with
  | some l => l.phase == 1 && l.nmod != 0 && decide (l.start ≤ s.now + 65536) && !(l.confirmed.contains l.modix)
  | none => false

def execGangConfirmationDeadline (lx : Nat) (s : State) : Result :=
  .next (match s.findLaunch lx with
    | some l =>
      if s.deadlineDue lx then
        let all := (List.range (l.nmod + 1)).all (fun i => i == l.modix || l.confirmed.contains i)
        if s.lock = 2 ∧ all then s.setLaunch { l with confirmed := l.modix :: l.confirmed }
        else (s.sendAbort l).dropLaunch l 4 5
      else s
    | none => s)

/-! ## Cycle-exact mode (R266, R338) -/

/-- No launch is admitted and not yet ended. -/
def State.noneLive (s : State) : Bool := s.liveLaunches.isEmpty

def execCexmWrite (v : BitVec 64) (s : State) : Result :=
  .next { s with pdeg := v.getLsbD 0, cexm := if s.noneLive then v.getLsbD 1 else s.cexm }

end Sys2Proof.Machine
end

