-- ==== Sys2Proof/Machine/Memory.lean ====
section
/-! DEFINITION. The memory slots MA and MB (R60 to R62, R165 to R174, R181 to R183): loads, stores, timed and tag-checked
forms, atomics, moves of address registers, fences, arrivals and signals. -/

namespace Sys2Proof.Machine

/-- A scalar load's effect (R169). -/
def State.loadScalar (s : State) (i : Instr) (u : MemUnit) (d : Dst) (sext : Bool) : State :=
  match memReq s i with
  | some r => s.issueLoad r sext (fun lat fid v => scalarFlights s (memSlot u) d lat fid (v.setWidth 64))
  | none => s

/-- A vector load's effect: the register part lands at once (R169). -/
def State.loadVector (s : State) (i : Instr) (v : BitVec 5) : State :=
  match memReq s i with
  | some r => s.issueLoad r false (fun lat fid w => [s.flight lat fid (.v v.toNat) w (lowMask (8 * r.size)) 0])
  | none => s

/-- A plain store's effect (R169). -/
def State.storePlain (s : State) (i : Instr) : State :=
  match memReq s i with
  | some r => s.issueStore r
  | none => s

/-- A visible-at store's effect (R172). -/
def State.storeTimed (s : State) (i : Instr) : State :=
  match memReq s i with
  | some r => s.issueTimed r
  | none => s

/-- An atomic's effect (R173). -/
def State.atomic (s : State) (i : Instr) (u : MemUnit) (d : Dst) : State :=
  match memReq s i with
  | some r => s.issueAmo r r.arg (fun lat fid v => scalarFlights s (memSlot u) d lat fid (v.setWidth 64))
  | none => s

def execLdI8 (u : MemUnit) (t : BitVec 3) (d : Dst) (a : BitVec 4) (o : BitVec 5) (s : State) : Result :=
  guarded (.ldI8 u t d a o) s (s.loadScalar (.ldI8 u t d a o) u d true)

def execLdN8 (u : MemUnit) (t : BitVec 3) (d : Dst) (a : BitVec 4) (o : BitVec 5) (s : State) : Result :=
  guarded (.ldN8 u t d a o) s (s.loadScalar (.ldN8 u t d a o) u d false)

def execLdI16 (u : MemUnit) (t : BitVec 3) (d : Dst) (a : BitVec 4) (o : BitVec 5) (s : State) : Result :=
  guarded (.ldI16 u t d a o) s (s.loadScalar (.ldI16 u t d a o) u d true)

def execLdN16 (u : MemUnit) (t : BitVec 3) (d : Dst) (a : BitVec 4) (o : BitVec 5) (s : State) : Result :=
  guarded (.ldN16 u t d a o) s (s.loadScalar (.ldN16 u t d a o) u d false)

def execLdI32 (u : MemUnit) (t : BitVec 3) (d : Dst) (a : BitVec 4) (o : BitVec 5) (s : State) : Result :=
  guarded (.ldI32 u t d a o) s (s.loadScalar (.ldI32 u t d a o) u d true)

def execLdN32 (u : MemUnit) (t : BitVec 3) (d : Dst) (a : BitVec 4) (o : BitVec 5) (s : State) : Result :=
  guarded (.ldN32 u t d a o) s (s.loadScalar (.ldN32 u t d a o) u d false)

def execLdI64 (u : MemUnit) (t : BitVec 3) (d : Dst) (a : BitVec 4) (o : BitVec 5) (s : State) : Result :=
  guarded (.ldI64 u t d a o) s (s.loadScalar (.ldI64 u t d a o) u d true)

def execSt8 (u : MemUnit) (t : BitVec 3) (x : BitVec 5) (a : BitVec 4) (o : BitVec 5) (s : State) : Result :=
  guarded (.st8 u t x a o) s (s.storePlain (.st8 u t x a o))

def execSt16 (u : MemUnit) (t : BitVec 3) (x : BitVec 5) (a : BitVec 4) (o : BitVec 5) (s : State) : Result :=
  guarded (.st16 u t x a o) s (s.storePlain (.st16 u t x a o))

def execSt32 (u : MemUnit) (t : BitVec 3) (x : BitVec 5) (a : BitVec 4) (o : BitVec 5) (s : State) : Result :=
  guarded (.st32 u t x a o) s (s.storePlain (.st32 u t x a o))

def execSt64 (u : MemUnit) (t : BitVec 3) (x : BitVec 5) (a : BitVec 4) (o : BitVec 5) (s : State) : Result :=
  guarded (.st64 u t x a o) s (s.storePlain (.st64 u t x a o))

def execVld (u : MemUnit) (t : BitVec 3) (w : BitVec 2) (v : BitVec 5) (a : BitVec 4) (o : BitVec 5) (s : State) : Result :=
  guarded (.vld u t w v a o) s (s.loadVector (.vld u t w v a o) v)

def execVst (u : MemUnit) (t : BitVec 3) (w : BitVec 2) (v : BitVec 5) (a : BitVec 4) (o : BitVec 5) (s : State) : Result :=
  guarded (.vst u t w v a o) s (s.storePlain (.vst u t w v a o))

def execLdTc (u : MemUnit) (t : BitVec 3) (d : Dst) (a : BitVec 4) (q : BitVec 5) (s : State) : Result :=
  guarded (.ldTc u t d a q) s (s.loadScalar (.ldTc u t d a q) u d true)

def execVldTc (u : MemUnit) (t : BitVec 3) (w : BitVec 2) (v : BitVec 5) (a : BitVec 4) (q : BitVec 5) (s : State) : Result :=
  guarded (.vldTc u t w v a q) s (s.loadVector (.vldTc u t w v a q) v)

def execLdNb (u : MemUnit) (t : BitVec 3) (d : Dst) (a : BitVec 4) (q : BitVec 5) (s : State) : Result :=
  guarded (.ldNb u t d a q) s (s.loadScalar (.ldNb u t d a q) u d true)

def execVldNb (u : MemUnit) (t : BitVec 3) (w : BitVec 2) (v : BitVec 5) (a : BitVec 4) (q : BitVec 5) (s : State) : Result :=
  guarded (.vldNb u t w v a q) s (s.loadVector (.vldNb u t w v a q) v)

def execStVa (u : MemUnit) (t : BitVec 3) (x : BitVec 5) (a : BitVec 4) (q : BitVec 5) (s : State) : Result :=
  guarded (.stVa u t x a q) s (s.storeTimed (.stVa u t x a q))

def execVstVa (u : MemUnit) (t : BitVec 3) (w : BitVec 2) (v : BitVec 5) (a : BitVec 4) (q : BitVec 5) (s : State) : Result :=
  guarded (.vstVa u t w v a q) s (s.storeTimed (.vstVa u t w v a q))

def execAmoAdd (u : MemUnit) (t : BitVec 3) (d : Dst) (a : BitVec 4) (q : BitVec 5) (s : State) : Result :=
  guarded (.amoAdd u t d a q) s (s.atomic (.amoAdd u t d a q) u d)

def execAmoAnd (u : MemUnit) (t : BitVec 3) (d : Dst) (a : BitVec 4) (q : BitVec 5) (s : State) : Result :=
  guarded (.amoAnd u t d a q) s (s.atomic (.amoAnd u t d a q) u d)

def execAmoOr (u : MemUnit) (t : BitVec 3) (d : Dst) (a : BitVec 4) (q : BitVec 5) (s : State) : Result :=
  guarded (.amoOr u t d a q) s (s.atomic (.amoOr u t d a q) u d)

def execAmoMax (u : MemUnit) (t : BitVec 3) (d : Dst) (a : BitVec 4) (q : BitVec 5) (s : State) : Result :=
  guarded (.amoMax u t d a q) s (s.atomic (.amoMax u t d a q) u d)

def execAmoSwp (u : MemUnit) (t : BitVec 3) (d : Dst) (a : BitVec 4) (q : BitVec 5) (s : State) : Result :=
  guarded (.amoSwp u t d a q) s (s.atomic (.amoSwp u t d a q) u d)

/-- A result that lands in an A register alone, in no latch (R174; log entry 56). -/
def execLda (u : MemUnit) (t : BitVec 3) (n : BitVec 4) (q : BitVec 5) (s : State) : Result :=
  guarded (.lda u t n q) s
    (s.fly [s.flight 1 0 (.a n.toNat) (((s.sel (memSlot u) q).setWidth 32).setWidth 1024) (lowMask 32) 0])

def execRda (u : MemUnit) (t : BitVec 3) (d : Dst) (a : BitVec 4) (s : State) : Result :=
  guarded (.rda u t d a) s (s.scalarResult (memSlot u) d 1 (BitVec.ofNat 64 (s.areg a)))

/-! ## Fences, arrivals and signals (R181 to R183) -/

/-- Whether a path mask names the path of a command class: class k is bit k + 1 (R62, R209). -/
def maskPath (mask cls : Nat) : Bool := bitAt mask (cls + 1)

/-- The commands of masked paths a context has submitted and that have not ended, and, with the host path, its device writes
that have not completed (R182, R183). -/
def State.maskedCmds (s : State) (mask : Nat) : List Nat :=
  let c := s.iss.core
  let x := s.iss.ctx
  (s.cmds.filter (fun d => d.core == c && d.ctx == x && d.lx == s.cur.lx && decide (d.phase < 2) && maskPath mask d.cls)).map (·.id)
  ++ (if bitAt mask 6 then
        (s.hostWrites.filter (fun w => w.by' == c * 4 + x + 1)).map (·.id)
        ++ (s.hsigs.filter (fun h => h.core == c && h.ctx == x && decide (h.issued < s.now))).map (·.id)
      else [])

def execFence (u : MemUnit) (t : BitVec 3) (scope : BitVec 3) (order : BitVec 2) (mask : BitVec 7) (s : State) : Result :=
  guarded (.fence u t scope order mask) s
    (let f : FenceSt := ⟨scope.toNat, order.toNat, mask.toNat, s.now, s.now + 1, s.maskedCmds mask.toNat⟩
     { s with iss := { s.iss with fence := s.iss.fence ++ [f] } })

def execArrive (u : MemUnit) (t : BitVec 3) (b : BitVec 5) (s : State) : Result :=
  guarded (.arrive u t b) s
    (s.modCore s.iss.core (fun k => { k with
      barStores := k.barStores ++ [⟨s.now + 1, s.now, s.iss.core, s.iss.ctx, .barr b.toNat 1⟩] }))

/-- Adds a signal to those the context holds until their release (R182). -/
def State.addSignal (s : State) (mask b : Nat) (drained : Bool) : State :=
  s.modCur (fun c => { c with
    signals := c.signals ++ [⟨b, mask, drained, s.now, s.maskedCmds mask, false⟩] })

def execSignal (u : MemUnit) (t : BitVec 3) (mask : BitVec 7) (b : BitVec 5) (s : State) : Result :=
  guarded (.signal u t mask b) s (s.addSignal mask.toNat b.toNat false)

def execSignalDrain (u : MemUnit) (t : BitVec 3) (mask : BitVec 7) (b : BitVec 5) (s : State) : Result :=
  guarded (.signalDrain u t mask b) s (s.addSignal mask.toNat b.toNat true)

end Sys2Proof.Machine
end

