-- ==== Sys2Proof/Machine/Crypto.lean ====
section
/-! DEFINITION. The two functions that R334 and R337 name: SHA-512, and RFC 8032 Ed25519. The spec gives their names alone; their text here
is that of FIPS 180-4 and of RFC 8032 (log entry 6). A digest, a key and a signature stand as numbers with byte 0 lowest. -/

namespace Sys2Proof.Machine

/-- `n` bytes of a number, little-endian. -/
def toBytes (n v : Nat) : List Byte := (List.range n).map (fun i => BitVec.ofNat 8 (bitsAt v (8 * i) 8))

/-- A list of bytes as a number, little-endian. -/
def ofBytes (bs : List Byte) : Nat := bs.foldr (fun b acc => b.toNat + 256 * acc) 0

/-! ## SHA-512 (FIPS 180-4) -/

/-- The eight working words. -/
structure Sha where
  a : BitVec 64
  b : BitVec 64
  c : BitVec 64
  d : BitVec 64
  e : BitVec 64
  f : BitVec 64
  g : BitVec 64
  h : BitVec 64
  deriving DecidableEq, Repr

/-- The words that a digest begins from. -/
def Sha.init : Sha :=
  ⟨0x6A09E667F3BCC908, 0xBB67AE8584CAA73B, 0x3C6EF372FE94F82B, 0xA54FF53A5F1D36F1,
   0x510E527FADE682D1, 0x9B05688C2B3E6C1F, 0x1F83D9ABFB41BD6B, 0x5BE0CD19137E2179⟩

/-- The round constants, sixteen by sixteen. -/
def shaK0 : List (BitVec 64) :=
  [0x428A2F98D728AE22, 0x7137449123EF65CD, 0xB5C0FBCFEC4D3B2F, 0xE9B5DBA58189DBBC,
   0x3956C25BF348B538, 0x59F111F1B605D019, 0x923F82A4AF194F9B, 0xAB1C5ED5DA6D8118,
   0xD807AA98A3030242, 0x12835B0145706FBE, 0x243185BE4EE4B28C, 0x550C7DC3D5FFB4E2,
   0x72BE5D74F27B896F, 0x80DEB1FE3B1696B1, 0x9BDC06A725C71235, 0xC19BF174CF692694]

def shaK1 : List (BitVec 64) :=
  [0xE49B69C19EF14AD2, 0xEFBE4786384F25E3, 0x0FC19DC68B8CD5B5, 0x240CA1CC77AC9C65,
   0x2DE92C6F592B0275, 0x4A7484AA6EA6E483, 0x5CB0A9DCBD41FBD4, 0x76F988DA831153B5,
   0x983E5152EE66DFAB, 0xA831C66D2DB43210, 0xB00327C898FB213F, 0xBF597FC7BEEF0EE4,
   0xC6E00BF33DA88FC2, 0xD5A79147930AA725, 0x06CA6351E003826F, 0x142929670A0E6E70]

def shaK2 : List (BitVec 64) :=
  [0x27B70A8546D22FFC, 0x2E1B21385C26C926, 0x4D2C6DFC5AC42AED, 0x53380D139D95B3DF,
   0x650A73548BAF63DE, 0x766A0ABB3C77B2A8, 0x81C2C92E47EDAEE6, 0x92722C851482353B,
   0xA2BFE8A14CF10364, 0xA81A664BBC423001, 0xC24B8B70D0F89791, 0xC76C51A30654BE30,
   0xD192E819D6EF5218, 0xD69906245565A910, 0xF40E35855771202A, 0x106AA07032BBD1B8]

def shaK3 : List (BitVec 64) :=
  [0x19A4C116B8D2D0C8, 0x1E376C085141AB53, 0x2748774CDF8EEB99, 0x34B0BCB5E19B48A8,
   0x391C0CB3C5C95A63, 0x4ED8AA4AE3418ACB, 0x5B9CCA4F7763E373, 0x682E6FF3D6B2B8A3,
   0x748F82EE5DEFB2FC, 0x78A5636F43172F60, 0x84C87814A1F0AB72, 0x8CC702081A6439EC,
   0x90BEFFFA23631E28, 0xA4506CEBDE82BDE9, 0xBEF9A3F7B2C67915, 0xC67178F2E372532B]

def shaK4 : List (BitVec 64) :=
  [0xCA273ECEEA26619C, 0xD186B8C721C0C207, 0xEADA7DD6CDE0EB1E, 0xF57D4F7FEE6ED178,
   0x06F067AA72176FBA, 0x0A637DC5A2C898A6, 0x113F9804BEF90DAE, 0x1B710B35131C471B,
   0x28DB77F523047D84, 0x32CAAB7B40C72493, 0x3C9EBE0A15C9BEBC, 0x431D67C49C100D4C,
   0x4CC5D4BECB3E42B6, 0x597F299CFC657E2A, 0x5FCB6FAB3AD6FAEC, 0x6C44198C4A475817]

/-- The eighty round constants. -/
def shaK : List (BitVec 64) := shaK0 ++ shaK1 ++ shaK2 ++ shaK3 ++ shaK4

/-- One round, by its constant and its word of the message schedule. -/
def Sha.round (v : Sha) (k w : BitVec 64) : Sha :=
  let t1 := v.h + ((v.e.rotateRight 14) ^^^ (v.e.rotateRight 18) ^^^ (v.e.rotateRight 41)) + ((v.e &&& v.f) ^^^ (~~~v.e &&& v.g)) + k + w
  let t2 := ((v.a.rotateRight 28) ^^^ (v.a.rotateRight 34) ^^^ (v.a.rotateRight 39))
    + ((v.a &&& v.b) ^^^ (v.a &&& v.c) ^^^ (v.b &&& v.c))
  ⟨t1 + t2, v.a, v.b, v.c, v.d + t1, v.e, v.f, v.g⟩

/-- The word of the message schedule after sixteen others, the oldest first. -/
def shaNext (w : List (BitVec 64)) : BitVec 64 :=
  let at' (i : Nat) : BitVec 64 := (w[i]?).getD 0
  let x := at' 14
  let y := at' 1
  ((x.rotateRight 19) ^^^ (x.rotateRight 61) ^^^ (x >>> 6)) + at' 9 + ((y.rotateRight 1) ^^^ (y.rotateRight 8) ^^^ (y >>> 7)) + at' 0

/-- A round for each constant, the next sixteen words of the schedule standing in `w`. -/
def Sha.rounds (v : Sha) (ks w : List (BitVec 64)) : Sha :=
  match ks with
  | [] => v
  | k :: r => (v.round k (w.headD 0)).rounds r (w.tail ++ [shaNext w])

def Sha.add (v u : Sha) : Sha := ⟨v.a + u.a, v.b + u.b, v.c + u.c, v.d + u.d, v.e + u.e, v.f + u.f, v.g + u.g, v.h + u.h⟩

/-- The sixteen words of a block of 128 bytes, each big-endian. -/
def blockWords (bs : List Byte) : List (BitVec 64) :=
  (List.range 16).map (fun i => BitVec.ofNat 64 (ofBytes ((bs.drop (8 * i)).take 8).reverse))

/-- `n` blocks go into a digest. -/
def Sha.blocks (v : Sha) (n : Nat) (bs : List Byte) : Sha :=
  match n with
  | 0 => v
  | n + 1 => (v.add (v.rounds shaK (blockWords (bs.take 128)))).blocks n (bs.drop 128)

/-- A message with its padding: a bit of 1, zeros, and its length in bits in 16 bytes, big-endian. -/
def shaPad (bs : List Byte) : List Byte :=
  bs ++ [0x80] ++ List.replicate ((239 - bs.length % 128) % 128) 0 ++ (toBytes 16 (8 * bs.length)).reverse

/-- The 64 bytes of a digest. -/
def Sha.bytes (v : Sha) : List Byte :=
  [v.a, v.b, v.c, v.d, v.e, v.f, v.g, v.h].flatMap (fun x => (toBytes 8 x.toNat).reverse)

/-- SHA-512 of a list of bytes. -/
def sha512 (bs : List Byte) : BitVec 512 :=
  let m := shaPad bs
  BitVec.ofNat 512 (ofBytes (Sha.init.blocks (m.length / 128) m).bytes)

/-! ## Ed25519 (RFC 8032, section 5.1) -/

/-- The prime of the field, the order of the base point, the constant of the curve, and a square root of −1. -/
def edP : Nat := 2 ^ 255 - 19
def edL : Nat := 2 ^ 252 + 27742317777372353535851937790883648493
def edD : Nat := 37095705934669439343138083508754565189542113879843219016388785533085940283555
def edI : Nat := 19681161376707505956807079304988542015446066515923890162744021073123829784752

def fsub (a b : Nat) : Nat := (a + edP - b % edP) % edP

/-- b to the power of the low `n` bits of `e`, in the field. -/
def fpow (n b e : Nat) : Nat :=
  match n with
  | 0 => 1
  | n + 1 =>
    let r := fpow n (b * b % edP) (e / 2)
    if e % 2 = 1 then r * b % edP else r

/-- A point in extended coordinates. -/
structure EdPoint where
  x : Nat
  y : Nat
  z : Nat
  t : Nat
  deriving DecidableEq, Repr

def EdPoint.zero : EdPoint := ⟨0, 1, 1, 0⟩

/-- The base point. -/
def EdPoint.base : EdPoint :=
  let x := 15112221349535400772501151409588531511454012693041857206046113283949847762202
  let y := 46316835694926478169428394003475163141307993866256225615783033603165251855960
  ⟨x, y, 1, x * y % edP⟩

def EdPoint.add (p q : EdPoint) : EdPoint :=
  let a := fsub p.y p.x * fsub q.y q.x % edP
  let b := (p.y + p.x) * (q.y + q.x) % edP
  let c := p.t * 2 * edD * q.t % edP
  let d := p.z * 2 * q.z % edP
  let e := fsub b a
  let f := fsub d c
  let g := (d + c) % edP
  let h := (b + a) % edP
  ⟨e * f % edP, g * h % edP, f * g % edP, e * h % edP⟩

/-- A point times the low `n` bits of a number. -/
def EdPoint.mul (p : EdPoint) (n k : Nat) : EdPoint :=
  match n with
  | 0 => EdPoint.zero
  | n + 1 =>
    let r := (p.add p).mul n (k / 2)
    if k % 2 = 1 then p.add r else r

/-- Two points are one. -/
def EdPoint.same (p q : EdPoint) : Bool := p.x * q.z % edP == q.x * p.z % edP && p.y * q.z % edP == q.y * p.z % edP

/-- The 32 bytes of a point, as a number: y, with the lowest bit of x above it. -/
def EdPoint.encode (p : EdPoint) : Nat :=
  let i := fpow 255 p.z (edP - 2)
  p.y * i % edP + p.x * i % edP % 2 * 2 ^ 255

/-- The point of 32 bytes, if they name one. -/
def edDecode (n : Nat) : Option EdPoint :=
  let y := n % 2 ^ 255
  let sign := n / 2 ^ 255 % 2
  let u := fsub (y * y) 1
  let v := (edD * (y * y) + 1) % edP
  let x0 := u * (v * v * v) % edP * fpow 255 (u * fpow 3 v 7 % edP) ((edP - 5) / 8) % edP
  let vx := v * (x0 * x0) % edP
  let root : Option Nat := if vx = u then some x0 else if vx = fsub 0 u then some (x0 * edI % edP) else none
  match root with
  | none => none
  | some x =>
    if edP ≤ y ∨ (x = 0 ∧ sign = 1) then none
    else
      let x1 := if x % 2 = sign then x else edP - x
      some ⟨x1, y, 1, x1 * y % edP⟩

/-- The digest of bytes as a number, little-endian. -/
def edHash (bs : List Byte) : Nat := (sha512 bs).toNat

/-- The secret scalar of a private key, 32 bytes. -/
def edScalar (seed : BitVec 256) : Nat :=
  let h := edHash (toBytes 32 seed.toNat) % 2 ^ 256
  2 ^ 254 + h % 2 ^ 254 / 8 * 8

/-- The public half of a private key. -/
def ed25519Public (seed : BitVec 256) : BitVec 256 := BitVec.ofNat 256 (EdPoint.base.mul 255 (edScalar seed)).encode

/-- The signature of a message by a private key. -/
def ed25519Sign (seed : BitVec 256) (msg : List Byte) : BitVec 512 :=
  let pub := toBytes 32 (ed25519Public seed).toNat
  let pre := toBytes 32 (edHash (toBytes 32 seed.toNat) / 2 ^ 256)
  let r := edHash (pre ++ msg) % edL
  let rEnc := (EdPoint.base.mul 255 r).encode
  let k := edHash (toBytes 32 rEnc ++ pub ++ msg) % edL
  BitVec.ofNat 512 (rEnc + (r + k * edScalar seed) % edL * 2 ^ 256)

/-- Whether a signature of a message verifies under a public key, by the equation with the cofactor. -/
def ed25519Verify (pub : BitVec 256) (msg : List Byte) (sig : BitVec 512) : Bool :=
  let s := sig.toNat / 2 ^ 256
  let eight (p : EdPoint) : EdPoint := p.mul 4 8
  match edDecode (sig.toNat % 2 ^ 256), edDecode pub.toNat with
  | some r, some a =>
    let k := edHash (toBytes 32 (sig.toNat % 2 ^ 256) ++ toBytes 32 pub.toNat ++ msg) % edL
    decide (s < edL) && (eight (EdPoint.base.mul 255 s)).same (eight (r.add (a.mul 255 k)))
  | _, _ => false

end Sys2Proof.Machine
end

