-- ==== Sys2Proof/Machine/Time.lean ====
section
/-! DEFINITION. Time, steps, trips and ports: NOW's jumps, discipline, tick steps, the governor and Jualmup flits
(R323 to R333, R338, R339). -/

namespace Sys2Proof.Machine

/-! ## NOW (R323, R324, R326) -/

/-- A channel after a jump of NOW to `t`: the idle events it passes do not occur (R288). -/
def Channel.jump (c : Channel) (tier t : Nat) : Channel :=
  if c.idle then
    let i := Channel.at' tier t
    { c with
      rot0 := i.rot0, rot1 := i.rot1, refAt0 := i.refAt0, refAt1 := i.refAt1
      winAt0 := i.winAt0, winAt1 := i.winAt1, winEnd0 := i.winEnd0, winEnd1 := i.winEnd1 }
  else c

/-- NOW jumps forward to `t`; an exchange under way is not measured across the jump (R325). -/
def State.jumpTo (s : State) (t : Nat) : State :=
  if t ≤ s.now then s
  else
    let all : Table Channel := (List.range 256).map (fun c => (chKey 0 c, s.channel 0 c)) ++ (List.range 128).map (fun c => (chKey 1 c, s.channel 1 c))
    { s with channels := all.map (fun p => (p.1, p.2.jump (p.1 / 256) t)), now := t, syncSeen := none }

def execTsetWrite (v : BitVec 64) (s : State) : Result :=
  .next (if s.lock = 0 && s.noneLive && !s.cexm then s.jumpTo v.toNat else s)

/-! ## Discipline (R325 to R327) -/

/-- This module is the reference of its domain (R324). -/
def State.isReference (s : State) : Bool := decide (12 ≤ s.src)

/-- A write to the register of SRC and DEN; a module whose Pupol was refused stays free (R334). -/
def execDenWrite (v : BitVec 64) (s : State) : Result :=
  .next (
    let den := v.getLsbD 4 && s.pupolOk
    let s1 := { s with
      src := bitsAt v.toNat 0 4, den := den, syncAt := if s.den then s.syncAt else (s.now / 4096 + 1) * 4096
      syncSeen := if s.den then s.syncSeen else none, pathTrip := if s.den then s.pathTrip else none }
    if !den then { s1.loseLock 0 0 with coarseTo := none }
    else if s.lock ≠ 0 then s1
    else if s1.isReference then { s1 with lock := 2 }.postAll 11 0 s.nowW
    else { s1 with lock := 1, syncGood := 0, coarseDone := false, coarseTo := none })

/-- A sync is to be sent in this tick. -/
def State.syncDue (s : State) : Bool := s.den && decide (s.syncAt ≤ s.now)

def execSyncSend (s : State) : Result :=
  .next (if s.syncDue then
      { s.tell 15 0 s.nowW with syncAt := (s.now / 4096 + 1) * 4096 }
    else s)

/-- What an acquiring module does with a measured offset: trim it, or set NOW once (R326, R327). -/
def State.acquire (s : State) (estimate : Nat) (off : Int) : State :=
  if 1024 * 256 < off.natAbs then
    let s1 := { s with syncGood := 0 }
    if s.coarseDone then s1
    else if s.now < estimate then { s1 with coarseTo := some (estimate - s.now) }
    else { s1 with coarseDone := true }.postAll 10 1 s.nowW
  else
    let n := if off.natAbs ≤ 256 then s.syncGood + 1 else 0
    let s1 := { s with syncGood := n, coarseTo := none }
    if 16 ≤ n then { s1 with lock := 2 }.postAll 11 0 s.nowW else s1

/-- The offset a sync measures, in 1/256 tick: local NOW, `part` of 256 into its tick, less the sender's stamp and half the round trip,
which is in 1/256 tick (R325). -/
def syncOffset (now part stamp trip : Nat) : Int := 256 * (now : Int) + part - (256 * stamp + trip / 2 : Nat)

/-- The answer to a delay request: with the stamps of the sync and of the request it gives the round trip, in 1/256 tick (R325). -/
def State.hearAnswer (s : State) (p : Nat) (answered : Word) : State :=
  match s.syncSeen with
  | some (sent, came) => if s.den && !s.isReference && p == s.src then
      let trip : Int := (came : Int) - 256 * sent.toNat + 256 * ((answered.toNat : Int) - (s.port p).reqAt)
      { s with pathTrip := some trip.toNat, syncSeen := none } else s
  | none => s

/-- A port carries flits in this tick: it is in service, and not in training (R345, R347). -/
def State.portUp (s : State) (p : Nat) : Bool := (s.port p).inService && decide ((s.port p).until' ≤ s.now)

/-- A sync of the reference arrives on a port: its stamp, and how far into its tick the flit comes. It is answered with a delay request,
and its offset is measured by the round trip of the latest exchange, before the first answer by `trip` ticks (log entry 32). -/
def execSyncReceive (port : Nat) (stamp trip : BitVec 64) (part : BitVec 8) (s : State) : Result :=
  .next (if s.den && !s.isReference && port == s.src && s.portUp port then
      let round := s.pathTrip.getD (256 * trip.toNat)
      let off := syncOffset s.now part.toNat stamp.toNat round
      let s1 := { s.tell port 1 s.nowW with tofs := BitVec.ofInt 32 off, syncSeen := some (stamp, 256 * s.now + part.toNat) }
      match s.lock with
      | 1 => s1.acquire ((256 * stamp.toNat + round / 2) / 256) off
      | 2 => if 3 * 256 < off.natAbs then s1.loseLock 3 0 else s1
      | 3 => { s1 with lock := 1, syncGood := 0, coarseDone := false, coarseTo := none }
      | _ => s1
    else s)

def execSyncNotReceived (s : State) : Result := .next (if s.lock = 2 && !s.isReference then s.loseLock 3 0 else s)

/-- A coarse set is made in this tick (R266, R326). -/
def State.coarseDue (s : State) : Bool := decide (s.lock = 1) && s.coarseTo.isSome && s.noneLive && !s.cexm

def execCoarseSet (s : State) : Result :=
  .next (if s.coarseDue then { s.jumpTo (s.now + s.coarseTo.getD 0) with coarseDone := true, coarseTo := none } else s)

/-! ## Tick steps (R328, R329, R339) -/

/-- A step and its change tick are announced; in a domain the announcement goes on to the modules behind this one (R328). -/
def State.announce (s : State) (step c : Nat) : State :=
  let s1 := { s with stepNext := step, tchg := BitVec.ofNat 64 c, stepPend := true, stepWant := none, stepDom := s.den }.postAll 12 0
    (BitVec.ofNat 64 c)
  if s.den then s1.tell 15 6 (BitVec.ofNat 64 (step + 4 * c)) else s1

/-- The slower of two steps, one of them perhaps absent. -/
def slower (a : Option Nat) (b : Nat) : Nat := Nat.max (a.getD 0) b

/-- The supervisor requests a step: a member of a domain asks its reference; a request made while a change is pending waits. -/
def State.requestStep (s : State) (step : Nat) : State :=
  if step = s.stepF ∧ !s.stepPend then s
  else if s.den && !s.isReference then s.tell s.src 2 (BitVec.ofNat 64 step)
  else if s.stepPend then { s with stepWant := some (slower s.stepWant step) }
  else s.announce step (s.now + (if s.den then 131072 else 65536))

def State.stepDue (s : State) : Bool := s.stepPend && decide (s.tchg.toNat ≤ s.now)

def execStepChange (s : State) : Result :=
  .next (if s.stepDue then
      let s1 := { s with stepF := s.stepNext, stepPend := false, stepWant := none }
      -- a locked module that steps at another tick than its domain loses lock (R327)
      let s2 := if s.lock = 2 ∧ !s.isReference ∧ (!s.stepDom ∨ s.tchg.toNat < s.now) then s1.loseLock 3 0 else s1
      match s.stepWant with
      | some w => s2.requestStep w
      | none => s2
    else s)

/-- The emergency trip: at 1.5 GHz it is noted only; else the step changes at once, every command not ended misses its deadline, time
lock is lost, and running gangs across modules are given up (R329). -/
def State.tripNow (s : State) : State :=
  let s1 := { s with trip := true, tripOn := true }
  if s.stepF = 3 then s1
  else
    let s2 := { s1 with stepF := 3 }.missDeadlines (fun _ => true)
    if s.lock = 2 then s2.loseLock 3 0
    else (s2.launches.filter (fun l => l.phase == 2 && l.nmod != 0)).foldl (fun s l => s.giveUp l) s2

def execThermalTrip (s : State) : Result := .next s.tripNow

def execThermalTripEnd (s : State) : Result := .next { s with tripOn := false }

def execPlimWrite (v : BitVec 64) (s : State) : Result :=
  .next { s with plim := Nat.min 2400 (Nat.max 600 (bitsAt v.toNat 0 16)) }

/-- The end of a window of 65,536 ticks has come (R339). -/
def State.windowEnd (s : State) : Bool := decide (s.windowAt ≤ s.now)

/-- What the governor makes of the power and the temperature of a window (R339). -/
def State.govern (s : State) (pnow : BitVec 16) (tdie : BitVec 8) : State :=
  let cool := decide (10 * pnow.toNat ≤ 9 * s.plim) && decide (tdie.toNat ≤ 85)
  let n := if cool then s.coolWins + 1 else 0
  let s0 := { s with pnow := pnow, tdie := tdie, coolWins := n }
  let s1 := if 105 ≤ tdie.toNat then s0.tripNow else s0
  if 100 ≤ tdie.toNat then s1.requestStep 3
  else if s.plim < pnow.toNat ∨ 95 ≤ tdie.toNat then s1.requestStep (Nat.min 3 (s.stepF + 1))
  else if 16 ≤ n ∧ 0 < s.stepF then { s1 with coolWins := 0 }.requestStep (s.stepF - 1)
  else s1

/-- The window ends with its power and temperature, which the step supplies, and the next one runs to the next multiple of 65,536. -/
def execGovernorWindow (pnow : BitVec 16) (tdie : BitVec 8) (s : State) : Result :=
  .next (if s.windowEnd then { s with windowAt := (s.now / 65536 + 1) * 65536 }.govern pnow tdie else s)

/-! ## Jualmup flits (R332, R333) -/

/-- A port leaves service; with it goes time lock, when it is the path to the reference. -/
def State.portLost (s : State) (p : Nat) : State :=
  let s1 := s.setPort p { s.port p with inService := false }
  if s.den && !s.isReference && s.src == p then s1.loseLock 3 0 else s1

/-- The neighbour of a port asks for the replay of a flit and of every later one; the request after 16 replays of one flit takes the
port out of service, and so does one for a flit that the buffer of 256 no longer holds, which comes only over a path longer than two hops
(R333; log entry 31). -/
def State.replayFrom (s : State) (p : Nat) (seq : BitVec 16) : State :=
  let k := s.port p
  let n := if k.asked.1 = seq ∧ k.asked.2 ≠ 0 then k.asked.2 + 1 else 1
  let s1 := s.setPort p { k with
    asked := (seq, n), again := (k.sent.dropWhile (fun f => decide (f.seq ≠ seq))).map (fun f => (f.seq, f.flit)) }
  if 17 ≤ n ∨ (seq ≠ k.seqOut ∧ k.sent.all (fun f => f.seq != seq)) then s1.portLost p else s1

/-- Words of a lead on another module reach the members on this one (R263). -/
def State.hearLead (s : State) (v : Nat) : State :=
  match s.gangOf (bitsAt v 48 16) with
  | some l => s.handOut l.ctxNo l.lx (leadWord s.now v).2 (leadWord s.now v).1
  | none => s

/-- The stop of a broadcast gang on another module stops its part here, and the lead's going on by `d` ticks lets its members go on
(R263; log entry 46). -/
def State.hearStop (s : State) (lid : Nat) : State :=
  match s.gangOf lid with
  | some l => if l.bcast ∧ l.phase = 2 then s.stopGang l.lx l.ctxNo 0 else s
  | none => s
def State.hearResume (s : State) (lid d : Nat) : State :=
  match s.gangOf lid with
  | some l => s.releaseWords l.ctxNo l.lx d
  | none => s

/-- A message of time and control that a port has brought: delay requests are answered, step requests and announcements go on or are
taken, confirmations, aborts and lead words reach their gang, and a neighbour has its replay (log entry 31). A sync is an event of its
own, which brings the round trip. -/
def State.control (s : State) (p : Nat) (pay : BitVec 896) : State :=
  let v := (Config.controlOf pay).2
  match (Config.controlOf pay).1 with
  | 1 => s.tell p 7 s.nowW
  | 2 => if s.den then (if s.isReference then s.requestStep (v.toNat % 4) else s.tell s.src 2 v) else s
  | 3 => s.gangConfirm (bitsAt v.toNat 0 16) (bitsAt v.toNat 16 8)
  | 4 => s.gangAbort (bitsAt v.toNat 0 16) (bitsAt v.toNat 16 8)
  | 5 => s.hearLead v.toNat
  | 7 => s.hearAnswer p v
  | 6 => if s.den && !s.isReference && p == s.src then s.announce (v.toNat % 4) (v.toNat / 4) else s
  | 8 => s.replayFrom p (v.setWidth 16)
  | 9 => s.hearStop (bitsAt v.toNat 0 16)
  | 10 => s.hearResume (bitsAt v.toNat 0 16) (v.toNat / 2 ^ 16)
  | _ => s

/-- A flit arrives, its bits 959 to 0 and its CRC: one that fails its CRC is dropped and its replay asked for, unless a replay is asked for
already and cannot have come yet, two hops later; one that is not the next of its port is dropped; 16 failed replays in a row take the
port out of service. A flit for another module goes on toward it. What classes 0 and 1 carry for this module
is another module's access (log entry 10). -/
def execLinkFlitReceive (port : Nat) (flit : BitVec 960) (crc : BitVec 64) (s : State) : Result :=
  .next (
    let p := s.port port
    let w := flit.toNat
    if !(s.portUp port) then s
    else if crc ≠ Config.crc64 flit then
      if s.now < p.askUntil then s
      else
        let s1 := (s.setPort port { p with fails := p.fails + 1, askUntil := s.now + 2 * hopTicks s.stepF }).tell port 8 (p.seqIn.setWidth 64)
        if 17 ≤ p.fails + 1 then s1.portLost port else s1
    else if bitsAt w 10 16 ≠ p.seqIn.toNat then s
    else
      let s1 := s.setPort port { p with seqIn := p.seqIn + 1, fails := 0, askUntil := 0 }
      let pay : BitVec 896 := BitVec.ofNat 896 (bitsAt w 64 896)
      if bitsAt w 2 8 ≠ Config.moduleNumber then s1.enqueue (Config.portToward (bitsAt w 2 8)) ⟨bitsAt w 0 2, bitsAt w 2 8, pay, none⟩
      else if bitsAt w 0 2 = 2 then s1.control port pay else s1)

end Sys2Proof.Machine
end

