-- ==== Sys2Proof/Machine/Service.lean ====
section
/-! DEFINITION. Firmware, attestation and service life: boot, rollback counters, the attestation report, and the service operations
with their quiet ticks (R334 to R347). -/

namespace Sys2Proof.Machine

/-! ## Firmware images (R334) -/

/-- `n` bytes of a list from byte `i`, little-endian. -/
def leBytes (bs : List Byte) (i n : Nat) : Nat := ofBytes ((bs.drop i).take n)

/-- The digest an image's signature signs: SHA-512 of header bytes 0 to 127 followed by its LEN bytes. -/
def imageDigest (bs : List Byte) : BitVec 512 := sha512 (bs.take 128 ++ ((bs.drop 256).take (leBytes bs 8 8)))

/-- An image of a TYPE is accepted: its signature verifies under the root key as that of the 64 bytes of the digest, and SVN is at least
the rollback counter. -/
def State.imageAccepted (s : State) (ty : Nat) (bs : List Byte) : Bool :=
  leBytes bs 4 2 == ty && decide (ty ≤ 2)
  && ed25519Verify Config.rootKey (toBytes 64 (imageDigest bs).toNat) (BitVec.ofNat 512 (leBytes bs 128 64))
  && decide (tget s.rollback 0 ty ≤ leBytes bs 6 2)

/-- SVN and digest of an image. -/
def imageFacts (bs : List Byte) : Nat × BitVec 512 := (leBytes bs 6 2, imageDigest bs)

/-- An accepted image of a TYPE runs. -/
def State.runImage (s : State) (ty : Nat) (i : Nat × BitVec 512) : State :=
  { s with svns := tput s.svns ty i.1, digests := tput s.digests ty i.2 }

/-! ## The retirement map (R344) -/

/-- The keys of the channels of the state that a test admits. -/
def State.channelKeys (s : State) (ok : Channel → Bool) : List Nat := (s.channels.filter (fun p => ok p.2)).map (·.1)

/-- The map's bytes. -/
def State.retirementMap (s : State) : List Byte :=
  Config.retirementMap ((s.cores.filter (fun p => p.2.retired)).map (·.1)) ((s.circuits.filter (fun p => p.2.retired)).map (·.1))
    (s.channelKeys (·.retired)) (s.channels.flatMap (fun p => p.2.spared.map (fun r => (p.1 * 32 + r.1, r.2))))
    (s.ports.flatMap (fun p => p.2.lanes.map (fun n => p.1 * 16 + n)))

/-- Bytes enter device memory from a CXL.mem offset. -/
def State.putDevice (s : State) (off : Nat) (bs : List Byte) : State :=
  match bs with
  | [] => s
  | b :: r =>
    let s1 := match s.hostPlace off with
      | some (t, c, k, y) => s.modChannel t c (fun h => { h with mem := mwrite h.mem (chanAddr t k y) b })
      | none => s
    s1.putDevice (off + 1) r

/-- Pupol copies the map to RMAPA. -/
def State.copyMap (s : State) : State :=
  { s.putDevice Config.rmapAddress s.retirementMap with rmapa := BitVec.ofNat 64 Config.rmapAddress }

/-- The map has changed. -/
def State.mapChanged (s : State) : State := { s with rmapv := s.rmapv + 1 }.copyMap

/-! ## Boot, rollback, attestation (R334 to R337) -/

/-- Power-on: the boot ROM verifies the boot loader, which verifies Pupol, which verifies the cellar microcode. -/
def execBoot (s : State) : Result :=
  .next (
    let load (s : State) (ty : Nat) : State × Bool :=
      let bs := Config.bootImage ty
      if s.imageAccepted ty bs then (s.runImage ty (imageFacts bs), true) else (s, false)
    let s0 := { s with booted := true }
    let b := load s0 0
    if !b.2 then { s0 with pupolOk := false }
    else
      let p := load b.1 1
      if !p.2 then { b.1 with pupolOk := false } else { (load p.1 2).1 with pupolOk := true }.copyMap)

def execRollbackRaise (ty : Nat) (v : BitVec 64) (s : State) : Result :=
  .next (match s.svns.find? (fun p => p.1 == ty) with
    | some (_, svn) =>
      if v.toNat ≤ svn ∧ v.toNat ≤ 63 ∧ tget s.rollback 0 ty < v.toNat then { s with rollback := tput s.rollback ty v.toNat } else s
    | none => s)

/-- The public half of the identity key pair (R336). -/
def identityKey : BitVec 256 := ed25519Public Config.identitySecret

/-- Bytes 0 to 447 of the report (R337). -/
def State.reportBody (s : State) : List Byte :=
  (List.range 4).flatMap (fun i => toBytes 8 (tget s.nonce 0 i).toNat)
  ++ toBytes 8 s.now ++ toBytes 8 Config.serialNumber.toNat
  ++ (List.range 16).flatMap (fun t => toBytes 1 (tget s.rollback 0 t))
  ++ (List.range 3).flatMap (fun t => toBytes 64 (tget s.digests 0 t).toNat)
  ++ toBytes 64 (sha512 s.retirementMap).toNat
  ++ toBytes 32 identityKey.toNat ++ List.replicate 96 0

/-- The report in preparation is written in this tick. -/
def State.attestDue (s : State) : Bool := match s.attDue with
  | some t => decide (t ≤ s.now)
  | none => false

/-- The report is written, with its signature, and bit 0 of the status is set (R337). -/
def State.writeReport (s : State) : State :=
  let body := s.reportBody
  let bs := body ++ toBytes 64 (ed25519Sign Config.identitySecret (toBytes 64 (sha512 body).toNat)).toNat
  { s with attRep := (List.range 64).map (fun i => (i, BitVec.ofNat 64 (leBytes bs (8 * i) 8))), attStat := 1, attDue := none }.interrupt 4

/-- A write of 1 to 0x120: the device is busy, bit 1 of the status, until the report is written; a write while it is busy is ignored (R337;
log entry 53). -/
def execAttestationRequest (v : BitVec 64) (s : State) : Result :=
  .next (if s.attestDue then s.writeReport
    else if v = 1 ∧ !(bitAt s.attStat 1) then { s with attStat := s.attStat ||| 2, attDue := some (s.now + 1 + Config.reportTicks s.now) }
    else s)

/-! ## Service requests (R338, R343) -/

/-- A request is written to SOP: ignored while one is pending, refused for a bad target, else pending. -/
def State.request (s : State) (sop : Nat) (tgt : BitVec 8) (arg : BitVec 52) (ok : Bool) : State :=
  if s.sbusy then { s with sres := 4 }
  else if !ok then { s with sres := 1, stgt := tgt, sarg := arg }
  else { s with sbusy := true, sres := 0, stgt := tgt, sarg := arg, service := some ⟨sop, tgt.toNat, arg.toNat, none, 0, none, false⟩ }

def execRetireCore (tgt : BitVec 8) (arg : BitVec 52) (s : State) : Result := .next (s.request 1 tgt arg true)

def execRetireCluster (tgt : BitVec 8) (arg : BitVec 52) (s : State) : Result := .next (s.request 2 tgt arg (decide (tgt.toNat < 32)))

def execRetireChannel (tgt : BitVec 8) (arg : BitVec 52) (s : State) : Result :=
  .next (s.request 3 tgt arg (decide (tgt.toNat < channelsOf (bitsAt arg.toNat 0 1))))

def execSpareARow (tgt : BitVec 8) (arg : BitVec 52) (s : State) : Result :=
  .next (
    let t := bitsAt arg.toNat 0 1
    s.request 4 tgt arg (decide (tgt.toNat < channelsOf t) && decide (bitsAt arg.toNat 6 18 < bankBytes t / 1024)))

def execRetireALinkLane (tgt : BitVec 8) (arg : BitVec 52) (s : State) : Result :=
  .next (s.request 5 tgt arg (decide (tgt.toNat < 12) && decide (arg.toNat ≤ 8)))

def execUpdatePupol (tgt : BitVec 8) (arg : BitVec 52) (s : State) : Result := .next (s.request 6 tgt arg (decide (tgt = 0)))

def execUpdateCellarMicrocode (tgt : BitVec 8) (arg : BitVec 52) (s : State) : Result := .next (s.request 7 tgt arg (decide (tgt.toNat < 4)))

def execRetrainAPort (tgt : BitVec 8) (arg : BitVec 52) (s : State) : Result := .next (s.request 8 tgt arg (decide (tgt.toNat < 12)))

def execCopyATraceRing (tgt : BitVec 8) (arg : BitVec 52) (s : State) : Result := .next (s.request 9 tgt arg true)

/-! ## Quiet ticks (R343, R345 to R347) -/

/-- Launches admitted or in admission. -/
def State.present (s : State) : List Launch := s.launches.filter (fun l => decide (l.phase < 3))

/-- Some context is in service. -/
def State.inService (s : State) : Bool :=
  s.cores.any (fun p => p.2.ctxs.any (fun q => q.2.service.isSome) || p.2.saved.any (fun q => q.2.service.isSome))

/-- Nothing uses the target of an operation (R343); an update waits for its own conditions (R346, R347). -/
def State.quiet (s : State) (o : ServiceOp) : Bool :=
  let free (ok : Launch → Bool) : Bool := s.present.all (fun l => !(ok l))
  match o.sop with
  | 1 | 9 => free (fun l => l.usesCore o.tgt)
  | 2 => free (fun l => (List.range 8).any (fun i => l.usesCore (8 * o.tgt + i)))
  | 3 | 4 => free (fun l => l.ownsCh (bitsAt o.arg 0 1) o.tgt)
  | 6 => !s.inAdmission && !s.inService
  | 7 => free (fun l => l.ownedChannels.any (fun p => dieOfChannel p.1 p.2 == o.tgt))
  | _ => free (fun l => l.nmod != 0)

/-- The operation whose quiet tick this is. -/
def State.quietDue (s : State) : Option ServiceOp := match s.service with
  | some o => if o.doneAt.isNone && s.quiet o && !(s.cexm && decide (o.sop ≤ 8)) && !(o.sop == 9 && s.hostWrites.any (fun w => w.stream.isNone))
      then some o else none
  | none => none

/-- The bytes of a firmware image at a CXL.mem offset: its header, and LEN bytes after it. -/
def State.imageAt (s : State) (off : Nat) : List Byte :=
  let bytes (o n : Nat) : List Byte := (List.range n).map (fun i => match s.hostPlace (o + i) with
    | some (t, c, b, y) => mread (s.channel t c).mem (chanAddr t b y)
    | none => 0)
  let h := bytes off 256
  h ++ bytes (off + 256) (leBytes h 8 8)

/-- The supervisor has read such an image (R341). -/
def State.markImage (s : State) (off : Nat) : State := s.markDevice off (256 + leBytes ((s.imageAt off).take 256) 8 8)

/-- The microcode image that an update has verified at its quiet tick. -/
def State.microcode (s : State) (o : ServiceOp) : Option (Nat × BitVec 512) :=
  let bs := s.imageAt (o.arg * 4096)
  if o.sop = 7 ∧ s.imageAccepted 2 bs then some (imageFacts bs) else none

/-- An operation changes the retirement map: what it retires is in service, and a spared row takes a spare of its own (R338, R344). -/
def State.alters (s : State) (o : ServiceOp) : Bool :=
  match o.sop with
  | 1 => !(s.core o.tgt).retired
  | 2 => !(s.circuit o.tgt).retired || (List.range 8).any (fun i => !(s.core (8 * o.tgt + i)).retired)
  | 3 => !(s.channel (bitsAt o.arg 0 1) o.tgt).retired
  | 4 => decide (tget (s.channel (bitsAt o.arg 0 1) o.tgt).spares 0 (bitsAt o.arg 1 5) < 8)
  | 5 => !(s.port o.tgt).lanes.contains o.arg
  | _ => false

/-- The effect of an operation at its quiet tick, the tick it ends (none: when a device write completes), and its result. -/
def State.operate (s : State) (o : ServiceOp) : State × Option Nat × Nat :=
  match o.sop with
  | 1 => (s.modCore o.tgt (fun k => { k with retired := true }), some s.now, 0)
  | 2 =>
    let s1 := (List.range 8).foldl (fun s i => s.modCore (8 * o.tgt + i) (fun k => { k with retired := true })) s
    (s1.setCircuit o.tgt { s1.circuit o.tgt with retired := true, dir := [] }, some s.now, 0)
  | 3 => (s.modChannel (bitsAt o.arg 0 1) o.tgt (fun c => { c with retired := true }), some s.now, 0)
  | 4 =>
    let t := bitsAt o.arg 0 1
    let b := bitsAt o.arg 1 5
    let n := tget (s.channel t o.tgt).spares 0 b
    if 8 ≤ n then (s, some s.now, 3)
    else (s.modChannel t o.tgt (fun c => { c with spares := tput c.spares b (n + 1) }), some (s.now + 2048), 0)
  | 5 =>
    let p := s.port o.tgt
    let lanes := if p.lanes.contains o.arg then p.lanes else p.lanes ++ [o.arg]
    let s1 := s.setPort o.tgt { p with lanes := lanes }
    (if 6 ≤ lanes.length then s1.portLost o.tgt else s1, some s.now, 0)
  | 6 =>
    let bs := s.imageAt (o.arg * 4096)
    if s.imageAccepted 1 bs then ({ s.runImage 1 (imageFacts bs) with pauseTo := s.now + 262144 }, some (s.now + 262144), 0) else (s, some s.now, 2)
  | 7 => if (s.microcode o).isSome then (s, some (s.now + 65536), 0) else (s, some s.now, 2)
  | 8 =>
    let s1 := s.setPort o.tgt { s.port o.tgt with until' := s.now + 4194304 }
    (if s1.den && !s1.isReference && s1.src == o.tgt then s1.loseLock 3 0 else s1, some (s.now + 4194304), 0)
  | _ =>
    let ring := (s.core o.tgt).trace
    let data := (List.range ring.length).foldr (fun i acc => ((ring[i]?).getD 0).toNat * 2 ^ (128 * i) + acc) 0
    ({ s with nextId := s.nextId + 1, hostWrites := s.hostWrites ++ [⟨s.nextId, 0, o.arg * 64, 4096, data, none⟩] }, none, 0)

def execServiceQuietTick (s : State) : Result :=
  .next (match s.quietDue with
    | some o =>
      let r := (if o.sop = 6 ∨ o.sop = 7 then s.markImage (o.arg * 4096) else s).operate o
      { r.1 with service := some { o with doneAt := r.2.1, result := r.2.2, image := s.microcode o, alters := s.alters o } }
    | none => s)

/-- The operation that ends in this tick. -/
def State.serviceOpDue (s : State) : Option ServiceOp := match s.service with
  | some o => match o.doneAt with
    | some t => if t ≤ s.now then some o else none
    | none => none
  | none => none

/-- What a copy leaves of the error pattern of a sector, by its mode: a sector whose symbols could be corrected has the errors of the bits
that its mode does not cover left, which nothing corrects; any other is copied as it stands (R294, R343). -/
def copiedErr (mode : Nat) (err : BitVec 288) : BitVec 288 := if (eccDecode mode 0 err).2 then BitVec.ofNat 288 (uncovered mode err) else err

/-- A row has been copied to a spare, which answers for it: sectors that could be corrected stand there right (R343). -/
def Channel.copyRow (c : Channel) (tier bank row : Nat) : Channel :=
  let lo := chanAddr tier bank (row * 1024) / 32
  { c with
    spared := c.spared ++ [(bank, row)]
    errs := (c.errs.map (fun p => if lo ≤ p.1 ∧ p.1 < lo + 32 then (p.1, copiedErr (tget c.modes 0 p.1) p.2) else p)).filter
      (fun p => decide (p.2 ≠ 0)) }

/-- What an operation leaves when it is complete: a spared row, a microcode image, and the map where it has changed (R338, R343, R344,
R346). -/
def State.finishOp (s : State) (o : ServiceOp) : State :=
  let mapped (s : State) : State := if o.alters then s.mapChanged else s
  if o.result ≠ 0 then s
  else match o.sop with
  | 4 => mapped ((s.markRow (bitsAt o.arg 0 1) o.tgt (bitsAt o.arg 1 5) (bitsAt o.arg 6 18) none).modChannel (bitsAt o.arg 0 1) o.tgt (fun c => (c.copyRow (bitsAt o.arg 0 1) (bitsAt o.arg 1 5) (bitsAt o.arg 6 18))))
  | 7 => (List.range 64).foldl (fun s i => s.modChannel 0 (64 * o.tgt + i) (fun c => { c with cellar := { c.cellar with prog := [] } }))
      (match o.image with
        | some i => s.runImage 2 i
        | none => s)
  | _ => mapped s

def execServiceOperationDone (s : State) : Result :=
  .next (match s.serviceOpDue with
    | some o => ({ s.finishOp o with sbusy := false, sres := o.result, service := none }.postAll 13 o.tgt s.nowW)
    | none => s)

/-! ## What the host reads on CXL.io (R254, R255, R269, R324, R335 to R338) -/

/-- Eight bytes of a function of byte offsets. -/
def byteWord (f : Nat → Byte) (off : Nat) : Word := BitVec.ofNat 64 ((List.range 8).foldr (fun i n => (f (off + i)).toNat + 256 * n) 0)

/-- The 8-byte word at an offset of the first range: packet slots and stream registers (R254, R255). -/
def State.readStreams (s : State) (off : Nat) : Word :=
  if off < 0x8000 then
    let q := off / 0x1000
    if q < 4 then tget (s.stream q).slots 0 (off % 0x1000 / 8) else 0
  else if off < 0x8100 then
    let st := s.stream ((off - 0x8000) / 0x40)
    match (off - 0x8000) % 0x40 with
    | 0x00 => BitVec.ofNat 64 (st.prio + (if st.en then 4 else 0))
    | 0x08 => BitVec.ofNat 64 ((List.range 8).foldl (fun n k => if st.closed.any (fun p => p.1 == k) then n + 2 ^ k else n) 0
        + (if st.drop then 2 ^ 8 else 0) + (if st.ended then 2 ^ 9 else 0) + (if st.evovf then 2 ^ 10 else 0))
    | 0x10 => st.evbase
    | 0x18 => BitVec.ofNat 64 st.evlog
    | 0x20 => st.evhead.setWidth 64
    | 0x28 => st.evtail.setWidth 64
    | _ => 0
  else 0

/-- The word at an offset of the second range: the fault records (R269). -/
def State.readRecords (s : State) (off : Nat) : Word := ((s.ctx (off / 256) (off / 64 % 4)).record[off / 8 % 8]?).getD 0

/-- The word at an offset of the third range: time, attestation, rollback counters, the certificate and the service registers; an
offset that no rule defines reads 0 (R324, R335 to R338). -/
def State.readTime (s : State) (off : Nat) : Word :=
  let bit (b : Bool) (i : Nat) : Nat := if b then 2 ^ i else 0
  if off = 0x000 then s.nowW
  else if off = 0x008 then
    BitVec.ofNat 64 (s.lock % 4 + s.stepF % 4 * 2 ^ 2 + s.stepNext % 4 * 2 ^ 4 + bit s.stepPend 6 + bit s.trip 7)
  else if off = 0x010 then s.tchg
  else if off = 0x018 then s.tofs.setWidth 64
  else if off = 0x020 then BitVec.ofNat 64 (s.src + bit s.den 4)
  else if 0x100 ≤ off ∧ off < 0x120 then tget s.nonce 0 ((off - 0x100) / 8)
  else if off = 0x128 then BitVec.ofNat 64 s.attStat
  else if 0x200 ≤ off ∧ off < 0x400 then tget s.attRep 0 ((off - 0x200) / 8)
  else if 0x400 ≤ off ∧ off < 0x410 then byteWord (fun i => BitVec.ofNat 8 (tget s.rollback 0 (i - 0x400))) off
  else if 0x800 ≤ off ∧ off < 0xC00 then byteWord (fun i => Config.certificate (i - 0x800)) off
  else if off = 0xC00 then BitVec.ofNat 64 s.plim
  else if off = 0xC08 then BitVec.ofNat 64 (s.pnow.toNat + s.tdie.toNat * 2 ^ 16)
  else if off = 0xC10 then BitVec.ofNat 64 (bit s.pdeg 0 + bit s.cexm 1)
  else if off = 0xC18 then BitVec.ofNat 64 (s.stgt.toNat * 2 ^ 4 + s.sarg.toNat * 2 ^ 12)
  else if off = 0xC20 then BitVec.ofNat 64 (bit s.sbusy 0 + s.sres % 8 * 2)
  else if off = 0xC28 then BitVec.ofNat 64 s.secor
  else if off = 0xC30 then BitVec.ofNat 64 s.seunc
  else if off = 0xC38 then s.rmapa
  else if off = 0xC40 then s.rmapv.setWidth 64
  else 0

end Sys2Proof.Machine
end

