-- ==== Sys2Proof/Machine/Dispatch.lean ====
section
/-! DEFINITION. One arm per instruction: a direct call of its meaning. -/

namespace Sys2Proof.Machine

def exec (i : Instr) (s : State) : Host.Outcome State Fault Refusal :=
  match i with
  | .issueWord core ctx => Sys2Proof.Machine.execIssueWord core ctx s
  | .resultLanding core ctx => Sys2Proof.Machine.execResultLanding core ctx s
  | .arrayRowExit core => Sys2Proof.Machine.execArrayRowExit core s
  | .drainingBranch core ctx => Sys2Proof.Machine.execDrainingBranch core ctx s
  | .waitMet core ctx => Sys2Proof.Machine.execWaitMet core ctx s
  | .waccWrap core ctx => Sys2Proof.Machine.execWaccWrap core ctx s
  | .budgetTrap core ctx => Sys2Proof.Machine.execBudgetTrap core ctx s
  | .nop u => Sys2Proof.Machine.execNop u s
  | .memNop u => Sys2Proof.Machine.execMemNop u s
  | .prep b disp => Sys2Proof.Machine.execPrep b disp s
  | .prepr b q => Sys2Proof.Machine.execPrepr b q s
  | .xfer bt n1 pb pol => Sys2Proof.Machine.execXfer bt n1 pb pol s
  | .go b => Sys2Proof.Machine.execGo b s
  | .loop lvl q => Sys2Proof.Machine.execLoop lvl q s
  | .ldelta lvl a q => Sys2Proof.Machine.execLdelta lvl a q s
  | .ldk k q half => Sys2Proof.Machine.execLdk k q half s
  | .waitBarrier b => Sys2Proof.Machine.execWaitBarrier b s
  | .waitQueue q => Sys2Proof.Machine.execWaitQueue q s
  | .waitTick q => Sys2Proof.Machine.execWaitTick q s
  | .waitEngine cls => Sys2Proof.Machine.execWaitEngine cls s
  | .budr d => Sys2Proof.Machine.execBudr d s
  | .trap code => Sys2Proof.Machine.execTrap code s
  | .halt => Sys2Proof.Machine.execHalt s
  | .tmark q => Sys2Proof.Machine.execTmark q s
  | .hsig q => Sys2Proof.Machine.execHsig q s
  | .add u t d a b => Sys2Proof.Machine.execAdd u t d a b s
  | .sub u t d a b => Sys2Proof.Machine.execSub u t d a b s
  | .and u t d a b => Sys2Proof.Machine.execAnd u t d a b s
  | .or u t d a b => Sys2Proof.Machine.execOr u t d a b s
  | .xor u t d a b => Sys2Proof.Machine.execXor u t d a b s
  | .andn u t d a b => Sys2Proof.Machine.execAndn u t d a b s
  | .shl u t d a b => Sys2Proof.Machine.execShl u t d a b s
  | .shr u t d a b => Sys2Proof.Machine.execShr u t d a b s
  | .sar u t d a b => Sys2Proof.Machine.execSar u t d a b s
  | .rol u t d a b => Sys2Proof.Machine.execRol u t d a b s
  | .min u t d a b => Sys2Proof.Machine.execMin u t d a b s
  | .max u t d a b => Sys2Proof.Machine.execMax u t d a b s
  | .minu u t d a b => Sys2Proof.Machine.execMinu u t d a b s
  | .maxu u t d a b => Sys2Proof.Machine.execMaxu u t d a b s
  | .mul u t d a b => Sys2Proof.Machine.execMul u t d a b s
  | .mulh u t d a b => Sys2Proof.Machine.execMulh u t d a b s
  | .mulhu u t d a b => Sys2Proof.Machine.execMulhu u t d a b s
  | .clz u t d a => Sys2Proof.Machine.execClz u t d a s
  | .ctz u t d a => Sys2Proof.Machine.execCtz u t d a s
  | .pcnt u t d a => Sys2Proof.Machine.execPcnt u t d a s
  | .sext u t d a b => Sys2Proof.Machine.execSext u t d a b s
  | .zext u t d a b => Sys2Proof.Machine.execZext u t d a b s
  | .cat7 u t d a b => Sys2Proof.Machine.execCat7 u t d a b s
  | .cmp u t p c a b => Sys2Proof.Machine.execCmp u t p c a b s
  | .cmpa u t p c a b => Sys2Proof.Machine.execCmpa u t p c a b s
  | .cmpo u t p c a b => Sys2Proof.Machine.execCmpo u t p c a b s
  | .prd u t d => Sys2Proof.Machine.execPrd u t d s
  | .pwr u t a => Sys2Proof.Machine.execPwr u t a s
  | .xadd t d a b => Sys2Proof.Machine.execXadd t d a b s
  | .xsub t d a b => Sys2Proof.Machine.execXsub t d a b s
  | .xshl t d a b => Sys2Proof.Machine.execXshl t d a b s
  | .xshr t d a b => Sys2Proof.Machine.execXshr t d a b s
  | .xand t d a b => Sys2Proof.Machine.execXand t d a b s
  | .xpcnt t d a => Sys2Proof.Machine.execXpcnt t d a s
  | .cadv t d a b => Sys2Proof.Machine.execCadv t d a b s
  | .cadvp t d a b => Sys2Proof.Machine.execCadvp t d a b s
  | .aqp t a b => Sys2Proof.Machine.execAqp t a b s
  | .xlea t d a b => Sys2Proof.Machine.execXlea t d a b s
  | .xmin t d a b => Sys2Proof.Machine.execXmin t d a b s
  | .xmax t d a b => Sys2Proof.Machine.execXmax t d a b s
  | .aqfree t d => Sys2Proof.Machine.execAqfree t d s
  | .gatherRead core ctx => Sys2Proof.Machine.execGatherRead core ctx s
  | .gatherDeliver core ctx => Sys2Proof.Machine.execGatherDeliver core ctx s
  | .vadd u f => Sys2Proof.Machine.execVadd u f s
  | .vsub u f => Sys2Proof.Machine.execVsub u f s
  | .vmul u f => Sys2Proof.Machine.execVmul u f s
  | .vfma u f => Sys2Proof.Machine.execVfma u f s
  | .vmin u f => Sys2Proof.Machine.execVmin u f s
  | .vmax u f => Sys2Proof.Machine.execVmax u f s
  | .vexp2 u f => Sys2Proof.Machine.execVexp2 u f s
  | .vrsqrt u f => Sys2Proof.Machine.execVrsqrt u f s
  | .vrecip u f => Sys2Proof.Machine.execVrecip u f s
  | .vcvt u f => Sys2Proof.Machine.execVcvt u f s
  | .vcmp u f => Sys2Proof.Machine.execVcmp u f s
  | .vsel u f => Sys2Proof.Machine.execVsel u f s
  | .vrot u f => Sys2Proof.Machine.execVrot u f s
  | .vshuf u f => Sys2Proof.Machine.execVshuf u f s
  | .vscan u f => Sys2Proof.Machine.execVscan u f s
  | .vscanx u f => Sys2Proof.Machine.execVscanx u f s
  | .vred u f => Sys2Proof.Machine.execVred u f s
  | .vredx u f => Sys2Proof.Machine.execVredx u f s
  | .vredn u f => Sys2Proof.Machine.execVredn u f s
  | .vcx u f => Sys2Proof.Machine.execVcx u f s
  | .vclmul u f => Sys2Proof.Machine.execVclmul u f s
  | .vpcnt u f => Sys2Proof.Machine.execVpcnt u f s
  | .vand u f => Sys2Proof.Machine.execVand u f s
  | .vor u f => Sys2Proof.Machine.execVor u f s
  | .vxor u f => Sys2Proof.Machine.execVxor u f s
  | .vshl u f => Sys2Proof.Machine.execVshl u f s
  | .vshr u f => Sys2Proof.Machine.execVshr u f s
  | .vbc u f => Sys2Proof.Machine.execVbc u f s
  | .vabs u f => Sys2Proof.Machine.execVabs u f s
  | .vneg u f => Sys2Proof.Machine.execVneg u f s
  | .lsh t lw la => Sys2Proof.Machine.execLsh t lw la s
  | .acc t b => Sys2Proof.Machine.execAcc t b s
  | .acl t b lw la => Sys2Proof.Machine.execAcl t b lw la s
  | .psh t pa => Sys2Proof.Machine.execPsh t pa s
  | .psl t pa lw la => Sys2Proof.Machine.execPsl t pa lw la s
  | .pac t pa b => Sys2Proof.Machine.execPac t pa b s
  | .pal t pa b lw la => Sys2Proof.Machine.execPal t pa b lw la s
  | .fmtw t q => Sys2Proof.Machine.execFmtw t q s
  | .fmtr t g => Sys2Proof.Machine.execFmtr t g s
  | .rmode t m => Sys2Proof.Machine.execRmode t m s
  | .afmt t ty => Sys2Proof.Machine.execAfmt t ty s
  | .bfmt t ty => Sys2Proof.Machine.execBfmt t ty s
  | .scal t v => Sys2Proof.Machine.execScal t v s
  | .fclr t m => Sys2Proof.Machine.execFclr t m s
  | .gpsh t e => Sys2Proof.Machine.execGpsh t e s
  | .glat t e => Sys2Proof.Machine.execGlat t e s
  | .gsr t e => Sys2Proof.Machine.execGsr t e s
  | .eSub t a => Sys2Proof.Machine.execESub t a s
  | .ldI8 u t d a o => Sys2Proof.Machine.execLdI8 u t d a o s
  | .ldN8 u t d a o => Sys2Proof.Machine.execLdN8 u t d a o s
  | .ldI16 u t d a o => Sys2Proof.Machine.execLdI16 u t d a o s
  | .ldN16 u t d a o => Sys2Proof.Machine.execLdN16 u t d a o s
  | .ldI32 u t d a o => Sys2Proof.Machine.execLdI32 u t d a o s
  | .ldN32 u t d a o => Sys2Proof.Machine.execLdN32 u t d a o s
  | .ldI64 u t d a o => Sys2Proof.Machine.execLdI64 u t d a o s
  | .st8 u t x a o => Sys2Proof.Machine.execSt8 u t x a o s
  | .st16 u t x a o => Sys2Proof.Machine.execSt16 u t x a o s
  | .st32 u t x a o => Sys2Proof.Machine.execSt32 u t x a o s
  | .st64 u t x a o => Sys2Proof.Machine.execSt64 u t x a o s
  | .vld u t w v a o => Sys2Proof.Machine.execVld u t w v a o s
  | .vst u t w v a o => Sys2Proof.Machine.execVst u t w v a o s
  | .ldTc u t d a q => Sys2Proof.Machine.execLdTc u t d a q s
  | .vldTc u t w v a q => Sys2Proof.Machine.execVldTc u t w v a q s
  | .ldNb u t d a q => Sys2Proof.Machine.execLdNb u t d a q s
  | .vldNb u t w v a q => Sys2Proof.Machine.execVldNb u t w v a q s
  | .stVa u t x a q => Sys2Proof.Machine.execStVa u t x a q s
  | .vstVa u t w v a q => Sys2Proof.Machine.execVstVa u t w v a q s
  | .timedWrite core => Sys2Proof.Machine.execTimedWrite core s
  | .amoAdd u t d a q => Sys2Proof.Machine.execAmoAdd u t d a q s
  | .amoAnd u t d a q => Sys2Proof.Machine.execAmoAnd u t d a q s
  | .amoOr u t d a q => Sys2Proof.Machine.execAmoOr u t d a q s
  | .amoMax u t d a q => Sys2Proof.Machine.execAmoMax u t d a q s
  | .amoSwp u t d a q => Sys2Proof.Machine.execAmoSwp u t d a q s
  | .fence u t scope order mask => Sys2Proof.Machine.execFence u t scope order mask s
  | .fenceRelease core ctx => Sys2Proof.Machine.execFenceRelease core ctx s
  | .arrive u t b => Sys2Proof.Machine.execArrive u t b s
  | .signal u t mask b => Sys2Proof.Machine.execSignal u t mask b s
  | .signalDrain u t mask b => Sys2Proof.Machine.execSignalDrain u t mask b s
  | .signalRelease core ctx => Sys2Proof.Machine.execSignalRelease core ctx s
  | .drain t b ty z a o => Sys2Proof.Machine.execDrain t b ty z a o s
  | .lda u t n q => Sys2Proof.Machine.execLda u t n q s
  | .rda u t d a => Sys2Proof.Machine.execRda u t d a s
  | .hcwEntryWrite core => Sys2Proof.Machine.execHcwEntryWrite core s
  | .barrWrite core => Sys2Proof.Machine.execBarrWrite core s
  | .releaseWordWrite core => Sys2Proof.Machine.execReleaseWordWrite core s
  | .registerWrite host core off v => Sys2Proof.Machine.execRegisterWrite host core off v s
  | .barrierComplete core b => Sys2Proof.Machine.execBarrierComplete core b s
  | .barrierMirrorFlip core b => Sys2Proof.Machine.execBarrierMirrorFlip core b s
  | .messageSend core ctx => Sys2Proof.Machine.execMessageSend core ctx s
  | .messageDeliver core ctx => Sys2Proof.Machine.execMessageDeliver core ctx s
  | .copyCommand id => Sys2Proof.Machine.execCopyCommand id s
  | .gatherCommand id => Sys2Proof.Machine.execGatherCommand id s
  | .circuitEvaluate id => Sys2Proof.Machine.execCircuitEvaluate id s
  | .parameterUpdate id => Sys2Proof.Machine.execParameterUpdate id s
  | .collectiveCommand id => Sys2Proof.Machine.execCollectiveCommand id s
  | .cellarLaunch id => Sys2Proof.Machine.execCellarLaunch id s
  | .engineCommandEnd id => Sys2Proof.Machine.execEngineCommandEnd id s
  | .pageFetch id => Sys2Proof.Machine.execPageFetch id s
  | .ceNop n => Sys2Proof.Machine.execCeNop n s
  | .ceJset d imm => Sys2Proof.Machine.execCeJset d imm s
  | .ceJadd d a imm => Sys2Proof.Machine.execCeJadd d a imm s
  | .ceBnz d target => Sys2Proof.Machine.execCeBnz d target s
  | .ceWait a => Sys2Proof.Machine.execCeWait a s
  | .ceCfmt wty aty ecc => Sys2Proof.Machine.execCeCfmt wty aty ecc s
  | .ceAld b a => Sys2Proof.Machine.execCeAld b a s
  | .ceClr m => Sys2Proof.Machine.execCeClr m s
  | .ceWdot a b s1 e => Sys2Proof.Machine.execCeWdot a b s1 e s
  | .ceWdotAdd a b s1 e => Sys2Proof.Machine.execCeWdotAdd a b s1 e s
  | .cePsc a b c e w => Sys2Proof.Machine.execCePsc a b c e w s
  | .ceScl a m => Sys2Proof.Machine.execCeScl a m s
  | .cePtop c k1 d f => Sys2Proof.Machine.execCePtop c k1 d f s
  | .ceOut c f ty z => Sys2Proof.Machine.execCeOut c f ty z s
  | .ceEnd => Sys2Proof.Machine.execCeEnd s
  | .refresh tier ch pc => Sys2Proof.Machine.execRefresh tier ch pc s
  | .refreshManagement tier ch bank => Sys2Proof.Machine.execRefreshManagement tier ch bank s
  | .hostWindow tier ch pc => Sys2Proof.Machine.execHostWindow tier ch pc s
  | .debtInterval tier ch pc => Sys2Proof.Machine.execDebtInterval tier ch pc s
  | .forcedRefresh tier ch pc => Sys2Proof.Machine.execForcedRefresh tier ch pc s
  | .disturbReport tier ch bank row corrupt => Sys2Proof.Machine.execDisturbReport tier ch bank row corrupt s
  | .hostMemWrite off data => Sys2Proof.Machine.execHostMemWrite off data s
  | .hostMemRead off => Sys2Proof.Machine.execHostMemRead off s
  | .packetClose q k v => Sys2Proof.Machine.execPacketClose q k v s
  | .streamNextPacket q => Sys2Proof.Machine.execStreamNextPacket q s
  | .launch q => Sys2Proof.Machine.execLaunch q s
  | .waitForTick q => Sys2Proof.Machine.execWaitForTick q s
  | .signalHost q => Sys2Proof.Machine.execSignalHost q s
  | .loadCode q => Sys2Proof.Machine.execLoadCode q s
  | .loadCircuitObject q => Sys2Proof.Machine.execLoadCircuitObject q s
  | .loadTimeline q => Sys2Proof.Machine.execLoadTimeline q s
  | .endStream q => Sys2Proof.Machine.execEndStream q s
  | .scfgWrite q v => Sys2Proof.Machine.execScfgWrite q v s
  | .sstatWrite q v => Sys2Proof.Machine.execSstatWrite q v s
  | .admission => Sys2Proof.Machine.execAdmission s
  | .launchRefuseLate q => Sys2Proof.Machine.execLaunchRefuseLate q s
  | .launchStart lx => Sys2Proof.Machine.execLaunchStart lx s
  | .bankGrant core => Sys2Proof.Machine.execBankGrant core s
  | .haltBankRelease core ctx => Sys2Proof.Machine.execHaltBankRelease core ctx s
  | .contextRelease core ctx => Sys2Proof.Machine.execContextRelease core ctx s
  | .scrubEnd core => Sys2Proof.Machine.execScrubEnd core s
  | .preemption lx => Sys2Proof.Machine.execPreemption lx s
  | .restore core ctx => Sys2Proof.Machine.execRestore core ctx s
  | .faultStop core ctx => Sys2Proof.Machine.execFaultStop core ctx s
  | .serviceEnd core ctx => Sys2Proof.Machine.execServiceEnd core ctx s
  | .gangConfirm lid modix => Sys2Proof.Machine.execGangConfirm lid modix s
  | .gangAbort lid modix => Sys2Proof.Machine.execGangAbort lid modix s
  | .cexmWrite v => Sys2Proof.Machine.execCexmWrite v s
  | .plimWrite v => Sys2Proof.Machine.execPlimWrite v s
  | .tsetWrite v => Sys2Proof.Machine.execTsetWrite v s
  | .denWrite v => Sys2Proof.Machine.execDenWrite v s
  | .syncSend => Sys2Proof.Machine.execSyncSend s
  | .syncReceive port stamp trip part => Sys2Proof.Machine.execSyncReceive port stamp trip part s
  | .coarseSet => Sys2Proof.Machine.execCoarseSet s
  | .stepChange => Sys2Proof.Machine.execStepChange s
  | .thermalTrip => Sys2Proof.Machine.execThermalTrip s
  | .governorWindow pnow tdie => Sys2Proof.Machine.execGovernorWindow pnow tdie s
  | .linkFlitReceive port flit crc => Sys2Proof.Machine.execLinkFlitReceive port flit crc s
  | .boot => Sys2Proof.Machine.execBoot s
  | .rollbackRaise ty v => Sys2Proof.Machine.execRollbackRaise ty v s
  | .attestationRequest v => Sys2Proof.Machine.execAttestationRequest v s
  | .retireCore tgt arg => Sys2Proof.Machine.execRetireCore tgt arg s
  | .retireCluster tgt arg => Sys2Proof.Machine.execRetireCluster tgt arg s
  | .retireChannel tgt arg => Sys2Proof.Machine.execRetireChannel tgt arg s
  | .spareARow tgt arg => Sys2Proof.Machine.execSpareARow tgt arg s
  | .retireALinkLane tgt arg => Sys2Proof.Machine.execRetireALinkLane tgt arg s
  | .updatePupol tgt arg => Sys2Proof.Machine.execUpdatePupol tgt arg s
  | .updateCellarMicrocode tgt arg => Sys2Proof.Machine.execUpdateCellarMicrocode tgt arg s
  | .retrainAPort tgt arg => Sys2Proof.Machine.execRetrainAPort tgt arg s
  | .copyATraceRing tgt arg => Sys2Proof.Machine.execCopyATraceRing tgt arg s
  | .serviceQuietTick => Sys2Proof.Machine.execServiceQuietTick s
  | .serviceOperationDone => Sys2Proof.Machine.execServiceOperationDone s
  | .dramPatrolScrub tier ch => Sys2Proof.Machine.execDramPatrolScrub tier ch s
  | .packetWordWrite q k word size v => Sys2Proof.Machine.execPacketWordWrite q k word size v s
  | .syncNotReceived => Sys2Proof.Machine.execSyncNotReceived s
  | .temperatureClassChange tier stack hot => Sys2Proof.Machine.execTemperatureClassChange tier stack hot s
  | .gangConfirmationDeadline lx => Sys2Proof.Machine.execGangConfirmationDeadline lx s
  | .deviceWriteCompletion => Sys2Proof.Machine.execDeviceWriteCompletion s
  | .thermalTripEnd => Sys2Proof.Machine.execThermalTripEnd s

end Sys2Proof.Machine
end

