-- ==== Sys2Proof/Machine/Sched.lean ====
section
/-! DEFINITION. What happens next in a tick. The events of a tick are taken in a fixed order: landings, queue entries, what comes from
outside and the supervisor, DRAM and the engines, stops and conditions, the issue of bundles, the beginning of commands, and, at
the end of the tick, the accesses that perform in it; then NOW advances (R7, R23, R167, R183, R194, R270). -/

namespace Sys2Proof.Machine

/-- What a step takes: an event with the state it acts on, a step of the machine's own, or a cellar engine at a reserved word. -/
inductive Pick where
  | event (i : Instr) (s : State)
  | own (s : State)
  | stuck

/-- The contexts the state lists. -/
def State.places (s : State) : List (Nat × Nat) := s.cores.flatMap (fun p => p.2.ctxs.map (fun q => (p.1, q.1)))

/-- The first listed context that satisfies a test, as an event. -/
def State.atPlace (s : State) (ok : Nat → Nat → Bool) (mk : Nat → Nat → Instr) : Option Instr :=
  (s.places.find? (fun p => ok p.1 p.2)).map (fun p => mk p.1 p.2)

/-- A test of a context or of what is saved under its number. -/
def State.liveOrSaved (s : State) (ok : Ctx → Bool) (core ctx : Nat) : Bool :=
  ok (s.ctx core ctx) || (s.core core).saved.any (fun p => p.1 == ctx && ok p.2)

/-! ## Landings and queues -/

/-- The event of a flight that is due. -/
def landEvent (core ctx : Nat) (f : Flight) : Instr :=
  if f.toHcw then .hcwEntryWrite core else if f.toWindow then .registerWrite false core 0 0 else .resultLanding core ctx

/-- The store to a barrier window that is due on a core. -/
def Core.barEvent (k : Core) (now core : Nat) : Option Instr :=
  if (k.barDue now BarStore.isArrival).isSome then some (.barrWrite core)
  else if (k.barDue now BarStore.isRelease).isSome then some (.releaseWordWrite core)
  else if (k.barDue now BarStore.isRegister).isSome then some (.registerWrite false core 0 0)
  else none

/-- What lands in this tick (R22, R75, R146, R179, R180). -/
def State.landNext (s : State) : Option Instr :=
  match s.places.findSome? (fun p => ((s.ctx p.1 p.2).nextDue s.now).map (landEvent p.1 p.2)) with
  | some i => some i
  | none => match s.cores.findSome? (fun p => p.2.barEvent s.now p.1) with
    | some i => some i
    | none => s.cores.findSome? (fun p =>
        (p.2.barriers.find? (fun b => b.2.flipDue s.now)).map (fun b => .barrierMirrorFlip p.1 b.1))

/-- The launch that starts next: due, and admitted first (R260, R261). -/
def State.startNext (s : State) : Option Launch :=
  s.launches.foldl (fun best l => if l.phase = 1 ∧ l.start ≤ s.now then (match best with
    | none => some l
    | some b => if l.order < b.order then some l else some b) else best) none

/-- A command writes into a bank in this tick whose slot it reserved before the read of an entry of the address queue (R194, R211). -/
def State.writeBefore (s : State) (core : Nat) (e : AqEntry) : Bool :=
  match localPlace core e.addr.toNat with
  | some (d, off) => (s.core d).writeFirst (bankOf off) s.now && s.eops.any (fun p => decide (p.tick ≤ s.now) && (match p.act with
      | .wrLocal c a _ _ _ | .evalOut _ c a | .ceWrite c a _ _ => c == d && bankOf a == bankOf off
      | _ => false))
  | none => false

/-- The next read of a context's address queue performs now, before what the engines still do in this tick. -/
def State.pushRead (s : State) (core : Nat) (c : Ctx) : Bool := match firstRead s.now c.aq with
  | some e => !(s.writeBefore core e)
  | none => false

/-- What enters a queue in this tick (R139, R176); a launch of this tick has started before a message is judged (R178). -/
def State.queueNext (s : State) : Option Instr :=
  match s.atPlace (fun c x => s.liveOrSaved (s.pushRead c) c x) .gatherRead with
  | some i => some i
  | none => match s.atPlace (s.liveOrSaved (gatherDeliverDue s.now)) .gatherDeliver with
    | some i => some i
    | none => match s.startNext with
      | some l => some (.launchStart l.lx)
      | none => (s.msgs.find? (fun m => m.sent && decide (m.deliver ≤ s.now))).map (fun m => .messageDeliver m.dcore m.dctx)

/-! ## The supervisor (R254 to R266, R323 to R347) -/

/-- What the stream q does in this tick. -/
def State.streamNext (s : State) (q : Nat) : Option Instr :=
  if s.takesPacket q then some (.streamNextPacket q)
  else match (s.stream q).held with
    | none => none
    | some h =>
      match h.code with
      | 1 => if h.prog = 0 then some (.launch q) else if (s.lateLaunch q).isSome then some (.launchRefuseLate q) else none
      | 2 => if s.tickCome q then some (.waitForTick q) else none
      | 3 => if s.streamDone q then some (.signalHost q) else none
      | 4 => if s.loadActs q then some (.loadCode q) else none
      | 5 => some (.loadCircuitObject q)
      | 6 => some (.loadTimeline q)
      | 7 => some (.endStream q)
      | _ => none

/-- What the supervisor does in this tick. -/
def State.supervisorNext (s : State) : Option Instr :=
  match [0, 1, 2, 3].findSome? s.streamNext with
  | some i => some i
  | none =>
    if s.admitDue.isSome || s.chosen.isSome then some .admission
    else match s.launches.find? (fun l => s.deadlineDue l.lx) with
      | some l => some (.gangConfirmationDeadline l.lx)
      | none =>
        if s.syncDue then some .syncSend
        else if s.windowEnd then some (.governorWindow (Config.windowPower (s.windowAt / 65536)) (Config.windowHeat (s.windowAt / 65536)))
        else if s.attestDue then some (.attestationRequest 1)
        else if s.coarseDue then some .coarseSet
        else if s.stepDue then some .stepChange
        else if s.quietDue.isSome then some .serviceQuietTick
        else if s.serviceOpDue.isSome then some .serviceOperationDone
        else match s.cores.find? (fun p => p.2.scrubs.any (fun b => decide (b.2 ≤ s.now))) with
          | some p => some (.scrubEnd p.1)
          | none => match s.atPlace (fun c x => !(s.freeNow c x).isEmpty) .haltBankRelease with
            | some i => some i
            | none => (s.cores.find? (fun p => s.grantDue p.1)).map (fun p => .bankGrant p.1)

/-! ## DRAM and engines (R184, R227, R236, R285 to R293) -/

/-- What the controller of a channel does in this tick, by the channel's key. -/
def Channel.next (c : Channel) (now key : Nat) : Option Instr :=
  let t := key / 256
  let n := key % 256
  if c.refreshDue 0 now then some (.refresh t n 0)
  else if c.refreshDue 1 now then some (.refresh t n 1)
  else match c.rfmDue now (fun _ => true) with
    | some (_, b, _) => some (.refreshManagement t n b)
    | none => match c.handBank t now (fun _ => true) with
     | some b => some (.refreshManagement t n b)
     | none =>
      if (c.forcedDue 0 now).isSome || (c.lateDue 0 now).isSome then some (.forcedRefresh t n 0)
      else if (c.forcedDue 1 now).isSome || (c.lateDue 1 now).isSome then some (.forcedRefresh t n 1)
      else if (c.hostDue 0 now).isSome || c.windowDue 0 now then some (.hostWindow t n 0)
      else if (c.hostDue 1 now).isSome || c.windowDue 1 now then some (.hostWindow t n 1)
      else none

/-- An output that goes to QC; it is made when every bundle of its tick has issued (R230). -/
def EAct.isQueueOut (a : EAct) : Bool := match a with
  | .evalOut _ c _ => c == toQueue
  | _ => false

/-- The event of a command of a class. -/
def Cmd.event (m : Cmd) : Instr :=
  match m.cls with
  | 0 => .copyCommand m.id
  | 1 => .gatherCommand m.id
  | 2 => if m.op = 1 then .parameterUpdate m.id else .circuitEvaluate m.id
  | 3 => .collectiveCommand m.id
  | _ => .cellarLaunch m.id

/-- The event of a micro-operation that is due. -/
def State.opEvent (s : State) (e : EOp) : Option Instr :=
  (s.findCmd e.cmd).map (fun m => if m.cls = 2 ∧ e.act.isPage then .pageFetch m.id else m.event)

/-- Whether a micro-operation of a command is due. -/
def State.opsDue (s : State) (id : Nat) : Bool := (s.dueOp id).isSome

/-- What DRAM and the engines do in this tick. -/
def State.engineNext (s : State) : Option Instr :=
  match s.channels.findSome? (fun p => p.2.next s.now p.1) with
  | some i => some i
  | none =>
    match (s.dueOf' (fun e => !e.act.isQueueOut && (s.findCmd e.cmd).isSome)).bind s.opEvent with
    | some i => some i
    | none => (s.cmds.find? (fun m => m.endsNow s.now && !(s.opsDue m.id))).map (fun m => .engineCommandEnd m.id)

/-! ## Stops and conditions (R104, R107, R182, R183, R262, R267 to R280) -/

/-- A stop of a context, or a record its supervisor owes, is to be taken. -/
def State.stopNow (s : State) (ok : FaultRec → Bool) (core ctx : Nat) : Bool :=
  (s.ctx core ctx).stopDue s.now ok || (s.ctx core ctx).owesNow s.now

/-- Stops other than those of bundles that have just tried to issue. -/
def State.stopNext (s : State) : Option Instr :=
  match s.atPlace s.budgetDue .budgetTrap with
  | some i => some i
  | none => s.atPlace (s.stopNow (fun f => f.kind != 0)) .faultStop

/-- What is met, ends or goes on in this tick. -/
def State.conditionNext (s : State) : Option Instr :=
  match s.stopNext with
  | some i => some i
  | none => match s.atPlace (fun c x => (s.serviceDue c x).isSome) .serviceEnd with
    | some i => some i
    | none => match s.atPlace (fun c x => (s.restoreDue c x).isSome) .restore with
      | some i => some i
      | none => match s.launches.find? (fun l => !(s.preemptCores l.lx).isEmpty) with
        | some l => some (.preemption l.lx)
        | none => match s.atPlace (fun c x => s.waitDue c x || s.awayDue c x) .waitMet with
          | some i => some i
          | none => match s.atPlace s.drainDue .drainingBranch with
            | some i => some i
            | none => match s.atPlace (fun c x => (s.ctx c x).runs && s.fencesHold c x) .fenceRelease with
              | some i => some i
              | none => match s.atPlace (fun c x => s.signalDue c x (s.ctx c x) false
                    || (s.core c).saved.any (fun p => p.1 == x && s.signalDue c x p.2 true)
                    || (s.lateDue c x).isSome) .signalRelease with
                | some i => some i
                | none => s.atPlace s.releaseDue .contextRelease

/-! ## Issue (R9, R194, R263) -/

/-- Some context of a core is about to stop for its bundle. -/
def Core.stopping (k : Core) (now : Nat) : Bool := k.ctxs.any (fun q => q.2.stopDue now (fun _ => true))

/-- The bundle that issues next in this tick, or the stop of one that could not. -/
def State.issueNext (s : State) : Option Instr :=
  match s.cores.findSome? (fun p => if p.2.stopping s.now then none else (s.selectCtx p.1).map (fun x => .issueWord p.1 x)) with
  | some i => some i
  | none => s.atPlace (s.stopNow (fun _ => true)) .faultStop

/-! ## Commands that begin, and cellar instructions (R194, R300, R309) -/

/-- The command of a list with the lowest rank. -/
def lowestRank (ms : List Cmd) : Option Cmd :=
  ms.foldl (fun best m => match best with
    | none => some m
    | some b => if m.rank < b.rank then some m else some b) none

/-- The cellar engines due in this tick: command, channel and engine. -/
def State.cellarsDue (s : State) : List (Cmd × Nat × Cellar) :=
  s.channels.filterMap (fun p =>
    let e := p.2.cellar
    if p.1 < 256 ∧ e.cmd ≠ 0 ∧ e.nextAt ≤ s.now then (s.findCmd e.cmd).map (fun m => (m, p.1, e)) else none)

/-- The engine that runs first. -/
def State.cellarFirst (s : State) : Option (Cmd × Nat × Cellar) :=
  s.cellarsDue.foldl (fun best d => match best with
    | none => some d
    | some b => if d.1.rank < b.1.rank then some d else some b) none

/-- The step of a cellar engine that is due: past the end of its program its launch stops (R308). -/
def State.cellarPick (s : State) (d : Cmd × Nat × Cellar) : Pick :=
  if 128 ≤ d.2.2.cpc ∨ 2 ^ 24 ≤ d.2.2.count then .event (.cellarLaunch d.1.id) s
  else match toOpt (decodeCellar (tget d.2.2.prog 0 d.2.2.cpc).toNat) with
    | some i => .event i { s with ceCh := d.2.1 }
    | none => .stuck

/-- What begins or runs once every bundle of the tick has issued: first the outputs to QC, of which one may end the evaluate before
the next one begins (R230, R233). -/
def State.beginNext (s : State) : Option Instr :=
  match s.eops.findSome? (fun e => if e.tick ≤ s.now ∧ e.act.isQueueOut then s.opEvent e else none) with
  | some i => some i
  | none => match lowestRank (s.cmds.filter (fun m => m.beginsNow s.now && !(s.cmds.any (fun d => m.yields d s.now)))) with
    | some m => some m.event
    | none => s.eops.findSome? (fun e => if e.tick ≤ s.now then s.opEvent e else none)

/-! ## The end of a tick (R106, R151, R167, R172, R176, R180, R195, R196, R304) -/

/-- Inserts a tag change by begin tick, then by the order of R194. -/
def insertTag (rank : Nat → Nat) (t : Nat × BitVec 16 × Nat × Nat) (l : List (Nat × BitVec 16 × Nat × Nat)) :
    List (Nat × BitVec 16 × Nat × Nat) :=
  match l with
  | [] => [t]
  | u :: r =>
    if t.2.2.1 < u.2.2.1 ∨ (t.2.2.1 = u.2.2.1 ∧ rank t.2.2.2 < rank u.2.2.2) then t :: u :: r else u :: insertTag rank t r

/-- The tags that commands gave in this tick stand from now on; the command that began last prevails (R196). -/
def State.applyTags (s : State) : State :=
  let rank (id : Nat) : Nat := match s.findCmd id with
    | some m => m.rank
    | none => 0
  { s with cores := tmap (fun (k : Core) => { k with
      tags := (k.tagPend.foldl (fun l t => insertTag rank t l) []).foldl (fun t p => tput t p.1 p.2.1) k.tags
      tagPend := [] }) s.cores }

def AccKind.isStore (k : AccKind) : Bool := match k with
  | .store => true
  | _ => false
def AccKind.isLoad (k : AccKind) : Bool := match k with
  | .load _ _ => true
  | _ => false

/-- An access of a kind performs in this tick. -/
def State.performs (s : State) (ok : AccKind → Bool) : Bool := s.accesses.any (fun a => decide (a.perform ≤ s.now) && ok a.kind)

/-- The first row read of a cellar engine that performs in this tick. -/
def State.rowDue (s : State) : Option (Nat × CeRow) :=
  s.channels.findSome? (fun p => (p.2.cellar.rows.find? (fun r => decide (r.perform ≤ s.now))).map (fun r => (p.1, r)))

/-- A scrub that has begun writes one zero word of its bank (R202). -/
def Core.scrubWord (k : Core) (now : Nat) (p : Nat × Nat) : Core :=
  if p.2 ≤ now + 512 ∧ tget k.own 0 p.1 = 5 then k.store ((now + 512 - p.2) * 4096 + p.1 * 128) 128 0 else k

/-- A context as the next tick finds it: latches of this tick read zero, signals released in it are gone, results for QC enter it
(R18, R182, R229). -/
def Ctx.tick (c : Ctx) (now : Nat) : Ctx :=
  { c with
    latch := []
    signals := c.signals.filter (fun d => !d.released)
    qc := c.qc ++ (c.qcPend.filter (fun q => decide (q.seen ≤ now + 1))).map (·.entry)
    qcPend := c.qcPend.filter (fun q => decide (now + 1 < q.seen)) }

/-- A core as the next tick finds it: scrubs have written their word, and slots of this tick are past (R194, R202). -/
def Core.tick (k : Core) (now : Nat) : Core :=
  let k1 := k.scrubs.foldl (fun k p => k.scrubWord now p) k
  { k1 with
    ctxs := tmap (fun (c : Ctx) => c.tick now) k1.ctxs
    saved := tmap (fun (c : Ctx) => c.tick now) k1.saved
    resv := k1.resv.filter (fun r => decide (now < r.tick)) }

/-- A channel as the next tick finds it: the ACTs of this tick have counted, bank commands long past are forgotten, and cellar
results land (R291, R300). -/
def Channel.tick (c : Channel) (now : Nat) : Channel :=
  { c with
    raa := (c.bursts.filter (fun b => b.act == now)).foldl (fun t b => tput t b.bank (tget t 0 b.bank + 1)) c.raa
    bursts := c.bursts.filter (fun b => decide (now < b.pre + 200))
    occ := c.occ.filter (fun o => decide (now < o.2.2))
    cellar := c.cellar.landDue (now + 1) }

/-- Another rank's part of the same collective has still something to do, for which it may need this rank's elements (R189). -/
def State.ranksBusy (s : State) (m : Cmd) : Bool :=
  m.cls == 3 && s.cmds.any (fun d => d.cls == 3 && d.lx == m.lx && d.beginAt == m.beginAt && s.eops.any (fun e => e.cmd == d.id))

/-- A command of which nothing is left. -/
def State.cmdOver (s : State) (m : Cmd) : Bool :=
  m.phase == 2 && m.pend == 0 && !(s.eops.any (fun e => e.cmd == m.id)) && !(s.ranksBusy m)
  && !(s.channels.any (fun p => p.2.cellar.rows.any (fun r => r.cmd == m.id)))

/-- The tick ends: NOW advances by one (R7, R323). -/
def State.advance (s : State) : State :=
  { s.sendFlits with
    cores := tmap (fun (k : Core) => k.tick s.now) s.cores
    channels := tmap (fun (c : Channel) => c.tick s.now) s.channels
    cmds := s.cmds.filter (fun m => !(s.cmdOver m))
    counted := false
    performed := []
    now := s.now + 1 }

/-- What performs at the end of a tick, in the order of R167, and what follows from it. -/
def State.endNext (s : State) : Pick :=
  if s.performs AccKind.isLoad then .own (s.performDue AccKind.isLoad)
  else if s.performs (fun k => !k.isStore) then .own (s.performDue (fun k => !k.isStore))
  else match s.cores.find? (fun p => (p.2.timedNext s.now).isSome) with
    | some p => .event (.timedWrite p.1) s
    | none =>
      if s.performs AccKind.isStore then .own (s.performDue AccKind.isStore)
      else match s.msgs.find? (fun m => !m.sent && decide (m.capture ≤ s.now)) with
        | some m => .event (.messageSend m.core m.ctx) s
        | none =>
          if s.hsigs.any s.hsigOk then .own s.postHsigs
          else match s.cores.find? (fun p => p.2.array.rows.any (fun r => decide (r.exit ≤ s.now))) with
            | some p => .event (.arrayRowExit p.1) s
            | none =>
              if s.cores.any (fun p => !p.2.tagPend.isEmpty) then .own s.applyTags
              else match s.cores.findSome? (fun p => (p.2.barriers.find? (fun b => b.2.completes s.now)).map (fun b => (p.1, b.1))) with
                | some (c, b) => .event (.barrierComplete c b) s
                | none => match s.rowDue with
                  | some (ch, r) => .own (s.ceReadRow ch r)
                  | none => .own s.advance

/-! ## The whole tick -/

/-- What comes first of landings, queues, the supervisor, engines, conditions and issues. -/
def State.workNext (s : State) : Option Instr :=
  match s.landNext with
  | some i => some i
  | none => match s.queueNext with
    | some i => some i
    | none => match s.supervisorNext with
      | some i => some i
      | none => match s.engineNext with
        | some i => some i
        | none => match s.conditionNext with
          | some i => some i
          | none => match s.issueNext with
            | some i => some i
            | none => s.beginNext

/-- What comes from outside in this tick (log entry 5). -/
def State.inputNext (s : State) : Option (Nat × Instr) := s.inputs.find? (fun p => decide (p.1 ≤ s.now))

/-- What a module with no bundle in the issue latch does next. -/
def State.pick (s : State) : Pick :=
  if !s.booted then .event .boot s
  else if s.counted then
    match s.places.find? (fun p => (s.ctx p.1 p.2).wrapDue) with
    | some p => .event (.waccWrap p.1 p.2) s
    | none => match s.stopNext with
      | some i => .event i s
      | none => s.endNext
  else match s.inputNext with
    | some p => .event p.2 { s with inputs := dropEq p s.inputs }
    | none => if s.earlyDue then .own (s.performWhere s.readsEarly) else match s.workNext with
      | some i => .event i s
      | none => match s.cellarFirst with
        | some d => s.cellarPick d
        | none => .own s.countWaits

/-- The slot at the front of the latch runs, and leaves it. -/
def stepSlot (u : SlotName) (s : State) : Result :=
  match toOpt (decodeSlot u (slotBits s.iss.entry u)) with
  | none => .fault .reservedSlot
  | some i => match exec i s with
    | .next t => .next t.retire
    | .fault f => .fault f
    | .refused r => .refused r

/-- The next thing of the tick happens. -/
def stepPick (p : Pick) : Result :=
  match p with
  | .event i t => exec i t
  | .own t => .next t
  | .stuck => .fault .reservedCellarWord

/-! ## Placing an instruction where the next step fetches it -/

/-- A memory-slot word in the MB slot of the bundle in the issue latch (R60). -/
def State.placeSlot (s : State) (w : Nat) : State :=
  { s with iss := { s.iss with left := [.mb], entry := BitVec.ofNat 256 (w % 2 ^ 24 * 2 ^ 124) } }

/-- A cellar word at CPC of the engine of channel 0, running for a command of its own, with nothing else due on the channel (R297, R300). -/
def State.placeCellar (s : State) (w : Nat) : State :=
  let c := s.channel 0 0
  let e : Cellar := { c.cellar with prog := tput c.cellar.prog 0 (BitVec.ofNat 32 w), cpc := 0, cmd := s.nextId, nextAt := s.now, count := 0 }
  let m : Cmd := ⟨s.nextId, 0, 0, 0, 4, 0x100, 0, 0, 0, 0, s.now, 1, none, 0, []⟩
  let later (t : Nat) : Nat := Nat.max t (s.now + 1)
  let c1 : Channel := { c with cellar := e, refAt0 := later c.refAt0, refAt1 := later c.refAt1, winAt0 := later c.winAt0, winAt1 := later c.winAt1 }
  { s.setChannel 0 0 c1 with booted := true, counted := false, nextId := s.nextId + 1, cmds := s.cmds ++ [m] }

end Sys2Proof.Machine
end

