-- ==== Sys2Proof/Machine/Step.lean ====
section
/-! DEFINITION. One step of the module: the next slot of the bundle in the issue latch, or the next thing the tick brings. -/

namespace Sys2Proof.Machine

/-- One step. -/
def step (s : State) : Host.Outcome State Fault Refusal :=
  match s.iss.left with
  | u :: _ => stepSlot u s
  | [] => stepPick s.pick

/-- The state in which the next step runs the instruction of a table word: a 24-bit word in the issue latch, a 32-bit word under a
cellar engine. -/
def State.withFetchWord (s : State) (nbits w : Nat) : State :=
  match nbits with
  | 24 => s.placeSlot w
  | 32 => s.placeCellar w
  | _ => s

end Sys2Proof.Machine
end

