-- ==== Sys2Proof/Safety.lean ====
section
/-! DEFINITION. What counts as a safe run, and the terms the claims use: frames, the conditions under which a slot executes,
and the invariants a state may keep. -/

namespace Sys2Proof.Machine

/-- The step answers a next state. -/
def safeStep (s : State) : Bool :=
  match step s with
  | .next _ => true
  | _ => false

/-! ## Frames -/

/-- All of the module but its cores. -/
def State.besidesCores (s : State) : State := { s with cores := [] }

/-- All of a core but its contexts. -/
def Core.besidesCtxs (k : Core) : Core := { k with ctxs := [] }

/-- `t` is `s` but for context `x` of core `c`, which is now `v`. -/
def OnlyCtx (s t : State) (c x : Nat) (v : Ctx) : Prop :=
  t.ctx c x = v
  ∧ (∀ d y, ¬ (d = c ∧ y = x) → t.ctx d y = s.ctx d y)
  ∧ (∀ d, (t.core d).besidesCtxs = (s.core d).besidesCtxs)
  ∧ t.besidesCores = s.besidesCores

/-- `t` is `s` but for core `c`, which is now `k`. -/
def OnlyCore (s t : State) (c : Nat) (k : Core) : Prop :=
  t.core c = k ∧ (∀ d, d ≠ c → t.core d = s.core d) ∧ t.besidesCores = s.besidesCores

/-- `t` is `s` but for the results `fs` that the bundle in the latch has put into flight. -/
def Puts (s t : State) (fs : List Flight) : Prop :=
  OnlyCtx s t s.iss.core s.iss.ctx { s.cur with flights := s.cur.flights ++ fs }

/-- All of a core but its contexts and the reserved slots of its banks. -/
def Core.besidesCtxsResv (k : Core) : Core := { k with ctxs := [], resv := [] }

/-- `t` is `s` but for context `x` of core `c`, now `v`, and the reserved slots `rs`, each of a core, now taken too (R194). -/
def OnlyCtxResv (s t : State) (c x : Nat) (v : Ctx) (rs : List (Nat × Resv)) : Prop :=
  t.ctx c x = v
  ∧ (∀ d y, ¬ (d = c ∧ y = x) → t.ctx d y = s.ctx d y)
  ∧ (∀ d, (t.core d).besidesCtxsResv = (s.core d).besidesCtxsResv)
  ∧ (∀ d r, r ∈ (t.core d).resv ↔ r ∈ (s.core d).resv ∨ (d, r) ∈ rs)
  ∧ t.besidesCores = s.besidesCores

/-- Every byte of every memory reads as before. -/
def SameMemory (s t : State) : Prop :=
  (∀ c a, mread (t.spad c) a = mread (s.spad c) a)
  ∧ (∀ tier ch a, mread (t.channel tier ch).mem a = mread (s.channel tier ch).mem a)
  ∧ (∀ a, mread t.hostMem a = mread s.hostMem a)

/-- A result that lands `lat` ticks after the present one: destination, value, mask, flags. -/
def landing (s : State) (lat : Nat) (d : Dest) (v m : Nat) (fl : Flags) : Flight :=
  ⟨0, s.now, s.now + lat, 1, d, BitVec.ofNat 1024 v, BitVec.ofNat 1024 m, fl⟩

/-! ## When a slot executes -/

/-- Every selector that names a queue finds an entry in it (R19). -/
def SelectorsHold (i : Instr) (s : State) : Prop :=
  ∀ q ∈ selsOf i, 22 ≤ q.toNat → q.toNat ≤ 25 → s.cur.queueReady (q.toNat - 22) = true

/-- No stored word is uncorrectable (R342). -/
def NoBadWord (s : State) : Prop := ∀ c, (s.core c).bad = []

/-- A slot executes: its tag lets it (R25, R27), and the checks of its bundle have passed or its operands are there. -/
def Executes (i : Instr) (s : State) : Prop :=
  slotRuns i s = true ∧ (s.iss.checked = true ∨ (SelectorsHold i s ∧ NoBadWord s))

/-- The same where the slot has checks of its own, `ok`. -/
def ExecutesIf (i : Instr) (s : State) (ok : Prop) : Prop :=
  slotRuns i s = true ∧ (s.iss.checked = true ∨ (SelectorsHold i s ∧ NoBadWord s ∧ ok))

/-! ## Invariants -/

/-- Every memory of the module is in its canonical form. -/
def MemoriesCanonical (s : State) : Prop :=
  (∀ c, (s.spad c).wf = true) ∧ (∀ p ∈ s.channels, p.2.mem.wf = true) ∧ s.hostMem.wf = true

end Sys2Proof.Machine
end

