-- ==== Sys2Proof/WellFormed.lean ====
section
/-! DEFINITION. Which instructions are well formed: the fields the spec leaves no reserved value in (R56 to R71, R299),
and agents that exist (R2, R203, R254). -/

namespace Sys2Proof

open Sys2Proof.Machine

/-- A core and a context that exist (R2). -/
def ctxExists (core ctx : Nat) : Bool := decide (core < 256) && decide (ctx < 4)

/-- A DRAM channel that exists: 256 high-bandwidth, 128 loft (R203). -/
def channelExists (tier ch : Nat) : Bool := decide (tier < 2) && decide (ch < (if tier = 0 then 256 else 128))

/-- Whether the fields of a slot operation or a cellar word are admitted, and the agent of an event exists. A slot
operation is well formed exactly when its own word decodes back to it. -/
def Instr.wf (i : Instr) : Bool :=
  match i with
  | .issueWord c x | .resultLanding c x | .drainingBranch c x | .waitMet c x | .waccWrap c x | .budgetTrap c x => ctxExists c x
  | .gatherRead c x | .gatherDeliver c x | .fenceRelease c x | .signalRelease c x => ctxExists c x
  | .messageSend c x | .messageDeliver c x | .haltBankRelease c x | .contextRelease c x => ctxExists c x
  | .restore c x | .faultStop c x | .serviceEnd c x => ctxExists c x
  | .arrayRowExit c | .timedWrite c | .hcwEntryWrite c | .barrWrite c | .releaseWordWrite c | .bankGrant c | .scrubEnd c => ctxExists c 0
  | .registerWrite _ c _ _ => ctxExists c 0
  | .barrierComplete c b | .barrierMirrorFlip c b => ctxExists c 0 && decide (b < 32)
  | .refresh t c p | .hostWindow t c p | .debtInterval t c p | .forcedRefresh t c p => channelExists t c && decide (p < 2)
  | .refreshManagement t c b => channelExists t c && decide (b < 32)
  | .disturbReport t c b _ _ => channelExists t c && decide (b < 32)
  | .dramPatrolScrub t c => channelExists t c
  | .temperatureClassChange t k _ => decide (t < 2) && decide (k < 8)
  | .packetClose q k _ | .packetWordWrite q k _ _ _ => decide (q < 4) && decide (k < 8)
  | .streamNextPacket q | .launch q | .waitForTick q | .signalHost q | .loadCode q | .loadCircuitObject q => decide (q < 4)
  | .loadTimeline q | .endStream q | .scfgWrite q _ | .sstatWrite q _ | .launchRefuseLate q => decide (q < 4)
  | .xfer _ n1 pb pol => decide (pb.toNat + n1.toNat ≤ 15) && decide (pol.toNat < 2 ^ (n1.toNat + 1))
  | .waitEngine c => decide (c.toNat ≤ 4)
  | .vadd _ f => vecOk 1 f
  | .vsub _ f => vecOk 2 f
  | .vmul _ f => vecOk 3 f
  | .vfma _ f => vecOk 4 f
  | .vmin _ f => vecOk 5 f
  | .vmax _ f => vecOk 6 f
  | .vexp2 _ f => vecOk 7 f
  | .vrsqrt _ f => vecOk 8 f
  | .vrecip _ f => vecOk 9 f
  | .vcvt _ f => vecOk 10 f
  | .vcmp _ f => vecOk 11 f
  | .vsel _ f => vecOk 12 f
  | .vrot _ f => vecOk 13 f
  | .vshuf _ f => vecOk 14 f
  | .vscan _ f => vecOk 15 f
  | .vscanx _ f => vecOk 16 f
  | .vred _ f => vecOk 17 f
  | .vredx _ f => vecOk 18 f
  | .vredn _ f => vecOk 19 f
  | .vcx _ f => vecOk 20 f
  | .vclmul _ f => vecOk 21 f
  | .vpcnt _ f => vecOk 22 f
  | .vand _ f => vecOk 23 f
  | .vor _ f => vecOk 24 f
  | .vxor _ f => vecOk 25 f
  | .vshl _ f => vecOk 26 f
  | .vshr _ f => vecOk 27 f
  | .vbc _ f => vecOk 28 f
  | .vabs _ f => vecOk 29 f
  | .vneg _ f => vecOk 30 f
  | .rmode t m => tagOk t && decide (m.toNat ≤ 4)
  | .afmt t ty | .bfmt t ty => tagOk t && (ty == 0 || ty == 1 || ty == 2 || ty == 5)
  | .vld _ t w _ _ _ | .vst _ t w _ _ _ | .vldTc _ t w _ _ _ | .vldNb _ t w _ _ _ | .vstVa _ t w _ _ _ => tagOk t && decide (w.toNat ≤ 2)
  | .fence _ t sc _ _ => tagOk t && decide (sc.toNat ≤ 6)
  | .drain t _ ty _ _ _ => tagOk t && (ty == 0 || ty == 1 || ty == 2 || ty == 3 || ty == 5 || ty == 7)
  | .nop u => !(u == .ma) && !(u == .mb)
  | .ceCfmt w a _ => decide (w.toNat ≤ 1) && decide (a.toNat ≤ 1)
  | .cePsc _ _ _ _ w => decide (w.toNat ≤ 2)
  | .ceOut _ _ ty _ => decide (ty.toNat ≤ 5)
  | i => tagOk (tagOf i)

end Sys2Proof
end

