-- ==== Sys2Proof/Certificates/Slice0/Obligations.lean ====
section
/-! DEFINITION. The statements for the provers: what the rules of the spec say the machine does, as claims about the model. -/

/-! ## Rounding and arithmetic of the float formats, from their layouts -/

open Sys2Proof Sys2Proof.Machine

namespace Sys2Proof.Claims

/-- The magnitude of a finite pattern without its sign, in units of 2^(1 − bias − fraction bits) (R36, R38): a whole number. For the
pattern of infinity it is the first power of two past the largest finite value. -/
def units (f : FFmt) (w : Nat) : Nat :=
  if w / 2 ^ f.fbits = 0 then (if f.sub then w else 0) else (2 ^ f.fbits + w % 2 ^ f.fbits) * 2 ^ (w / 2 ^ f.fbits - 1)

/-- The unit is one over this number. -/
def unitDen (f : FFmt) : Nat := 2 ^ (f.bias - 1 + f.fbits)

/-- Whether a magnitude `x / d` between the neighbours `a` and `b` goes to the upper one (R40, R41, R43): to nearest, the even one on a tie;
toward zero; up; down; or by a draw. -/
def goesUp (mode : RMode) (neg : Bool) (a b x d : Nat) (lowerEven : Bool) : Bool :=
  if a * d = x then false else match mode with
  | .rn => decide ((a + b) * d < 2 * x) || (decide ((a + b) * d = 2 * x) && !lowerEven)
  | .rz => false
  | .ru => !neg
  | .rd => neg
  | .rs h => if neg then !(decide (h < (b * d - x) * 2 ^ 24 / ((b - a) * d))) else decide (h < (x - a * d) * 2 ^ 24 / ((b - a) * d))

/-- The mode in force for a magnitude of `x / d` units: past the largest finite value a draw acts as to nearest (R43). -/
def modeAt (f : FFmt) (mode : RMode) (x d : Nat) : RMode :=
  match mode with
  | .rs h => if units f f.maxBits * d < x then .rn else .rs h
  | m => m

/-- A nonzero magnitude of `x / d` units, rounded to the precision as if the exponent had no lower limit, stays below the smallest normal
number (R36). -/
def tiny (f : FFmt) (mode : RMode) (neg : Bool) (x d : Nat) : Bool :=
  decide (x < 2 ^ f.fbits * d)
  && !(decide ((2 ^ (f.fbits + 1) - 1) * d ≤ 2 * x) && goesUp mode neg (2 ^ (f.fbits + 1) - 1) (2 ^ (f.fbits + 1)) (2 * x) d false)

/-- R36, R39, R40, R43, R44: `r` is what a nonzero number of `x / d` units and sign `neg` rounds to, with its flags. Of the neighbours
`p` and `p + 1` the mode chooses; past the largest finite value the upper one is infinity. A format without subnormals goes below its
smallest normal number to that number or, when the result is tiny, to zero. -/
def RoundedAt (f : FFmt) (mode0 : RMode) (neg : Bool) (x d p : Nat) (r : Nat × Flags) : Prop :=
  let mode := modeAt f mode0 x d
  let w := if f.sub || decide (2 ^ f.fbits * d ≤ x) then
      (if goesUp mode neg (units f p) (units f (p + 1)) x d (p % 2 == 0) then p + 1 else p)
    else if tiny f mode neg x d then 0 else 2 ^ f.fbits
  let inexact := w = f.infBits ∨ units f w * d ≠ x
  let past := w = f.infBits ∨ units f f.infBits * d ≤ x
  p ≤ f.maxBits ∧ units f p * d ≤ x ∧ (x < units f (p + 1) * d ∨ p = f.maxBits)
  ∧ r.1 = w + (if neg then 2 ^ (f.fbits + f.ebits) else 0)
  ∧ r.2 = (if past then flOF else 0) ||| (if inexact ∧ tiny f mode neg x d = true then flUF else 0) ||| (if inexact then flNX else 0)

def Rounded (f : FFmt) (mode : RMode) (neg : Bool) (x d : Nat) (r : Nat × Flags) : Prop := ∃ p, RoundedAt f mode neg x d p r

/-- The parts of a pattern. -/
def expo (f : FFmt) (w : Nat) : Nat := w / 2 ^ f.fbits % 2 ^ f.ebits
def frac (f : FFmt) (w : Nat) : Nat := w % 2 ^ f.fbits
def negative (f : FFmt) (w : Nat) : Bool := w.testBit (f.fbits + f.ebits)
def patNaN (f : FFmt) (w : Nat) : Bool := expo f w == 2 ^ f.ebits - 1 && frac f w != 0
def patInf (f : FFmt) (w : Nat) : Bool := expo f w == 2 ^ f.ebits - 1 && frac f w == 0
/-- A NaN whose highest fraction bit is 0 signals (R36). -/
def patSignals (f : FFmt) (w : Nat) : Bool := patNaN f w && !(w.testBit (f.fbits - 1))
/-- The quiet NaN of the same sign and payload. -/
def patQuiet (f : FFmt) (w : Nat) : Nat := w % 2 ^ (f.fbits + f.ebits + 1) ||| 2 ^ (f.fbits - 1)
def patMag (f : FFmt) (w : Nat) : Nat := units f (w % 2 ^ (f.fbits + f.ebits))
/-- The value of a finite pattern, in units. -/
def patVal (f : FFmt) (w : Nat) : Int := if negative f w then -(patMag f w : Int) else (patMag f w : Int)
def signed (f : FFmt) (neg : Bool) (w : Nat) : Nat := if neg then w + 2 ^ (f.fbits + f.ebits) else w

/-- R36: the result and the flag of an operation with a NaN among its operands: the first one, quieted; NV when one of them signals. -/
def nanOf (f : FFmt) (ws : List Nat) : Nat × Flags :=
  (((ws.find? (patNaN f)).map (patQuiet f)).getD f.nanBits, if ws.any (patSignals f) then flNV else 0)

/-- The sign of an exact zero that is the sum of numbers of signs `s` and `t`, `both` of them zeros (IEEE 754-2019). -/
def zeroNeg (mode : RMode) (s t both : Bool) : Bool :=
  if s == t && both then s else match mode with
  | .rd => true
  | _ => false

/-- A nonzero exact result of `v / d` units, rounded; an exact zero has the sign `z`. -/
def RoundedInt (f : FFmt) (mode : RMode) (v : Int) (d : Nat) (z : Bool) (r : Nat × Flags) : Prop :=
  if v = 0 then r = (signed f z 0, 0) else Rounded f mode (decide (v < 0)) v.natAbs d r

/-- R36, R122: the sum of two patterns. -/
def SumOf (f : FFmt) (mode : RMode) (a b : Nat) (r : Nat × Flags) : Prop :=
  if patNaN f a || patNaN f b then r = nanOf f [a, b]
  else if patInf f a then r = (if patInf f b && negative f a != negative f b then (f.nanBits, flNV) else (signed f (negative f a) f.infBits, 0))
  else if patInf f b then r = (signed f (negative f b) f.infBits, 0)
  else RoundedInt f mode (patVal f a + patVal f b) 1
    (zeroNeg mode (negative f a) (negative f b) (decide (patVal f a = 0) && decide (patVal f b = 0))) r

/-- R36, R122: the product of two patterns. -/
def ProductOf (f : FFmt) (mode : RMode) (a b : Nat) (r : Nat × Flags) : Prop :=
  let neg := negative f a != negative f b
  let nil (w : Nat) : Bool := decide (patMag f w = 0)
  if patNaN f a || patNaN f b then r = nanOf f [a, b]
  else if patInf f a || patInf f b then
    r = (if patInf f a && !(patInf f b) && nil b || patInf f b && !(patInf f a) && nil a then (f.nanBits, flNV) else (signed f neg f.infBits, 0))
  else RoundedInt f mode (patVal f a * patVal f b) (unitDen f) neg r

/-- R124: the fused product and sum a × b + d of three patterns: the NaN order is a, b, d; 0 × ∞ gives the default NaN, or the quiet NaN
that d holds, and sets NV. -/
def FusedOf (f : FFmt) (mode : RMode) (a b d : Nat) (r : Nat × Flags) : Prop :=
  let neg := negative f a != negative f b
  let finite (w : Nat) : Bool := !(patNaN f w) && !(patInf f w)
  let nil (w : Nat) : Bool := finite w && decide (patMag f w = 0)
  if patInf f a && nil b || nil a && patInf f b then
    r = (if patNaN f d && !(patSignals f d) then patQuiet f d else f.nanBits, flNV)
  else if patNaN f a || patNaN f b || patNaN f d then r = nanOf f [a, b, d]
  else if patInf f a || patInf f b then
    r = (if patInf f d && negative f d != neg then (f.nanBits, flNV) else (signed f neg f.infBits, 0))
  else if patInf f d then r = (signed f (negative f d) f.infBits, 0)
  else RoundedInt f mode (patVal f a * patVal f b + patVal f d * unitDen f) (unitDen f)
    (zeroNeg mode neg (negative f d) (decide (patVal f a * patVal f b = 0) && decide (patVal f d = 0))) r

/-- The order of patterns that are no NaN by value, −0 below +0 (R122, R132). -/
def rankOf (f : FFmt) (w : Nat) : Int :=
  let m : Int := if patInf f w then units f f.infBits else patMag f w
  if negative f w then -m - 1 else m

/-- R125: one over the square root of a number of `m` units, rounded once: the square of the exact value, in units, is D³ / m for D units to
one. It lies between the largest pattern `p` not past it and the next, both normal numbers, and only the inexact flag can be set. -/
def RootOf (f : FFmt) (mode : RMode) (m : Nat) (r : Nat × Flags) : Prop :=
  let reached (n k : Nat) : Bool := decide (n * n * m ≤ k * k * unitDen f ^ 3)
  ∃ p, 2 ^ f.fbits ≤ p ∧ p < f.maxBits ∧
    let a := units f p
    let b := units f (p + 1)
    let inexact := a * a * m ≠ unitDen f ^ 3
    let up : Bool := match mode with
      | .rn => reached (a + b) 2
      | .ru => decide inexact
      | .rs h => reached (2 ^ 24 * a + (h + 1) * (b - a)) (2 ^ 24)
      | _ => false
    reached a 1 = true ∧ reached b 1 = false ∧ r = (if up then p + 1 else p, if inexact then flNX else 0)

/-- R125: 2^a for a number of `v` units, rounded once: what is rounded lies within one part in 2^100 of the exact value. That no boundary
of the rounding falls between the two is not said. -/
def PowerOf (f : FFmt) (mode : RMode) (v : Int) (r : Nat × Flags) : Prop :=
  let exact : ℝ := 2 ^ ((v : ℝ) / (unitDen f : ℝ)) * (unitDen f : ℝ)
  ∃ n d : Nat, 0 < d ∧ |(n : ℝ) / (d : ℝ) - exact| ≤ exact / 2 ^ 100 ∧ Rounded f mode false n d r

/-- R125: the special cases of the three functions; 1/√a, 1/a and 2^a of an integer a within the exponents of the format are exact or one
rounding of the exact value, and 2^a of any other a one rounding of a value next to it; an a past ±20,000 is beyond every format, and one
power past them stands for all. -/
def FunctionsOf (f : FFmt) (mode : RMode) (a : Nat) : Prop :=
  let x := fdecode f a
  let zero := !(patInf f a) && decide (patMag f a = 0)
  (patNaN f a = true → laneExp2 f mode x = nanOf f [a] ∧ laneRsqrt f mode x = nanOf f [a] ∧ laneRecip f mode x = nanOf f [a])
  ∧ (patInf f a = true →
      laneExp2 f mode x = (if negative f a then 0 else f.infBits, 0)
      ∧ laneRsqrt f mode x = (if negative f a then (f.nanBits, flNV) else (0, 0))
      ∧ laneRecip f mode x = (signed f (negative f a) 0, 0))
  ∧ (patNaN f a = false → zero = true →
      Rounded f mode false (unitDen f) 1 (laneExp2 f mode x)
      ∧ laneRsqrt f mode x = (signed f (negative f a) f.infBits, flDZ) ∧ laneRecip f mode x = (signed f (negative f a) f.infBits, flDZ))
  ∧ (patNaN f a = false → patInf f a = false → zero = false →
      (if negative f a then laneRsqrt f mode x = (f.nanBits, flNV) else RootOf f mode (patMag f a) (laneRsqrt f mode x))
      ∧ (patMag f a < 20000 * unitDen f → PowerOf f mode (patVal f a) (laneExp2 f mode x))
      ∧ (20000 * unitDen f ≤ patMag f a →
          if negative f a then Rounded f mode false (unitDen f) (2 ^ 20000) (laneExp2 f mode x)
          else Rounded f mode false (2 ^ 20000 * unitDen f) 1 (laneExp2 f mode x))
      ∧ Rounded f mode (negative f a) (unitDen f * unitDen f) (patMag f a) (laneRecip f mode x)
      ∧ ∀ n : Nat, n < 2 ^ (f.ebits - 1) → patMag f a = n * unitDen f →
          (negative f a = false → Rounded f mode false (2 ^ n * unitDen f) 1 (laneExp2 f mode x))
          ∧ (negative f a = true → Rounded f mode false (unitDen f) (2 ^ n) (laneExp2 f mode x)))

/-- The magnitude of a TD8 body times 32 × 10^6 (R30): a run of m equal bits f above the marker, then n bits t. -/
def td8Body (b : Nat) : Nat :=
  ((List.range 128).findSome? (fun i =>
    let m := i % 8
    let n := 6 - m
    let up := i / 8 % 2 = 1
    let base := if up then (2 ^ m - 1) * 2 ^ (n + 1) else 2 ^ n
    if 1 ≤ m ∧ m ≤ 6 ∧ base ≤ b ∧ b < base + 2 ^ n then
      some (if up then (2 ^ n + 9 * (b - base)) * 10 ^ (m - 1) * (32 * 10 ^ 6) / 2 ^ n
        else (2 ^ n + 9 * (b - base)) * 10 ^ (6 - m) * 32 / 2 ^ n)
    else none)).getD (if b = 127 then 10 ^ 6 * (32 * 10 ^ 6) else 0)

/-- R33, R41: a nonzero magnitude of `n / d` in TD8: beyond 10^6 it is clamped; else the mode chooses among the neighbouring codes, the
even one on a tie. -/
def Td8Of (mode : RMode) (neg : Bool) (n d : Nat) (r : Nat × Flags) : Prop :=
  let x := n * (32 * 10 ^ 6)
  if 10 ^ 6 * d < n then r = (if neg then 0xFF else 0x7F, flOF ||| flNX)
  else ∃ p, p ≤ 127 ∧ td8Body p * d ≤ x ∧ (p = 127 ∨ x < td8Body (p + 1) * d) ∧
    let w := if p < 127 ∧ goesUp mode neg (td8Body p) (td8Body (p + 1)) x d (p % 2 == 0) = true then p + 1 else p
    r = (if w ≠ 0 ∧ neg = true then w + 128 else w, (if w = 0 then flUF else 0) ||| (if td8Body w * d ≠ x then flNX else 0))

/-- A finite number as an exact value: `n / d` with its sign. -/
def toNearestInt (mode : RMode) (neg : Bool) (n d : Nat) : Int :=
  let m := n / d + (if goesUp mode neg (n / d) (n / d + 1) n d (n / d % 2 == 0) then 1 else 0)
  if neg then -(m : Int) else m

/-- R37: an exact value as an integer of `n` bits: rounded by the mode, and past the range the nearest bound. That `.rs` draws before the
bound is looked at is log entry 57. -/
def IntOf (mode : RMode) (sgn : Bool) (bits : Nat) (neg : Bool) (n d : Nat) (r : Nat × Flags) : Prop :=
  let lo : Int := if sgn then -2 ^ (bits - 1) else 0
  let hi : Int := if sgn then 2 ^ (bits - 1) - 1 else 2 ^ bits - 1
  let i := toNearestInt mode neg n d
  let pat (i : Int) : Nat := (i % 2 ^ bits).toNat
  r = (if i < lo then (pat lo, flNV) else if hi < i then (pat hi, flNV) else (pat i, if n % d = 0 then 0 else flNX))

/-- R126: one element of type S as type D. -/
def ConvertOf (dst src : Nat) (mode : RMode) (w : Nat) (r : Nat × Flags) : Prop :=
  let fs := tyFmt src
  let fd := tyFmt dst
  let isF (ty : Nat) : Bool := decide (1 ≤ ty ∧ ty ≤ 4)
  let isI (ty : Nat) : Bool := decide (5 ≤ ty ∧ ty ≤ 12)
  let int : Int := if tySigned src then toSigned (tyWidth src) w else w
  if src = dst then r = (if src = 4 then w % 2 ^ 40 else w, 0)
  else if isI src && isI dst then
    let lo : Int := if tySigned dst then -2 ^ (tyWidth dst - 1) else 0
    let hi : Int := if tySigned dst then 2 ^ (tyWidth dst - 1) - 1 else 2 ^ tyWidth dst - 1
    r = (((max lo (min hi int)) % 2 ^ tyWidth dst).toNat, if int < lo ∨ hi < int then flOF else 0)
  else if isI src && isF dst then
    (if int = 0 then r = (0, 0) else Rounded fd mode (decide (int < 0)) (int.natAbs * unitDen fd) 1 r)
  else if isI src then
    (if int = 0 then r = (0, 0) else Td8Of mode (decide (int < 0)) int.natAbs 1 r)
  else if src = 0 then
    (if w = 0x80 then r = (if isI dst then 0 else fd.nanBits, flNV)
     else if isI dst then IntOf mode (tySigned dst) (tyWidth dst) (w.testBit 7) (td8Body (w % 128)) (32 * 10 ^ 6) r
     else if w = 0 then r = (0, 0)
     else Rounded fd .rn (w.testBit 7) (td8Body (w % 128) * unitDen fd) (32 * 10 ^ 6) r)
  else if patNaN fs w then
    (if isI dst then r = (0, flNV)
     else if dst = 0 then r = (0x80, if patSignals fs w then flNV else 0)
     else
      let q := frac fs w ||| 2 ^ (fs.fbits - 1)
      r = (signed fd (negative fs w) (fd.infBits + q * 2 ^ fd.fbits / 2 ^ fs.fbits), if patSignals fs w then flNV else 0))
  else if patInf fs w then
    (if isI dst then
      let lo : Int := if tySigned dst then -2 ^ (tyWidth dst - 1) else 0
      let hi : Int := if tySigned dst then 2 ^ (tyWidth dst - 1) - 1 else 2 ^ tyWidth dst - 1
      r = (((if negative fs w then lo else hi) % 2 ^ tyWidth dst).toNat, flNV)
     else if dst = 0 then r = (if negative fs w then 0xFF else 0x7F, flOF ||| flNX)
     else r = (signed fd (negative fs w) fd.infBits, 0))
  else if isI dst then IntOf mode (tySigned dst) (tyWidth dst) (negative fs w) (patMag fs w) (unitDen fs) r
  else if patMag fs w = 0 then r = (if dst = 0 then 0 else signed fd (negative fs w) 0, 0)
  else if dst = 0 then Td8Of mode (negative fs w) (patMag fs w) (unitDen fs) r
  else Rounded fd mode (negative fs w) (patMag fs w * unitDen fd) (unitDen fs) r

end Sys2Proof.Claims

open Sys2Proof.Claims

/-- R36, R38, R39, R40, R43, R44: the layouts of the four float formats, and the one rounding of an exact nonzero magnitude `n / d`. -/
def Sys2Proof.Claims.RoundingRight : Prop :=
  tyFmt 1 = ⟨10, 5, 15, true⟩ ∧ tyFmt 2 = ⟨7, 8, 127, true⟩ ∧ tyFmt 3 = ⟨23, 8, 127, true⟩ ∧ tyFmt 4 = ⟨24, 15, 16383, false⟩
  ∧ ∀ ty mode neg n d, 1 ≤ ty → ty ≤ 4 → 0 < n → 0 < d →
      Rounded (tyFmt ty) mode neg (n * unitDen (tyFmt ty)) d (roundMag (tyFmt ty) mode neg ⟨n, d⟩)

/-- R36, R122, R124: sums, differences, products, fused products and sums, minima and maxima of patterns. -/
def Sys2Proof.Claims.FloatsRight : Prop :=
  ∀ ty mode a b d, 1 ≤ ty → ty ≤ 4 →
    let f := tyFmt ty
    let x := fdecode f a
    let y := fdecode f b
    let nan := patNaN f a || patNaN f b
    SumOf f mode a b (fAdd f mode x y)
    ∧ (if nan then fSub f mode x y = nanOf f [a, b] else SumOf f mode a (b ^^^ 2 ^ (f.fbits + f.ebits)) (fSub f mode x y))
    ∧ ProductOf f mode a b (fMul f mode x y)
    ∧ FusedOf f mode a b d (laneFma f mode x y (fdecode f d))
    ∧ (let r := roundRes f .rn (minV x y)
       if nan then r = nanOf f [a, b] else r = fencode f .rn (if rankOf f b < rankOf f a then y else x))
    ∧ (let r := roundRes f .rn (maxV x y)
       if nan then r = nanOf f [a, b] else r = fencode f .rn (if rankOf f a < rankOf f b then y else x))
    ∧ FunctionsOf f mode a

/-- R30 to R33, R36, R37, R39, R126: the conversions, of elements within their width. -/
def Sys2Proof.Claims.ConversionsRight : Prop :=
  ∀ dst src mode w, dst ≤ 12 → src ≤ 12 → w < 2 ^ tyWidth src → ConvertOf dst src mode w (convert dst src mode w)


namespace Sys2Proof.Claims

/-! ## Sums of the matrix array -/

/-- The formats of the array's operands (R45): .d8, .h, .b and .i8, of 8 or 16 bits. -/
def arrayType (ty : Nat) : Bool := ty == 0 || ty == 1 || ty == 2 || ty == 5
def arrayBits (ty : Nat) : Nat := if ty = 1 ∨ ty = 2 then 16 else 8

/-- An operand of the array: its exact value as a whole number over a fixed denominator, and what it is where it is no number (R30, R31, R36). -/
def opVal (ty w : Nat) : Int :=
  match ty with
  | 0 => if w.testBit 7 then -(td8Body (w % 128) : Int) else (td8Body (w % 128) : Int)
  | 5 => toSigned 8 w
  | _ => patVal (tyFmt ty) w
def opDen (ty : Nat) : Nat :=
  match ty with
  | 0 => 32 * 10 ^ 6
  | 5 => 1
  | _ => unitDen (tyFmt ty)
def opNaN (ty w : Nat) : Bool :=
  match ty with
  | 0 => w == 0x80
  | 5 => false
  | _ => patNaN (tyFmt ty) w
def opInvalid (ty w : Nat) : Bool :=
  match ty with
  | 0 => w == 0x80
  | 5 => false
  | _ => patSignals (tyFmt ty) w
def opInf (ty w : Nat) : Bool := (ty == 1 || ty == 2) && patInf (tyFmt ty) w
def opNegative (ty w : Nat) : Bool :=
  match ty with
  | 0 | 5 => decide (opVal ty w < 0)
  | _ => negative (tyFmt ty) w

/-- R48 steps 1 to 4: the products of the rows `lo` up to `hi` summed exactly and rounded once; a zero sum is −0 when every product is.
Under records the rounded sum is multiplied by `g`, and rounded again. -/
def SegmentOf (af bf lo hi : Nat) (a w : Nat → Nat) (g : Option Nat) (r : Nat × Flags) : Prop :=
  let js := (List.range hi).filter (fun j => decide (lo ≤ j))
  let sum : Int := js.foldl (fun acc j => acc + opVal af (a j) * opVal bf (w j)) 0
  let minus := js.all (fun j => (decide (opVal af (a j) = 0) || decide (opVal bf (w j) = 0)) && (opNegative af (a j) != opNegative bf (w j)))
  ∃ m : Nat × Flags,
    (if sum = 0 then m = (if minus then 2 ^ 31 else 0, 0)
     else Rounded fmtF .rn (decide (sum < 0)) (sum.natAbs * unitDen fmtF) (opDen af * opDen bf) m)
    ∧ match g with
      | none => r = m
      | some g => ∃ p, ProductOf fmtF .rn m.1 g p ∧ r = (p.1, m.2 ||| p.2)

/-- R48, R50: the segment results of a column whose rows below `ek` take part, in blocks of `b` rows; `g q` is the scale of block `q`. -/
def ColumnOf (af bf b ek : Nat) (g : Option (Nat → Nat)) (a w : Nat → Nat) (segs : List (BitVec 32)) (fl : Flags) : Prop :=
  let nanAt (j : Nat) : Bool := opNaN af (a j) || opNaN bf (w j)
  let infAt (j : Nat) : Bool := !(nanAt j) && (opInf af (a j) || opInf bf (w j))
  let minus (j : Nat) : Bool := opNegative af (a j) != opNegative bf (w j)
  let any (p : Nat → Bool) : Bool := (List.range ek).any p
  if any (fun j => infAt j && (decide (opVal af (a j) = 0) || decide (opVal bf (w j) = 0)))
      || any (fun j => infAt j && minus j) && any (fun j => infAt j && !(minus j)) then
    segs = [0x7FC00000] ∧ fl = flNV
  else if any nanAt then
    segs = [0x7FC00000] ∧ fl = (if any (fun j => opInvalid af (a j) || opInvalid bf (w j)) then flNV else 0)
  else if any infAt then segs = [if any (fun j => infAt j && minus j) then 0xFF800000 else 0x7F800000] ∧ fl = 0
  else segs.length = (ek + b - 1) / b ∧ ∃ sf : Nat → Flags,
    (∀ k, fl.getLsbD k = true ↔ ∃ q, q < segs.length ∧ (sf q).getLsbD k = true)
    ∧ ∀ q s, segs[q]? = some s → SegmentOf af bf (q * b) (min ek (q * b + b)) a w (g.map (· q)) (s.toNat, sf q)

/-- R34, R35: the block size of a record, none when it is ill-formed, and its decimal scale. -/
def blockOf (r : Nat) : Option Nat :=
  if r % 16 ≠ 0 then none else match r / 16 % 16 with
  | 0 => some 32
  | 1 => some 64
  | 2 => some 128
  | _ => none
def decimalOf (r : Nat) : Int := toSigned 8 (r / 256 % 256)

/-- R48 step 4: `g` is 10^d as FP32 to nearest. -/
def ScaleOf (d : Int) (g : Nat) : Prop :=
  ∃ fl, Rounded fmtF .rn false (10 ^ d.toNat * unitDen fmtF) (10 ^ (-d).toNat) (g, fl)

end Sys2Proof.Claims

/-- R48 to R50, R144, R152, R153: the row that a push of a 128-byte row sends across the array, and what the accumulator words become
where it leaves. -/
def Sys2Proof.Claims.ColumnSums : Prop :=
  (∀ (k : Core) (fmt : BitVec 32) (now : Nat) (row : VWord),
    let r := pushRow k fmt now row
    let af := fmt.toNat / 2 ^ 4 % 16
    let bf := fmt.toNat / 2 ^ 8 % 16
    let bits := if arrayType af then arrayBits af else if arrayType bf then arrayBits bf else 8
    let cap := 1024 / bits
    let actl := k.array.actl.toNat
    let ek := min (min (actl % 256) 128) cap
    let en := min (min (actl / 256 % 256) 128) cap
    let latch := actl / 2 ^ 24 % 4
    let rec' (j : Nat) : Nat × Nat := (k.array.arec.toNat / 2 ^ (16 * j) % 65536, (tget k.array.lrec 0 latch).toNat / 2 ^ (16 * j) % 65536)
    let scaled := fmt.getLsbD 12 && decide (bits = 8)
    let b := if scaled then (blockOf (rec' 0).1).getD 0 else 128
    let wellFormed := !scaled || (List.range (128 / b)).all (fun j => blockOf (rec' j).1 == some b && blockOf (rec' j).2 == some b)
    let a (j : Nat) : Nat := elem row.toNat bits j
    let w (c j : Nat) : Nat := elem (tget k.array.w 0 (128 * latch + j)).toNat bits c
    r.pushed = now ∧ r.exit = now + 136 ∧ r.en = en ∧ r.cols.length = en
    ∧ (if arrayType af && arrayType bf && arrayBits af == arrayBits bf && decide (b ≠ 0) && wellFormed then
        (if af = 5 ∧ bf = 5 ∧ scaled = false then
          r.int = true ∧ r.flags = 0 ∧ ∀ c, c < en → r.cols[c]? =
            some [BitVec.ofInt 32 ((List.range ek).foldl (fun acc j => acc + toSigned 8 (a j) * toSigned 8 (w c j)) 0)]
         else
          r.int = false ∧ ∃ g : Nat → Nat, (∀ q, scaled = true → q < 128 / b → ScaleOf (decimalOf (rec' q).1 + decimalOf (rec' q).2) (g q))
            ∧ ∃ cf : Nat → Flags, (∀ n, r.flags.getLsbD n = true ↔ ∃ c, c < en ∧ (cf c).getLsbD n = true)
              ∧ ∀ c segs, r.cols[c]? = some segs → ColumnOf af bf b ek (if scaled then some g else none) a (w c) segs (cf c))
       else r.int = false ∧ r.flags = flNV ∧ ∀ c, c < en → r.cols[c]? = some [0x7FC00000]))
  ∧ ∀ (old : BitVec 4096) (r : RowOut),
    let new := accumulateRow old r
    ∃ cf : Nat → Flags, (∀ n, new.2.getLsbD n = true ↔ r.flags.getLsbD n = true ∨ ∃ c, c < 128 ∧ (cf c).getLsbD n = true)
      ∧ ∀ c, c < 128 →
        let w := elem old.toNat 32 c
        let w' := elem new.1.toNat 32 c
        match r.cols[c]? with
        | none => w' = w ∧ cf c = 0
        | some segs =>
          (r.int = true → ∀ s, segs = [s] →
            let x := toSigned 32 w + s.toInt
            w' = ((max (-2 ^ 31) (min (2 ^ 31 - 1) x)) % 2 ^ 32).toNat ∧ cf c = (if x < -2 ^ 31 ∨ 2 ^ 31 - 1 < x then flOF else 0))
          ∧ (r.int = false → ∃ u : Nat → Nat, ∃ uf : Nat → Flags, u 0 = w ∧ w' = u segs.length
              ∧ (∀ n, (cf c).getLsbD n = true ↔ ∃ q, q < segs.length ∧ (uf q).getLsbD n = true)
              ∧ ∀ q s, segs[q]? = some s → SumOf fmtF .rn (u q) s.toNat (u (q + 1), uf q))

/-- R159: the exact real of kinds 2 and 3 in FP32 where its parameters are finite: x × p + q, with x = v / d. -/
def Sys2Proof.Claims.AffineOf (v : Int) (d p q r : Nat) : Prop :=
  let f := fmtF
  patNaN f p = false → patInf f p = false → patNaN f q = false → patInf f q = false →
  ∃ fl, RoundedInt f .rn (v * patVal f p + patVal f q * d) d
    (zeroNeg .rn (decide (v < 0) != negative f p) (negative f q) (decide (v * patVal f p = 0) && decide (patVal f q = 0))) (r, fl)

/-- The series of the sine of `t`, with 100 places behind the point; `sq` is t². -/
def Sys2Proof.Claims.sineSeries (n k t sq : Nat) : Int :=
  match n with
  | 0 => 0
  | n + 1 => (t : Int) - sineSeries n (k + 1) (t * sq / 2 ^ 100 / ((2 * k + 2) * (2 * k + 3))) sq

/-- R160: the integer nearest to 2^30 sin(πx/512), from the series of sine, with π to 50 places. -/
def Sys2Proof.Claims.quarter (x : Nat) : Nat :=
  let t := 314159265358979323846264338327950288419716939937511 * x * 2 ^ 100 / (512 * 10 ^ 50)
  ((sineSeries 20 0 t (t * t / 2 ^ 100) + 2 ^ 69) / 2 ^ 70).toNat

/-- R160: `v` is qsin of an angle of `a` parts of 2^32 in a turn, as FP32 to nearest. -/
def Sys2Proof.Claims.SineOf (a v : Nat) : Prop :=
  let q := a / 2 ^ 30 % 4
  let phi := if q % 2 = 1 then 2 ^ 30 - a % 2 ^ 30 else a % 2 ^ 30
  let x := phi / 2 ^ 22
  let m := if x = 256 then quarter 256 else quarter x + (quarter (x + 1) - quarter x) * (phi % 2 ^ 22) / 2 ^ 22
  ∃ fl, RoundedInt fmtF .rn ((if 2 ≤ q then -(m : Int) else m) * unitDen fmtF) (2 ^ 30) false (v, fl)

/-- R160: the angle of a row and a column. -/
def Sys2Proof.Claims.angleOf (row col p0 p1 : Nat) : Nat :=
  let n := col / 2 * (p1 % 2 ^ 8)
  let t := [32768, 30048, 27554, 25268, 23170, 21247, 19484, 17867].getD (n % 8) 0
  row * (if 63 < 15 + n / 8 then 0 else p0 * t / 2 ^ (15 + n / 8)) % 2 ^ 32

/-- R42, R157 to R161: beat `i` of a generator register: element k is the value at its coordinates, encoded to nearest; a register
that is no generator, or a format the array does not take, sets NV. -/
def Sys2Proof.Claims.GeneratorRows : Prop :=
  ∀ (lseed : Word) (rank : Nat) (e : BitVec 256) (i ty : Nat),
    let r := genRow lseed rank e i ty
    let bits := arrayBits ty
    let kind := e.toNat / 2 ^ 224 % 16
    let p0 := e.toNat / 2 ^ 160 % 2 ^ 32
    let p1 := e.toNat / 2 ^ 192 % 2 ^ 32
    let trans := e.getLsbD 228
    let lo := BitVec.ofNat 32 lseed.toNat ^^^ BitVec.ofNat 32 e.toNat ^^^ BitVec.ofNat 32 (e.toNat / 2 ^ 64 % 2 ^ 16)
    let hi := BitVec.ofNat 32 (lseed.toNat / 2 ^ 32) ^^^ BitVec.ofNat 32 (e.toNat / 2 ^ 32)
      ^^^ (if e.getLsbD 229 then BitVec.ofNat 32 rank else 0)
    (arrayType ty = false → r = (0, true))
    ∧ (arrayType ty = true → (8 < kind ∨ e.toNat / 2 ^ 230 ≠ 0) → r.2 = true ∧ ∀ k, k < 1024 / bits →
        elem r.1.toNat bits k = if ty = 0 then 0x80 else if ty = 5 then 0 else (tyFmt ty).nanBits)
    ∧ (arrayType ty = true → kind ≤ 8 → e.toNat / 2 ^ 230 = 0 → r.2 = false ∧ ∀ k, k < 1024 / bits →
        let row := (e.toNat / 2 ^ 96 + (if trans then k else i)) % 2 ^ 32
        let col := (e.toNat / 2 ^ 128 + (if trans then i else k)) % 2 ^ 32
        let h := (mix hi lo (BitVec.ofNat 32 row) (BitVec.ofNat 32 col)).toNat
        let one (b : Bool) : Nat := if b then 0x3F800000 else 0
        ∃ v fl, ConvertOf ty 3 .rn v (elem r.1.toNat bits k, fl) ∧
          match kind with
          | 0 => v = 0
          | 1 => v = if h.testBit 31 then 0xBF800000 else 0x3F800000
          | 2 => AffineOf (h / 256) (2 ^ 24) p0 p1 v
          | 3 => ∃ z fz, RoundedInt fmtF .rn
              (((h % 256 + h / 2 ^ 8 % 256 + h / 2 ^ 16 % 256 + h / 2 ^ 24 : Nat) - 510 : Int) * patVal fmtF 0x3BDDB446) 1 false (z, fz)
              ∧ AffineOf (patVal fmtF z) (unitDen fmtF) p0 p1 v
          | 4 => SineOf ((angleOf row col p0 p1 + 2 ^ 30) % 2 ^ 32) v
          | 5 => SineOf (angleOf row col p0 p1) v
          | 6 => v = one (decide (col ≤ row))
          | 7 => v = one (decide (((row : Int) - col).natAbs ≤ p0))
          | _ => v = one (decide (h / 256 < p0 % 2 ^ 24)))


/-! ## Scalar, index and control slots -/

namespace Sys2Proof.Claims

/-- Leading zeros: the first one bit from the top (R112). -/
def leadingZeros (a : Word) : Nat := ((List.range 64).find? (fun k => a.getLsbD (63 - k))).getD 64
/-- Trailing zeros: the first one bit from the bottom (R112). -/
def trailingZeros (a : Word) : Nat := ((List.range 64).find? (fun k => a.getLsbD k)).getD 64
/-- One bits (R112). -/
def oneBits (a : Word) : Nat := ((List.range 64).filter (fun k => a.getLsbD k)).length
/-- An integer as a 64-bit word. -/
def wrap64 (i : Int) : Nat := (i % 2 ^ 64).toNat

/-- The table of R112: unit, destination, selectors, landing, and the result of the operand values. -/
inductive ScalarForm : Instr → ScalarUnit → Dst → BitVec 5 → BitVec 5 → Nat → (Word → Word → Nat) → Prop where
  | add : ∀ u t d a b, ScalarForm (.add u t d a b) u d a b 1 (fun a b => wrap64 (a.toInt + b.toInt))
  | sub : ∀ u t d a b, ScalarForm (.sub u t d a b) u d a b 1 (fun a b => wrap64 (a.toInt - b.toInt))
  | and : ∀ u t d a b, ScalarForm (.and u t d a b) u d a b 1 (fun a b => a.toNat &&& b.toNat)
  | or : ∀ u t d a b, ScalarForm (.or u t d a b) u d a b 1 (fun a b => a.toNat ||| b.toNat)
  | xor : ∀ u t d a b, ScalarForm (.xor u t d a b) u d a b 1 (fun a b => a.toNat ^^^ b.toNat)
  | andn : ∀ u t d a b, ScalarForm (.andn u t d a b) u d a b 1 (fun a b => a.toNat &&& (2 ^ 64 - 1 - b.toNat))
  | shl : ∀ u t d a b, ScalarForm (.shl u t d a b) u d a b 1 (fun a b => a.toNat * 2 ^ (b.toNat % 64) % 2 ^ 64)
  | shr : ∀ u t d a b, ScalarForm (.shr u t d a b) u d a b 1 (fun a b => a.toNat / 2 ^ (b.toNat % 64))
  | sar : ∀ u t d a b, ScalarForm (.sar u t d a b) u d a b 1 (fun a b => wrap64 (a.toInt / 2 ^ (b.toNat % 64)))
  | rol : ∀ u t d a b, ScalarForm (.rol u t d a b) u d a b 1 (fun a b => a.toNat * 2 ^ (b.toNat % 64) % 2 ^ 64 + a.toNat / 2 ^ (64 - b.toNat % 64))
  | min : ∀ u t d a b, ScalarForm (.min u t d a b) u d a b 1 (fun a b => wrap64 (min a.toInt b.toInt))
  | max : ∀ u t d a b, ScalarForm (.max u t d a b) u d a b 1 (fun a b => wrap64 (max a.toInt b.toInt))
  | minu : ∀ u t d a b, ScalarForm (.minu u t d a b) u d a b 1 (fun a b => min a.toNat b.toNat)
  | maxu : ∀ u t d a b, ScalarForm (.maxu u t d a b) u d a b 1 (fun a b => max a.toNat b.toNat)
  | mul : ∀ u t d a b, ScalarForm (.mul u t d a b) u d a b 3 (fun a b => a.toNat * b.toNat % 2 ^ 64)
  | mulh : ∀ u t d a b, ScalarForm (.mulh u t d a b) u d a b 3 (fun a b => wrap64 (a.toInt * b.toInt / 2 ^ 64))
  | mulhu : ∀ u t d a b, ScalarForm (.mulhu u t d a b) u d a b 3 (fun a b => a.toNat * b.toNat / 2 ^ 64)
  | clz : ∀ u t d a, ScalarForm (.clz u t d a) u d a 0 1 (fun a _ => leadingZeros a)
  | ctz : ∀ u t d a, ScalarForm (.ctz u t d a) u d a 0 1 (fun a _ => trailingZeros a)
  | pcnt : ∀ u t d a, ScalarForm (.pcnt u t d a) u d a 0 1 (fun a _ => oneBits a)
  | sext : ∀ u t d a b, ScalarForm (.sext u t d a b) u d a b 1 (fun a b =>
      let n := b.toNat % 64
      a.toNat % 2 ^ (n + 1) + (if a.getLsbD n then 2 ^ 64 - 2 ^ (n + 1) else 0))
  | zext : ∀ u t d a b, ScalarForm (.zext u t d a b) u d a b 1 (fun a b => a.toNat % 2 ^ (b.toNat % 64 + 1))
  | cat7 : ∀ u t d a b, ScalarForm (.cat7 u t d a b) u d a b 1 (fun a b => a.toNat * 2 ^ 7 % 2 ^ 64 + b.toNat % 2 ^ 7)

/-- The table of R135, with cadv (R136) and aqfree (R140): destination, selectors, landing and result. -/
inductive IndexForm (s : State) : Instr → Dst → BitVec 5 → BitVec 5 → Nat → (Word → Word → Nat) → Prop where
  | xadd : ∀ t d a b, IndexForm s (.xadd t d a b) d a b 1 (fun a b => wrap64 (a.toInt + b.toInt))
  | xsub : ∀ t d a b, IndexForm s (.xsub t d a b) d a b 1 (fun a b => wrap64 (a.toInt - b.toInt))
  | xshl : ∀ t d a b, IndexForm s (.xshl t d a b) d a b 1 (fun a b => a.toNat * 2 ^ (b.toNat % 64) % 2 ^ 64)
  | xshr : ∀ t d a b, IndexForm s (.xshr t d a b) d a b 1 (fun a b => a.toNat / 2 ^ (b.toNat % 64))
  | xand : ∀ t d a b, IndexForm s (.xand t d a b) d a b 1 (fun a b => a.toNat &&& b.toNat)
  | xpcnt : ∀ t d a, IndexForm s (.xpcnt t d a) d a 0 1 (fun a _ => oneBits a)
  | xlea : ∀ t d a b, IndexForm s (.xlea t d a b) d a b 1 (fun a b => (a.toNat + b.toNat * 128) % 2 ^ 64)
  | xmin : ∀ t d a b, IndexForm s (.xmin t d a b) d a b 1 (fun a b => wrap64 (min a.toInt b.toInt))
  | xmax : ∀ t d a b, IndexForm s (.xmax t d a b) d a b 1 (fun a b => wrap64 (max a.toInt b.toInt))
  | cadv : ∀ t d a b, IndexForm s (.cadv t d a b) d a b 2 (fun c k =>
      let ka := k.toNat / 2 ^ 32
      let kb := k.toNat % 2 ^ 32
      let pa := c.toNat / 2 ^ 32
      let pb := c.toNat % 2 ^ 32
      if ka = 2 ^ 32 - 1 ∧ kb = 2 ^ 32 - 1 then c.toNat
      else (pa + (if ka ≤ kb then 8 else 0)) % 2 ^ 32 * 2 ^ 32 + (pb + (if kb ≤ ka then 8 else 0)) % 2 ^ 32)
  | aqfree : ∀ t d, IndexForm s (.aqfree t d) d 0 0 1 (fun _ _ => 64 - s.cur.aqocc)

/-- The condition of a scalar compare (R59). -/
def scalarHolds (code : Nat) (a b : Word) : Prop :=
  match code with
  | 0 => a = b
  | 1 => a ≠ b
  | 2 => a.toInt < b.toInt
  | 3 => b.toInt ≤ a.toInt
  | 4 => a.toNat < b.toNat
  | 5 => b.toNat ≤ a.toNat
  | 6 => a.getLsbD (b.toNat % 64) = true
  | _ => a.getLsbD (b.toNat % 64) = false

/-- The path an xfer takes (R93): the first of its `n` tests that holds, 5 when none does. -/
def leftmost (n : Nat) (holds : Nat → Bool) : Nat :=
  match (List.range n).find? holds with
  | some i => i + 1
  | none => 5

/-- The table of R57 and R69 for forms whose whole effect is to put results into flight, with those results: targets (R92),
loops (R98), deltas (R101), lane masks (R102), predicates (R114), FMT and GSEL fields (R162, R163), address registers (R174). -/
inductive RegisterForm (s : State) : Instr → List Flight → Prop where
  | prep : ∀ b d, RegisterForm s (.prep b d) ([landing s 6 (.b b.toNat) (((s.cur.pc.toNat : Int) + d.toInt) % 65536).toNat 0xFFFF 0])
  | prepr : ∀ b q, RegisterForm s (.prepr b q) ([landing s 6 (.b b.toNat) ((s.sel .c q).toNat % 65536) 0xFFFF 0])
  | loop : ∀ n q, RegisterForm s (.loop n q) ([landing s 1 (.lc n.toNat) ((s.sel .c q).toNat % 2 ^ 32) 0xFFFFFFFF 0,
      landing s 1 (.lsw n.toNat) ((s.cur.pc.toNat + 1) % 65536) 0xFFFF 0])
  | ldelta : ∀ n a q, RegisterForm s (.ldelta n a q) ([landing s 1 (.delta n.toNat a.toNat) ((s.sel .c q).toNat % 2 ^ 32) 0xFFFFFFFF 0])
  | ldk : ∀ k q h, RegisterForm s (.ldk k q h) ([landing s 1 (.k k.toNat) ((s.sel .c q).toNat * 2 ^ (64 * h.toNat)) ((2 ^ 64 - 1) * 2 ^ (64 * h.toNat)) 0])
  | budr : ∀ d, RegisterForm s (.budr d) (scalarFlights s .c d 1 0 s.cur.bud)
  | prd : ∀ u t d, RegisterForm s (.prd u t d) (scalarFlights s (scalarSlot u) d 1 0 (BitVec.ofNat 64 s.cur.p.toNat))
  | pwr : ∀ u t a, RegisterForm s (.pwr u t a) ([landing s 1 .p (s.sel (scalarSlot u) a).toNat 0xFFFF 0])
  | lda : ∀ u t n q, RegisterForm s (.lda u t n q) ([landing s 1 (.a n.toNat) ((s.sel (memSlot u) q).toNat % 2 ^ 32) 0xFFFFFFFF 0])
  | rda : ∀ u t d a, RegisterForm s (.rda u t d a) (scalarFlights s (memSlot u) d 1 0 (BitVec.ofNat 64 (tget s.cur.a 0 a.toNat).toNat))
  | fmtr : ∀ t g, RegisterForm s (.fmtr t g) (scalarFlights s .sa ⟨g, 0⟩ 1 0 (BitVec.ofNat 64 s.cur.fmt.toNat))
  | rmode : ∀ t m, RegisterForm s (.rmode t m) ([landing s 4 .fmt m.toNat 0x7 0])
  | afmt : ∀ t ty, RegisterForm s (.afmt t ty) ([landing s 4 .fmt (ty.toNat * 2 ^ 4) 0xF0 0])
  | bfmt : ∀ t ty, RegisterForm s (.bfmt t ty) ([landing s 4 .fmt (ty.toNat * 2 ^ 8) 0xF00 0])
  | scal : ∀ t v, RegisterForm s (.scal t v) ([landing s 4 .fmt (v.toNat * 2 ^ 12) 0x1000 0])
  | fclr : ∀ t m, RegisterForm s (.fclr t m) ([landing s 4 .fmt 0 (m.toNat * 2 ^ 16) 0])
  | gpsh : ∀ t e, RegisterForm s (.gpsh t e) ([landing s 4 .gsel e.toNat 0x7 0])
  | glat : ∀ t e, RegisterForm s (.glat t e) ([landing s 4 .gsel (e.toNat * 2 ^ 4) 0x70 0])
  | gsr : ∀ t e, RegisterForm s (.gsr t e) ([landing s 4 .gsel (e.toNat * 2 ^ 8) 0x700 0])

end Sys2Proof.Claims

/-- R112 (with R20): every scalar form lands its result in the named slices and its latch, and changes nothing else at issue. -/
def Sys2Proof.Claims.ScalarResults : Prop :=
  ∀ (i : Instr) (s : State) (u : ScalarUnit) (d : Dst) (a b : BitVec 5) (lat : Nat) (f : Word → Word → Nat),
    ScalarForm i u d a b lat f → Executes i s →
    ∃ t, exec i s = .next t ∧ SameMemory s t
      ∧ Puts s t (scalarFlights s (scalarSlot u) d lat 0 (BitVec.ofNat 64 (f (s.sel (scalarSlot u) a) (s.sel (scalarSlot u) b))))

/-- R20, R69: the code of the slot's own slice, SA 0, SB 1, MA 2, MB 3, X 4; C has none, and E counts as SA. -/
def Sys2Proof.Claims.ownSliceNo (u : SlotName) : Option Nat :=
  match u with
  | .sa | .e => some 0
  | .sb => some 1
  | .ma => some 2
  | .mb => some 3
  | .x => some 4
  | _ => none

/-- R20: whether slice `j` receives a result under copy code `c`: 0 own, 1 own, SA and SB, 2 own, MA and MB, 3 own and X, 4 own, SA,
SB, MA and MB, 5 all five, 6 none, 7 own. -/
def Sys2Proof.Claims.Receives (c : Nat) (u : SlotName) (j : Nat) : Prop :=
  match c with
  | 0 | 7 => ownSliceNo u = some j
  | 1 => ownSliceNo u = some j ∨ j = 0 ∨ j = 1
  | 2 => ownSliceNo u = some j ∨ j = 2 ∨ j = 3
  | 3 => ownSliceNo u = some j ∨ j = 4
  | 4 => ownSliceNo u = some j ∨ j < 4
  | 5 => j < 5
  | _ => False

/-- R20: a scalar result lands at one tick in the slices its copy code names, in VS under code 7, and always in the latch of its own
unit, SA, SB, MA, MB, X, C as 0 to 5; everywhere with exactly the value. -/
def Obligations.ScalarDestinations : Prop :=
  ∀ (s : State) (u : SlotName) (d : Dst) (lat : Nat) (v : Word) (f : Flight),
    f ∈ scalarFlights s u d lat 0 v ↔
      f.fid = 0 ∧ f.issued = s.now ∧ f.land = s.now + lat ∧ f.src = 1 ∧ f.value = BitVec.ofNat 1024 v.toNat
      ∧ f.mask = BitVec.ofNat 1024 (2 ^ 64 - 1) ∧ f.flags = 0
      ∧ ((∃ sl : BitVec 5, sl ≠ 0 ∧ f.dest = .slice sl d.idx.toNat
            ∧ ∀ j, j < 5 → (sl.getLsbD j = true ↔ Receives d.copy.toNat u j))
        ∨ (d.copy = 7 ∧ f.dest = .vs)
        ∨ ∃ l, f.dest = .latch l ∧ (u = .c ∧ l = 5 ∨ ownSliceNo u = some l))

/-- R113, R59: cmp, cmpa and cmpo land one predicate, and change nothing else at issue. -/
def Obligations.Compares : Prop :=
  ∀ (s : State) (u : ScalarUnit) (t : BitVec 3) (p : BitVec 4) (c : BitVec 3) (a b : BitVec 5) (v : Nat),
    let holds := scalarHolds c.toNat (s.sel (scalarSlot u) a) (s.sel (scalarSlot u) b)
    let old := s.cur.p.getLsbD p.toNat = true
    (∀ i, i = .cmp u t p c a b ∧ (v = 1 ↔ holds) ∨ i = .cmpa u t p c a b ∧ (v = 1 ↔ old ∧ holds)
        ∨ i = .cmpo u t p c a b ∧ (v = 1 ↔ old ∨ holds) →
      v ≤ 1 → Executes i s →
      ∃ s', exec i s = .next s' ∧ Puts s s' [landing s 1 .p (v * 2 ^ p.toNat) (2 ^ p.toNat) 0] ∧ SameMemory s s')

/-- R135, R136, R140: the X forms with a destination. -/
def Sys2Proof.Claims.IndexResults : Prop :=
  ∀ (i : Instr) (s : State) (d : Dst) (a b : BitVec 5) (lat : Nat) (f : Word → Word → Nat),
    IndexForm s i d a b lat f → Executes i s →
    ∃ t, exec i s = .next t ∧ SameMemory s t
      ∧ Puts s t (scalarFlights s .x d lat 0 (BitVec.ofNat 64 (f (s.sel .x a) (s.sel .x b))))

/-- R92, R98, R101, R102, R108, R114, R162, R163, R174: forms whose effect is to put results into flight. -/
def Sys2Proof.Claims.RegisterForms : Prop :=
  ∀ (i : Instr) (s : State) (fs : List Flight), RegisterForm s i fs → Executes i s →
    ∃ t, exec i s = .next t ∧ Puts s t fs ∧ SameMemory s t

/-- R162: fmtw stores the operand with its reserved bits 0 and a reserved rounding mode as 0. -/
def Sys2Proof.Claims.FormatWrite : Prop :=
  ∀ (s : State) (g : BitVec 3) (q : BitVec 5), Executes (.fmtw g q) s →
    ∃ t v, exec (.fmtw g q) s = .next t ∧ Puts s t [landing s 4 .fmt v 0xFFFFFFFF 0] ∧ SameMemory s t
      ∧ (∀ k, v.testBit k = ((s.sel .e q).toNat.testBit k
          && decide (k < 13 ∧ k ≠ 3 ∨ 16 ≤ k ∧ k < 21) && (decide (3 ≤ k) || decide ((s.sel .e q).toNat % 8 < 5))))

/-- R93: an xfer takes the leftmost path whose test holds, through the B register that path names; go takes path 1. -/
def Sys2Proof.Claims.Transfers : Prop :=
  (∀ (s : State) (bt : BitVec 3) (n1 : BitVec 2) (pb pol : BitVec 4),
    let o := leftmost (n1.toNat + 1) (fun i => s.cur.p.getLsbD (pb.toNat + i) != pol.getLsbD i)
    let b := (bt.toNat + o - 1) % 8
    ExecutesIf (.xfer bt n1 pb pol) s (o = 5 ∨ s.cur.bOk s.now b = true) →
    exec (.xfer bt n1 pb pol) s = .next { s with iss := { s.iss with
      outcome := o, next := if o = 5 then s.cur.pc + 1 else tget s.cur.bT 0 b } })
  ∧ ∀ (s : State) (b : BitVec 3), ExecutesIf (.go b) s (s.cur.bOk s.now b.toNat = true) →
    exec (.go b) s = .next { s with iss := { s.iss with outcome := 1, next := tget s.cur.bT 0 b.toNat } }

/-- R94: a transfer through a register that is not valid is not issued: it takes the unprepared-target fault. -/
def Sys2Proof.Claims.UnpreparedTargets : Prop :=
  (∀ (s : State) (b : BitVec 3), s.iss.checked = false → s.cur.bOk s.now b.toNat = false → NoBadWord s → slotRuns (.go b) s = true →
    exec (.go b) s = .next (s.bundleFault (bfault 3 0 b.toNat)))
  ∧ ∀ (s : State) (bt : BitVec 3) (n1 : BitVec 2) (pb pol : BitVec 4),
    let o := leftmost (n1.toNat + 1) (fun i => s.cur.p.getLsbD (pb.toNat + i) != pol.getLsbD i)
    let b := (bt.toNat + o - 1) % 8
    o ≠ 5 → s.iss.checked = false → s.cur.bOk s.now b = false → NoBadWord s → slotRuns (.xfer bt n1 pb pol) s = true →
    exec (.xfer bt n1 pb pol) s = .next (s.bundleFault (bfault 3 0 b))

/-- R56, R103, R109, R110: nops do nothing; a wait, a trap and a halt are asked for at the end of the bundle. -/
def Sys2Proof.Claims.LatchRequests : Prop :=
  (∀ (s : State) (u : SlotName), exec (.nop u) s = .next s)
  ∧ (∀ (s : State) (u : MemUnit), exec (.memNop u) s = .next s)
  ∧ (∀ (s : State) (b : BitVec 5), Executes (.waitBarrier b) s →
      exec (.waitBarrier b) s = .next { s with iss := { s.iss with
        wait := some (.cond (.barrier b.toNat (tget (s.core s.iss.core).barriers Barrier.reset b.toNat).gen)) } })
  ∧ (∀ (s : State) (q : BitVec 2), Executes (.waitQueue q) s →
      exec (.waitQueue q) s = .next { s with iss := { s.iss with wait := some (.cond (.queue q.toNat)) } })
  ∧ (∀ (s : State) (q : BitVec 5), Executes (.waitTick q) s →
      exec (.waitTick q) s = .next { s with iss := { s.iss with wait := some (.cond (.tick (s.sel .c q))) } })
  ∧ (∀ (s : State) (c : BitVec 3), Executes (.waitEngine c) s →
      exec (.waitEngine c) s = .next { s with iss := { s.iss with wait := some (.engine c.toNat) } })
  ∧ (∀ (s : State) (c : BitVec 8), Executes (.trap c) s →
      exec (.trap c) s = .next { s with iss := { s.iss with trap := some c.toNat } })
  ∧ (∀ (s : State), Executes .halt s → exec .halt s = .next { s with iss := { s.iss with halt := true } })

/-- R111: tmark appends a record to the core's trace ring of 256; hsig leaves a host signal to be posted. -/
def Sys2Proof.Claims.SystemCalls : Prop :=
  (∀ (s : State) (q : BitVec 5), Executes (.tmark q) s →
    ∃ t r, exec (.tmark q) s = .next t
      ∧ OnlyCore s t s.iss.core { s.core s.iss.core with
          trace := ((s.core s.iss.core).trace ++ [r]).drop ((s.core s.iss.core).trace.length + 1 - 256) }
      ∧ r.toNat / 2 ^ 64 = s.now % 2 ^ 64 ∧ r.toNat / 2 ^ 62 % 4 = s.iss.ctx % 4 ∧ r.toNat / 2 ^ 48 % 2 ^ 14 = 0
      ∧ r.toNat % 2 ^ 48 = (s.sel .c q).toNat % 2 ^ 48)
  ∧ ∀ (s : State) (q : BitVec 5), Executes (.hsig q) s →
    let h : HSig := ⟨s.nextId, s.now, s.iss.core, s.iss.ctx, s.cur.lx, s.sel .c q⟩
    exec (.hsig q) s = .next { s with nextId := s.nextId + 1, hsigs := s.hsigs ++ [h] }

/-- R20, R112, R135, R136, R140: the results of the scalar and index slots. -/
def Obligations.ScalarAndIndexResults : Prop :=
  Sys2Proof.Claims.ScalarResults ∧ Sys2Proof.Claims.IndexResults

/-- R92, R98, R101, R102, R108, R112, R114, R162, R163, R174: the forms whose whole effect is to put results into flight. That lda
lands in its A register alone, in no latch, is the model's choice (log entry 56). -/
def Obligations.RegisterForms : Prop :=
  Sys2Proof.Claims.RegisterForms ∧ Sys2Proof.Claims.FormatWrite

/-- R26, R93, R94: transfers, and targets that are not prepared. -/
def Obligations.Transfers : Prop :=
  Sys2Proof.Claims.Transfers ∧ Sys2Proof.Claims.UnpreparedTargets

/-- R56, R103, R108 to R111: nops, waits, trap, halt, trace marks and host signals. -/
def Obligations.SystemRequests : Prop :=
  Sys2Proof.Claims.LatchRequests ∧ Sys2Proof.Claims.SystemCalls

/-! ## The address queue and the vector slots -/

namespace Sys2Proof.Claims

/-- The entries a push instruction pushes when it issues (R136, R138): address and size. -/
inductive PushForm (s : State) : Instr → List (Nat × Nat) → List Flight → Prop where
  | aqp : ∀ t a b n, (n, (s.sel .x b).toNat % 8) ∈ [(128, 0), (64, 1), (32, 2), (16, 3), (8, 4), (128, 5), (128, 6), (128, 7)] →
      PushForm s (.aqp t a b) [((s.sel .x a).toNat % 2 ^ 32 / n * n, n)] []
  | matching : ∀ t d a b lat f, IndexForm s (.cadv t d a b) d a b lat f →
      (s.sel .x b).toNat / 2 ^ 32 = (s.sel .x b).toNat % 2 ^ 32 → (s.sel .x b).toNat % 2 ^ 32 ≠ 2 ^ 32 - 1 →
      PushForm s (.cadvp t d a b)
        [((s.sel .x a).toNat / 2 ^ 32 / 8 * 8, 8), ((s.sel .x a).toNat % 2 ^ 32 / 8 * 8, 8)]
        (scalarFlights s .x d 2 0 (BitVec.ofNat 64 (f (s.sel .x a) (s.sel .x b))))
  | apart : ∀ t d a b lat f, IndexForm s (.cadv t d a b) d a b lat f →
      ¬ ((s.sel .x b).toNat / 2 ^ 32 = (s.sel .x b).toNat % 2 ^ 32 ∧ (s.sel .x b).toNat % 2 ^ 32 ≠ 2 ^ 32 - 1) →
      PushForm s (.cadvp t d a b) [] (scalarFlights s .x d 2 0 (BitVec.ofNat 64 (f (s.sel .x a) (s.sel .x b))))

/-- A push may issue (R137, R138, R194, R199): there is room, its address lies in a scratchpad of the cluster, its bank is owned
where that is the core's own, and the engine side of its bank is free eight ticks on. That the two reads of one cadvp that meet in a bank
share its slot is the model's choice (log entry 18). -/
def PushesReady (s : State) (ps : List (Nat × Nat)) : Prop :=
  s.cur.aqocc + ps.length ≤ 64 ∧ (∀ p ∈ ps, ∃ d off, localPlace s.iss.core p.1 = some (d, off)
    ∧ (s.core d).slotTaken (bankOf off) (s.now + 8) false = false
    ∧ (p.1 < spadSize → (s.core s.iss.core).owns s.iss.ctx (bankOf p.1) = true))

/-- What a vector slot lands (R115 to R117): where `on` holds, element `i` of `n` takes `val i`; the other bits of the
destination keep their values. The flags of the elements written are set. -/
def VectorLands (s t : State) (d : Dest) (lat e n : Nat) (on : Nat → Bool) (val : Nat → Nat) (flag : Nat → Flags)
    (counts : Bool) : Prop :=
  ∃ v m : VWord,
    OnlyCtx s t s.iss.core s.iss.ctx { s.cur with
      flights := s.cur.flights ++ [⟨0, s.now, s.now + lat, 1, d, v, m,
        (List.range n).foldl (fun acc i => if on i then acc ||| flag i else acc) 0⟩]
      vwc := if counts then s.cur.vwc + 1 else s.cur.vwc }
    ∧ (∀ i, i < n → on i = true → elem v.toNat e i = val i % 2 ^ e ∧ elem m.toNat e i = 2 ^ e - 1)
    ∧ (∀ i, i < n → on i = false → elem m.toNat e i = 0)
    ∧ m.toNat < 2 ^ (e * n)

/-- Element `i` of the registers an instruction names, and whether its mask leaves it on (R115, R116). -/
def eA (s : State) (f : VecFields) (i : Nat) : Nat := elem (s.vreg f.va) (elemW f) i
def eB (s : State) (f : VecFields) (i : Nat) : Nat := elem (s.vreg f.vb) (elemW f) i
def eD (s : State) (f : VecFields) (i : Nat) : Nat := elem (s.vreg f.vd) (elemW f) i
def eOn (s : State) (f : VecFields) (i : Nat) : Bool := (s.kreg f.km).testBit (i * (elemW f / 8))

/-- An element as a number of TY: signed for .i, unsigned for .n. -/
def eInt (f : VecFields) (w : Nat) : Int := if tySigned f.ty.toNat then toSigned (elemW f) w else (w : Int)

/-- Bit `k` of the carry-less product of two 64-bit numbers (R133). -/
def clBit (a b k : Nat) : Bool := ((List.range 64).filter (fun j => b.testBit j && decide (j ≤ k) && a.testBit (k - j))).length % 2 == 1

/-- The bit and movement forms (R129, R133, R134): fields, landing, and the result of element `i` as a bit function. -/
inductive VecBitForm (s : State) : Instr → VecFields → Nat → (Nat → Nat → Bool) → Prop where
  | vand : ∀ u f, VecBitForm s (.vand u f) f 2 (fun i k => (eA s f i).testBit k && (eB s f i).testBit k)
  | vor : ∀ u f, VecBitForm s (.vor u f) f 2 (fun i k => (eA s f i).testBit k || (eB s f i).testBit k)
  | vxor : ∀ u f, VecBitForm s (.vxor u f) f 2 (fun i k => (eA s f i).testBit k != (eB s f i).testBit k)
  | vshl : ∀ u f, VecBitForm s (.vshl u f) f 2 (fun i k => decide (eB s f i ≤ k) && (eA s f i).testBit (k - eB s f i))
  | vshr : ∀ u f, VecBitForm s (.vshr u f) f 2 (fun i k =>
      if k + eB s f i < elemW f then (eA s f i).testBit (k + eB s f i) else tySigned f.ty.toNat && (eA s f i).testBit (elemW f - 1))
  | vrot : ∀ u f, VecBitForm s (.vrot u f) f 2 (fun i k => (eA s f ((i + vecN f - s.cur.vs.toNat % vecN f) % vecN f)).testBit k)
  | vshuf : ∀ u f, VecBitForm s (.vshuf u f) f 2 (fun i k => (eA s f (eB s f i % vecN f)).testBit k)
  | vbc : ∀ u f, VecBitForm s (.vbc u f) f 2 (fun _ k => s.cur.vs.toNat.testBit k && decide (f.ty.toNat = 4 → k < 40))
  | vclmul : ∀ u f, VecBitForm s (.vclmul u f) f 4 (fun i k =>
      clBit (elem (s.vreg f.va) 64 (i / 2 * 2)) (elem (s.vreg f.vb) 64 (i / 2 * 2)) (64 * (i % 2) + k))

/-- The integer forms of R122 with the exact result of element `i`. -/
inductive VecIntForm (s : State) : Instr → VecFields → (Nat → Int) → Prop where
  | vadd : ∀ u f, VecIntForm s (.vadd u f) f (fun i => eInt f (eA s f i) + eInt f (eB s f i))
  | vsub : ∀ u f, VecIntForm s (.vsub u f) f (fun i => eInt f (eA s f i) - eInt f (eB s f i))
  | vmul : ∀ u f, VecIntForm s (.vmul u f) f (fun i => eInt f (eA s f i) * eInt f (eB s f i))
  | vmin : ∀ u f, VecIntForm s (.vmin u f) f (fun i => min (eInt f (eA s f i)) (eInt f (eB s f i)))
  | vmax : ∀ u f, VecIntForm s (.vmax u f) f (fun i => max (eInt f (eA s f i)) (eInt f (eB s f i)))
  | vabs : ∀ u f, VecIntForm s (.vabs u f) f (fun i => ((eInt f (eA s f i)).natAbs : Int))
  | vneg : ∀ u f, VecIntForm s (.vneg u f) f (fun i => -eInt f (eA s f i))

/-- The range of an integer type. -/
def intLo (f : VecFields) : Int := if tySigned f.ty.toNat then -2 ^ (elemW f - 1) else 0
def intHi (f : VecFields) : Int := if tySigned f.ty.toNat then 2 ^ (elemW f - 1) - 1 else 2 ^ elemW f - 1

/-- The rounding mode in force for a vector result of a row (R120, R121). -/
def vecMode (s : State) (f : VecFields) (row : Nat) : RMode :=
  let code := if f.md = 5 then s.cur.fmt.toNat % 8 else f.md.toNat
  match code with
  | 1 => .rz
  | 2 => .ru
  | 3 => .rd
  | 4 => .rs (drawOf s.cur.sr s.cur.vwc.toNat row f.vd.toNat)
  | _ => .rn

/-- Whether an instruction counts in VWC: its mode is stochastic (R121). -/
def vecCounts (s : State) (f : VecFields) : Bool := (if f.md = 5 then s.cur.fmt.toNat % 8 else f.md.toNat) == 4

/-- The rounding forms on F types (R122, R124, R125), with landing and the pattern and flags of element `i`. -/
inductive VecFloatForm (s : State) : Instr → VecFields → Nat → (Nat → RMode → FV → FV → FV → Nat × Flags) → Prop where
  | vadd : ∀ u f, VecFloatForm s (.vadd u f) f 3 (fun _ m a b _ => fAdd (vecFmt f) m a b)
  | vsub : ∀ u f, VecFloatForm s (.vsub u f) f 3 (fun _ m a b _ => fSub (vecFmt f) m a b)
  | vmul : ∀ u f, VecFloatForm s (.vmul u f) f 5 (fun _ m a b _ => fMul (vecFmt f) m a b)
  | vfma : ∀ u f, VecFloatForm s (.vfma u f) f 6 (fun _ m a b d => laneFma (vecFmt f) m a b d)
  | vexp2 : ∀ u f, VecFloatForm s (.vexp2 u f) f 9 (fun _ m a _ _ => laneExp2 (vecFmt f) m a)
  | vrsqrt : ∀ u f, VecFloatForm s (.vrsqrt u f) f 9 (fun _ m a _ _ => laneRsqrt (vecFmt f) m a)
  | vrecip : ∀ u f, VecFloatForm s (.vrecip u f) f 9 (fun _ m a _ _ => laneRecip (vecFmt f) m a)

/-- The F forms of R122 that round nothing. -/
inductive VecPlainForm (s : State) : Instr → VecFields → (Nat → Nat × Flags) → Prop where
  | vmin : ∀ u f, VecPlainForm s (.vmin u f) f (fun i =>
      roundRes (vecFmt f) .rn (minV (fdecode (vecFmt f) (eA s f i)) (fdecode (vecFmt f) (eB s f i))))
  | vmax : ∀ u f, VecPlainForm s (.vmax u f) f (fun i =>
      roundRes (vecFmt f) .rn (maxV (fdecode (vecFmt f) (eA s f i)) (fdecode (vecFmt f) (eB s f i))))
  | vabs : ∀ u f, VecPlainForm s (.vabs u f) f (fun i => (eA s f i % 2 ^ (elemW f - 1), 0))
  | vneg : ∀ u f, VecPlainForm s (.vneg u f) f (fun i => (eA s f i ^^^ 2 ^ (elemW f - 1), 0))

/-- The sum of the elements the mask leaves on, of the first `n`. -/
def activeSum (s : State) (f : VecFields) (n : Nat) : Int :=
  ((List.range n).filter (eOn s f)).foldl (fun acc i => acc + eInt f (eA s f i)) 0

/-- `r` is the greatest (`up`) or the least of `lo` and the elements the mask leaves on, of the first `n`. -/
def IsExtreme (s : State) (f : VecFields) (up : Bool) (start : Int) (n : Nat) (r : Int) : Prop :=
  (r = start ∨ ∃ i, i < n ∧ eOn s f i = true ∧ r = eInt f (eA s f i))
  ∧ (if up then start ≤ r else r ≤ start)
  ∧ ∀ i, i < n → eOn s f i = true → if up then eInt f (eA s f i) ≤ r else r ≤ eInt f (eA s f i)

/-- Whether an element is a NaN of its format, and a signalling one (R36, R38). -/
def elemNaN (fm : FFmt) (w : Nat) : Bool :=
  decide (w / 2 ^ fm.fbits % 2 ^ fm.ebits = 2 ^ fm.ebits - 1) && decide (w % 2 ^ fm.fbits ≠ 0)
def elemSignals (fm : FFmt) (w : Nat) : Bool := elemNaN fm w && !(w.testBit (fm.fbits - 1))
/-- A number that orders the elements that are no NaN by value, −0 equal to +0: the pattern without its sign, which is 0 for every zero
(R38), with the sign. -/
def elemKey (fm : FFmt) (w : Nat) : Int :=
  let m : Int := if fm.sub = false ∧ w / 2 ^ fm.fbits % 2 ^ fm.ebits = 0 then 0 else (w % 2 ^ (fm.fbits + fm.ebits) : Nat)
  if w.testBit (fm.fbits + fm.ebits) then -m else m

/-- The condition of vcmp on two elements (R66, R127): 0 eq, 1 ne, 2 lt, 3 le, 4 gt, 5 ge, 6 unordered, 7 ordered. -/
def cmpHolds (f : VecFields) (a b : Nat) : Prop :=
  let fm := vecFmt f
  let isF := tyIsInt f.ty.toNat = false
  let x : Int := if isF then elemKey fm a else eInt f a
  let y : Int := if isF then elemKey fm b else eInt f b
  let nan := isF ∧ (elemNaN fm a = true ∨ elemNaN fm b = true)
  match f.md.toNat with
  | 0 => ¬ nan ∧ x = y
  | 1 => nan ∨ x ≠ y
  | 2 => ¬ nan ∧ x < y
  | 3 => ¬ nan ∧ x ≤ y
  | 4 => ¬ nan ∧ y < x
  | 5 => ¬ nan ∧ y ≤ x
  | 6 => nan
  | _ => ¬ nan

/-- The flag of vcmp (R127): a signalling NaN sets NV, a quiet one under lt, le, gt and ge. -/
def cmpInvalid (f : VecFields) (a b : Nat) : Bool :=
  let fm := vecFmt f
  !(tyIsInt f.ty.toNat) && (elemSignals fm a || elemSignals fm b
    || ((elemNaN fm a || elemNaN fm b) && decide (2 ≤ f.md.toNat) && decide (f.md.toNat ≤ 5)))

/-- R132: the order of vcx: integers by TY; −∞ < negative finite < −0 < +0 < positive finite < +∞ < NaN, no NaN above another. -/
def cxAbove (f : VecFields) (a b : Nat) : Bool :=
  let fm := vecFmt f
  if tyIsInt f.ty.toNat then decide (eInt f b < eInt f a)
  else if elemNaN fm a then !(elemNaN fm b)
  else if elemNaN fm b then false
  else decide (elemKey fm b < elemKey fm a)
    || (decide (elemKey fm a = 0) && decide (elemKey fm b = 0) && b.testBit (fm.fbits + fm.ebits) && !(a.testBit (fm.fbits + fm.ebits)))

/-- One combination of a float scan or reduction: a sum rounds by the mode, a maximum or minimum takes one of its operands (R51). -/
def combined (op : RedOp) (fm : FFmt) (m : RMode) (a b : FV) : Nat × Flags :=
  match op with
  | .sum => fAdd fm m a b
  | .max => roundRes fm .rn (maxV a b)
  | .min => roundRes fm .rn (minV a b)

/-- The identity of R51: +0, −∞, +∞. -/
def identityOf (op : RedOp) : FV :=
  match op with
  | .sum => .fin false ⟨0, 1⟩
  | .max => .inf true
  | .min => .inf false

/-- The first active lane of the first `n` that holds a NaN. -/
def nanLane (s : State) (f : VecFields) (n : Nat) : Option Nat :=
  (List.range n).find? (fun j => eOn s f j && elemNaN (vecFmt f) (eA s f j))

/-- The quiet NaN of a pattern of a format. -/
def quieted (fm : FFmt) (w : Nat) : Nat := w % 2 ^ (fm.fbits + fm.ebits + 1) ||| 2 ^ (fm.fbits - 1)

end Sys2Proof.Claims

/-- R137 to R139: a push takes its place in the address queue at issue, counts in AQOCC and reserves its read. -/
def Obligations.QueuePushes : Prop :=
  ∀ (i : Instr) (s : State) (ps : List (Nat × Nat)) (fs : List Flight), PushForm s i ps fs →
    ExecutesIf i s (PushesReady s ps) →
    ∃ t, exec i s = .next t ∧ SameMemory s t
      ∧ OnlyCtxResv s t s.iss.core s.iss.ctx
          { s.cur with
            flights := s.cur.flights ++ fs, aqocc := s.cur.aqocc + ps.length
            aq := s.cur.aq ++ ps.map (fun p => ⟨BitVec.ofNat 32 p.1, p.2, s.now, none⟩) }
          (ps.filterMap (fun p => (localPlace s.iss.core p.1).map (fun q =>
            (q.1, ⟨bankOf q.2, s.now + 8, false, 0, s.iss.core, s.iss.ctx⟩))))

/-- R129, R133, R134: the bit and movement forms, bit by bit. -/
def Sys2Proof.Claims.VectorBits : Prop :=
  ∀ (i : Instr) (s : State) (f : VecFields) (lat : Nat) (g : Nat → Nat → Bool), VecBitForm s i f lat g → i.wf = true →
    Executes i s →
    ∃ t val, exec i s = .next t ∧ SameMemory s t
      ∧ VectorLands s t (.v f.vd.toNat) lat (elemW f) (vecN f) (eOn s f) val (fun _ => 0) false
      ∧ ∀ j k, j < vecN f → k < elemW f → (val j).testBit k = g j k

/-- R134: vpcnt counts the one bits of each element. -/
def Sys2Proof.Claims.VectorCounts : Prop :=
  ∀ (s : State) (u : VecUnit) (f : VecFields), (Instr.vpcnt u f).wf = true → Executes (.vpcnt u f) s →
    ∃ t, exec (.vpcnt u f) s = .next t ∧ SameMemory s t
      ∧ VectorLands s t (.v f.vd.toNat) 2 (elemW f) (vecN f) (eOn s f)
          (fun i => ((List.range (elemW f)).filter (fun k => (eA s f i).testBit k)).length) (fun _ => 0) false

/-- R122, R123: the integer forms wrap in mode 0, and clamp with OF in mode 1. -/
def Obligations.VectorIntegers : Prop :=
  ∀ (i : Instr) (s : State) (f : VecFields) (r : Nat → Int), VecIntForm s i f r → i.wf = true → tyIsInt f.ty.toNat = true →
    Executes i s →
    ∃ t, exec i s = .next t ∧ SameMemory s t
      ∧ VectorLands s t (.v f.vd.toNat) 2 (elemW f) (vecN f) (eOn s f)
          (fun j => ((if f.md = 1 then max (intLo f) (min (intHi f) (r j)) else r j) % 2 ^ elemW f).toNat)
          (fun j => if f.md = 1 ∧ (r j < intLo f ∨ intHi f < r j) then flOF else 0) false

/-- R120 to R122, R124, R125: the F forms land at their ticks with one rounding of each element that the mask leaves on, and
count in VWC when their mode is stochastic. -/
def Sys2Proof.Claims.VectorFloats : Prop :=
  (∀ (i : Instr) (s : State) (f : VecFields) (lat : Nat) (g : Nat → RMode → FV → FV → FV → Nat × Flags),
    VecFloatForm s i f lat g → i.wf = true → tyIsInt f.ty.toNat = false → Executes i s →
    let r (j : Nat) : Nat × Flags := g j (vecMode s f j) (fdecode (vecFmt f) (eA s f j)) (fdecode (vecFmt f) (eB s f j))
      (fdecode (vecFmt f) (eD s f j))
    ∃ t, exec i s = .next t ∧ SameMemory s t
      ∧ VectorLands s t (.v f.vd.toNat) lat (elemW f) (vecN f) (eOn s f) (fun j => (r j).1) (fun j => (r j).2) (vecCounts s f))
  ∧ ∀ (i : Instr) (s : State) (f : VecFields) (g : Nat → Nat × Flags),
    VecPlainForm s i f g → i.wf = true → tyIsInt f.ty.toNat = false → Executes i s →
    ∃ t, exec i s = .next t ∧ SameMemory s t
      ∧ VectorLands s t (.v f.vd.toNat) 3 (elemW f) (vecN f) (eOn s f) (fun j => (g j).1) (fun j => (g j).2) false

/-- R126: vcvt converts n = w / max(eS, eD) elements, masked by the bits of the destination type. -/
def Sys2Proof.Claims.VectorConverts : Prop :=
  ∀ (s : State) (u : VecUnit) (f : VecFields), (Instr.vcvt u f).wf = true → Executes (.vcvt u f) s →
    let src := f.vb.toNat % 16
    let n := vecWid f / max (tyWidth src) (elemW f)
    let r (j : Nat) : Nat × Flags := convert f.ty.toNat src (vecMode s f j) (elem (s.vreg f.va) (tyWidth src) j)
    ∃ t, exec (.vcvt u f) s = .next t ∧ SameMemory s t
      ∧ VectorLands s t (.v f.vd.toNat) 3 (elemW f) n (eOn s f) (fun j => (r j).1) (fun j => (r j).2) (vecCounts s f)

/-- R127: vcmp fills the mask bits of each element's byte lanes with its condition. -/
def Sys2Proof.Claims.VectorCompares : Prop :=
  ∀ (s : State) (u : VecUnit) (f : VecFields), (Instr.vcmp u f).wf = true → Executes (.vcmp u f) s →
    ∃ t val, exec (.vcmp u f) s = .next t ∧ SameMemory s t
      ∧ VectorLands s t (.k (f.vd.toNat % 8)) 2 (elemW f / 8) (vecN f) (eOn s f)
          val (fun j => if cmpInvalid f (eA s f j) (eB s f j) then flNV else 0) false
      ∧ ∀ j, (cmpHolds f (eA s f j) (eB s f j) → val j = 2 ^ (elemW f / 8) - 1) ∧ (¬ cmpHolds f (eA s f j) (eB s f j) → val j = 0)

/-- R128, R132: vsel and vcx write every element within the width, whatever KM. -/
def Sys2Proof.Claims.VectorSelects : Prop :=
  (∀ (s : State) (u : VecUnit) (f : VecFields), (Instr.vsel u f).wf = true → Executes (.vsel u f) s →
    ∃ t, exec (.vsel u f) s = .next t ∧ SameMemory s t
      ∧ VectorLands s t (.v f.vd.toNat) 2 (elemW f) (vecN f) (fun _ => true)
          (fun j => if eOn s f j then eA s f j else eB s f j) (fun _ => 0) false)
  ∧ ∀ (s : State) (u : VecUnit) (f : VecFields), (Instr.vcx u f).wf = true → Executes (.vcx u f) s →
    let d := 2 ^ f.md.toNat
    let swaps (lo : Nat) : Bool := if eOn s f lo then cxAbove f (eA s f lo) (eA s f (lo + d))
      else cxAbove f (eA s f (lo + d)) (eA s f lo)
    ∃ t, exec (.vcx u f) s = .next t ∧ SameMemory s t
      ∧ VectorLands s t (.v f.vd.toNat) 2 (elemW f) (vecN f) (fun _ => true)
          (fun j => eA s f (if vecN f ≤ d then j
            else if j / d % 2 = 0 then (if swaps j then j + d else j) else (if swaps (j - d) then j - d else j)))
          (fun _ => 0) false

/-- R130, R131 on I types: a scan writes the running sum or maximum of the active elements, a reduction the sum, maximum or
minimum of all of them to element 0 and zeros to the others; sums wrap. -/
def Sys2Proof.Claims.IntegerReductions : Prop :=
  ∀ (s : State) (u : VecUnit) (f : VecFields), tyIsInt f.ty.toNat = true →
    let lands (i : Instr) (on : Nat → Bool) (ok : (Nat → Nat) → Prop) : Prop :=
      i.wf = true → Executes i s → ∃ t val, exec i s = .next t ∧ SameMemory s t
        ∧ VectorLands s t (.v f.vd.toNat) 7 (elemW f) (vecN f) on val (fun _ => 0) false ∧ ok val
    let zeros (val : Nat → Nat) : Prop := ∀ j, 0 < j → j < vecN f → val j = 0
    lands (.vscan u f) (eOn s f) (fun val => ∀ j, j < vecN f → eOn s f j = true →
        val j = (activeSum s f (j + 1) % 2 ^ elemW f).toNat)
    ∧ lands (.vscanx u f) (eOn s f) (fun val => ∀ j, j < vecN f → eOn s f j = true →
        ∃ r, IsExtreme s f true (intLo f) (j + 1) r ∧ val j = (r % 2 ^ elemW f).toNat)
    ∧ lands (.vred u f) (fun _ => true) (fun val => val 0 = (activeSum s f (vecN f) % 2 ^ elemW f).toNat ∧ zeros val)
    ∧ lands (.vredx u f) (fun _ => true) (fun val =>
        (∃ r, IsExtreme s f true (intLo f) (vecN f) r ∧ val 0 = (r % 2 ^ elemW f).toNat) ∧ zeros val)
    ∧ lands (.vredn u f) (fun _ => true) (fun val =>
        (∃ r, IsExtreme s f false (intHi f) (vecN f) r ∧ val 0 = (r % 2 ^ elemW f).toNat) ∧ zeros val)

/-- R51, R53, R130, R131 on F types. A scan combines the active lanes in lane order, each step by the mode with row j; a reduction
combines neighbours pairwise, level by level, combination j of level l with row l × 2^16 + j, masked lanes as the identity. Where an
active lane so far, or any lane of a reduction, holds a NaN, the lowest one stands there quieted, with NV for a signalling one. Only the
sums count in VWC when the mode is stochastic, since the others have no rounding mode (R65). -/
def Sys2Proof.Claims.FloatReductions : Prop :=
  ∀ (s : State) (u : VecUnit) (f : VecFields), tyIsInt f.ty.toNat = false →
    let fm := vecFmt f
    let pat (v : FV) : Nat := (fencode fm .rn v).1
    let nv (j : Nat) : Flags := if elemSignals fm (eA s f j) then flNV else 0
    let scans (i : Instr) (op : RedOp) : Prop := i.wf = true → Executes i s →
      ∃ t val fl, ∃ v : Nat → FV, exec i s = .next t ∧ SameMemory s t
        ∧ VectorLands s t (.v f.vd.toNat) 7 (elemW f) (vecN f) (eOn s f) val fl (vecCounts s f)
        ∧ v 0 = identityOf op
        ∧ ∀ j, j < vecN f →
            let r := combined op fm (vecMode s f j) (v j) (fdecode fm (eA s f j))
            v (j + 1) = (if eOn s f j then fdecode fm r.1 else v j)
            ∧ (eOn s f j = true → match nanLane s f (j + 1) with
                | none => val j = pat (v (j + 1)) ∧ fl j = r.2
                | some k => val j = quieted fm (eA s f k) ∧ fl j = nv j)
    let reduces (i : Instr) (op : RedOp) : Prop := i.wf = true → Executes i s →
      ∃ t val fl, ∃ v : Nat → Nat → FV, exec i s = .next t ∧ SameMemory s t
        ∧ VectorLands s t (.v f.vd.toNat) 7 (elemW f) (vecN f) (fun _ => true) (fun j => if j = 0 then val else 0)
            (fun j => if j = 0 then fl else 0) (vecCounts s f)
        ∧ (∀ j, v 0 j = if eOn s f j then fdecode fm (eA s f j) else identityOf op)
        ∧ (∀ l j, v (l + 1) j = fdecode fm (combined op fm (vecMode s f ((l + 1) * 2 ^ 16 + j)) (v l (2 * j)) (v l (2 * j + 1))).1)
        ∧ match nanLane s f (vecN f) with
          | some k => val = quieted fm (eA s f k)
              ∧ fl = (if (List.range (vecN f)).any (fun j => eOn s f j && elemSignals fm (eA s f j)) then flNV else 0)
          | none => val = pat (v (Nat.log2 (vecN f)) 0)
              ∧ ∀ b, fl.getLsbD b = true ↔ ∃ l j, j < vecN f / 2 ^ (l + 1) ∧
                  (combined op fm (vecMode s f ((l + 1) * 2 ^ 16 + j)) (v l (2 * j)) (v l (2 * j + 1))).2.getLsbD b = true
    scans (.vscan u f) .sum ∧ scans (.vscanx u f) .max
    ∧ reduces (.vred u f) .sum ∧ reduces (.vredx u f) .max ∧ reduces (.vredn u f) .min

/-- R116, R129, R133, R134: the vector forms on bits and movements, and the population count. -/
def Obligations.VectorBits : Prop :=
  Sys2Proof.Claims.VectorBits ∧ Sys2Proof.Claims.VectorCounts

/-- R120 to R122, R124 to R126: the vector forms on floats, and conversions. Conversions between .c40 types and the sign of zero are log
entries 19 and 20. -/
def Obligations.VectorFloats : Prop :=
  Sys2Proof.Claims.VectorFloats ∧ Sys2Proof.Claims.VectorConverts

/-- R127, R128, R132: vector compares, selects and compare-exchange. -/
def Obligations.VectorComparesAndMoves : Prop :=
  Sys2Proof.Claims.VectorCompares ∧ Sys2Proof.Claims.VectorSelects

/-- R51, R53, R130, R131: reductions and scans of integers and of floats. -/
def Obligations.VectorReductions : Prop :=
  Sys2Proof.Claims.IntegerReductions ∧ Sys2Proof.Claims.FloatReductions

/-! ## The matrix array -/

/-- R202: the bank of an offset of a core's scratchpad is in its scrub in this tick. -/
abbrev Sys2Proof.Claims.Scrubbed (s : State) (d off : Nat) : Prop :=
  tget (s.core d).own 0 (off / 128 % 32) = 5 ∧ ∃ p ∈ (s.core d).scrubs, p.1 = off / 128 % 32 ∧ s.now < p.2 ∧ p.2 ≤ s.now + 512

/-- A core's scratchpad with the timed entries of this tick, which a read of the tick sees (R172). -/
def Sys2Proof.Claims.withTimed (s : State) (d : Nat) : Memory :=
  ((s.core d).timed.filter (fun e => e.vis == s.now)).foldl (fun m e => mwriteN m e.addr e.size e.data.toNat) (s.spad d)

namespace Sys2Proof.Claims

/-- The parts of the seven beats (R68, R150): push through an address register, accumulate into a bank, shift into a latch. -/
inductive BeatForm : Instr → Option (BitVec 4) → Option (BitVec 2) → Option (BitVec 2 × BitVec 3) → Prop where
  | lsh : ∀ t w l, BeatForm (.lsh t w l) none none (some (w, l))
  | acc : ∀ t b, BeatForm (.acc t b) none (some b) none
  | acl : ∀ t b w l, BeatForm (.acl t b w l) none (some b) (some (w, l))
  | psh : ∀ t p, BeatForm (.psh t p) (some p) none none
  | psl : ∀ t p w l, BeatForm (.psl t p w l) (some p) none (some (w, l))
  | pac : ∀ t p b, BeatForm (.pac t p b) (some p) (some b) none
  | pal : ∀ t p b w l, BeatForm (.pal t p b w l) (some p) (some b) (some (w, l))

/-- A beat may issue (R11, R154, R155, R199): its context owns the array, the words it reads are aligned, in the core's own
scratchpad and in owned banks, and the two of one beat lie in different groups of banks. -/
def BeatReady (s : State) (i : Instr) : Prop :=
  (s.core s.iss.core).arrayOwner = some s.iss.ctx
  ∧ (∀ a ∈ mxReads s i, a % 128 = 0 ∧ a < spadSize ∧ (s.core s.iss.core).owns s.iss.ctx (bankOf a) = true)
  ∧ ∀ p l, mxReads s i = [p, l] → bitsAt p 10 2 ≠ bitsAt l 10 2

/-- The array after a beat (R150, R151). -/
def arrayAfter (s : State) (push : Option (BitVec 4)) (acc : Option (BitVec 2)) (row : VWord) : ArrayState :=
  let a := (s.core s.iss.core).array
  { a with
    rows := a.rows ++ (if push.isSome then [pushRow (s.core s.iss.core) s.cur.fmt s.now row] else [])
    acc := match acc, a.rows.find? (fun r => r.exit == s.now) with
      | some b, some r =>
        let key := 64 * b.toNat + bitsAt a.aptr.toNat (8 * b.toNat) 6
        tput a.acc key (accumulateRow (tget a.acc 0 key) r).1
      | _, _ => a.acc }

/-- The flags an accumulate beat raises, when a row leaves the array in its tick (R48, R151). -/
def accFlags (s : State) (b : BitVec 2) : List Flight :=
  let a := (s.core s.iss.core).array
  match a.rows.find? (fun r => r.exit == s.now) with
  | some r => [landing s 0 .none 0 0 (accumulateRow (tget a.acc 0 (64 * b.toNat + bitsAt a.aptr.toNat (8 * b.toNat) 6)) r).2]
  | none => []

/-- Whether a beat's push, or its shift, takes a generator's row. -/
def pushGen (push : Option (BitVec 4)) : Bool := push == some 15
def shiftGen (shift : Option (BitVec 2 × BitVec 3)) : Bool := shift.any (fun p => p.2 == 7)

/-- The generator rows of a beat (R150, R158): of the push from the register GPS names, at its cursor; of the shift from the one GLS
names, one row on when the push takes the same register's. -/
def genRows (s : State) (push : Option (BitVec 4)) : (VWord × Bool) × (VWord × Bool) :=
  let gp := s.cur.gsel.toNat % 8
  let gl := s.cur.gsel.toNat / 2 ^ 4 % 8
  let row (k n ty : Nat) : VWord × Bool :=
    let e := tget s.cur.e 0 k
    genRow s.cur.lseed s.cur.rank e ((e.toNat / 2 ^ 80 % 2 ^ 16 + n) % 2 ^ 16) ty
  (row gp 0 (s.cur.fmt.toNat / 2 ^ 4 % 16), row gl (if pushGen push && gp == gl then 1 else 0) (s.cur.fmt.toNat / 2 ^ 8 % 16))

/-- By how much the cursors of the generator registers move: by one for each row taken from them. -/
def genMoves (s : State) (push : Option (BitVec 4)) (shift : Option (BitVec 2 × BitVec 3)) : List (Nat × Nat) :=
  let gp := s.cur.gsel.toNat % 8
  let gl := s.cur.gsel.toNat / 2 ^ 4 % 8
  if pushGen push && shiftGen shift then (if gp = gl then [(gp, 2)] else [(gp, 1), (gl, 1)])
  else if pushGen push then [(gp, 1)] else if shiftGen shift then [(gl, 1)] else []

/-- The results a beat puts into flight (R149, R150, R158): the row pointer of the bank, the shifted row with the latch pointer and
the change of latch, and the generators. `row` is the shifted row, `adv` the advances of generators, `nv` whether they set NV. -/
def beatLandings (s : State) (acc : Option (BitVec 2)) (shift : Option (BitVec 2 × BitVec 3)) (row : VWord) (nv : Bool)
    (adv : List (Nat × Nat)) : List Flight :=
  let a := (s.core s.iss.core).array
  (match acc with
   | some b =>
     accFlags s b
     ++ [landing s 1 (.areg 0x04) (setBits a.aptr.toNat (8 * b.toNat) 6 ((bitsAt a.aptr.toNat (8 * b.toNat) 6 + 1) % 64)) 0xFFFFFFFF 0]
   | none => [])
  ++ (match shift with
      | some (w, _) =>
        let p := bitsAt a.lptr.toNat (8 * w.toNat) 7
        let fill := if bitsAt a.actl.toNat 16 8 = 0 ∨ 128 < bitsAt a.actl.toNat 16 8 then 128 else bitsAt a.actl.toNat 16 8
        [landing s 4 (.wrow w.toNat p) row.toNat (2 ^ 1024 - 1) 0,
          landing s 1 (.areg 0x0C) (setBits a.lptr.toNat (8 * w.toNat) 7 ((p + 1) % fill)) 0xFFFFFFFF 0]
        ++ (if p + 1 = fill ∧ a.actl.getLsbD 26 = true then [landing s 4 (.areg 0) (w.toNat * 2 ^ 24) (3 * 2 ^ 24) 0] else [])
      | none => [])
  ++ adv.map (fun p =>
      let e := (tget s.cur.e 0 p.1).toNat
      landing s 1 (.e p.1) (setBits e 80 16 ((bitsAt e 80 16 + p.2) % 2 ^ 16)) (2 ^ 256 - 1) 0)
  ++ (if nv then [landing s 0 .none 0 0 flNV] else [])

/-- The engines of its class that serve a command (R184): the core's copy engine, the cluster's gather or circuit engine, the die's
collective engine, the cellar engine of each of its channels, CH and the NCH that follow. -/
def engineOf (m : Cmd) : List Nat :=
  if m.cls = 0 then [m.core] else if m.cls ≤ 2 then [m.core / 8] else if m.cls = 3 then [m.core / 64]
  else (List.range m.nch).map (fun i => m.ch + i)

/-- What an E slot puts aside for a command (R184, R185): the words of the record at an address, and its begin tick. -/
def Submits (s : State) (a : Nat) (m : Cmd) : Prop :=
  m.id = s.nextId ∧ m.core = s.iss.core ∧ m.ctx = s.iss.ctx ∧ m.lx = s.cur.lx ∧ m.recAddr = a ∧ m.subNo = s.cur.subNo
  ∧ m.phase = 0 ∧ m.pend = 0 ∧ m.endAt = none
  ∧ m.w0.toNat = mreadN (s.spad s.iss.core) a 8 ∧ m.w1.toNat = mreadN (s.spad s.iss.core) (a + 8) 8
  ∧ m.w2.toNat = mreadN (s.spad s.iss.core) (a + 16) 8 ∧ m.w3.toNat = mreadN (s.spad s.iss.core) (a + 24) 8
  ∧ m.beginAt = (match s.findLaunch s.cur.lx with | some l => l.start | none => 0) + m.w0.toNat / 2 ^ 32

end Sys2Proof.Claims

/-- R144, R150, R151, R158: what each of the seven beats does in its tick. A push or a shift from memory reads the 128 bytes at its
address, one from a generator takes that generator's row and moves its cursor; NV rises where a generator is none or cannot serve. -/
def Sys2Proof.Claims.MatrixBeats : Prop :=
  ∀ (i : Instr) (s : State) (push : Option (BitVec 4)) (acc : Option (BitVec 2)) (shift : Option (BitVec 2 × BitVec 3)),
    BeatForm i push acc shift → ExecutesIf i s (BeatReady s i) →
    let g := genRows s push
    ∃ t prow srow, exec i s = .next t ∧ SameMemory s t
      ∧ (∀ p, push = some p → p ≠ 15 → prow.toNat = mreadN (s.spad s.iss.core) (tget s.cur.a 0 p.toNat).toNat 128)
      ∧ (push = some 15 → prow = g.1.1)
      ∧ (∀ w l, shift = some (w, l) → l ≠ 7 → srow.toNat = mreadN (s.spad s.iss.core) (tget s.cur.a 0 (8 + l.toNat)).toNat 128)
      ∧ (∀ w, shift = some (w, 7) → srow = g.2.1)
      ∧ (t.core s.iss.core).array = arrayAfter s push acc prow
      ∧ t.cur = { s.cur with flights := s.cur.flights
          ++ (beatLandings s acc shift srow (pushGen push && g.1.2 || shiftGen shift && g.2.2) (genMoves s push shift)) }
      ∧ (∀ d y, ¬ (d = s.iss.core ∧ y = s.iss.ctx) → t.ctx d y = s.ctx d y)
      ∧ (∀ d, { (t.core d).besidesCtxs with array := (s.core d).array } = (s.core d).besidesCtxs)
      ∧ (∀ d, d ≠ s.iss.core → (t.core d).array = (s.core d).array) ∧ t.besidesCores = s.besidesCores

/-- R158: a beat whose push is GEN takes the row of the register GSEL names, at its cursor, and advances that cursor by one. -/
def Sys2Proof.Claims.GeneratorPush : Prop :=
  ∀ (s : State) (g : BitVec 3), ExecutesIf (.psh g 15) s ((s.core s.iss.core).arrayOwner = some s.iss.ctx) →
    let k := s.cur.gsel.toNat % 8
    let e := tget s.cur.e 0 k
    let row := genRow s.cur.lseed s.cur.rank e (bitsAt e.toNat 80 16) (bitsAt s.cur.fmt.toNat 4 4)
    ∃ t, exec (.psh g 15) s = .next t ∧ SameMemory s t
      ∧ (t.core s.iss.core).array = arrayAfter s (some 15) none row.1
      ∧ t.cur = { s.cur with flights := s.cur.flights
          ++ [landing s 1 (.e k) (setBits e.toNat 80 16 ((bitsAt e.toNat 80 16 + 1) % 65536)) (2 ^ 256 - 1) 0]
          ++ (if row.2 then [landing s 0 .none 0 0 flNV] else []) }

/-- R43, R156: what a drain makes of one accumulator word: raw for .f and .i32, clamped for .i8, rounded by RMODE for the others; a draw
takes the row count of the bank, the column, the write count and the seed of the generator GSS names. -/
def Sys2Proof.Claims.DrainOf (s : State) (b ty c w : Nat) (r : Nat × Flags) : Prop :=
  let a := (s.core s.iss.core).array
  let draw := drawOf s.cur.sr a.awc.toNat (tget a.drow 0 b).toNat c
  let mode : RMode := match s.cur.fmt.toNat % 8 with
    | 1 => .rz
    | 2 => .ru
    | 3 => .rd
    | 4 => .rs draw
    | _ => .rn
  let x := toSigned 32 w
  if ty = 3 ∨ ty = 7 then r = (w, 0)
  else if ty = 5 then r = (((max (-128) (min 127 x)) % 256).toNat, if x < -128 ∨ 127 < x then flOF else 0)
  else ConvertOf ty 3 mode w r

/-- R155, R156: a drain leaves one store of MB for each bank word its elements fill, the elements packed in column order, moves the
bank's drain pointer and count, and with Z clears the row it read. That a drain's flags rise where its stores perform is log entry 20. -/
def Obligations.Drains : Prop :=
  ∀ (s : State) (g : BitVec 3) (b : BitVec 2) (ty : BitVec 4) (z : BitVec 1) (ar : BitVec 4) (o : BitVec 5),
    (Instr.drain g b ty z ar o).wf = true →
    let k := s.core s.iss.core
    let p := bitsAt k.array.dptr.toNat (8 * b.toNat) 6
    let a := ((tget s.cur.a 0 ar.toNat).toNat + o.toNat * 128) % 2 ^ 32
    let size := if ty = 3 ∨ ty = 7 then 4 else if ty = 1 ∨ ty = 2 then 2 else 1
    let en := min (bitsAt k.array.actl.toNat 8 8) 128
    let n := en * size
    let row := (tget k.array.acc 0 (64 * b.toNat + p)).toNat
    ExecutesIf (.drain g b ty z ar o) s (k.arrayOwner = some s.iss.ctx ∧ a % 128 = 0
      ∧ (n ≠ 0 → a + 128 * ((n + 127) / 128) ≤ spadSize)
      ∧ ∀ j, j < (n + 127) / 128 → k.owns s.iss.ctx (bankOf (a + 128 * j)) = true) →
    ∃ t sts, ∃ es : List (Nat × Flags), exec (.drain g b ty z ar o) s = .next t ∧ SameMemory s t ∧ t.accesses = s.accesses ++ sts
      ∧ es.length = en ∧ (∀ c r, es[c]? = some r → DrainOf s b.toNat ty.toNat c (elem row 32 c) r)
      ∧ sts.length = (n + 127) / 128
      ∧ (∀ j st, sts[j]? = some st → st.perform = s.now + 1 ∧ st.kind = .store ∧ st.target = .spad s.iss.core (a + 128 * j)
          ∧ st.mb = true ∧ st.size = min 128 (n - 128 * j) ∧ st.core = s.iss.core ∧ st.ctx = s.iss.ctx
          ∧ st.data.toNat = packElems (8 * size) (es.map (·.1)) / 2 ^ (1024 * j) % 2 ^ 1024
          ∧ ∀ i, st.fl.getLsbD i = true ↔ j = 0 ∧ ∃ r ∈ es, r.2.getLsbD i = true)
      ∧ t.cur = { s.cur with flights := s.cur.flights
          ++ [landing s 1 (.areg 0x08) (setBits k.array.dptr.toNat (8 * b.toNat) 6 ((p + 1) % 64)) 0xFFFFFFFF 0,
            landing s 1 (.areg (0x20 + 4 * b.toNat)) ((tget k.array.drow 0 b.toNat) + 1).toNat 0xFFFFFFFF 0] }
      ∧ (t.core s.iss.core).array = { k.array with
          acc := if z = 1 then tput k.array.acc (64 * b.toNat + p) 0 else k.array.acc }

/-- R184, R185: e.sub submits the command its record describes, to begin START ticks after its launch's start. -/
def Sys2Proof.Claims.Submissions : Prop :=
  ∀ (s : State) (g : BitVec 3) (ar : BitVec 4),
    let a := (tget s.cur.a 0 ar.toNat).toNat
    ExecutesIf (.eSub g ar) s (esubFaults s a = []) →
    ∃ t m, exec (.eSub g ar) s = .next t ∧ SameMemory s t ∧ Submits s a m ∧ t.cmds = s.cmds ++ [m] ∧ t.nextId = s.nextId + 1
      ∧ OnlyCtx { s with cmds := t.cmds, nextId := t.nextId } t s.iss.core s.iss.ctx { s.cur with subNo := s.cur.subNo + 1 }

/-- R184: the cases in which a submission is not issued. -/
def Sys2Proof.Claims.SubmissionFaults : Prop :=
  ∀ (s : State) (a : Nat),
    let m := s.recordCmd a
    (a % 32 ≠ 0 → esubFaults s a = [bfault 8 a 32])
    ∧ (a % 32 = 0 → spadSize ≤ a → esubFaults s a = [bfault 9 a 0])
    ∧ (a % 32 = 0 → a < spadSize →
        (4 < m.w0.toNat % 16 → ∃ f ∈ esubFaults s a, f.code = 21 ∧ f.addr = BitVec.ofNat 64 a)
        ∧ (m.beginAt < s.now + 4 → ∃ f ∈ esubFaults s a, f.code = 22)
        ∧ (∀ e ∈ engineOf m, 16 ≤ (s.cmds.filter (fun d => d.phase == 0 && d.cls == m.cls && (engineOf d).contains e)).length →
            ∃ f ∈ esubFaults s a, f.code = 23)
        ∧ (m.w0.toNat % 16 = 0 → m.w1.toNat.testBit 63 = true → inWindow (m.w1.toNat % 2 ^ 32) = true →
            ∃ f ∈ esubFaults s a, f.code = 10))

/-! ## Memory slots -/

namespace Sys2Proof.Claims

/-- The bytes of a vector width. -/
def vBytes (w : BitVec 2) : Nat := 32 * 2 ^ w.toNat

/-- A(AR) + OFS × unit (R60, R169). -/
def plainA (s : State) (a : BitVec 4) (o : BitVec 5) (unit : Nat) : Nat := ((tget s.cur.a 0 a.toNat).toNat + o.toNat * unit) % 2 ^ 32
def baseA (s : State) (a : BitVec 4) : Nat := (tget s.cur.a 0 a.toNat).toNat

/-- Results that wait for the value of a load. -/
def waiting (fs : List Flight) : List Flight := fs.map (fun f => { f with src := 3 })

/-- Where a load lands: of a scalar form, and of a vector form of `n` bytes. -/
def scalarLoad (s : State) (u : MemUnit) (d : Dst) (lat fid : Nat) (v : VWord) : List Flight :=
  waiting (scalarFlights s (memSlot u) d lat fid (v.setWidth 64))
def vectorLoad (s : State) (r : BitVec 5) (n lat fid : Nat) (v : VWord) : List Flight :=
  waiting [⟨fid, s.now, s.now + lat, 1, .v r.toNat, v, BitVec.ofNat 1024 (2 ^ (8 * n) - 1), 0⟩]

/-- The plain loads (R169): unit, address, bytes, vector, sign extension, and where the value lands. -/
inductive LoadForm (s : State) : Instr → MemUnit → Nat → Nat → Bool → Bool → (Nat → Nat → VWord → List Flight) → Prop where
  | i8 : ∀ u t d a o, LoadForm s (.ldI8 u t d a o) u (plainA s a o 1) 1 false true (scalarLoad s u d)
  | n8 : ∀ u t d a o, LoadForm s (.ldN8 u t d a o) u (plainA s a o 1) 1 false false (scalarLoad s u d)
  | i16 : ∀ u t d a o, LoadForm s (.ldI16 u t d a o) u (plainA s a o 2) 2 false true (scalarLoad s u d)
  | n16 : ∀ u t d a o, LoadForm s (.ldN16 u t d a o) u (plainA s a o 2) 2 false false (scalarLoad s u d)
  | i32 : ∀ u t d a o, LoadForm s (.ldI32 u t d a o) u (plainA s a o 4) 4 false true (scalarLoad s u d)
  | n32 : ∀ u t d a o, LoadForm s (.ldN32 u t d a o) u (plainA s a o 4) 4 false false (scalarLoad s u d)
  | i64 : ∀ u t d a o, LoadForm s (.ldI64 u t d a o) u (plainA s a o 8) 8 false true (scalarLoad s u d)
  | vld : ∀ u t w v a o, LoadForm s (.vld u t w v a o) u (plainA s a o (vBytes w)) (vBytes w) true false (vectorLoad s v (vBytes w))

/-- The checked loads (R170, R171): the last columns are what the place, its offset and the perform tick have to satisfy, and the tick of
a not-before load. -/
inductive CheckedLoadForm (s : State) : Instr → MemUnit → Nat → Nat → Bool → Bool → (Nat → Nat → VWord → List Flight) →
    (Nat → Nat → Nat → Prop) → Option Nat → Prop where
  | tc : ∀ u t d a q, CheckedLoadForm s (.ldTc u t d a q) u (baseA s a) 8 false true (scalarLoad s u d)
      (fun c off _ => (tget (s.core c).tags 0 (off / 4096 % 512)).toNat = (s.sel (memSlot u) q).toNat % 65536) none
  | nb : ∀ u t d a q, CheckedLoadForm s (.ldNb u t d a q) u (baseA s a) 8 false true (scalarLoad s u d)
      (fun _ _ p => (s.sel (memSlot u) q).toNat ≤ p) (some (s.sel (memSlot u) q).toNat)
  | vtc : ∀ u t w v a q, CheckedLoadForm s (.vldTc u t w v a q) u (baseA s a) (vBytes w) true false (vectorLoad s v (vBytes w))
      (fun c off _ => (tget (s.core c).tags 0 (off / 4096 % 512)).toNat = (s.sel (memSlot u) q).toNat % 65536) none
  | vnb : ∀ u t w v a q, CheckedLoadForm s (.vldNb u t w v a q) u (baseA s a) (vBytes w) true false (vectorLoad s v (vBytes w))
      (fun _ _ p => (s.sel (memSlot u) q).toNat ≤ p) (some (s.sel (memSlot u) q).toNat)

/-- The plain stores (R169): unit, address, bytes, data, vector. -/
inductive StoreForm (s : State) : Instr → MemUnit → Nat → Nat → Nat → Bool → Prop where
  | st8 : ∀ u t x a o, StoreForm s (.st8 u t x a o) u (plainA s a o 1) 1 (s.sel (memSlot u) x).toNat false
  | st16 : ∀ u t x a o, StoreForm s (.st16 u t x a o) u (plainA s a o 2) 2 (s.sel (memSlot u) x).toNat false
  | st32 : ∀ u t x a o, StoreForm s (.st32 u t x a o) u (plainA s a o 4) 4 (s.sel (memSlot u) x).toNat false
  | st64 : ∀ u t x a o, StoreForm s (.st64 u t x a o) u (plainA s a o 8) 8 (s.sel (memSlot u) x).toNat false
  | vst : ∀ u t w v a o, StoreForm s (.vst u t w v a o) u (plainA s a o (vBytes w)) (vBytes w) (tget s.cur.v 0 v.toNat).toNat true

/-- The visible-at stores (R172): unit, address, bytes, data, and the tick V. -/
inductive TimedForm (s : State) : Instr → MemUnit → Nat → Nat → Nat → Nat → Prop where
  | st : ∀ u t x a q, TimedForm s (.stVa u t x a q) u (baseA s a) 8 (s.sel (memSlot u) x).toNat (s.sel (memSlot u) q).toNat
  | vst : ∀ u t w v a q, TimedForm s (.vstVa u t w v a q) u (baseA s a) (vBytes w) (tget s.cur.v 0 v.toNat).toNat
      (s.sel (memSlot u) q).toNat

/-- The atomics (R173): unit, destination, address, operand, and the new value. -/
inductive AmoForm (s : State) : Instr → MemUnit → Dst → Nat → Word → Nat → Prop where
  | add : ∀ u t d a q, AmoForm s (.amoAdd u t d a q) u d (baseA s a) (s.sel (memSlot u) q) 20
  | and : ∀ u t d a q, AmoForm s (.amoAnd u t d a q) u d (baseA s a) (s.sel (memSlot u) q) 21
  | or : ∀ u t d a q, AmoForm s (.amoOr u t d a q) u d (baseA s a) (s.sel (memSlot u) q) 22
  | max : ∀ u t d a q, AmoForm s (.amoMax u t d a q) u d (baseA s a) (s.sel (memSlot u) q) 23
  | swp : ∀ u t d a q, AmoForm s (.amoSwp u t d a q) u d (baseA s a) (s.sel (memSlot u) q) 24

/-- The perform tick and the landing of an access by its address (R167). -/
def performs (s : State) (a : Nat) : Nat := if a < spadSize then s.now + 1 else s.now + 4
def lands (a : Nat) : Nat := if a < spadSize then 4 else 9

/-- An access of `n` bytes to a scratchpad may issue (R166, R168, R194, R199): it is aligned, its bank is owned where it is the
core's own, and free on the engine side in the perform tick where the access takes the peer path. -/
def AccessReady (s : State) (a n d off : Nat) (rd wr : Bool) : Prop :=
  a % n = 0 ∧ (a < spadSize → (s.core s.iss.core).owns s.iss.ctx (bankOf a) = true)
  ∧ (spadSize ≤ a → (rd = true → (s.core d).slotTaken (bankOf off) (s.now + 4) false = false)
      ∧ (wr = true → (s.core d).slotTaken (bankOf off) (s.now + 4) true = false))

/-- The engine-side slots an access reserves: none for the core's own path (R168, R194). -/
def peerSlots (s : State) (a d off : Nat) (rd wr : Bool) : List (Nat × Resv) :=
  if a < spadSize then []
  else (if rd then [(d, ⟨bankOf off, s.now + 4, false, 0, s.iss.core, s.iss.ctx⟩)] else [])
    ++ (if wr then [(d, ⟨bankOf off, s.now + 4, true, 0, s.iss.core, s.iss.ctx⟩)] else [])

end Sys2Proof.Claims

/-- R167, R169 to R171: a load of a scratchpad issues an access that performs one tick later, four through the peer path, and
whose value lands at 4 or 9; its registers wait for it. -/
def Obligations.Loads : Prop :=
  ∀ (i : Instr) (s : State) (u : MemUnit) (a n : Nat) (vec sext : Bool) (fl : Nat → Nat → VWord → List Flight)
    (ok : Nat → Nat → Nat → Prop) (nb : Option Nat) (d off : Nat),
    (LoadForm s i u a n vec sext fl ∧ (∀ c o p, ok c o p) ∧ nb = none) ∨ CheckedLoadForm s i u a n vec sext fl ok nb → i.wf = true →
    localPlace s.iss.core a = some (d, off) → ExecutesIf i s (AccessReady s a n d off true false ∧ ok d off (performs s a)) →
    ∃ t, exec i s = .next t ∧ SameMemory s t ∧ t.nextId = s.nextId + 1
      ∧ t.accesses = s.accesses
          ++ [⟨performs s a, s.now, s.iss.core, s.iss.ctx, u == .mb, .spad d off, .load s.nextId sext, n, 0, vec, 0, nb⟩]
      ∧ OnlyCtxResv { s with accesses := t.accesses, nextId := t.nextId } t s.iss.core s.iss.ctx
          { s.cur with flights := s.cur.flights ++ fl (lands a) s.nextId 0 } (peerSlots s a d off true false)

/-- R167, R169: a store to a scratchpad issues an access that performs one tick later, four through the peer path. It writes no
register, and no byte before it performs. -/
def Obligations.Stores : Prop :=
  ∀ (i : Instr) (s : State) (u : MemUnit) (a n data : Nat) (vec : Bool) (d off : Nat),
    StoreForm s i u a n data vec → i.wf = true → localPlace s.iss.core a = some (d, off) →
    ExecutesIf i s (AccessReady s a n d off false true) →
    ∃ t, exec i s = .next t ∧ SameMemory s t
      ∧ t.accesses = s.accesses
          ++ [⟨performs s a, s.now, s.iss.core, s.iss.ctx, u == .mb, .spad d off, .store, n, BitVec.ofNat 1024 data, vec, 0, none⟩]
      ∧ OnlyCtxResv { s with accesses := t.accesses } t s.iss.core s.iss.ctx s.cur (peerSlots s a d off false true)

namespace Sys2Proof.Claims

/-- A value reaches the results of a context that wait for it, in flight or caught in the shadow buffer (R271). -/
def filledWith (fid v : Nat) (c : Ctx) : Ctx :=
  let take (f : Flight) : Flight := if f.fid = fid then { f with fid := 0, value := BitVec.ofNat 1024 v } else f
  { c with flights := c.flights.map take, shadow := c.shadow.map take }

/-- The value reaches the context that issued the access, live or saved under its number, and no other context changes (R279). -/
def FillsOnly (s t : State) (a : Access) (fid v : Nat) : Prop :=
  t.ctx a.core a.ctx = filledWith fid v (s.ctx a.core a.ctx)
  ∧ (∀ c x, ¬ (c = a.core ∧ x = a.ctx) → t.ctx c x = s.ctx c x)
  ∧ ∀ c, (t.core c).saved = if c = a.core then (s.core c).saved.map (fun p => if p.1 = a.ctx then (p.1, filledWith fid v p.2) else p)
      else (s.core c).saved

/-- The `n` bytes from an offset of a core's scratchpad are those of `data`, little-endian, and every other byte of every scratchpad is as it
was; an error stays in a place unless all of its word is written (R169, R341). -/
def WritesOnly (s t : State) (d off n data : Nat) : Prop :=
  (∀ c x, mread (t.spad c) x = if c = d ∧ off ≤ x ∧ x < off + n then BitVec.ofNat 8 (data / 256 ^ (x - off)) else mread (s.spad c) x)
  ∧ ∀ c w, w ∈ (t.core c).bad ↔ w ∈ (s.core c).bad ∧ ¬ (c = d ∧ w.struct = 0 ∧ off ≤ w.place ∧ w.place + 8 ≤ off + n)

/-- Nothing else of any core changes than contexts, live and saved, scratchpads and errors, and nothing beside the cores. -/
def OnlyStorage (s t : State) : Prop :=
  (∀ c, { (t.core c).besidesCtxs with spad := (s.core c).spad, bad := (s.core c).bad, saved := (s.core c).saved } = (s.core c).besidesCtxs)
  ∧ t.besidesCores = s.besidesCores

end Sys2Proof.Claims

/-- A write of an access on the peer path meets the scrub of its bank: it writes nothing (R194, R202; log entry 65). -/
def Sys2Proof.Claims.Meets (s : State) (a : Access) (d off : Nat) : Prop := a.issued + 4 ≤ a.perform ∧ Scrubbed s d off

/-- A context after such a write: a port-reservation fault that names the bank and the tick stops it in the next tick. -/
def Sys2Proof.Claims.scrubStopped (s : State) (a : Access) (d off : Nat) (k : Ctx) : Ctx :=
  if k.lx = 0 then k else { k with stops := k.stops ++ [(s.now + 1, ⟨13, 2,
    BitVec.ofNat 64 (if d = a.core then off else 0x01000000 + d % 8 * 0x200000 + off),
    BitVec.ofNat 64 (off / 128 % 32 % 2 ^ 32 + s.now % 2 ^ 32 * 2 ^ 32), 0⟩)] }

/-- R169, R194, R202, R210: where a store performs it writes its bytes, little-endian, and no other byte of any scratchpad; a drain's store
raises the drain's flags in its context. One on the peer path that meets a scrub writes nothing and stops its context. -/
def Sys2Proof.Claims.StorePerforms : Prop :=
  ∀ (s : State) (a : Access) (d off : Nat), a.kind = .store → a.target = .spad d off → (∀ c, (s.spad c).wf = true) →
    let t := s.performAccess a
    let raised (k : Ctx) : Ctx := { k with fmt := k.fmt ||| BitVec.ofNat 32 (a.fl.toNat * 2 ^ 16) }
    let only (f : Ctx → Ctx) : Prop := ∀ c x, t.ctx c x = if c = a.core ∧ x = a.ctx then f (s.ctx c x) else s.ctx c x
    OnlyStorage s t ∧ (∀ c, (t.core c).saved = (s.core c).saved)
    ∧ (¬ Meets s a d off → WritesOnly s t d off a.size a.data.toNat ∧ only raised)
    ∧ (Meets s a d off → (∀ c, t.spad c = s.spad c ∧ (t.core c).bad = (s.core c).bad)
        ∧ only (fun k => raised (scrubStopped s a d off k)))

/-- R167, R169, R172: where a load performs, the results that wait for it take the bytes as they stand, with the timed entries of the tick,
sign- or zero-extended, and no byte changes. -/
def Sys2Proof.Claims.LoadPerforms : Prop :=
  ∀ (s : State) (a : Access) (fid d off : Nat) (sext : Bool), a.kind = .load fid sext → a.target = .spad d off →
    let b := mreadN (withTimed s d) off a.size
    let v : Nat := if a.vec ∨ sext = false ∨ b < 2 ^ (8 * a.size - 1) then b else b + 2 ^ 64 - 2 ^ (8 * a.size)
    1 ≤ a.size → (a.vec = false → a.size ≤ 8) →
    let t := s.performAccess a
    FillsOnly s t a fid v ∧ OnlyStorage s t
    ∧ ∀ c, t.spad c = s.spad c ∧ (t.core c).bad = (s.core c).bad

/-- R167, R173: an atomic issues an access to the aligned word at A(AR) that performs one tick later, four through the peer path;
the old value lands at 4 or 9. -/
def Obligations.Atomics : Prop :=
  ∀ (i : Instr) (s : State) (u : MemUnit) (ds : Dst) (a : Nat) (b : Word) (op d off : Nat), AmoForm s i u ds a b op →
    i.wf = true → localPlace s.iss.core a = some (d, off) → ExecutesIf i s (AccessReady s a 8 d off true true) →
    ∃ t, exec i s = .next t ∧ SameMemory s t ∧ t.nextId = s.nextId + 1
      ∧ t.accesses = s.accesses
          ++ [⟨performs s a, s.now, s.iss.core, s.iss.ctx, u == .mb, .spad d off, .amo s.nextId op, 8, BitVec.ofNat 1024 b.toNat, false, 0, none⟩]
      ∧ OnlyCtxResv { s with accesses := t.accesses, nextId := t.nextId } t s.iss.core s.iss.ctx
          { s.cur with flights := s.cur.flights ++ scalarLoad s u ds (lands a) s.nextId 0 } (peerSlots s a d off true true)

/-- R173, R194, R202: where an atomic performs, the word takes the new value of its operation, the old value goes to the results that wait,
and nothing else changes. One on the peer path that meets a scrub leaves the word and stops its context. -/
def Sys2Proof.Claims.AtomicPerforms : Prop :=
  ∀ (s : State) (a : Access) (fid op d off : Nat), a.kind = .amo fid op → a.target = .spad d off → a.size = 8 →
    20 ≤ op → op ≤ 24 → (∀ c, (s.spad c).wf = true) →
    let old : Word := BitVec.ofNat 64 (mreadN (s.spad d) off 8)
    let b : Word := a.data.setWidth 64
    let new : Nat := if op = 20 then (old.toNat + b.toNat) % 2 ^ 64 else if op = 21 then old.toNat &&& b.toNat
      else if op = 22 then old.toNat ||| b.toNat
      else if op = 23 then (if old.toInt < b.toInt then b.toNat else old.toNat) else b.toNat
    let t := s.performAccess a
    OnlyStorage s t
    ∧ (¬ Meets s a d off → WritesOnly s t d off 8 new ∧ FillsOnly s t a fid old.toNat)
    ∧ (Meets s a d off → (∀ c, t.spad c = s.spad c ∧ (t.core c).bad = (s.core c).bad)
        ∧ t.ctx a.core a.ctx = filledWith fid old.toNat (scrubStopped s a d off (s.ctx a.core a.ctx))
        ∧ ∀ c x, ¬ (c = a.core ∧ x = a.ctx) → t.ctx c x = s.ctx c x)

/-- R172: a visible-at store enters the timed-write buffer of its bank, and no byte changes before its tick. -/
def Obligations.TimedStores : Prop :=
  ∀ (i : Instr) (s : State) (u : MemUnit) (a n data v d off : Nat), TimedForm s i u a n data v → i.wf = true →
    localPlace s.iss.core a = some (d, off) →
    ExecutesIf i s (a % n = 0 ∧ performs s a ≤ v ∧ (a < spadSize → (s.core s.iss.core).owns s.iss.ctx (bankOf a) = true)
      ∧ (s.core d).slotTaken (bankOf off) v true = false
      ∧ ((s.core d).timed.filter (fun e => bankOf e.addr == bankOf off)).length < 16) →
    ∃ t, exec i s = .next t ∧ SameMemory s t ∧ t.besidesCores = s.besidesCores
      ∧ (t.core d).timed = (s.core d).timed
          ++ [⟨v, performs s a, s.now, s.iss.core, s.iss.ctx, u == .mb, off, n, BitVec.ofNat 1024 data⟩]
      ∧ (t.core d).resv = ⟨bankOf off, v, true, 0, s.iss.core, s.iss.ctx⟩ :: (s.core d).resv
      ∧ (∀ c, c ≠ d → t.core c = s.core c) ∧ ∀ x, t.ctx d x = s.ctx d x

/-- R142, R146: loads of a queue's head and of the array window take the value as it stands at issue, and land at 4. -/
def Sys2Proof.Claims.WindowLoads : Prop :=
  ∀ (i : Instr) (s : State) (u : MemUnit) (a n : Nat) (vec sext : Bool) (fl : Nat → Nat → VWord → List Flight),
    LoadForm s i u a n vec sext fl → i.wf = true →
    (∀ q b, a = 0x05000000 + 128 * q + b → q < 4 → b + n ≤ 128 → ∀ e, s.cur.head q = some e →
      ExecutesIf i s (a % n = 0) →
      ∃ t, exec i s = .next t ∧ SameMemory s t ∧ Puts s t (fl 4 0 (extendLoad vec sext n (bitsAt e.toNat (8 * b) (8 * n)))))
    ∧ (∀ r b w, a = 0x06000000 + r → r < 0x1000000 → aregOf r n = some (b, w) → ExecutesIf i s (a % n = 0) →
      ∃ t, exec i s = .next t ∧ SameMemory s t
        ∧ Puts s t (fl 4 0 (extendLoad vec sext n (bitsAt (aregValue (s.core s.iss.core) s.cur b) (8 * (r - b)) (8 * n)))))

/-- R73, R175, R179: loads of the message buffers, the HCW table and the barrier registers issue an access that performs one tick
later. -/
def Sys2Proof.Claims.DeviceLoads : Prop :=
  ∀ (i : Instr) (s : State) (u : MemUnit) (a n : Nat) (vec sext : Bool) (fl : Nat → Nat → VWord → List Flight) (tg : Target),
    LoadForm s i u a n vec sext fl → i.wf = true →
    (∃ o, (a = 0x02000000 + o ∧ o < 0x200 ∧ tg = .msg o)
      ∨ (a = 0x03000000 + o ∧ o + n ≤ 0x10100 ∧ tg = .hcw o)
      ∨ (a = 0x04000000 + o ∧ o < 0x1000000 ∧ barLoadOk o n = true ∧ tg = .bar o)) → ExecutesIf i s (a % n = 0) →
    ∃ t, exec i s = .next t ∧ SameMemory s t ∧ t.nextId = s.nextId + 1
      ∧ t.accesses = s.accesses
          ++ [⟨s.now + 1, s.now, s.iss.core, s.iss.ctx, u == .mb, tg, .load s.nextId sext, n, 0, vec, 0, none⟩]
      ∧ OnlyCtx { s with accesses := t.accesses, nextId := t.nextId } t s.iss.core s.iss.ctx
          { s.cur with flights := s.cur.flights ++ fl 4 s.nextId 0 }

/-- R75, R146, R175, R176, R179, R200, R202: stores to the windows. An HCW entry and an array register land at 4; a barrier store acts at 4; a
store to a message buffer performs one tick later and, when it writes word 15, closes the packet. A store to the release word is issued with
its bank checks passed (R200), and at its issue books the scrub's write slots of the banks it names, up to the 512 ticks after it acts:
that they are booked so early is the model's choice (log entry 65). Two stores of one bundle that write word 15 close a packet each (log
entry 70). -/
def Obligations.WindowStores : Prop :=
  ∀ (i : Instr) (s : State) (u : MemUnit) (a n data : Nat) (vec : Bool), StoreForm s i u a n data vec → i.wf = true →
    let c := s.iss.core
    let x := s.iss.ctx
    let v := BitVec.ofNat 1024 data
    (∀ o, a = 0x03000000 + o → o < 0x10000 → vec = true → n = 32 → ExecutesIf i s (a % n = 0) →
      ∃ t, exec i s = .next t ∧ SameMemory s t
        ∧ Puts s t [⟨0, s.now, s.now + 4, 2, .hcw (o / 0x4000) (o % 0x4000 / 32), v, BitVec.ofNat 1024 (2 ^ 256 - 1), 0⟩])
    ∧ (∀ o, a = 0x06000000 + o → o < 0x100 → aregOf o n = some (o, n) → vec = false →
      ExecutesIf i s (a % n = 0 ∧ (s.core c).arrayOwner = some x) →
      ∃ t, exec i s = .next t ∧ SameMemory s t
        ∧ Puts s t [⟨0, s.now, s.now + 4, 2, .areg o, v, BitVec.ofNat 1024 (2 ^ (8 * n) - 1), 0⟩])
    ∧ (∀ o, a = 0x06000000 + o → 0x100 ≤ o → aregOf o n = some (o, n) → o < 0x200 → vec = true → ExecutesIf i s (a % n = 0) →
      ∃ t, exec i s = .next t ∧ SameMemory s t
        ∧ Puts s t [⟨0, s.now, s.now + 4, 2, .e ((o - 0x100) / 32), v, BitVec.ofNat 1024 (2 ^ 256 - 1), 0⟩])
    ∧ (∀ o b, a = 0x04000000 + 32 * b + o → b < 32 → (o = 0 ∨ o = 24) → vec = false → n = 8 → ExecutesIf i s True →
      ∃ t, exec i s = .next t ∧ SameMemory s t ∧ OnlyCore s t c { s.core c with
        barStores := (s.core c).barStores ++ [⟨s.now + 4, s.now, c, x,
          if o = 0 then .bcfg b (BitVec.ofNat 64 data) else .barr b (data % 65536)⟩] })
    ∧ (∀ p b, a = 0x04001018 + 0x400 * p + 32 * b → p < 8 → b < 32 → vec = false → n = 8 → ExecutesIf i s True →
      ∃ t, exec i s = .next t ∧ SameMemory s t ∧ OnlyCore s t (c / 8 * 8 + p) { s.core (c / 8 * 8 + p) with
        barStores := (s.core (c / 8 * 8 + p)).barStores ++ [⟨s.now + 8, s.now, c, x, .barr b (data % 65536)⟩] })
    ∧ (∀ y, a = 0x0400F800 + 8 * y → y < 4 → vec = false → n = 8 → ExecutesIf i s True →
      ∃ t, exec i s = .next t ∧ SameMemory s t ∧ OnlyCore s t c { s.core c with
        barStores := (s.core c).barStores ++ [⟨s.now + 4, s.now, c, x, .estat y (BitVec.ofNat 64 data)⟩] })
    ∧ (a = 0x0400F000 + 4 * x → x < 4 → vec = false → n = 4 → slotRuns i s = true → s.iss.checked = true →
      ∃ t, exec i s = .next t ∧ SameMemory s t ∧ OnlyCore s t c { s.core c with
        barStores := (s.core c).barStores ++ [⟨s.now + 4, s.now, c, x, .release x (BitVec.ofNat 32 data)⟩],
        scrubs := (s.core c).scrubs ++ (if s.scrubs c x then ((List.range 32).filter (fun b => data.testBit b && (s.core c).owns x b)).map
          (fun b => (b, s.now + 516)) else []) })
    ∧ (∀ k o, a = 0x02000000 + 128 * k + o → k < 4 → o + n ≤ 128 → (vec = true ∨ n = 8) → o + n < 128 → a % n = 0 →
      ExecutesIf i s True →
      ∃ t, exec i s = .next t ∧ SameMemory s t
        ∧ t = { s with accesses := s.accesses ++ [⟨s.now + 1, s.now, c, x, u == .mb, .msg (128 * k + o), .store, n, v, vec, 0, none⟩] })
    ∧ (∀ k o, a = 0x02000000 + 128 * k + o → k < 4 → o + n = 128 → (vec = true ∨ n = 8) → s.iss.checked = true →
      slotRuns i s = true →
      ∃ t, exec i s = .next t ∧ SameMemory s t
        ∧ t = { s with
            accesses := s.accesses ++ [⟨s.now + 1, s.now, c, x, u == .mb, .msg (128 * k + o), .store, n, v, vec, 0, none⟩]
            msgs := s.msgs ++ [⟨c, x, k, s.now + 1, false, 0, 0, 0, 0, s.cur.lx⟩] })

/-- R181 to R183: fences wait at the end of their bundle for the commands of the masked paths submitted before them; an arrive acts
one tick later; a signal is held until its release. -/
def Obligations.OrderForms : Prop :=
  (∀ (s : State) (u : MemUnit) (t : BitVec 3) (sc : BitVec 3) (o : BitVec 2) (m : BitVec 7), Executes (.fence u t sc o m) s →
    exec (.fence u t sc o m) s = .next { s with iss := { s.iss with
      fence := s.iss.fence ++ [⟨sc.toNat, o.toNat, m.toNat, s.now, s.now + 1, s.maskedCmds m.toNat⟩] } })
  ∧ (∀ (s : State) (u : MemUnit) (t : BitVec 3) (b : BitVec 5), Executes (.arrive u t b) s →
    ∃ s', exec (.arrive u t b) s = .next s' ∧ SameMemory s s' ∧ OnlyCore s s' s.iss.core { s.core s.iss.core with
      barStores := (s.core s.iss.core).barStores ++ [⟨s.now + 1, s.now, s.iss.core, s.iss.ctx, .barr b.toNat 1⟩] })
  ∧ ∀ (s : State) (u : MemUnit) (t : BitVec 3) (m : BitVec 7) (b : BitVec 5) (i : Instr) (dr : Bool),
    (i = .signal u t m b ∧ dr = false ∨ i = .signalDrain u t m b ∧ dr = true) →
    ExecutesIf i s ((s.cur.signals.filter (fun d => decide (d.issued < s.now))).length < 4) →
    ∃ s', exec i s = .next s' ∧ SameMemory s s' ∧ OnlyCtx s s' s.iss.core s.iss.ctx { s.cur with
      signals := s.cur.signals ++ [⟨b.toNat, m.toNat, dr, s.now, s.maskedCmds m.toNat, false⟩] }

/-- R144, R149 to R151, R158: the seven beats of the array, and a push from a generator. The flags of beats are log entry 20. -/
def Obligations.MatrixBeats : Prop :=
  Sys2Proof.Claims.MatrixBeats ∧ Sys2Proof.Claims.GeneratorPush

/-- R184, R185: the submission of a command, and the cases in which it is refused. -/
def Obligations.Submissions : Prop :=
  Sys2Proof.Claims.Submissions ∧ Sys2Proof.Claims.SubmissionFaults

/-- R167, R169, R173, R194, R202: what stores, loads and atomics do where they perform. That a read returns what storage holds at its perform
tick, with the timed entries of that tick, is the model's choice among what R215 allows (log entries 3 and 4), and so is what becomes of a
write that had its slot before the scrub of its bank began (log entry 65). -/
def Obligations.AccessesPerform : Prop :=
  Sys2Proof.Claims.StorePerforms ∧ Sys2Proof.Claims.LoadPerforms ∧ Sys2Proof.Claims.AtomicPerforms

/-- R73, R142, R146, R175, R179: loads of the windows of the address space. -/
def Obligations.WindowLoads : Prop :=
  Sys2Proof.Claims.WindowLoads ∧ Sys2Proof.Claims.DeviceLoads

/-! ## Landings, conditions, barriers and messages -/

namespace Sys2Proof.Claims

/-- `w` is `old` with the bits of `mask` taken from `new`. -/
def Masked {n : Nat} (old new mask w : BitVec n) : Prop :=
  ∀ b, b < n → w.getLsbD b = if mask.getLsbD b then new.getLsbD b else old.getLsbD b

/-- `l'` is `l` without its first `e`, before which nothing satisfies `bad`. -/
def Without {α : Type} (l l' : List α) (e : α) (bad : α → Prop) : Prop :=
  ∃ a b, l = a ++ e :: b ∧ l' = a ++ b ∧ ∀ x ∈ a, ¬ bad x

/-- A context after a result of a register form has landed in it: the bits it names of the register it names, and the sticky
flags of FMT (R20, R22, R44, R47). -/
def Landed (k t : Ctx) (f : Flight) : Prop :=
  let fl := k.fmt ||| (f.flags.setWidth 32 <<< 16)
  match f.dest with
  | .slice sl i => i < 16 → ∃ g : Table Word, t = { k with flights := t.flights, g := g, fmt := fl }
      ∧ ∀ j m, j < 5 → m < 16 → tget g 0 (16 * j + m)
          = if m = i ∧ sl.getLsbD j = true then f.value.setWidth 64 else tget k.g 0 (16 * j + m)
  | .latch u => t = { k with flights := t.flights, latch := tput k.latch u (f.value.setWidth 64), fmt := fl }
  | .vs => t = { k with flights := t.flights, vs := f.value.setWidth 64, fmt := fl }
  | .v i => ∃ w, Masked (tget k.v 0 i) f.value f.mask w ∧ t = { k with flights := t.flights, v := tput k.v i w, fmt := fl }
  | .k i => if i = 0 then t = { k with flights := t.flights, fmt := fl }
      else ∃ w, Masked (tget k.k (BitVec.allOnes 128) i) (f.value.setWidth 128) (f.mask.setWidth 128) w
        ∧ t = { k with flights := t.flights, k := tput k.k i w, fmt := fl }
  | .p => ∃ w, Masked k.p (f.value.setWidth 16) (f.mask.setWidth 16) w ∧ t = { k with flights := t.flights, p := w, fmt := fl }
  | .b i => t = { k with flights := t.flights, bT := tput k.bT i (f.value.setWidth 16), bV := k.bV ||| BitVec.ofNat 8 (2 ^ i), bAgain := tdel k.bAgain i, fmt := fl }
  | .a i => t = { k with flights := t.flights, a := tput k.a i (f.value.setWidth 32), fmt := fl }
  | .lc n => t = { k with flights := t.flights, lc := tput k.lc n (f.value.setWidth 32), fmt := fl }
  | .lsw n => t = { k with flights := t.flights, lsw := tput k.lsw n (f.value.setWidth 16), fmt := fl }
  | .delta n a => t = { k with flights := t.flights, delta := tput k.delta (16 * n + a) (f.value.setWidth 32), fmt := fl }
  | .e i => t = { k with flights := t.flights, e := tput k.e i (f.value.setWidth 256), fmt := fl }
  | .fmt => ∃ w, Masked k.fmt (f.value.setWidth 32) (f.mask.setWidth 32) w
      ∧ t = { k with flights := t.flights, fmt := w ||| (f.flags.setWidth 32 <<< 16) }
  | .gsel => ∃ w, Masked k.gsel (f.value.setWidth 32) (f.mask.setWidth 32) w ∧ t = { k with flights := t.flights, gsel := w, fmt := fl }
  | .hcw _ _ | .areg _ | .wrow _ _ | .none => t = { k with flights := t.flights, fmt := fl }

/-- The array after a result has landed in it: a register of its window, its reserved bits zero, or a row of a latch
(R145 to R149). -/
def ArrayLanded (a t : ArrayState) (f : Flight) : Prop :=
  match f.dest with
  | .areg off =>
    let v := f.value.setWidth 32
    let m := f.mask.setWidth 32
    (off = 0x00 → ∃ w, Masked a.actl v m w ∧ t = { a with actl := w &&& 0x07FFFFFF })
    ∧ (off = 0x04 → ∃ w, Masked a.aptr v m w ∧ t = { a with aptr := w &&& 0x3F3F3F3F })
    ∧ (off = 0x08 → ∃ w, Masked a.dptr v m w ∧ t = { a with dptr := w &&& 0x3F3F3F3F })
    ∧ (off = 0x0C → ∃ w, Masked a.lptr v m w ∧ t = { a with lptr := w &&& 0x7F7F7F7F })
    ∧ (off = 0x10 → ∃ w, Masked a.awc v m w ∧ t = { a with awc := w })
    ∧ (∀ b, b < 4 → off = 0x20 + 4 * b → ∃ w, Masked (tget a.drow 0 b) v m w ∧ t = { a with drow := tput a.drow b w })
    ∧ (off = 0x30 → t = { a with arec := f.value.setWidth 64 })
    ∧ (∀ n, n < 4 → off = 0x40 + 8 * n → t = { a with lrec := tput a.lrec n (f.value.setWidth 64) })
  | .wrow n r => t = { a with w := tput a.w (128 * n + r) f.value }
  | _ => t = a

/-- A landing of context `x` of core `c`: the result leaves the context, and stands in its register or in the array; nothing else
changes, but that a spoiled word which the result replaces is spoiled no more (R341). -/
def Lands (s t : State) (c x : Nat) (f : Flight) (bad : Flight → Prop) : Prop :=
  Without (s.ctx c x).flights (t.ctx c x).flights f bad ∧ Landed (s.ctx c x) (t.ctx c x) f
  ∧ ArrayLanded (s.core c).array (t.core c).array f
  ∧ (∀ y, y ≠ x → t.ctx c y = s.ctx c y) ∧ (∀ d, d ≠ c → t.core d = s.core d)
  ∧ { (t.core c).besidesCtxs with array := (s.core c).array, bad := (s.core c).bad } = (s.core c).besidesCtxs
  ∧ (∀ w ∈ (t.core c).bad, w ∈ (s.core c).bad) ∧ t.besidesCores = s.besidesCores

/-- A wait is met (R103). -/
def Met (s : State) (c x : Nat) (w : WaitCond) : Prop :=
  match w with
  | .barrier b g0 => (tget (s.core c).barriers Barrier.reset b).gen ≠ g0
  | .queue q => ∃ e, (s.ctx c x).head q = some e
  | .tick v => v.toNat ≤ s.now
  | .engine ids => ∀ n ∈ ids, (∀ m ∈ s.cmds, m.id = n → 2 ≤ m.phase) ∧ (∀ w ∈ s.hostWrites, w.id ≠ n) ∧ ∀ h ∈ s.hsigs, h.id ≠ n

/-- What a context issued before tick `t` to memory and barriers has performed (R182, R183). -/
def Performed (s : State) (c x t : Nat) : Prop :=
  (∀ a ∈ s.accesses, a.core = c → a.ctx = x → a.issued < t → a.perform ≤ s.now)
  ∧ (∀ p ∈ s.cores, ∀ b ∈ p.2.barStores, b.core = c → b.ctx = x → b.issued < t → b.tick ≤ s.now)
  ∧ ∀ f ∈ (s.ctx c x).flights, f.src = 2 → f.issued < t → f.land ≤ s.now

/-- No pending byte of a context's commands on the paths of a mask (R191). -/
def NonePending (s : State) (c x lx mask : Nat) : Prop :=
  ∀ m ∈ s.cmds, m.core = c → m.ctx = x → m.lx = lx → m.cls < 5 → mask.testBit (m.cls + 1) = true → m.pend = 0

/-- The conditions of a fence (R183): of a release, which with GTE in the mask counts the reads of earlier pushes (R209), of an acquire,
and what sequential consistency adds. -/
def FenceMet (s : State) (c x : Nat) (f : FenceSt) : Prop :=
  f.notBefore ≤ s.now ∧ Met s c x (.engine f.cmds)
  ∧ (f.order ≠ 0 → Performed s c x f.issued ∧ (∀ g ∈ (s.ctx c x).shadow, g.src = 2 → f.issued ≤ g.issued)
      ∧ (f.mask.testBit 2 = true → ∀ e ∈ (s.ctx c x).aq, e.pushed < f.issued → ∃ v, e.data = some v)
      ∧ (2 ≤ f.scope → NonePending s c x (s.ctx c x).lx f.mask))
  ∧ (f.order ≠ 1 → (∀ g ∈ (s.ctx c x).flights, g.src = 3 → g.issued < f.issued → g.land ≤ s.now)
      ∧ (f.mask.testBit 6 = true → s.hostDone f.issued = true))
  ∧ (3 ≤ f.order → (∀ p ∈ s.cores, ∀ e ∈ p.2.timed, e.src = c → e.ctx = x → e.issued < f.issued → e.vis ≤ s.now)
      ∧ ∀ d ∈ (s.ctx c x).signals, d.issued < f.issued → d.released = true)

/-- The bytes of message buffer `b` as sixteen words (R175). -/
def msgWordOf (k : Ctx) (b j : Nat) : Nat := (tget k.msgbuf 0 (16 * b + j)).toNat

/-- The latency of a packet by where its ends lie (R176). -/
def packetLat (a b : Nat) : Nat :=
  if a = b then 12 else if a / 8 = b / 8 then 16 else if a / 64 = b / 64 then 40
  else if a / 64 + b / 64 = 3 then 104 else 72

end Sys2Proof.Claims

/-- R18, R20, R22, R23, R47: in a tick with a result due, one lands: an FMT write before any other, else one of the earliest issue
tick. It writes the bits its mask names of its register, sets its flags in FMT, and changes nothing else. -/
def Sys2Proof.Claims.Landings : Prop :=
  ∀ (s : State) (c x : Nat), (∃ g ∈ (s.ctx c x).flights, g.land ≤ s.now ∧ g.toHcw = false ∧ g.toWindow = false) →
    ∃ t f, exec (.resultLanding c x) s = .next t ∧ SameMemory s t ∧ f.land ≤ s.now ∧ f.toHcw = false ∧ f.toWindow = false
      ∧ (∀ g ∈ (s.ctx c x).flights, g.land ≤ s.now → g.toHcw = false → g.toWindow = false →
          (g.dest = .fmt → f.dest = .fmt) ∧ (f.dest ≠ .fmt → f.issued ≤ g.issued))
      ∧ Lands s t c x f (fun g => g = f)

/-- R22, R74, R75, R146: a store to the HCW window that lands, of those of a core one of the earliest issue tick, writes its entry and
validates it; a store to the array and generator window that lands writes its register. -/
def Sys2Proof.Claims.WindowLandings : Prop :=
  (∀ (s : State) (c : Nat), (∃ z, z < 4 ∧ ∃ g ∈ (s.ctx c z).flights, g.land ≤ s.now ∧ g.toHcw = true) →
    ∃ t x f y i, exec (.hcwEntryWrite c) s = .next t ∧ SameMemory s t ∧ x < 4 ∧ f.land ≤ s.now ∧ f.dest = .hcw y i
      ∧ (∀ z, z < 4 → ∀ g ∈ (s.ctx c z).flights, g.land ≤ s.now → g.toHcw = true → f.issued ≤ g.issued)
      ∧ Without (s.ctx c x).flights (t.ctx c x).flights f (fun g => g = f)
      ∧ (t.ctx c y).hcw = tput (s.ctx c y).hcw i (f.value.setWidth 256)
      ∧ (∀ b, b < 512 → (t.ctx c y).hcwValid.getLsbD b = if b = i then entryValid (f.value.setWidth 256) else (s.ctx c y).hcwValid.getLsbD b)
      ∧ (∀ z, z ≠ y → (t.ctx c z).hcw = (s.ctx c z).hcw ∧ (t.ctx c z).hcwValid = (s.ctx c z).hcwValid)
      ∧ (∀ z, z ≠ x → (t.ctx c z).flights = (s.ctx c z).flights ∧ (t.ctx c z).fmt = (s.ctx c z).fmt)
      ∧ (∀ z, { t.ctx c z with hcw := [], hcwValid := 0, flights := [], fmt := 0 }
          = { s.ctx c z with hcw := [], hcwValid := 0, flights := [], fmt := 0 })
      ∧ (∀ d, d ≠ c → t.core d = s.core d) ∧ { (t.core c).besidesCtxs with bad := (s.core c).bad } = (s.core c).besidesCtxs
      ∧ (∀ w ∈ (t.core c).bad, w ∈ (s.core c).bad) ∧ t.besidesCores = s.besidesCores)
  ∧ ∀ (s : State) (c o : Nat) (v : Word), (∀ b ∈ (s.core c).barStores, b.st.isRegister = true → s.now < b.tick) →
    (∃ z, z < 4 ∧ ∃ g ∈ (s.ctx c z).flights, g.land ≤ s.now ∧ g.toWindow = true) →
    ∃ t x f, exec (.registerWrite false c o v) s = .next t ∧ SameMemory s t ∧ x < 4 ∧ f.land ≤ s.now ∧ f.toWindow = true
      ∧ (∀ z, z < 4 → ∀ g ∈ (s.ctx c z).flights, g.land ≤ s.now → g.toWindow = true →
          (g.dest = .fmt → f.dest = .fmt) ∧ (f.dest ≠ .fmt → f.issued ≤ g.issued))
      ∧ Lands s t c x f (fun g => g = f)

/-- R104, R105: a context blocked in a wait whose condition holds in a later tick, or held while the context was in service, is ready: to
issue one tick later where its core last issued for it, else two ticks later. One whose condition does not hold stays blocked; that it
held is noted of a context in service. -/
def Sys2Proof.Claims.WaitsMet : Prop :=
  ∀ (s : State) (c x n : Nat) (w : WaitCond) (held : Bool), let k := s.ctx c x
    k.status = .waiting w n held → n < s.now →
    (k.service = none → k.preBy = 0 →
      (held = true ∨ Met s c x w → ∃ t, exec (.waitMet c x) s = .next t ∧ SameMemory s t
        ∧ OnlyCtx s t c x { k with status := .ready s.now (if (s.core c).lastCtx = some x then 1 else 2) true })
      ∧ (held = false → ¬ Met s c x w → (∀ p ∈ (s.core c).saved, p.1 ≠ x) → exec (.waitMet c x) s = .next s))
    ∧ (k.service ≠ none ∨ k.preBy ≠ 0 → held = false → Met s c x w →
        ∃ t, exec (.waitMet c x) s = .next t ∧ SameMemory s t ∧ OnlyCtx s t c x { k with status := .waiting w n true })

/-- How a context goes on after its drain or its fence: it issues, unless it was resumed in it and so holds no issue slot; then it is a ready
one since its resumption (R9, R273; log entry 44). -/
def Sys2Proof.Claims.GoesOn (k : Ctx) (st : CtxStatus) : Prop :=
  (k.backAt = none → st = .issuing) ∧ ∀ n, k.backAt = some n → st = .ready n 0 true

/-- R9, R96, R183: a context whose drain has come to its tick issues on, and so does one whose fences all hold. -/
def Sys2Proof.Claims.HoldsEnd : Prop :=
  (∀ (s : State) (c x d : Nat), let k := s.ctx c x
    k.status = .draining d → k.service = none → k.preBy = 0 → d ≤ s.now →
    ∃ t st, exec (.drainingBranch c x) s = .next t ∧ SameMemory s t ∧ OnlyCtx s t c x { k with status := st } ∧ GoesOn k st)
  ∧ ∀ (s : State) (c x : Nat) (fs : List FenceSt), let k := s.ctx c x
    k.status = .fencing fs →
    ((∀ f ∈ fs, FenceMet s c x f) →
      ∃ t st, exec (.fenceRelease c x) s = .next t ∧ SameMemory s t ∧ OnlyCtx s t c x { k with status := st } ∧ GoesOn k st)
    ∧ ∀ f ∈ fs, f.order ≠ 0 → (∃ a ∈ s.accesses, a.core = c ∧ a.ctx = x ∧ a.issued < f.issued ∧ s.now < a.perform) →
      exec (.fenceRelease c x) s = .next s

/-- A signal has all it waits for beside the rows of its context and the stores to windows (R182, R191): what its context did before has
performed, its commands have ended and, with drained bytes, those are visible, also those of a command that begins in this tick. -/
def Sys2Proof.Claims.Signals (s : State) (c x lx : Nat) (d : DefSignal) : Prop :=
  d.issued < s.now ∧ (∀ a ∈ s.accesses, a.core = c → a.ctx = x → a.issued < d.issued → a.perform ≤ s.now)
  ∧ (∀ p ∈ s.cores, ∀ b ∈ p.2.barStores, b.core = c → b.ctx = x → b.issued < d.issued → b.tick ≤ s.now)
  ∧ Met s c x (.engine d.cmds)
  ∧ (d.drained = true → NonePending s c x lx d.mask
      ∧ ∀ m ∈ s.cmds, m.core = c → m.ctx = x → m.lx = lx → d.mask.testBit (m.cls + 1) = true → m.phase = 0 → s.now < m.beginAt)

/-- A signal arrives at its barrier (R179, R182). -/
def Sys2Proof.Claims.arrived (k : Core) (b : Nat) : Table Barrier :=
  tput k.barriers b { tget k.barriers Barrier.reset b with arrived := min 0xFFFF ((tget k.barriers Barrier.reset b).arrived + 1) }

/-- R182: the oldest signal held by a context arrives at its barrier when what its context did before has performed and its
commands have ended; with drained bytes, when those are visible; with path 0, when the rows pushed before have left the array. What a stop
has caught counts in the tick in which it would have left, had the context run on (R271). The signals of a released context wait on and
arrive in their order. -/
def Sys2Proof.Claims.SignalsRelease : Prop :=
  (∀ (s : State) (c x : Nat) (d : DefSignal) (l r : List DefSignal), let k := s.ctx c x
    k.signals = l ++ d :: r → (∀ e ∈ l, e.released = true) → d.released = false → Signals s c x k.lx d →
    (∀ f ∈ k.flights, f.src = 2 → f.issued < d.issued → f.land ≤ s.now) →
    (∀ f ∈ k.shadow, f.src = 2 → f.issued < d.issued → k.caughtAt + f.land ≤ s.now) →
    (d.mask.testBit 0 = true → ((s.core c).arrayOwner = some x → ∀ w ∈ (s.core c).array.rows, w.pushed < d.issued → w.exit ≤ s.now)
      ∧ ∀ w ∈ k.shadowRows, w.pushed < d.issued → k.caughtAt + w.exit ≤ s.now) →
    ∃ t, exec (.signalRelease c x) s = .next t ∧ SameMemory s t
      ∧ t.ctx c x = { k with signals := l ++ { d with released := true } :: r }
      ∧ (∀ e y, ¬ (e = c ∧ y = x) → t.ctx e y = s.ctx e y) ∧ (∀ e, e ≠ c → t.core e = s.core e)
      ∧ (t.core c).besidesCtxs = { (s.core c).besidesCtxs with barriers := arrived (s.core c) d.barrier }
      ∧ t.besidesCores = s.besidesCores)
  ∧ ∀ (s : State) (c x lx : Nat) (d : DefSignal) (l r : List (Nat × Nat × DefSignal)),
    (s.core c).lateSignals = l ++ (x, lx, d) :: r → (∀ e ∈ l, e.1 ≠ x) → (∀ e ∈ (s.ctx c x).signals, e.released = true) →
    (∀ p ∈ (s.core c).saved, p.1 ≠ x) → Signals s c x lx d →
    ∃ t, exec (.signalRelease c x) s = .next t ∧ SameMemory s t
      ∧ OnlyCore s t c { s.core c with lateSignals := l ++ r, barriers := arrived (s.core c) d.barrier }

/-- R106, R107: a wrap of WACC costs one unit of BUD, of which none is left below 0 (log entry 45); a context with none left takes the
budget trap. -/
def Sys2Proof.Claims.Budgets : Prop :=
  (∀ (s : State) (c x : Nat), (s.ctx c x).wrapDue = true →
    ∃ t, exec (.waccWrap c x) s = .next t ∧ SameMemory s t
      ∧ OnlyCtx s t c x { s.ctx c x with bud := if (s.ctx c x).bud = 0 then 0 else (s.ctx c x).bud - 1, wrapDue := false })
  ∧ ∀ (s : State) (c x : Nat), let k := s.ctx c x
    k.bud = 0 → k.service = none → k.preBy = 0 → k.stops = [] → k.status ≠ .empty → k.status ≠ .banks → k.status ≠ .halted →
    (s.core c).issuedAt ≠ some s.now →
    ∃ t, exec (.budgetTrap c x) s = .next t ∧ SameMemory s t ∧ OnlyCtx s t c x { k with stops := [(s.now, ⟨0, 3, 0, 0, 0⟩)] }

/-- R172, R151: in a tick at which timed entries become visible one is written to its bytes and leaves the buffer, the earliest
issued first; rows that no accumulate took in their tick leave the array. -/
def Obligations.TimedWrites : Prop :=
  (∀ (s : State) (c : Nat), (∃ e ∈ (s.core c).timed, e.vis ≤ s.now) → (∀ d, (s.spad d).wf = true) → NoBadWord s →
    ∃ t e, exec (.timedWrite c) s = .next t ∧ e ∈ (s.core c).timed ∧ e.vis ≤ s.now
      ∧ (∀ g ∈ (s.core c).timed, g.vis ≤ s.now → e.issued ≤ g.issued) 
      ∧ Without (s.core c).timed (t.core c).timed e (fun g => g = e)
      ∧ (∀ d a, mread (t.spad d) a = if d = c ∧ e.addr ≤ a ∧ a < e.addr + e.size then BitVec.ofNat 8 (e.data.toNat / 256 ^ (a - e.addr))
          else mread (s.spad d) a)
      ∧ OnlyCore s t c { s.core c with spad := t.spad c, timed := (t.core c).timed })
  ∧ ∀ (s : State) (c : Nat), ∃ t, exec (.arrayRowExit c) s = .next t ∧ SameMemory s t
      ∧ OnlyCore s t c { s.core c with array := { (s.core c).array with
          rows := (s.core c).array.rows.filter (fun r => decide (s.now < r.exit)) } }

/-- R179, R181, R200, R202: a store to the barrier window acts: arrivals add up to 65,535, BCFG sets EXPECT and the mirror
mask, ESTAT keeps its bit, and a release gives up the banks of its mask that the context owns. -/
def Sys2Proof.Claims.BarrierStores : Prop :=
  ∀ (s : State) (c o : Nat) (v : Word) (p : BarPend) (l r : List BarPend), (s.core c).barStores = l ++ p :: r → p.tick ≤ s.now →
    let k := s.core c
    (∀ b n, p.st = .barr b n → (∀ q ∈ l, q.st.isArrival = true → s.now < q.tick) →
      ∃ t, exec (.barrWrite c) s = .next t ∧ SameMemory s t ∧ OnlyCore s t c { k with
        barStores := l ++ r
        barriers := tput k.barriers b { tget k.barriers Barrier.reset b with
          arrived := min 65535 ((tget k.barriers Barrier.reset b).arrived + n) } })
    ∧ (∀ b w, p.st = .bcfg b w → (∀ q ∈ l, q.st.isRegister = true → s.now < q.tick) →
      ∃ t, exec (.registerWrite false c o v) s = .next t ∧ SameMemory s t ∧ OnlyCore s t c { k with
        barStores := l ++ r
        barriers := tput k.barriers b { tget k.barriers Barrier.reset b with
          expect := BitVec.ofNat 16 w.toNat, mirror := BitVec.ofNat 8 (w.toNat / 65536) } })
    ∧ (∀ x w, p.st = .estat x w → (∀ q ∈ l, q.st.isRegister = true → s.now < q.tick) →
      ∃ t, exec (.registerWrite false c o v) s = .next t ∧ SameMemory s t ∧ OnlyCore s t c { k with
        barStores := l ++ r
        ctxs := tput k.ctxs x { s.ctx c x with estat := BitVec.ofNat 64 (w.toNat % 2) } })
    ∧ ∀ x m, p.st = .release x m → (∀ q ∈ l, q.st.isRelease = true → s.now < q.tick) →
      ∃ t, exec (.releaseWordWrite c) s = .next t ∧ SameMemory s t
        ∧ (∀ b, b < 32 → tget (t.core c).own 0 b
            = if m.getLsbD b = true ∧ k.owns x b = true then (if s.scrubs c x then 5 else 0) else tget k.own 0 b)
        ∧ (let gone (b : Nat) : Prop := b < 32 ∧ m.getLsbD b = true ∧ k.owns x b = true ∧ s.scrubs c x = true
           ∀ e, e ∈ (t.core c).scrubs ↔ (e ∈ k.scrubs ∧ ¬ gone e.1) ∨ ∃ b, gone b ∧ e = (b, s.now + 512))
        ∧ { t.core c with own := [], scrubs := [], kept := [], releasing := [] }
            = { k with barStores := l ++ r, own := [], scrubs := [], kept := [], releasing := [] }
        ∧ (∀ d, d ≠ c → t.core d = s.core d) ∧ t.besidesCores = s.besidesCores

/-- R180: a barrier with all its arrivals and no pending byte completes: ARRIVED falls by EXPECT and GEN inverts; each core of its
mirror mask, its own apart, inverts its barrier of that number 8 ticks later. -/
def Sys2Proof.Claims.BarrierCompletions : Prop :=
  (∀ (s : State) (c b : Nat), let k := (s.core c).barrier b
    k.expect ≠ 0 → k.expect.toNat ≤ k.arrived → k.pend = 0 → k.doneAt ≠ s.now + 1 →
    ∃ t, exec (.barrierComplete c b) s = .next t ∧ SameMemory s t
      ∧ (∀ d j, (t.core d).barrier j =
          if j = b ∧ d = c then { k with arrived := k.arrived - k.expect.toNat, gen := !k.gen, doneAt := s.now + 1 }
          else if j = b ∧ d / 8 = c / 8 ∧ k.mirror.getLsbD (d % 8) = true then
            { (s.core d).barrier j with mirrorFlips := ((s.core d).barrier j).mirrorFlips ++ [s.now + 8] }
          else (s.core d).barrier j)
      ∧ (∀ d, { t.core d with barriers := [] } = { s.core d with barriers := [] }) ∧ t.besidesCores = s.besidesCores)
  ∧ ∀ (s : State) (c b n : Nat) (l r : List Nat), let k := (s.core c).barrier b
    k.mirrorFlips = l ++ n :: r → n ≤ s.now → (∀ m ∈ l, s.now < m) →
    ∃ t, exec (.barrierMirrorFlip c b) s = .next t ∧ SameMemory s t ∧ OnlyCore s t c { s.core c with
      barriers := tput (s.core c).barriers b { k with gen := !k.gen, mirrorFlips := l ++ r } }

/-- R176: a closed packet is captured with its destination and its sender in word 0, to be delivered by the distance of its cores. -/
def Sys2Proof.Claims.MessagesSent : Prop :=
  ∀ (s : State) (m : Msg) (l r : List Msg), s.msgs = l ++ m :: r → m.sent = false → m.capture ≤ s.now → m.buf < 4 →
    (∀ n ∈ l, n.core = m.core → n.ctx = m.ctx → n.sent = true ∨ s.now < n.capture) → (∀ n ∈ l ++ r, n ≠ m) →
    m.core < 256 → m.ctx < 4 →
    let k := s.ctx m.core m.ctx
    let dst := msgWordOf k m.buf 0 % 256
    ∃ t n, exec (.messageSend m.core m.ctx) s = .next t ∧ t = { s with msgs := l ++ n :: r }
      ∧ n.sent = true ∧ n.dcore = dst ∧ n.dctx = msgWordOf k m.buf 0 / 256 % 4 ∧ n.deliver = m.capture - 1 + packetLat m.core dst
      ∧ n.core = m.core ∧ n.ctx = m.ctx ∧ n.lx = m.lx
      ∧ n.entry.toNat % 2 ^ 64 = m.core + 256 * m.ctx
      ∧ ∀ j, 1 ≤ j → j < 16 → n.entry.toNat / 2 ^ (64 * j) % 2 ^ 64 = msgWordOf k m.buf j

/-- R177: an entry enters a QM; at 16 entries it is lost and the context takes a message-overflow fault in the next tick. -/
def Sys2Proof.Claims.received (k : Ctx) (m : Msg) (now : Nat) : Ctx :=
  if k.qm.length < 16 then { k with qm := k.qm ++ [m.entry] }
  else { k with stops := k.stops ++ [(now + 1, ⟨31, 2, BitVec.ofNat 64 m.entry.toNat, 0, 0⟩)] }

/-- R176 to R178: of the packets due for a context the one of the lowest source is delivered: to the context that holds a kernel, or to the
saved image under its number, where no other context runs or the image is of the sender's launch; where neither stands it is discarded,
and KIND 8 with DETAIL 19 is posted on the stream of the sender's launch, if that has not ended. -/
def Sys2Proof.Claims.MessagesDelivered : Prop :=
  ∀ (s : State) (c x : Nat),
    (∃ m ∈ s.msgs, m.sent = true ∧ m.dcore = c ∧ m.dctx = x ∧ m.deliver ≤ s.now) →
    ∃ t, ∃ m ∈ s.msgs, exec (.messageDeliver c x) s = .next t ∧ SameMemory s t ∧ Without s.msgs t.msgs m (fun n => n = m)
      ∧ (m.sent = true ∧ m.dcore = c ∧ m.dctx = x ∧ m.deliver ≤ s.now)
      ∧ (∀ n ∈ s.msgs, n.sent = true → n.dcore = c → n.dctx = x → n.deliver ≤ s.now → m.core * 4 + m.ctx ≤ n.core * 4 + n.ctx)
      ∧ ((s.ctx c x).status ≠ .empty → (∀ k, (s.core c).saved = [(x, k)] → k.lx ≠ m.lx) →
          ((s.core c).saved = [] ∨ ∃ k, (s.core c).saved = [(x, k)]) →
          OnlyCtx { s with msgs := t.msgs } t c x (received (s.ctx c x) m s.now))
      ∧ (∀ k, (s.core c).saved = [(x, k)] → (s.ctx c x).status = .empty ∨ k.lx = m.lx →
          OnlyCore { s with msgs := t.msgs } t c { s.core c with saved := [(x, received k m s.now)] })
      ∧ ((s.ctx c x).status = .empty → (∀ p ∈ (s.core c).saved, p.1 ≠ x) → t.cores = s.cores
          ∧ t.hostWrites = match s.findLaunch m.lx with
            | some l => if l.phase < 3 then (s.post l.stream l.lid 8 19 s.nowW).hostWrites else s.hostWrites
            | none => s.hostWrites)

/-- What an engine-side read of a scratchpad bank sees in its tick (R194, R211): storage, or, where the write of the bank in that tick was
reserved before the read, what that write, a timed entry or a store on the peer path, leaves; into a bank in its scrub none is let through
(R202; log entry 65). The list of reservations holds the latest first. -/
def Sys2Proof.Claims.engineView (s : State) (d b : Nat) : Memory :=
  let k := s.core d
  match k.resv.filter (fun r => r.bank == b && r.tick == s.now) with
  | r :: rest =>
    if r.write = false ∧ rest.any (fun q => q.write) = true ∧ ¬ Scrubbed s d (128 * b) then
      s.accesses.foldl (fun m a => match a.target, a.kind with
        | .spad e off, .store => if e = d ∧ a.perform ≤ s.now ∧ a.issued + 4 ≤ a.perform then mwriteN m off a.size a.data.toNat else m
        | _, _ => m) (k.timed.foldl (fun m e => if e.vis = s.now then mwriteN m e.addr e.size e.data.toNat else m) k.spad)
    else k.spad
  | [] => k.spad

/-- R139, R194, R211, R342: an entry of the address queue reads its bytes, zero beyond its size, 8 ticks after its push, before or after the
write of the bank in that tick as the two were reserved (log entry 4); a word of them that cannot be corrected stops the context in the
next tick, a fault of the engine (R342), whose places are those of log entry 8. 24 ticks after the push, the oldest enters QG. -/
def Obligations.Gathers : Prop :=
  (∀ (s : State) (c x d off : Nat) (e : AqEntry) (l r : List AqEntry), let k := s.ctx c x
    k.aq = l ++ e :: r → e.data = none → e.pushed + 8 ≤ s.now → (∀ g ∈ l, g.data = none → s.now < g.pushed + 8) →
    localPlace c e.addr.toNat = some (d, off) →
    let read : List AqEntry := l ++ { e with data := some (BitVec.ofNat 1024 (mreadN (engineView s d (bankOf off)) off e.size)) } :: r
    (NoBadWord s → ∃ t, exec (.gatherRead c x) s = .next t ∧ SameMemory s t ∧ OnlyCtx s t c x { k with aq := read })
    ∧ ∀ y p, (s.core d).bad = [⟨0, y, p, false⟩] → p < spadSize → off < p + 8 → p < off + e.size →
      ∃ t a, exec (.gatherRead c x) s = .next t ∧ SameMemory s t ∧ localPlace c a.toNat = some (d, p)
        ∧ OnlyCtx s t c x { k with aq := read, stops := k.stops ++ [(s.now + 1, ⟨34, 1, a, 0, 0⟩)] })
  ∧ ∀ (s : State) (c x : Nat) (e : AqEntry) (v : VWord) (r : List AqEntry), let k := s.ctx c x
    k.aq = e :: r → e.data = some v → e.pushed + 24 ≤ s.now →
    ∃ t, exec (.gatherDeliver c x) s = .next t ∧ SameMemory s t ∧ OnlyCtx s t c x { k with aq := r, qg := k.qg ++ [v] }

/-- R18, R20, R22, R47, R74, R75, R146: results and window stores land. That a B register is valid at once by its prep, whatever reload of its
span R91 has still to run for, is the model's choice (log entry 61), and so are the numbers of the places (log entry 8). -/
def Obligations.Landings : Prop :=
  Sys2Proof.Claims.Landings ∧ Sys2Proof.Claims.WindowLandings

/-- R9, R96, R104 to R107, R182, R183: waits met, drains and fences over, signals released, and the budget. That a context resumed in its
drain or its fence goes on as a ready one is log entry 44, and a budget of none left log entry 45. -/
def Obligations.ConditionsMet : Prop :=
  Sys2Proof.Claims.WaitsMet ∧ Sys2Proof.Claims.HoldsEnd ∧ Sys2Proof.Claims.SignalsRelease ∧ Sys2Proof.Claims.Budgets

/-- R179 to R181, R200, R202: stores to the barrier window act, and barriers complete. -/
def Obligations.Barriers : Prop :=
  Sys2Proof.Claims.BarrierStores ∧ Sys2Proof.Claims.BarrierCompletions

/-- R176 to R178: packets are captured and delivered. -/
def Obligations.Messages : Prop :=
  Sys2Proof.Claims.MessagesSent ∧ Sys2Proof.Claims.MessagesDelivered

/-! ## Bundles, steps, and taking an exception -/

namespace Sys2Proof.Claims

/-- The slots of a bundle in the order they run. -/
def slotOrder : List SlotName := [.c, .sa, .sb, .ma, .mb, .x, .va, .vb, .mx, .e]

/-- The latch of the bundle at word `pc` of core `c` for context `x`, checked and with every slot to run (R12, R15, R26). -/
def latchOf' (s : State) (c x : Nat) (left : List SlotName) (checked : Bool) : Issue :=
  let k := s.ctx c x
  let w := tget (s.core c).imem 0 k.pc.toNat
  let lit := if w.toNat % 128 < 64 then w.toNat % 128 else w.toNat % 128 + 2 ^ 64 - 128
  let e := tget k.hcw 0 (w.toNat / 128)
  ⟨c, x, w, BitVec.ofNat 64 lit, e, (match toOpt (decodeSlot .c (slotBits e .c)) with
    | some i => (transferOf k i).1
    | none => 5), k.pc + 1, left, checked, none, [], none, false⟩

/-- A context whose queues have been popped by a mask (R19, R137, R141). -/
def popped (k : Ctx) (pop : BitVec 4) : Ctx :=
  { k with
    qrpos := if pop.getLsbD 0 then BitVec.ofNat 64 ((k.qrpos.toNat + 1) % 2 ^ 59) else k.qrpos
    qg := if pop.getLsbD 1 then k.qg.tail else k.qg, aqocc := if pop.getLsbD 1 then k.aqocc - 1 else k.aqocc
    qc := if pop.getLsbD 2 then k.qc.tail else k.qc, qm := if pop.getLsbD 3 then k.qm.tail else k.qm }

/-- The results of a loop end at level `n`, and whether the loop goes round (R99). -/
def loopAdvance (s : State) (k : Ctx) (n : Nat) : List Flight × Bool :=
  let lands (d : Dest) (v : Nat) : Flight := ⟨0, s.now, s.now + 1, 0, d, BitVec.ofNat 1024 v, BitVec.ofNat 1024 (2 ^ 32 - 1), 0⟩
  let c := (tget k.lc 0 n).toNat
  if c ≤ 1 then ([lands (.lc n) 0], false)
  else (lands (.lc n) (c - 1) :: (List.range 16).map (fun a =>
    lands (.a a) (((tget k.a 0 a).toNat + (tget k.delta 0 (16 * n + a)).toNat) % 2 ^ 32)), true)

/-- The action the supervisor takes on a code (R268, R275): resume, kill, or kill and retry. -/
def actionCode (code kind : Nat) : Nat :=
  if code = 4 ∨ code = 12 ∨ code = 17 ∨ code = 20 ∨ code = 23 ∨ code = 31 ∨ code = 33 ∨ (code = 13 ∧ kind = 0) then 0
  else if code = 25 ∨ code = 30 ∨ code = 34 then 2 else 1

/-- A context has still to wait for a fence, since the fence may not hold yet or an access before it has not performed (R183). -/
def FenceOpen (s : State) (c x : Nat) (f : FenceSt) : Prop :=
  s.now < f.notBefore ∨ f.order ≠ 0 ∧ ∃ a ∈ s.accesses, a.core = c ∧ a.ctx = x ∧ a.issued < f.issued ∧ s.now < a.perform

/-- Context `t` is context `x` of core `c` after it has stopped in this tick (R97, R271): what is in flight and the six latches are in its shadow
buffer, and a drain keeps the ticks it has left; one whose drain is over, or whose fence holds, stands at its next bundle. A buffer that
still waits for the bundle it was resumed at holds its latches already, and the tick it was caught in stays (R273, R274). -/
def stopped (s : State) (c x : Nat) (t : Ctx) : Prop :=
  let k := s.ctx c x
  let now := s.now
  t.flights = k.flights.filter (fun f => decide (f.land ≤ now))
  ∧ t.shadow = k.shadow
      ++ (if k.shadow = [] then (List.range 6).map (fun u =>
          ⟨0, 0, 0, 1, .latch u, (tget k.latch 0 u).setWidth 1024, BitVec.ofNat 1024 (2 ^ 64 - 1), 0⟩) else [])
      ++ (k.flights.filter (fun f => decide (now < f.land))).map (fun f => { f with land := f.land - now })
  ∧ t.caughtAt = (if k.shadow = [] then now else k.caughtAt)
  ∧ t.latch = [] ∧ t.g = k.g ∧ t.vs = k.vs ∧ t.v = k.v ∧ t.k = k.k ∧ t.p = k.p ∧ t.bT = k.bT ∧ t.a = k.a ∧ t.lc = k.lc ∧ t.lsw = k.lsw
  ∧ t.delta = k.delta ∧ t.e = k.e ∧ t.fmt = k.fmt ∧ t.pc = k.pc ∧ t.bud = k.bud ∧ t.qg = k.qg ∧ t.qc = k.qc ∧ t.qm = k.qm
  ∧ (match k.status with
    | .draining d => (d ≤ now → GoesOn k t.status) ∧ (now < d → t.status = .draining (d - now))
    | .fencing fs => ((∀ f ∈ fs, FenceMet s c x f) → GoesOn k t.status)
        ∧ ((∃ f ∈ fs, FenceOpen s c x f) → t.status = .fencing (fs.map (fun f => { f with notBefore := f.notBefore - now })))
    | .ready _ _ _ => t.status = k.status ∧ ((∀ f ∈ k.fenceLater, FenceMet s c x f) → t.fenceLater = [])
        ∧ ((∃ f ∈ k.fenceLater, FenceOpen s c x f) → t.fenceLater = k.fenceLater)
    | st => t.status = st)

/-- A row of the array that its owner's stop catches: one that leaves later, and one that leaves in the tick of the stop where the owner has
issued no bundle in it, which could have captured the row (R251, R253, R274; log entry 67). -/
def caughtRow (s : State) (c x : Nat) (r : RowOut) : Bool :=
  decide (s.now < r.exit ∨ r.exit = s.now ∧ ¬ ((s.core c).issuedAt = some s.now ∧ (s.core c).lastCtx = some x))

/-- A context may issue: no fence of the bundle before its wait is open, and it is in no drain and in no fence (R96, R183). -/
def MayIssue (s : State) (c x : Nat) : Prop :=
  let k := s.ctx c x
  (∀ n d b, k.status = .ready n d b → ∀ f ∈ k.fenceLater, FenceMet s c x f) ∧ (∀ d, k.status ≠ .draining d) ∧ ∀ fs, k.status ≠ .fencing fs

/-- A command counts its bytes in barrier `b` of core `d`: BAREN, BCORE and BAR of its record (R185, R191). -/
abbrev Counts (m : Cmd) (d b : Nat) : Prop :=
  m.w0.toNat.testBit 11 = true ∧ d = m.core / 8 * 8 + m.w0.toNat / 2 ^ 17 % 8 ∧ b = m.w0.toNat / 2 ^ 12 % 32

/-- A context holds the issue slot of its core (R9): it issues, or leaves ticks empty in a drain or a fence in which it was not resumed (log
entry 44). -/
def HoldsSlot (k : Ctx) : Prop :=
  k.status = .issuing ∨ k.backAt = none ∧ ((∃ d, k.status = .draining d) ∨ ∃ fs, k.status = .fencing fs)

/-- The tick in which the bundle after a draining one may issue: the last landing of a counted result, at least the next tick (R96). -/
def DrainEnd (k : Ctx) (now d : Nat) : Prop :=
  now + 1 ≤ d ∧ (∀ f ∈ k.flights, f.counted = true → f.land ≤ d) ∧ (d = now + 1 ∨ ∃ f ∈ k.flights, f.counted = true ∧ f.land = d)

/-- A beat of the array, or a drain. -/
def usesArray (i : Instr) : Prop := isBeat i = true ∨ ∃ t b ty cl a o, i = .drain t b ty cl a o

/-- The local addresses a slot accesses or is to access: of a memory form, the rows of a beat, the words of a drain, and what it pushes. -/
def Touches (s : State) (i : Instr) (a : Nat) : Prop :=
  (∃ r, memReq s i = some r ∧ a = r.addr) ∨ a ∈ mxReads s i ∨ (∃ p ∈ aqPushes s i, a = p.1)
  ∨ ∃ t b ty cl ar o j, i = .drain t b ty cl ar o ∧ j < drainWords s ty ∧ a = drainAddr s ar o + 128 * j

/-- A slot uses a port of a bank of its own scratchpad in its perform tick (R168): an MA or MB access but a timed one, atomics reading and
writing; a drain writes through MB's. -/
def UsesPort (s : State) (i : Instr) (mb : Bool) (bank : Nat) (rd wr : Bool) : Prop :=
  (∃ r, memReq s i = some r ∧ r.addr < 0x200000 ∧ r.form ≠ .va ∧ (mb = true ↔ r.u = .mb) ∧ bank = r.addr / 128 % 32
    ∧ (rd = true ↔ r.form ≠ .store) ∧ (wr = true ↔ r.form = .store ∨ r.form = .amo))
  ∨ ∃ t b ty cl a o j, i = .drain t b ty cl a o ∧ j < drainWords s ty ∧ mb = true ∧ bank = (drainAddr s a o + 128 * j) / 128 % 32
    ∧ rd = false ∧ wr = true

/-- The registers of the array and generator window: offset and bytes (R145). -/
inductive ArrayReg : Nat → Nat → Prop where
  | word : ∀ i, i < 5 → ArrayReg (4 * i) 4
  | drow : ∀ b, b < 4 → ArrayReg (0x20 + 4 * b) 4
  | arec : ArrayReg 0x30 8
  | lrec : ∀ n, n < 4 → ArrayReg (0x40 + 8 * n) 8
  | e : ∀ n, n < 8 → ArrayReg (0x100 + 32 * n) 32
  | lseed : ArrayReg 0x200 8
  | gsel : ArrayReg 0x208 4

/-- An address lies in a window of R165. -/
def Window (a : Nat) : Prop := 0x02000000 ≤ a ∧ a < 0x02000200 ∨ 0x03000000 ≤ a ∧ a < 0x07000000

/-- The windows admit an access of context `x` (R74, R142, R146, R165, R173, R175, R179). -/
def Admitted (x : Nat) (r : MReq) : Prop :=
  let a := r.addr
  let n := r.size
  let load := r.form = .load
  let plain := r.form = .store ∧ r.vec = false
  a < 0x02000200 ∧ (load ∨ r.form = .store ∧ (r.vec = true ∨ n = 8))
  ∨ 0x03000000 ≤ a ∧ a < 0x04000000 ∧ ((load ∨ r.form = .nb) ∧ a + n ≤ 0x03010100 ∨ r.form = .store ∧ r.vec = true ∧ n = 32 ∧ a < 0x03010000)
  ∨ 0x04000000 ≤ a ∧ a < 0x05000000 ∧
    ((load ∧ ∃ q o, a = 0x04000000 + 8 * q + o ∧ o + n ≤ 8 ∧ o < 8 ∧ (q < 128 ∧ q % 4 ≠ 3 ∨ 0x1F00 ≤ q ∧ q < 0x1F04))
      ∨ plain ∧ n = 8 ∧ ((∃ b, b < 32 ∧ (a = 0x04000000 + 32 * b ∨ a = 0x04000018 + 32 * b))
          ∨ (∃ p b, p < 8 ∧ b < 32 ∧ a = 0x04001018 + 0x400 * p + 32 * b) ∨ ∃ y, y < 4 ∧ a = 0x0400F800 + 8 * y)
      ∨ plain ∧ n = 4 ∧ a = 0x0400F000 + 4 * x)
  ∨ (load ∧ ∃ q b, q < 4 ∧ b < 128 ∧ a = 0x05000000 + 128 * q + b ∧ b + n ≤ 128)
  ∨ ∃ o w, ArrayReg o w ∧ (load ∧ 0x06000000 + o ≤ a ∧ a < 0x06000000 + o + w ∧ a + n ≤ 0x06000000 + o + w
      ∨ r.form = .store ∧ o < 0x200 ∧ a = 0x06000000 + o ∧ n = w ∧ (r.vec = true ↔ w = 32))

/-- A slot asks for an engine-side read or write of a bank at a tick (R139, R172, R194): on the peer path, for a timed entry, for a push. -/
def AsksSlot (s : State) (i : Instr) (d bank tick : Nat) (wr : Bool) : Prop :=
  (∃ r off, memReq s i = some r ∧ localPlace s.iss.core r.addr = some (d, off) ∧ bank = off / 128 % 32
    ∧ (r.form = .va ∧ tick = r.arg ∧ wr = true
      ∨ r.form ≠ .va ∧ 0x200000 ≤ r.addr ∧ tick = s.now + 4
        ∧ (wr = false ∧ r.form ≠ .store ∨ wr = true ∧ (r.form = .store ∨ r.form = .amo))))
  ∨ ∃ p ∈ aqPushes s i, ∃ off, localPlace s.iss.core p.1 = some (d, off) ∧ bank = off / 128 % 32 ∧ tick = s.now + 8 ∧ wr = false

/-- A store to the release word of the issuing context names bank `b` (R179). -/
def Names (s : State) (r : MReq) (b : Nat) : Prop :=
  r.form = .store ∧ r.vec = false ∧ r.size = 4 ∧ r.addr = 0x0400F000 + 4 * s.iss.ctx ∧ b < 32 ∧ r.data.getLsbD b = true

/-- Something is still to come in a bank of the own core when a release acts (R200): an engine access of the context, or a timed entry, which a
store of MA in the same bundle adds to before one of MB is judged (R172). -/
def StillUsed (s : State) (rs : List MReq) (r : MReq) (b : Nat) : Prop :=
  let c := s.iss.core
  (∃ q ∈ (s.core c).resv, q.bank = b ∧ q.cmd ≠ 0 ∧ q.core = c ∧ q.ctx = s.iss.ctx ∧ s.now + 4 ≤ q.tick)
  ∨ (∃ e ∈ (s.core c).timed, e.addr / 128 % 32 = b ∧ s.now + 4 ≤ e.vis)
  ∨ r.u = .mb ∧ ∃ q ∈ rs, q.u = .ma ∧ q.form = .va ∧ s.now + 4 ≤ q.arg ∧ ∃ off, localPlace c q.addr = some (c, off) ∧ off / 128 % 32 = b

/-- Word 0 of message buffer `b` as a bundle's packet will be captured: after the writes still to perform and those of the bundle, the last of
which that covers it counts (R176). -/
def packetHead (s : State) (rs : List MReq) (b : Nat) : Nat :=
  let pending := s.accesses.filterMap (fun a => match a.target, a.kind with
    | .msg off, .store => if a.core = s.iss.core ∧ a.ctx = s.iss.ctx then some (off, a.size, a.data.toNat) else none
    | _, _ => none)
  let own := rs.filterMap (fun r => if r.form = .store ∧ 0x02000000 ≤ r.addr ∧ r.addr < 0x02000200
    then some (r.addr - 0x02000000, r.size, r.data.toNat) else none)
  match (pending ++ own).reverse.find? (fun w => decide (w.1 ≤ 128 * b ∧ 128 * b < w.1 + w.2.1)) with
  | some w => w.2.2 / 2 ^ (8 * (128 * b - w.1)) % 2 ^ 64
  | none => (tget s.cur.msgbuf 0 (16 * b)).toNat

/-- A whole 4-byte or 8-byte register of the array window (R145). -/
def wholeReg (off n : Nat) : Prop :=
  n = 4 ∧ off % 4 = 0 ∧ (off < 0x14 ∨ 0x20 ≤ off ∧ off < 0x30) ∨ n = 8 ∧ off % 8 = 0 ∧ (off = 0x30 ∨ 0x40 ≤ off ∧ off < 0x60)

end Sys2Proof.Claims

/-- R11, R19, R74, R137, R138, R142, R146, R154, R155, R165, R166, R168, R170 to R173, R175, R176, R179, R182, R194, R199, R200: which slots
fail which check of a bundle. 4: a selector or a queue-window load that meets an empty queue, or a push beyond 64 entries. 5: an array form or
a store to an array register by a context that does not own the array. 6: a row or drain address that is misaligned or outside the
scratchpad. 7: two uses of a bank at one port kind in one tick. 8: a misaligned access. 9: an address in no region. 10: a window that does
not admit the access. 11: a bank of the own scratchpad that the context does not own. 12: a release of a bank still to be accessed. 13: an
engine-side slot that is taken, or asked for by two slots. 14: a tag that differs. 15: a not-before load too early. 16: a visible-at store too
late. 17: a seventeenth timed entry of a bank. 18: a push outside the scratchpads. 19: a packet to no core. 20: a fifth deferred signal.
The records of `e.sub` and unprepared targets have statements of their own. That the reads of one cadvp share a slot is log
entry 18, and a tag-checked load of the HCW window, an array-window load over two registers, and an unadmitted store by a context that does not
own the array are log entries 69, 81 and 82. -/
def Sys2Proof.Claims.ChecksFail : Prop :=
  ∀ (s : State) (is : List Instr), (∀ i ∈ is, ∀ t a, i ≠ .eSub t a) → NoBadWord s →
    let k := s.core s.iss.core
    let has (n : Nat) : Prop := ∃ f ∈ bundleFaults s is, f.code = n
    let asks (r : MReq) : Prop := ∃ i ∈ is, memReq s i = some r
    let rs := is.filterMap (memReq s)
    let arrives (r : MReq) : Nat := if 0x01000000 ≤ r.addr ∧ r.addr < 0x02000000 then s.now + 4 else s.now + 1
    (has 4 ↔ (∃ i ∈ is, ∃ q ∈ selsOf i, 22 ≤ q.toNat ∧ q.toNat ≤ 25 ∧ s.cur.head (q.toNat - 22) = none)
      ∨ (∃ i ∈ is, aqPushes s i ≠ [] ∧ 64 < s.cur.aqocc + (aqPushes s i).length)
      ∨ ∃ r, asks r ∧ r.form = .load ∧ 0x05000000 ≤ r.addr ∧ r.addr < 0x05000200 ∧ r.addr % 128 + r.size ≤ 128
          ∧ s.cur.head ((r.addr - 0x05000000) / 128) = none)
    ∧ (has 5 ↔ k.arrayOwner ≠ some s.iss.ctx ∧ ((∃ i ∈ is, usesArray i)
        ∨ ∃ r, asks r ∧ r.form = .store ∧ r.vec = false ∧ 0x06000000 ≤ r.addr ∧ wholeReg (r.addr - 0x06000000) r.size))
    ∧ (has 6 ↔ (∃ i ∈ is, ∃ a ∈ mxReads s i, a % 128 ≠ 0 ∨ 0x200000 ≤ a)
        ∨ ∃ i ∈ is, ∃ t b ty cl a o, i = .drain t b ty cl a o
            ∧ (drainAddr s a o % 128 ≠ 0 ∨ drainWords s ty ≠ 0 ∧ 0x200000 < drainAddr s a o + 128 * drainWords s ty))
    ∧ (has 7 ↔ (∃ i ∈ is, ∃ j ∈ is, ∃ b r r' w w', UsesPort s i false b r w ∧ UsesPort s j true b r' w' ∧ (r && r' || w && w') = true)
        ∨ (∃ p l, is.flatMap (mxReads s) = [p, l] ∧ p / 1024 % 4 = l / 1024 % 4)
        ∨ ∃ i ∈ is, ∃ a ∈ mxReads s i, ∃ j ∈ is, ∃ m r w, UsesPort s j m (a / 128 % 32) r w)
    ∧ (has 8 ↔ ∃ r, asks r ∧ r.size ≠ 0 ∧ r.addr % r.size ≠ 0)
    ∧ (has 9 ↔ ∃ r, asks r ∧ 0x200000 ≤ r.addr ∧ ¬ (0x01000000 ≤ r.addr ∧ r.addr < 0x02000200) ∧ ¬ (0x03000000 ≤ r.addr ∧ r.addr < 0x07000000))
    ∧ (has 10 ↔ ∃ r, asks r ∧ Window r.addr ∧ ¬ Admitted s.iss.ctx r)
    ∧ (has 11 ↔ ∃ i ∈ is, ∃ a, Touches s i a ∧ a < 0x200000 ∧ k.owns s.iss.ctx (a / 128 % 32) = false)
    ∧ (has 12 ↔ ∃ r b, asks r ∧ Names s r b ∧ k.owns s.iss.ctx b = true ∧ StillUsed s rs r b)
    ∧ (has 13 ↔ (∃ i ∈ is, ∃ (d b t : Nat) (w : Bool), AsksSlot s i d b t w ∧ (s.core d).slotTaken b t w = true)
        ∨ ∃ (m n : Nat) (i j : Instr) (d b t : Nat) (w : Bool), m < n ∧ is[m]? = some i ∧ is[n]? = some j ∧ AsksSlot s i d b t w ∧ AsksSlot s j d b t w)
    ∧ (has 14 ↔ ∃ r d off, asks r ∧ r.form = .tc ∧ localPlace s.iss.core r.addr = some (d, off)
        ∧ (tget (s.core d).tags 0 (off / 4096 % 512)).toNat ≠ r.arg % 2 ^ 16)
    ∧ (has 15 ↔ ∃ r, asks r ∧ r.form = .nb ∧ arrives r < r.arg)
    ∧ (has 16 ↔ ∃ r d off, asks r ∧ r.form = .va ∧ localPlace s.iss.core r.addr = some (d, off) ∧ r.arg < arrives r)
    ∧ (has 17 ↔ ∃ (n : Nat) (r : MReq) (d off : Nat), rs[n]? = some r ∧ r.form = .va ∧ localPlace s.iss.core r.addr = some (d, off)
        ∧ 16 ≤ ((s.core d).timed.filter (fun e => bankOf e.addr == bankOf off)).length
          + ((rs.take n).filter (fun q => q.form == .va && ((localPlace s.iss.core q.addr).map (fun p => (p.1, bankOf p.2)))
              == some (d, bankOf off))).length)
    ∧ (has 19 ↔ ∃ r, asks r ∧ r.form = .store ∧ (r.vec = true ∨ r.size = 8) ∧ 0x02000000 ≤ r.addr ∧ r.addr < 0x02000200
        ∧ 0x78 < r.addr % 128 + r.size
        ∧ let w := packetHead s rs ((r.addr - 0x02000000) / 128)
          w / 2 ^ 10 ≠ 0 ∨ (s.core (w % 256)).retired = true)
    ∧ (has 20 ↔ (∃ i ∈ is, ∃ u t m b, i = .signal u t m b ∨ i = .signalDrain u t m b)
        ∧ 4 ≤ (s.cur.signals.filter (fun d => decide (d.issued < s.now))).length)
    ∧ (has 18 ↔ ∃ i ∈ is, ∃ p ∈ aqPushes s i, 0x200000 ≤ p.1 ∧ ¬ (0x01000000 ≤ p.1 ∧ p.1 < 0x02000000))

/-- R9, R96, R183: a context that is chosen while its drain lasts, or a fence of its wait's bundle is open, takes the issue slot and issues
nothing: the ticks it leaves empty move the issue to no other context (log entry 44). -/
def Sys2Proof.Claims.EmptyTicks : Prop :=
  ∀ (s : State) (c x : Nat), let k := s.ctx c x
    let takes (st : CtxStatus) : Prop := ∃ t, exec (.issueWord c x) s = .next t ∧ SameMemory s t
      ∧ OnlyCtx s t c x { k with status := st, fenceLater := [], backAt := none }
    ((∃ d, k.status = .draining d) ∨ (∃ fs, k.status = .fencing fs) → takes k.status)
    ∧ ∀ n d b, k.status = .ready n d b → (∃ f ∈ k.fenceLater, FenceOpen s c x f) → takes (.fencing k.fenceLater)

/-- R9, R12, R13, R15, R106: a context that issues puts the bundle of its next word in the issue latch with the word's literal, and
pays one unit of BUD; DRN says whether the bundle drains (R96). Nothing else changes. -/
def Sys2Proof.Claims.BundleIssues : Prop :=
  ∀ (s : State) (c x : Nat), let k := s.ctx c x
    let w := tget (s.core c).imem 0 k.pc.toNat
    MayIssue s c x → k.shadow = [] → k.shadowRows = [] → k.bcast = 0 → k.ibase.toNat ≤ k.pc.toNat → k.pc.toNat < k.ibase.toNat + k.ilim.toNat →
    k.hcwValid.getLsbD (w.toNat / 128) = true → ({ s with iss := latchOf' s c x [] false }).bundleCheck k false = [] →
    ({ s with iss := latchOf' s c x [] false }).scrubFaults false = [] → NoBadWord s →
    ∃ t, exec (.issueWord c x) s = .next t ∧ SameMemory s t ∧ t.iss = latchOf' s c x slotOrder true
      ∧ t.ctx c x = { k with
          status := .issuing, backAt := none, bud := k.bud - 1, again := (0, 0), fenceLater := [], fresh := false
          drn := hdrDrain (tget k.hcw 0 (w.toNat / 128)) }
      ∧ (∀ d y, ¬ (d = c ∧ y = x) → t.ctx d y = s.ctx d y) ∧ (∀ d, d ≠ c → t.core d = s.core d)
      ∧ (t.core c).besidesCtxs = { (s.core c).besidesCtxs with lastCtx := some x, issuedAt := some s.now }
      ∧ { t.besidesCores with iss := s.iss } = s.besidesCores

/-- R13, R15, R19, R267: a word outside its context's window, an entry that is not valid, and a bundle one of whose slots fails a
check are not issued: the context has a fault in this tick, in which its core blocks for two ticks more (R9), and nothing else changes. The
word and the entry have been read, and a parity error in them is corrected from the shadow copy all the same (R341; log entry 8). -/
def Sys2Proof.Claims.BundleFaults : Prop :=
  ∀ (s : State) (c x : Nat), let k := s.ctx c x
    let w := tget (s.core c).imem 0 k.pc.toNat
    let inside := k.ibase.toNat ≤ k.pc.toNat ∧ k.pc.toNat < k.ibase.toNat + k.ilim.toNat
    let latch := { s with iss := latchOf' s c x [] false }
    let takes (f : FaultRec) : Prop := ∃ t, exec (.issueWord c x) s = .next t ∧ SameMemory s t
      ∧ t.ctx c x = { k with stops := k.stops ++ [(s.now, f)] }
      ∧ (∀ d y, ¬ (d = c ∧ y = x) → t.ctx d y = s.ctx d y) ∧ (∀ d, d ≠ c → t.core d = s.core d)
      ∧ (t.core c).besidesCtxs = { (s.core c).besidesCtxs with issueFrom := max (s.core c).issueFrom (s.now + 3) }
      ∧ t.besidesCores = s.besidesCores
    MayIssue s c x → k.shadow = [] → k.shadowRows = [] → k.bcast = 0 →
    (inside → k.hcwValid.getLsbD (w.toNat / 128) = false → ∀ b, (s.core c).bad = [b] → b.struct = 3 →
      (b.place = k.pc.toNat ∨ b.ctx = x ∧ b.place = 2 ^ 16 + w.toNat / 128) → s.secor < 2 ^ 32 - 1 →
      ∃ t, exec (.issueWord c x) s = .next t ∧ (t.core c).bad = [] ∧ t.secor = s.secor + 1)
    ∧ (NoBadWord s →
    (¬ inside → ∃ f, f.code = 2 ∧ f.kind = 0 ∧ f.addr.toNat = k.pc.toNat ∧ takes f)
    ∧ (inside → k.hcwValid.getLsbD (w.toNat / 128) = false → ∃ f, f.code = 1 ∧ f.kind = 0 ∧ takes f)
    ∧ (inside → k.hcwValid.getLsbD (w.toNat / 128) = true →
      ∀ g ∈ latch.bundleCheck k false ++ latch.scrubFaults false,
      ∃ f ∈ latch.bundleCheck k false ++ latch.scrubFaults false, f.code ≤ g.code ∧ takes f))

/-- R194, R200, R202: a bundle whose store to the release word begins a scrub of a bank, of SCRUB 1 and owned, fails with a port fault where
another of its slots asks for the write slot of that bank in a tick that the scrub takes: its 512 from four ticks on. That a scrub goes
before such a request of its own tick is the model's reading (log entry 65). -/
def Sys2Proof.Claims.ScrubsFirst : Prop :=
  ∀ (s : State), let c := s.iss.core
    let is := s.bundleSlots false
    (∀ d, c < d → s.selectCtx d = none) →
    ((∃ f ∈ s.scrubFaults false, f.code = 13) ↔ s.scrubFaults false ≠ [])
    ∧ (s.scrubFaults false ≠ [] ↔ ∃ i ∈ is, ∃ p ∈ portReqs s i, p.core = c ∧ p.write = true ∧ s.now + 4 ≤ p.tick ∧ p.tick < s.now + 516
      ∧ ∃ j ∈ is, ∃ r x m, memReq s j = some r ∧ barStoreOf s.iss.ctx r = some (none, .release x m) ∧ s.scrubs c x = true
        ∧ p.bank < 32 ∧ m.getLsbD p.bank = true ∧ (s.core c).owns x p.bank = true)

/-- R263: a member of a broadcast gang issues the word its lead has handed to it, through its own entry table, with the lead's index and
outcome, and leaves the rest of its words. -/
def Sys2Proof.Claims.MembersIssue : Prop :=
  ∀ (s : State) (c x : Nat) (b : BWord) (r : List BWord), let k := s.ctx c x
    let lit := if b.word.toNat % 128 < 64 then b.word.toNat % 128 else b.word.toNat % 128 + 2 ^ 64 - 128
    let e := tget k.hcw 0 (b.word.toNat / 128)
    let latch (left : List SlotName) (checked : Bool) : Issue :=
      ⟨c, x, b.word, BitVec.ofNat 64 lit, e, b.outcome, b.pc + 1, left, checked, none, [], none, false⟩
    MayIssue s c x → k.shadow = [] → k.shadowRows = [] → k.bcast = 2 → k.bq = b :: r → k.hcwValid.getLsbD (b.word.toNat / 128) = true →
    ({ s with iss := latch [] false }).bundleCheck k true = [] → ({ s with iss := latch [] false }).scrubFaults true = [] → NoBadWord s →
    ∃ t, exec (.issueWord c x) s = .next t ∧ SameMemory s t ∧ t.iss = latch slotOrder true
      ∧ t.ctx c x = { k with
          status := .issuing, backAt := none, bud := k.bud - 1, again := (0, 0), fenceLater := [], fresh := false, pc := b.pc
          drn := hdrDrain e, bq := r }
      ∧ (∀ d y, ¬ (d = c ∧ y = x) → t.ctx d y = s.ctx d y) ∧ (∀ d, d ≠ c → t.core d = s.core d)

/-- R263: the lead of a broadcast gang that goes on after the gang's stop issues its bundle: the words that a member on its module held count
from this tick, and the members on other modules are told by how many ticks later all theirs are (log entries 34 and 46). -/
def Sys2Proof.Claims.LeadGoesOn : Prop :=
  ∀ (s : State) (c x : Nat) (l : Launch), let k := s.ctx c x
    let w := tget (s.core c).imem 0 k.pc.toNat
    MayIssue s c x → k.lx ≠ 0 → k.shadow = [] → k.shadowRows = [] → k.bcast = 1 → k.bheld = true → s.findLaunch k.lx = some l → l.fcore = c → l.modix = 0 →
    k.ibase.toNat ≤ k.pc.toNat → k.pc.toNat < k.ibase.toNat + k.ilim.toNat → k.hcwValid.getLsbD (w.toNat / 128) = true →
    ({ s with iss := latchOf' s c x [] false }).bundleCheck k false = [] → ({ s with iss := latchOf' s c x [] false }).scrubFaults false = [] →
    NoBadWord s →
    ∃ t, exec (.issueWord c x) s = .next t ∧ SameMemory s t ∧ (t.ctx c x).bheld = false
      ∧ (∀ d ∈ l.cores, d ≠ c → (s.ctx d x).lx = k.lx → (s.ctx d x).bheld = true →
          t.ctx d x = { s.ctx d x with bheld := false, bq := (s.ctx d x).bq.map (fun b => { b with tick := b.tick + s.now }) })
      ∧ (l.nmod = 0 → t.outputs = s.outputs)
      ∧ (l.nmod ≠ 0 → t.outputs = s.outputs
          ++ [.message s.now 15 10 (BitVec.ofNat 64 (l.lid % 2 ^ 16 + (s.now - k.caughtAt) * 2 ^ 16))])

/-- R25, R27: a slot whose tag names another outcome than its bundle's does nothing. -/
def Obligations.SkippedSlots : Prop :=
  ∀ (i : Instr) (s : State), (slotOf i).isSome = true → tagOf i ≠ 0 → (tagOf i).toNat ≠ s.iss.outcome → exec i s = .next s

/-- R19, R96, R99, R103, R104, R109, R110, R183: the end of a bundle pops its queues, ends its loop, and leaves its context issuing, blocked
in its wait, held by its fences, in a drain, or halted; a trap stops it one tick later. The issue latch and the order of its slots are the
model's own (log entry 2). -/
def Sys2Proof.Claims.EndOfBundle : Prop :=
  ∀ (s : State), let k := s.cur
    let e := s.iss.entry
    let adv := if hdrLend e = 0 then ([], false) else loopAdvance s k (hdrLend e - 1)
    let k1 := { popped k (hdrPop e) with
      flights := k.flights ++ adv.1, pc := if adv.2 then tget k.lsw 0 (hdrLend e - 1) else s.iss.next }
    let t := s.finishBundle
    let u := t.ctx s.iss.core s.iss.ctx
    let ids := (s.cmds.filter (fun m => m.core == s.iss.core && m.ctx == s.iss.ctx && m.lx == k.lx && decide (m.phase < 2)))
    k.bcast = 0 →
    t.iss = Issue.reset ∧ SameMemory s t ∧ { t.besidesCores with iss := s.iss } = s.besidesCores
    ∧ (∀ d y, ¬ (d = s.iss.core ∧ y = s.iss.ctx) → t.ctx d y = s.ctx d y)
    ∧ (∀ d, { (t.core d).besidesCtxs with issueFrom := 0, bad := [] } = { (s.core d).besidesCtxs with issueFrom := 0, bad := [] })
    ∧ (s.iss.halt = true → s.iss.trap = none → u = { k1 with status := .halted })
    ∧ (s.iss.halt = false → s.iss.wait = none → s.iss.fence = [] → hdrDrain e = false →
        u = { k1 with stops := k.stops ++ (match s.iss.trap with
          | some n => [(s.now + 1, ⟨33, 3, 0, BitVec.ofNat 64 n, BitVec.ofNat 64 k.pc.toNat⟩)]
          | none => []) })
    ∧ (s.iss.halt = false → s.iss.trap = none → ∀ w, s.iss.wait = some (.cond w) →
        (¬ Met t s.iss.core s.iss.ctx w →
          u = { k1 with status := .waiting w s.now false, fenceLater := s.iss.fence } ∧ (t.core s.iss.core).issueFrom = s.now + 3)
        ∧ (Met t s.iss.core s.iss.ctx w → s.iss.fence = [] → hdrDrain e = false → u = k1))
    ∧ (s.iss.halt = false → s.iss.trap = none → ∀ cls, s.iss.wait = some (.engine cls) → (∃ m ∈ ids, m.cls = cls) →
        u = { k1 with
          status := .waiting (.engine ((ids.filter (fun m => m.cls == cls)).map (·.id))) s.now false, fenceLater := s.iss.fence })
    ∧ (s.iss.halt = false → s.iss.trap = none → s.iss.wait = none → s.iss.fence ≠ [] →
        (hdrDrain e = false → u = { k1 with status := .fencing s.iss.fence })
        ∧ (hdrDrain e = true → ∀ d, DrainEnd k1 s.now d →
            u = { k1 with status := .fencing (s.iss.fence.map (fun f => { f with notBefore := d })) }))
    ∧ (s.iss.halt = false → s.iss.trap = none → s.iss.wait = none → s.iss.fence = [] → hdrDrain e = true →
        ∀ d, DrainEnd k1 s.now d → u = if s.now + 1 < d then { k1 with status := .draining d } else k1)

/-- R263: at the end of its bundle the lead of a broadcast gang hands its word, with its index and its outcome, to every other core of the
gang on its module, to issue as many ticks later as the gang rank of that core times SKEW, and in a gang across modules sends them with its
tick, of which the message carries twelve bits, to the other modules (log entry 46). -/
def Sys2Proof.Claims.LeadHands : Prop :=
  ∀ (s : State) (l : Launch) (d : Nat), let x := s.iss.ctx
    s.cur.bcast = 1 → s.cur.lx ≠ 0 → s.findLaunch s.cur.lx = some l →
    (d ∈ l.cores → (d ≠ l.fcore ∨ l.modix ≠ 0) → (s.ctx d x).lx = s.cur.lx →
      ((s.finishBundle).ctx d x).bq = (s.ctx d x).bq
        ++ [⟨s.now + (l.modix * (l.ncore + 1) + (d - l.fcore)) * l.skew, false, s.iss.word, s.cur.pc, s.iss.outcome⟩])
    ∧ (l.nmod = 0 → (s.finishBundle).outputs = s.outputs)
    ∧ (l.nmod ≠ 0 → (s.finishBundle).outputs = s.outputs ++ [.message s.now 15 5 (BitVec.ofNat 64 (s.iss.word.toNat + s.cur.pc.toNat * 2 ^ 16
        + s.iss.outcome % 8 * 2 ^ 32 + s.now % 2 ^ 12 * 2 ^ 36 + l.lid % 2 ^ 16 * 2 ^ 48))])

/-- R19, R96, R99, R103, R104, R109, R110, R183, R263: the end of a bundle. The issue latch is the model's own (log entry 2), and so are the
messages of a gang across modules (log entry 46). Which results a drain waits for where R96 lists them in neither way is log entry 68. -/
def Obligations.BundleEnds : Prop :=
  Sys2Proof.Claims.EndOfBundle ∧ Sys2Proof.Claims.LeadHands

/-- R9, R267 to R271, R275, R342: a context takes its stop: what is in flight is caught, the record says which fault, where and when, the
supervisor has it for 512 ticks, and an event tells the host of a fault after which it goes on. A word of a scratchpad that a soft error has
spoiled is rewritten with zeros, whether its fault is the one recorded or another due in the tick. That a killed context is released at the end of
its service is read from R265 (log entry 24). -/
def Sys2Proof.Claims.StopsTaken : Prop :=
  (∀ (s : State) (c x n : Nat) (f : FaultRec) (l : Launch), let k := s.ctx c x
    k.lx ≠ 0 → k.bcast = 0 → k.service = none → k.preBy = 0 → k.stops = [(n, f)] → n ≤ s.now → s.findLaunch k.lx = some l →
    s.pauseTo ≤ s.now → k.status ≠ .halted → ¬ (f.code = 0 ∧ f.kind = 3) → f.code ≠ 34 → (f.kind = 0 → k.again = (0, 0)) →
    let a := if actionCode f.code f.kind = 2 ∧ (l.nmod ≠ 0 ∨ l.isRetry = true) then 1 else actionCode f.code f.kind
    let st := s.stream l.stream
    ∃ t, exec (.faultStop c x) s = .next t ∧ SameMemory s t ∧ stopped s c x (t.ctx c x)
      ∧ (t.ctx c x).service = some ⟨s.now, s.now, s.now + 512, a, f.code, none⟩ ∧ (t.ctx c x).stops = []
      ∧ ((s.core c).arrayOwner = some x → (t.ctx c x).shadowRows = k.shadowRows
          ++ ((s.core c).array.rows.filter (caughtRow s c x)).map (fun r => { r with exit := r.exit - s.now }))
      ∧ (t.ctx c x).record = [BitVec.ofNat 64 (f.code + f.kind * 2 ^ 8 + c * 2 ^ 10 + x * 2 ^ 18 + l.lid * 2 ^ 20),
          BitVec.ofNat 64 s.now, if f.code = 33 ∧ f.kind = 3 then f.cmd else BitVec.ofNat 64 k.pc.toNat ||| f.cmd, f.addr, f.info, 0, 0, 0]
      ∧ (∀ d y, ¬ (d = c ∧ y = x) → t.ctx d y = s.ctx d y)
      ∧ (HoldsSlot k → (t.core c).issueFrom = max (s.core c).issueFrom (s.now + 3))
      ∧ (¬ HoldsSlot k → (t.core c).issueFrom = (s.core c).issueFrom)
      ∧ (a ≠ 0 → t.hostWrites = s.hostWrites)
      ∧ (a = 0 → (st.evhead.toNat + (s.hostWrites.filter (fun w => w.stream == some l.stream)).length + 2 ^ 32 - st.evtail.toNat) % 2 ^ 32 ≠ 2 ^ st.evlog →
          ∃ w, t.hostWrites = s.hostWrites ++ [w] ∧ w.stream = some l.stream ∧ w.bytes = 16
            ∧ w.data = l.lid + 8 * 2 ^ 16 + f.code % 2 ^ 8 * 2 ^ 24 + (BitVec.ofNat 64 s.now).toNat * 2 ^ 64))
  ∧ (∀ (s : State) (c x n d off : Nat) (f : FaultRec), let k := s.ctx c x
    k.lx ≠ 0 → k.bcast = 0 → k.service = none → k.preBy = 0 → k.stops = [(n, f)] → n ≤ s.now → s.pauseTo ≤ s.now →
    f.code = 34 → f.info = 0 → localPlace c f.addr.toNat = some (d, off) → (∀ e, (s.spad e).wf = true) →
    ∃ t, exec (.faultStop c x) s = .next t ∧ t.seunc = min (2 ^ 32 - 1) (s.seunc + 1)
      ∧ (∀ e a, mread (t.spad e) a = if e = d ∧ off / 8 * 8 ≤ a ∧ a < off / 8 * 8 + 8 then 0 else mread (s.spad e) a)
      ∧ ∀ w ∈ (t.core d).bad, w.struct = 0 → w.place ≠ off / 8 * 8)
  ∧ (∀ (s : State) (c x n d off : Nat) (f : FaultRec), let k := s.ctx c x
    k.lx ≠ 0 → k.bcast = 0 → k.service = none → k.preBy = 0 → (n, f) ∈ k.stops → n ≤ s.now → s.pauseTo ≤ s.now → k.status ≠ .halted →
    (∀ p ∈ k.stops, ¬ (p.2.code = 0 ∧ p.2.kind = 3)) →
    f.code = 34 → f.info = 0 → localPlace c f.addr.toNat = some (d, off) → (∀ e, (s.spad e).wf = true) →
    ∃ t, exec (.faultStop c x) s = .next t
      ∧ (∀ a, off / 8 * 8 ≤ a → a < off / 8 * 8 + 8 → mread (t.spad d) a = 0) ∧ ∀ w ∈ (t.core d).bad, w.struct = 0 → w.place ≠ off / 8 * 8)
  ∧ ∀ (s : State) (c x n : Nat) (l : Launch), let k := s.ctx c x
    k.lx ≠ 0 → k.bcast = 0 → k.service = none → k.preBy = 0 → k.stops = [(n, ⟨0, 3, 0, 0, 0⟩)] → n ≤ s.now → s.findLaunch k.lx = some l →
    s.pauseTo ≤ s.now → k.status ≠ .halted → k.refills < l.word 19 % 65536 →
    ∃ t, exec (.faultStop c x) s = .next t ∧ SameMemory s t ∧ stopped s c x (t.ctx c x) ∧ (t.ctx c x).record = k.record
      ∧ (t.ctx c x).service = some ⟨s.now, s.now, s.now + 512, 3, 0, none⟩ ∧ (t.ctx c x).stops = []

/-- R263: a fault of one core of a broadcast gang stops all its contexts on the module in the same tick: each is served by the supervisor
and nothing of it is in flight, a member keeps its words for when the gang resumes, in ticks from the stop where the lead is on this module,
also one that the supervisor or a pre-emption has stopped already, and the other modules of the gang are told. That all stop in that tick and
that held words count from the stop is log entry 34, what the modules tell each other log entry 46. -/
def Sys2Proof.Claims.GangsStop : Prop :=
  ∀ (s : State) (c x n d : Nat) (f : FaultRec) (l : Launch), let k := s.ctx c x
    k.lx ≠ 0 → k.bcast ≠ 0 → k.service = none → k.preBy = 0 → (n, f) ∈ k.stops → n ≤ s.now → s.findLaunch k.lx = some l →
    d ∈ l.cores → (s.ctx d x).lx = k.lx →
    ∃ t, exec (.faultStop c x) s = .next t
      ∧ ((s.ctx d x).service = none → (s.ctx d x).preBy = 0 → (s.ctx d x).status ≠ .halted →
          (∃ v, (t.ctx d x).service = some v ∧ v.sigma = s.now) ∧ ∀ g ∈ (t.ctx d x).flights, g.land ≤ s.now)
      ∧ (1 ≤ (s.ctx d x).bcast → (s.ctx d x).bcast ≤ 2 → (t.ctx d x).bheld = true)
      ∧ ((s.ctx d x).bcast = 2 → (s.ctx d x).bheld = false → (t.ctx d x).bq
          = (s.ctx d x).bq.map (fun b => { b with tick := b.tick - (if l.modix = 0 then s.now else 0) }))
      ∧ (l.nmod ≠ 0 → .message s.now 15 9 (BitVec.ofNat 64 (l.lid + l.modix * 2 ^ 16)) ∈ t.outputs)

/-- R9, R263, R267 to R271, R273 to R275, R342: stops. When a killed context is released is log entry 24, which context holds the issue slot
after a resumption log entry 44, a row that leaves the array in the stop tick log entry 67, that a gang stops in one tick and holds its words
log entry 34, its messages log entry 46, and the places of soft errors log entry 8. -/
def Obligations.StopsTaken : Prop :=
  Sys2Proof.Claims.StopsTaken ∧ Sys2Proof.Claims.GangsStop

/-- R265, R273, R275: the end of service. A context that stopped at a bundle is ready at once, its caught results to land from the tick that
bundle issues; one that stopped blocked, in a drain or in a fence, one that waits for its fence after its wait too, takes them from now, with the
ticks its drain had left; a refill gives BUD again. A kill empties the context of every core of the launch and gives up its banks, posts KIND 6
with the code as DETAIL, cancels the commands not begun and releases what those and stopped ones still owe a barrier; commands that have begun
run on. That a kill takes effect 512 ticks after the stop is the model's reading of R265 and R275 (log entry 24); where a context resumed in a
drain or a fence stands is log entry 44. -/
def Obligations.ServiceEnds : Prop :=
  (∀ (s : State) (c x : Nat) (l : Launch) (v : Service), let k := s.ctx c x
    k.service = some v → v.endsAt ≤ s.now → v.owes = none → k.preBy = 0 → k.bcast = 0 → s.findLaunch k.lx = some l → (v.action = 0 ∨ v.action = 3) →
    NoBadWord s →
    let k1 := { k with
      service := none, backAt := some s.now
      bud := if v.action = 3 then BitVec.ofNat 64 (l.word 18) else k.bud, refills := if v.action = 3 then k.refills + 1 else k.refills }
    let lands := k.flights ++ k.shadow.map (fun f => { f with land := s.now + f.land })
    (k.status = .issuing →
      ∃ t, exec (.serviceEnd c x) s = .next t ∧ SameMemory s t ∧ OnlyCtx s t c x { k1 with status := .ready s.now 0 false })
    ∧ (∀ a b counts, k.status = .ready a b counts → k.fenceLater = [] →
      ∃ t, exec (.serviceEnd c x) s = .next t ∧ SameMemory s t ∧ OnlyCtx s t c x { k1 with status := .ready s.now 0 counts })
    ∧ (∀ a b counts, k.status = .ready a b counts → k.fenceLater ≠ [] → k.shadowRows = [] →
      ∃ t, exec (.serviceEnd c x) s = .next t ∧ SameMemory s t
        ∧ OnlyCtx s t c x { k1 with flights := lands, shadow := [], status := .ready s.now 0 counts })
    ∧ (∀ w n met, k.status = .waiting w n met → k.shadowRows = [] →
      ∃ t, exec (.serviceEnd c x) s = .next t ∧ SameMemory s t ∧ OnlyCtx s t c x { k1 with flights := lands, shadow := [] })
    ∧ (∀ d, k.status = .draining d → k.shadowRows = [] →
      ∃ t, exec (.serviceEnd c x) s = .next t ∧ SameMemory s t
        ∧ t.ctx c x = { k1 with flights := lands, shadow := [], status := .draining (s.now + d) })
    ∧ (∀ fs, k.status = .fencing fs → k.shadowRows = [] →
      ∃ t, exec (.serviceEnd c x) s = .next t ∧ SameMemory s t
        ∧ t.ctx c x = { k1 with
            flights := lands, shadow := [], status := .fencing (fs.map (fun f => { f with notBefore := s.now + f.notBefore })) }))
  ∧ ∀ (s : State) (c x : Nat) (l : Launch) (v : Service), let k := s.ctx c x
    k.service = some v → v.endsAt ≤ s.now → v.owes = none → k.lx ≠ 0 → s.findLaunch k.lx = some l → l.phase = 2 → l.ctxNo = x →
    c ∈ l.cores → (v.action = 1 ∨ v.action = 2) → (∀ p ∈ k.stops, p.2.code ≠ 34) →
    let gone (m : Cmd) : Prop := m.core ∈ l.cores ∧ m.ctx = x ∧ m.lx = k.lx ∧ (m.phase = 0 ∨ m.phase = 3)
    let st := s.stream l.stream
    ∃ t, exec (.serviceEnd c x) s = .next t ∧ SameMemory s t
      ∧ ((st.evhead.toNat + (s.hostWrites.filter (fun w => w.stream == some l.stream)).length + 2 ^ 32 - st.evtail.toNat) % 2 ^ 32 ≠ 2 ^ st.evlog →
          ∃ w ∈ t.hostWrites, w.stream = some l.stream ∧ w.bytes = 16
            ∧ w.data = l.lid + 6 * 2 ^ 16 + v.code % 2 ^ 8 * 2 ^ 24 + (BitVec.ofNat 64 s.now).toNat * 2 ^ 64)
      ∧ (∀ m, m ∈ t.cmds ↔ m ∈ s.cmds ∧ ¬ gone m) ∧ t.eops = s.eops
      ∧ (∀ d b, ((t.core d).barrier b).pend + ((s.cmds.filter (fun m => decide (gone m ∧ Counts m d b))).map (·.pend)).sum
          = max ((s.core d).barrier b).pend ((s.cmds.filter (fun m => decide (gone m ∧ Counts m d b))).map (·.pend)).sum)
      ∧ ∀ d ∈ l.cores, (s.ctx d x).lx = k.lx →
          (t.ctx d x).lx = 0 ∧ (t.ctx d x).status = .empty ∧ (t.ctx d x).flights = [] ∧ (t.ctx d x).hcw = [] ∧ (t.ctx d x).qm = []
          ∧ (t.core d).arrayOwner ≠ some x
          ∧ ∀ b, b < 32 → (s.core d).owns x b = true → tget (t.core d).own 0 b = x + 1
              ∧ tget (t.core d).releasing 0 b = if l.scrub then 2 else 1

/-- R9, R11 to R13, R15, R19, R74, R96, R106, R137, R138, R142, R146, R154, R165, R166, R168, R170 to R176, R179, R182, R183, R194, R199, R200,
R202, R263, R267: a bundle issues, or its context takes the fault that keeps it from issuing. The issue latch is the model's own (log entry
2); the packing of INFO is log entry 16, a scrub's precedence log entry 65, and how a gang goes on log entries 34 and 46. -/
def Obligations.BundleIssues : Prop :=
  Sys2Proof.Claims.BundleIssues ∧ Sys2Proof.Claims.BundleFaults ∧ Sys2Proof.Claims.ChecksFail ∧ Sys2Proof.Claims.ScrubsFirst
  ∧ Sys2Proof.Claims.MembersIssue ∧ Sys2Proof.Claims.LeadGoesOn ∧ Sys2Proof.Claims.EmptyTicks

/-! ## Engine commands -/

namespace Sys2Proof.Claims

/-- The commands that begin by an expansion (R186 to R189, R227, R231). -/
inductive BeginForm (s : State) (m : Cmd) : Instr → Expansion → Prop where
  | copy : BeginForm s m (.copyCommand m.id) (s.copyExpansion m)
  | gather : BeginForm s m (.gatherCommand m.id) (s.gatherExpansion m)
  | collective : BeginForm s m (.collectiveCommand m.id) (s.coeExpansion m)
  | update : BeginForm s m (.parameterUpdate m.id) (s.updateExpansion m)
  | evaluate : BeginForm s m (.circuitEvaluate m.id) (s.evalExpansion m)

/-- The forms that perform a micro-operation of a command. -/
def MoveForm (m : Cmd) (i : Instr) : Prop :=
  i = .copyCommand m.id ∨ i = .gatherCommand m.id ∨ i = .collectiveCommand m.id ∨ i = .parameterUpdate m.id ∨ i = .circuitEvaluate m.id

/-- What keeps a command from beginning (R184, R191, R194, R199, R286). -/
def beginFaults (s : State) (m : Cmd) (x : Expansion) : List FaultRec :=
  x.faults ++ (if s.pendOver m x.owed then [recFault m.recAddr 0 11] else []) ++ s.portFaults m x.uses ++ s.burstFaults x.bursts x.marks

/-- The first column tick of a copy: its begin tick and the tier's lead (R285, R286). -/
def copyCol (m : Cmd) (tier : Nat) : Nat := m.beginAt + (tmOf tier).lead

/-- Of all barriers only that of a command has another PEND, `f` of the old one (R191). -/
def PendMoves (s t : State) (m : Cmd) (f : Nat → Nat) : Prop :=
  ∀ d b, (Counts m d b → (t.core d).barrier b = { (s.core d).barrier b with pend := f ((s.core d).barrier b).pend })
    ∧ (¬ Counts m d b → (t.core d).barrier b = (s.core d).barrier b)

/-- A bank is free for one burst after another: tRP after its PRE and tRC after its ACT (R286). -/
def After (tier : Nat) (x y : Burst) : Prop := x.pre + (tmOf tier).rp ≤ y.act ∧ x.act + (tmOf tier).rc ≤ y.act

/-- Two columns of one pseudo-channel, at ticks `p` and `q`, the first a write or not, are too close (R286): one per column slot, and
the turn from reads to writes and back. -/
def TooClose (tier p q : Nat) (pw qw : Bool) : Prop :=
  p ≤ q ∧ (q < p + (tmOf tier).ccd ∨ pw ≠ qw ∧ q < p + (if pw then (tmOf tier).wtr else (tmOf tier).rtw))

/-- RAA of a bank after events in their order: 1 more at an ACT (amount 0), as much less as a refresh or a slot says (R291). -/
def raaAfter (v : Nat) (evs : List (Nat × Nat)) : Nat := evs.foldl (fun n e => if e.2 = 0 then n + 1 else n - e.2) v

/-- What the plan of a channel says of a bank before tick `t`: its refreshes go round the pseudo-channel's 16 banks, its slots follow their
entries' periods, each slot with the index of its entry (R287, R288). -/
def PlanOf (c : Channel) (bank t : Nat) (refs : List Nat) (slots : List (Nat × Nat)) : Prop :=
  (∀ r, r ∈ refs ↔ r < t ∧ ∃ k, r = (if bank < 16 then c.refAt0 else c.refAt1) + k * c.plan.refp
      ∧ ((if bank < 16 then c.rot0 else c.rot1) + k) % 16 = bank % 16)
  ∧ refs.Nodup ∧ slots.Nodup
  ∧ ∀ i r, (i, r) ∈ slots ↔ r < t ∧ ∃ next first per, (i, next) ∈ c.rfmAt ∧ c.plan.rfm[i]? = some (first, bank, per)
      ∧ ∃ k, (per = 0 → k = 0) ∧ r = next + k * per

/-- The rule of R286 by its number that a burst breaks on a channel; rule 3, the tick of PRE, is kept by the expansion itself. -/
def BreaksRule (c : Channel) (tier now : Nat) (b : Burst) (n : Nat) : Prop :=
  let near (x : Burst) : Prop := x ∈ c.bursts ∧ x.bank / 16 = b.bank / 16
  let till := b.pre + (tmOf tier).rp
  match n with
  | 1 => ∃ x ∈ c.bursts, x.bank = b.bank ∧ ¬ After tier x b ∧ ¬ After tier b x
  | 2 => ∃ x i j, near x ∧ i < b.ncol ∧ j < x.ncol
      ∧ (TooClose tier (b.c0 + i * b.pace) (x.c0 + j * x.pace) b.wr x.wr ∨ TooClose tier (x.c0 + j * x.pace) (b.c0 + i * b.pace) x.wr b.wr)
  | 4 => (∃ x, near x ∧ x.act < b.act + (tmOf tier).rrd ∧ b.act < x.act + (tmOf tier).rrd)
      ∨ ∃ w, w ≤ b.act ∧ b.act < w + (tmOf tier).faw
          ∧ 4 ≤ (c.bursts.filter (fun x => decide (x.bank / 16 = b.bank / 16 ∧ w ≤ x.act ∧ x.act < w + (tmOf tier).faw))).length
  | 5 => ∃ refs slots, PlanOf c b.bank till refs slots
      ∧ ((∃ o ∈ c.occ, o.1 = b.bank ∧ o.2.1 < till ∧ b.act < o.2.2) ∨ (∃ r ∈ refs, b.act < r + (if tier = 0 then 360 else 540))
        ∨ ∃ r ∈ slots, b.act < r.2 + (tmOf tier).rfm)
  | 6 => b.act < (if b.bank < 16 then c.winEnd0 else c.winEnd1)
      ∨ ∃ k, let w := (if b.bank < 16 then c.winAt0 else c.winAt1) + k * c.plan.hwp
          w < till ∧ b.act < w + (if tier = 0 then 128 else 192)
  | 7 => ∃ evs refs slots acts last, acts = b.act :: (c.bursts.filter (fun x => decide (x.bank = b.bank ∧ now ≤ x.act))).map (·.act)
      ∧ (∀ a ∈ acts, a ≤ last) ∧ last ∈ acts ∧ PlanOf c b.bank (last + 1) refs slots
      ∧ evs.Perm (acts.map (fun a => (a, 0)) ++ refs.map (fun r => (r, 16)) ++ slots.map (fun r => (r.2, 32)))
      ∧ evs.Pairwise (fun e f => e.1 < f.1 ∨ e.1 = f.1 ∧ (e.2 = 0 → f.2 = 0))
      ∧ ∃ done a rest, evs = done ++ (a, 0) :: rest ∧ c.raamax < raaAfter (tget c.raa 0 b.bank) done + 1
  | _ => False

/-- A state's channel with the bursts of a list that are on it accepted beside those it holds. -/
def withBursts (s : State) (bs : List (Nat × Nat × Burst)) (tier ch : Nat) : Channel :=
  { s.channel tier ch with bursts := (s.channel tier ch).bursts ++ (bs.filter (fun b => b.1 == tier && b.2.1 == ch)).map (·.2.2) }

/-- What keeps an evaluate from beginning, at its engine: another runs or has not ended before its begin tick, its object is not installed
or its LANES is 0 or above 16 (R233). -/
def EvaluateRefused (s : State) (m : Cmd) : Prop :=
  let g := s.circuit (m.core / 8)
  let obj := m.w2.toNat % 2 ^ 16
  let lanes := m.w2.toNat / 2 ^ 16 % 2 ^ 5
  g.run ≠ none ∨ m.beginAt < g.lastEnd ∨ 64 ≤ obj ∨ (∀ o, (obj, o) ∉ g.dir) ∨ lanes = 0 ∨ 16 < lanes

/-- R227, R232, R233: an evaluate that R233 refuses takes the record fault and does not begin; one that begins runs its object from the first
record with the lane flags clear, and every staged parameter whose update ended before its begin tick stands in the parameter store, no
longer pending, all others as before. -/
def EvaluatesBegin : Prop :=
  ∀ (s : State) (m : Cmd), s.findCmd m.id = some m → m.phase = 0 → m.beginAt ≤ s.now →
    let g := s.circuit (m.core / 8)
    let obj := m.w2.toNat % 2 ^ 16
    (EvaluateRefused s m → ∃ t, exec (.circuitEvaluate m.id) s = .next t ∧ SameMemory s t
      ∧ t.findCmd m.id = some { m with phase := 3, endAt := some s.now } ∧ (t.circuit (m.core / 8)).params = g.params
      ∧ (m.lx ≠ 0 → (s.ctx m.core m.ctx).lx = m.lx → ∃ f : FaultRec, f.code = 21 ∧ f.kind = 1 ∧ f.addr = BitVec.ofNat 64 m.recAddr
          ∧ t.ctx m.core m.ctx = { s.ctx m.core m.ctx with stops := (s.ctx m.core m.ctx).stops ++ [(s.now + 1, f)] }))
    ∧ (¬ EvaluateRefused s m → ∀ f ∈ (s.evalExpansion m).faults, f.code ≠ 21)
    ∧ (beginFaults s m (s.evalExpansion m) = [] → ∃ t o, exec (.circuitEvaluate m.id) s = .next t ∧ (obj, o) ∈ g.dir
      ∧ (t.circuit (m.core / 8)).run = some ⟨m.id, obj, o.hdr, 0, []⟩ ∧ (t.circuit (m.core / 8)).lflags = []
      ∧ ((g.staging.map (·.1)).Nodup → ∀ p,
          (∀ st, (p, st) ∈ g.staging → 0 < st.endsAt → st.endsAt < m.beginAt →
            tget (t.circuit (m.core / 8)).params 0 p = st.value ∧ ∀ x, (p, x) ∉ (t.circuit (m.core / 8)).staging)
          ∧ ((∀ st, (p, st) ∈ g.staging → st.endsAt = 0 ∨ m.beginAt ≤ st.endsAt) →
            tget (t.circuit (m.core / 8)).params 0 p = tget g.params 0 p
            ∧ ∀ x, (p, x) ∈ (t.circuit (m.core / 8)).staging ↔ (p, x) ∈ g.staging)))

/-- R285, R286, R288, R291: which state of a channel fails which of the seven checks; a command's bursts are checked one after another, and the first
that breaks a rule is the timing fault, with its number, channel and bank in INFO. That the fault's address is that of the first sector of
the refused burst is log entry 16. -/
def BurstsChecked : Prop :=
  (∀ (c : Channel) (tier now : Nat) (b : Burst), tier < 2 → b.bank < 32 → c.rot0 < 16 → c.rot1 < 16 → 0 < c.plan.refp → 0 < c.plan.hwp →
    (c.rfmAt.map (·.1)).Nodup →
    let n := c.breaks tier now b
    (n ≠ 0 → BreaksRule c tier now b n) ∧ ∀ k, k ≤ 7 → BreaksRule c tier now b k → n ≠ 0 ∧ n ≤ k)
  ∧ ∀ (s : State) (bs : List (Nat × Nat × Burst)) (ms : List Mark), (∀ b ∈ bs, b.1 < 2 ∧ b.2.1 < 256 ∧ b.2.2.bank < 32) →
    let bad (i tier ch : Nat) (b : Burst) : Nat := (withBursts s (bs.take i) tier ch).breaks tier s.now b
    (s.burstFaults bs ms = [] ↔ ∀ i tier ch b, bs[i]? = some (tier, ch, b) → bad i tier ch b = 0)
    ∧ ∀ i tier ch b, bs[i]? = some (tier, ch, b) → bad i tier ch b ≠ 0 → (∀ j k h x, j < i → bs[j]? = some (k, h, x) → bad j k h x = 0) →
        ∃ f, s.burstFaults bs ms = [f] ∧ f.code = 24 ∧ f.info = BitVec.ofNat 64 (ch * 32 + b.bank + bad i tier ch b * 2 ^ 16)
          ∧ (∀ m, ms.find? (fun m => m.tick == b.c0 && m.place.tier == tier && m.place.ch == ch && m.place.bank == b.bank) = some m →
              f.addr = BitVec.ofNat 64 m.addr)

/-! Translation (R203 to R207, R331) -/

/-- A field of a word of an entry. -/
def fieldOf (ws : List Word) (i lo len : Nat) : Nat := ((ws[i]?).getD 0).toNat / 2 ^ lo % 2 ^ len

/-- A range entry is in use and covers an address (R203). -/
def RangeCovers (ws : List Word) (v : Nat) : Prop := fieldOf ws 3 0 1 = 1 ∧ fieldOf ws 0 0 44 ≤ v / 4096 ∧ v / 4096 ≤ fieldOf ws 1 0 44

/-- A page covers an address (R207). -/
def PageCovers (ws : List Word) (v : Nat) : Prop := fieldOf ws 0 0 44 * 4096 ≤ v ∧ v < fieldOf ws 0 0 44 * 4096 + 4096 * 2 ^ fieldOf ws 0 44 5

/-- The first of a list's entries that covers. -/
def FirstOf (es : List (List Word)) (covers : List Word → Prop) (ws : List Word) : Prop :=
  ∃ i : Nat, es[i]? = some ws ∧ covers ws ∧ ∀ (j : Nat) (us : List Word), j < i → es[j]? = some us → ¬ covers us

/-- The ascending list L of channels of a layout (R205): the launch's own of the tier, not retired, under LAYOUT 3 those of the stack CH[2:0]. -/
def ListOf (s : State) (own : Nat → Bool) (tier layout ch : Nat) (ls : List Nat) : Prop :=
  if layout = 2 then ls = (if own ch then [ch] else [])
  else ls.Pairwise (· < ·) ∧ ∀ k, k ∈ ls ↔ k < (if tier = 0 then 256 else 128) ∧ own k = true ∧ (s.channel tier k).retired = false
      ∧ (layout = 3 → k / (if tier = 0 then 32 else 16) = ch % 8)

/-- lay() of R205: channel, bank and byte of an offset. -/
def Lay (s : State) (own : Nat → Bool) (tier layout ch off : Nat) (c b y : Nat) : Prop :=
  if layout = 4 then
    own c = true ∧ (tier = 0 → off / 2 ^ 39 % 2 = 0)
    ∧ c = (if tier = 0 then off / 2 ^ 36 % 8 * 32 + off / 2 ^ 31 % 32 else off / 2 ^ 37 % 8 * 16 + off / 2 ^ 33 % 16)
    ∧ b = (if tier = 0 then off / 2 ^ 26 else off / 2 ^ 28) % 32 ∧ y = (if tier = 0 then off % 2 ^ 26 else off % 2 ^ 28)
  else ∃ ls, ListOf s own tier layout ch ls ∧ let g := if layout = 1 then 1024 else 256
    ls[off / g % ls.length]? = some c ∧ b = off / g / ls.length % 32 ∧ y = off / g / ls.length / 32 * g + off % g
    ∧ y < (if tier = 0 then 2 ^ 26 else 2 ^ 28)

/-- The entry whose fields from bit `at'` of word `i` on are these: layout, tier, ECC mode, RO and channel. -/
def PlacedBy (s : State) (l : Launch) (layout tier tol ro ch off : Nat) (write : Bool) (p : Machine.Place) : Prop :=
  ¬ (write = true ∧ ro = 1) ∧ p.tier = tier ∧ p.mode = (if tol % 2 = 1 then tol / 2 + 1 else 0)
  ∧ Lay s (l.ownsCh tier) tier layout ch off p.ch p.bank p.byte

/-- R204: an address translates to a place: by the first valid range that covers it, else by the first page. -/
def Translates (s : State) (l : Launch) (v : Nat) (write : Bool) (p : Machine.Place) : Prop :=
  (∃ ws, FirstOf l.ranges (RangeCovers · v) ws
    ∧ PlacedBy s l (fieldOf ws 3 1 3) (fieldOf ws 3 4 1) (fieldOf ws 3 5 3) (fieldOf ws 3 8 1) (fieldOf ws 3 16 8)
        (fieldOf ws 2 0 40 + (v - fieldOf ws 0 0 44 * 4096)) write p)
  ∨ (∀ ws ∈ l.ranges, ¬ RangeCovers ws v) ∧ ∃ ws, FirstOf l.pages (PageCovers · v) ws
    ∧ PlacedBy s l (fieldOf ws 1 40 3) (fieldOf ws 1 43 1) (fieldOf ws 1 44 3) (fieldOf ws 1 47 1) (fieldOf ws 1 48 8)
        (fieldOf ws 1 0 40 + (v - fieldOf ws 0 0 44 * 4096)) write p

/-- R203 to R208, R331: what translation answers for a launch, and for a CXL.mem offset; a stream's sectors are those up to the first rejected. -/
def Translation : Prop :=
  (∀ (s : State) (l : Launch) (v : Nat) (write : Bool) (p : Machine.Place), s.xlate l v write = some p ↔ Translates s l v write p)
  ∧ (∀ (s : State) (off tier c b y : Nat), s.hostPlace off = some (tier, c, b, y) ↔
      tier = (if off < 2 ^ 39 then 0 else 1) ∧ Lay s (fun _ => true) tier 0 0 (off - tier * 2 ^ 39) c b y)
  ∧ ∀ (s : State) (m : Cmd) (l : Launch) (v n : Nat) (write : Bool), s.findLaunch m.lx = some l → v % 32 = 0 →
      let ps := s.sectors m v n write
      ps.length ≤ n ∧ (∀ (i : Nat) (p : Machine.Place), ps[i]? = some p → Translates s l ((v + 32 * i) % 2 ^ 56) write p)
      ∧ (ps.length < n → ∀ p, ¬ Translates s l ((v + 32 * ps.length) % 2 ^ 56) write p)

end Sys2Proof.Claims

/-- R184, R191, R192, R194, R199, R227, R232, R233, R286, R291: at its begin tick a command with no fault runs: its engine-side slots are taken,
its bank commands join the bursts of their channels, the bytes it owes count in its pending bytes and in PEND of the barrier its record
names, and what it is to do is set out by tick. One with a fault stops and does nothing; that it is the lowest of its faults is log entry
25. The checks of its bank commands are those of R286, in their order; the address that their fault names is log entry 16. An evaluate that
begins takes the parameters staged for it. -/
def Obligations.CommandsBegin : Prop :=
  Sys2Proof.Claims.BurstsChecked ∧ Sys2Proof.Claims.EvaluatesBegin ∧
  ∀ (s : State) (m : Cmd) (i : Instr) (x : Expansion), BeginForm s m i x → s.findCmd m.id = some m → m.phase = 0 → m.beginAt ≤ s.now →
    (beginFaults s m x = [] → ∃ t, exec i s = .next t ∧ SameMemory s t
      ∧ t.findCmd m.id = some { m with phase := 1, endAt := x.endAt, pend := m.pend + x.owed }
      ∧ t.eops = s.eops ++ x.ops
      ∧ (∀ d r, r ∈ (t.core d).resv ↔ r ∈ (s.core d).resv
          ∨ ∃ u ∈ x.uses, u.core = d ∧ r = ⟨bankOf u.off, u.tick, u.write, m.id, m.core, m.ctx⟩)
      ∧ (∀ tier ch, tier < 2 → ch < 256 → (∀ b ∈ x.bursts, b.1 < 2 ∧ b.2.1 < 256) → t.channel tier ch = withBursts s x.bursts tier ch)
      ∧ PendMoves s t m (· + x.owed) ∧ ∀ d y, t.ctx d y = s.ctx d y)
    ∧ ∀ g ∈ beginFaults s m x, ∃ t f, exec i s = .next t ∧ SameMemory s t ∧ f ∈ beginFaults s m x ∧ f.code ≤ g.code
      ∧ t.findCmd m.id = some { m with phase := 3, endAt := some s.now } ∧ t.eops = s.eops.filter (fun e => decide (e.cmd ≠ m.id))
      ∧ (m.lx ≠ 0 → (s.ctx m.core m.ctx).lx = m.lx → ∃ h : FaultRec, h.code = f.code ∧ h.kind = 1
          ∧ t.ctx m.core m.ctx = { s.ctx m.core m.ctx with stops := (s.ctx m.core m.ctx).stops ++ [(s.now + 1, h)] })

/-- R186, R285: the ticks of a copy's reads and writes. Word or sector i of a copy between scratchpads is read at B + i and
written 2 later, 6 through the peer path; with DRAM at an end the column ticks of its sectors pace it. -/
def Sys2Proof.Claims.CopyTimes : Prop :=
  ∀ (s : State) (m : Cmd), rcTimed m.c0 = false →
    let n := m.len
    let src := awAddr m.c1
    let dst := awAddr m.c2
    let sp := s.sectors m src (4 * n) false
    let dp := s.sectors m dst (4 * n) true
    let st := s.streamTiers m src (4 * n) false
    let dt := s.streamTiers m dst (4 * n) true
    let ops := (s.copyExpansion m).ops
    (awLocal m.c1 = true → awLocal m.c2 = true → ∀ j d a, j < n →
      (localPlace m.core (src + 128 * j) = some (d, a) → ⟨m.beginAt + j, m.id, .rdLocal d a 128 j 0⟩ ∈ ops)
      ∧ (localPlace m.core (dst + 128 * j) = some (d, a) →
          ⟨m.beginAt + j + (if spadSize ≤ dst then 6 else 2), m.id, .wrLocal d a 128 j 0⟩ ∈ ops))
    ∧ (awLocal m.c1 = false → awLocal m.c2 = true → src % 32 = 0 →
      let c0 := copyCol m (firstTier st)
      (∀ (i : Nat) (p : Machine.Place), sp[i]? = some p → ⟨c0 + i * paceOf st, m.id, .rdDram p.tier p.ch p.bank p.byte (i / 4) (i % 4 * 32) ((src + 32 * i) % 2 ^ 56) p.mode⟩ ∈ ops)
      ∧ ∀ j d a, j < n → localPlace m.core (dst + 128 * j) = some (d, a) →
          ⟨c0 + (4 * j + 3) * paceOf st + (tmOf (firstTier st)).rl + 2, m.id, .wrLocal d a 128 j 0⟩ ∈ ops)
    ∧ (awLocal m.c1 = false → src % 32 = 0 → sp.length < 4 * n →
        ⟨copyCol m (firstTier st) + sp.length * paceOf (st ++ if awLocal m.c2 then [] else dt), m.id, .badVa ((src + 32 * sp.length) % 2 ^ 56) false⟩ ∈ ops)
    ∧ (awLocal m.c1 = true → awLocal m.c2 = false → dst % 32 = 0 →
      let c0 := copyCol m (firstTier dt)
      (∀ j d a, j < n → localPlace m.core (src + 128 * j) = some (d, a) → ⟨c0 + 4 * j * paceOf dt - 6, m.id, .rdLocal d a 128 j 0⟩ ∈ ops)
      ∧ ∀ (i : Nat) (p : Machine.Place), dp[i]? = some p → ⟨c0 + i * paceOf dt, m.id, .wrDram p.tier p.ch p.bank p.byte (min 32 (128 * n - 32 * i)) (i / 4) (i % 4 * 32) ((dst + 32 * i) % 2 ^ 56) p.mode⟩ ∈ ops)
    ∧ (awLocal m.c1 = false → awLocal m.c2 = false → src % 32 = 0 → dst % 32 = 0 →
      let c0 := copyCol m (firstTier st)
      let pace := paceOf (st ++ dt)
      (∀ (i : Nat) (p : Machine.Place), sp[i]? = some p → ⟨c0 + i * pace, m.id, .rdDram p.tier p.ch p.bank p.byte (i / 4) (i % 4 * 32) ((src + 32 * i) % 2 ^ 56) p.mode⟩ ∈ ops)
      ∧ ∀ (i : Nat) (p : Machine.Place), dp[i]? = some p → ⟨c0 + i * pace + (tmOf (firstTier st)).rl + 8, m.id,
          .wrDram p.tier p.ch p.bank p.byte (min 32 (128 * n - 32 * i)) (i / 4) (i % 4 * 32) ((dst + 32 * i) % 2 ^ 56) p.mode⟩ ∈ ops)

/-- R186, R216: the writes of a TIMED copy into scratchpad. A word that arrives by VAT is written at VAT; one that arrives later is written at its
arrival and sets LATE, or, under STRICT, misses its deadline, and neither it nor a later word is written. -/
def Sys2Proof.Claims.TimedCopies : Prop :=
  ∀ (s : State) (m : Cmd), rcTimed m.c0 = true → awLocal m.c2 = true →
    let n := m.len
    let src := awAddr m.c1
    let dst := awAddr m.c2
    let st := s.streamTiers m src (4 * n) false
    let ops := (s.copyExpansion m).ops
    let vat := m.beginAt + m.w3.toNat / 2 ^ 48
    let strict := m.w0.toNat.testBit 9
    let arrives (j : Nat) : Nat :=
      if awLocal m.c1 then m.beginAt + j + (if spadSize ≤ dst then 6 else 2)
      else copyCol m (firstTier st) + (4 * j + 3) * paceOf st + (tmOf (firstTier st)).rl + 2
    ∀ j d a, j < n → localPlace m.core (dst + 128 * j) = some (d, a) → (strict = true → ∀ i, i < j → arrives i ≤ vat) →
      (arrives j ≤ vat → ⟨vat, m.id, .wrLocal d a 128 j 0⟩ ∈ ops)
      ∧ (vat < arrives j → strict = false → ⟨arrives j, m.id, .wrLocal d a 128 j 0⟩ ∈ ops ∧ ⟨arrives j, m.id, .late⟩ ∈ ops)
      ∧ (vat < arrives j → strict = true → ⟨arrives j, m.id, .missed (dst + 128 * j)⟩ ∈ ops
          ∧ ∀ e ∈ ops, ∀ c x k i off, e.act = .wrLocal c x k i off → i < j)

/-- R187, R285: the ticks of a gather. The index of row j is read one tick after the ACT of its first sector could be, as the lead of the
first DRAM end says; the sectors of all rows are one stream at the largest pace of their tiers; a piece of a row is written two ticks after
the last of its sectors has been read. The rows' tiers are those of the index list at B (log entry 40). -/
def Sys2Proof.Claims.GatherTimes : Prop :=
  ∀ (s : State) (m : Cmd), m.gIdx % 4 = 0 → m.gDst % 128 = 0 →
    let size := 32 * 2 ^ (m.w3.toNat / 2 ^ 16 % 8)
    let n := m.w3.toNat % 2 ^ 16
    let rows := s.gatherPlan m 0 n
    let ts := rows.flatMap (·.tiers)
    let col (i : Nat) : Nat := copyCol m (firstTier ts) + i * paceOf ts
    let ops := (s.gatherExpansion m).ops
    (∀ j d a, j < n → localPlace m.core (m.gIdx + 4 * j) = some (d, a) →
      ⟨col (j * (size / 32)) - (tmOf (firstTier ts)).lead + 1, m.id, .rdLocal d a 4 (2 ^ 24 + j) 0⟩ ∈ ops)
    ∧ (∀ j w d a g, j < n → 128 * w < size → 128 ≤ size → rows[j]? = some g → localPlace m.core (m.gDst + j * size + 128 * w) = some (d, a) →
      ⟨col (j * (size / 32) + 4 * w + 3) + (tmOf (g.tiers.headD (firstTier ts))).rl + 2, m.id,
        .wrLocal d a 128 ((j * size + 128 * w) / 128) 0⟩ ∈ ops)
    ∧ ∀ j d a g, j < n → size < 128 → rows[j]? = some g → localPlace m.core (m.gDst + j * size) = some (d, a) →
      ⟨col (j * (size / 32) + (size - 1) / 32) + (tmOf (g.tiers.headD (firstTier ts))).rl + 2, m.id,
        .wrLocal d a size (j * size / 128) (j * size % 128)⟩ ∈ ops

/-- R186, R187, R203 to R208, R216, R285, R331: the ticks of copies and gathers, of those under TIMED too, and where translation places their
sectors and a host's lines. The tier that paces a stream where nothing is mapped is log entry 49, and the tiers of a gather's rows log entry 40. -/
def Obligations.CopyTimes : Prop :=
  Sys2Proof.Claims.CopyTimes ∧ Sys2Proof.Claims.TimedCopies ∧ Sys2Proof.Claims.GatherTimes ∧ Sys2Proof.Claims.Translation

/-- R186, R191, R192, R195, R208, R216, R281: a micro-operation of a command reads bytes into its buffer, or writes bytes out of it, which then are
visible and no longer pending, in its own count and in PEND of its barrier, or leaves a frame its tag; a rejected translation and a missed deadline
stop the command; a late write sets LATE; and a command ends at its end tick. A write into a bank that is scrubbed stops the command by the
port-reservation fault and writes nothing (R194, R202; log entry 65). That a
read which races with a write finds what stands there in its tick is log entry 3, its order with the write of the bank log entry 4, the order
of micro-operations of one tick log entry 25. -/
def Obligations.EngineMoves : Prop :=
  (∀ (s : State) (m : Cmd) (i : Instr) (e : EOp) (l r : List EOp), MoveForm m i → s.findCmd m.id = some m → m.phase = 1 →
    s.eops = l ++ e :: r → e.cmd = m.id → e.tick ≤ s.now → (∀ g ∈ l, g.cmd = m.id → s.now < g.tick) → (∀ d, (s.spad d).wf = true) →
    (∀ t ch, (s.channel t ch).mem.wf = true) →
    (∀ d a n slot off, e.act = .rdLocal d a n slot off → off + n ≤ 128 → (s.core d).bad = [] →
      ∃ t u, exec i s = .next t ∧ SameMemory s t ∧ t.eops = l ++ r ∧ t.findCmd m.id = some u
        ∧ u.bytes slot off n = mreadN (engineView s d (bankOf a)) a n ∧ { u with buf := m.buf } = m)
    ∧ (∀ d a n slot off, e.act = .wrLocal d a n slot off → ¬ Scrubbed s d a →
      ∃ t, exec i s = .next t ∧ t.eops = l ++ r ∧ t.findCmd m.id = some { m with pend := m.pend - n } ∧ PendMoves s t m (· - n)
        ∧ (∀ c x, mread (t.spad c) x = if c = d ∧ a ≤ x ∧ x < a + n then BitVec.ofNat 8 (m.bytes slot off n / 256 ^ (x - a)) else mread (s.spad c) x)
        ∧ t.channels = s.channels ∧ t.hostMem = s.hostMem)
    ∧ (∀ tier ch b y slot off va mode, e.act = .rdDram tier ch b y slot off va mode → off + 32 ≤ 128 → y % 32 = 0 →
      (s.channel tier ch).errs = [] → tget (s.channel tier ch).modes 0 (chanAddr tier b y / 32) = mode →
      ∃ t u, exec i s = .next t ∧ SameMemory s t ∧ t.eops = l ++ r ∧ t.findCmd m.id = some u
        ∧ u.bytes slot off 32 = mreadN (s.channel tier ch).mem (chanAddr tier b y) 32 ∧ { u with buf := m.buf } = m)
    ∧ (∀ tier ch b y n slot off va mode, e.act = .wrDram tier ch b y n slot off va mode → y % 32 + n ≤ 32 → tier < 2 → ch < 256 →
      (s.channel tier ch).errs = [] →
      ∃ t, exec i s = .next t ∧ t.eops = l ++ r ∧ t.findCmd m.id = some { m with pend := m.pend - n } ∧ PendMoves s t m (· - n)
        ∧ (∀ x, mread (t.channel tier ch).mem x = if chanAddr tier b y ≤ x ∧ x < chanAddr tier b y + n
            then BitVec.ofNat 8 (m.bytes slot off n / 256 ^ (x - chanAddr tier b y)) else mread (s.channel tier ch).mem x)
        ∧ (∀ k h, ¬ (k = tier ∧ h = ch) → k < 2 → h < 256 → t.channel k h = s.channel k h) ∧ (∀ c x, mread (t.spad c) x = mread (s.spad c) x) ∧ t.hostMem = s.hostMem)
    ∧ (∀ d f, e.act = .setTag d f → ∃ t, exec i s = .next t ∧ SameMemory s t ∧ t.eops = l ++ r
        ∧ OnlyCore { s with eops := t.eops } t d { s.core d with
          tagPend := (s.core d).tagPend ++ [(f, BitVec.ofNat 16 m.stag, m.beginAt, m.id)] })
    ∧ ((e.act = .late ∨ (∃ va w, e.act = .badVa va w) ∨ (∃ x, e.act = .missed x)
        ∨ ∃ d a n slot off, e.act = .wrLocal d a n slot off ∧ Scrubbed s d a) → m.lx ≠ 0 → (s.ctx m.core m.ctx).lx = m.lx →
      ∃ t, exec i s = .next t ∧ SameMemory s t
        ∧ (e.act = .late → t.eops = l ++ r
            ∧ OnlyCtx { s with eops := t.eops } t m.core m.ctx { s.ctx m.core m.ctx with estat := (s.ctx m.core m.ctx).estat ||| 1 })
        ∧ (e.act ≠ .late → t.findCmd m.id = some { m with phase := 3, endAt := some s.now }
            ∧ t.eops = (l ++ r).filter (fun o => decide (o.cmd ≠ m.id))
            ∧ ∃ f : FaultRec, f.kind = 1 ∧ (∀ d y, t.ctx d y = if d = m.core ∧ y = m.ctx then
                  { s.ctx d y with stops := (s.ctx d y).stops ++ [(s.now + 1, f)] } else s.ctx d y)
              ∧ (∀ va w, e.act = .badVa va w → f.code = 26 ∧ f.addr = BitVec.ofNat 64 va ∧ f.info = if w then 1 else 0)
              ∧ (∀ d a n slot off, e.act = .wrLocal d a n slot off → f.code = 13
                  ∧ f.info = BitVec.ofNat 64 (a / 128 % 32 + s.now % 2 ^ 32 * 2 ^ 32))
              ∧ ∀ x, e.act = .missed x → f.code = 16 ∧ f.addr = BitVec.ofNat 64 x
                  ∧ f.info = BitVec.ofNat 64 (m.beginAt + m.w3.toNat / 2 ^ 48))))
  ∧ ∀ (s : State) (m : Cmd) (n : Nat), s.findCmd m.id = some m → m.phase = 1 → m.endAt = some n → n ≤ s.now →
    ∃ t, exec (.engineCommandEnd m.id) s = .next t ∧ SameMemory s t ∧ t.findCmd m.id = some { m with phase := 2 }
      ∧ (∀ g r, (s.circuit g).run = some r → r.cmd = m.id → (t.circuit g).run = none ∧ (t.circuit g).lastEnd = s.now)
      ∧ (∀ d, t.core d = s.core d) ∧ t.eops = s.eops

namespace Sys2Proof.Claims

/-- R228: a leaf as CF40: FP32 exactly, a NaN bit for bit; CF40 as it stands. -/
def LeafOf (c40 : Bool) (w v : Nat) : Prop :=
  if c40 then v = w % 2 ^ 40
  else if patNaN (tyFmt 3) w then v = w / 2 ^ 31 % 2 * 2 ^ 39 + 0x7FFF * 2 ^ 24 + w % 2 ^ 23 * 2
  else ∃ fl, ConvertOf 4 3 .rn (w % 2 ^ 32) (v, fl)

/-- R224, R225: the result of a node on the values a, b and p: one rounding to nearest-even in CF40; of the NaN operands the first in the
order a, p, b; 0 × ∞ sets NV; pmul by 1, const and out change nothing. Minus is the sign bit of its product's operand inverted. -/
def NodeOf (op a b p : Nat) (r : Nat × Flags) : Prop :=
  let f := tyFmt 4
  let minus (w : Nat) : Nat := w ^^^ 2 ^ 39
  let nan := patNaN f a || patNaN f b
  let nil (w : Nat) : Bool := !(patNaN f w) && !(patInf f w) && decide (patMag f w = 0)
  let fused (x : Nat) : Prop :=
    if nan || patNaN f p then
      r = ((nanOf f [a, p, b]).1, (nanOf f [a, p, b]).2 ||| (if patInf f a && nil p || nil a && patInf f p then flNV else 0))
    else FusedOf f .rn x p b r
  match op with
  | 2 => SumOf f .rn a b r
  | 3 => if nan then r = nanOf f [a, b] else SumOf f .rn a (minus b) r
  | 4 => ProductOf f .rn a b r
  | 5 => if nan then r = nanOf f [a, b] else r = fencode f .rn (if rankOf f a < rankOf f b then fdecode f b else fdecode f a)
  | 6 => fused a
  | 7 => fused (minus a)
  | 8 => if p = 16383 * 2 ^ 24 then r = (a, 0) else ProductOf f .rn a p r
  | 9 => r = (p, 0)
  | _ => r = (a, 0)

/-- The result of a node record in lane `k` (R223, R224, R228). -/
def NodeLane (g : Circuit) (m : Cmd) (h : List Word) (rc k : Nat) (r : Nat × Flags) : Prop :=
  let par := rc / 2 ^ 44 % 2 ^ 12
  let val (i : Nat) : Nat := (tget g.values 0 (16 * i + k)).toNat
  if rc % 16 = 1 then
    r.2 = 0 ∧ LeafOf (hdrC40 h) (if hdrC40 h then m.bytes par (8 * k) 8 else m.bytes (par / 2) (par % 2 * 64 + 4 * k) 4) r.1
  else NodeOf (rc % 16) (val (rc / 2 ^ 18 % 2 ^ 13)) (val (rc / 2 ^ 31 % 2 ^ 13)) ((tget g.params 0 par).toNat % 2 ^ 40) r

/-- R229: the container of a lane: CF40; FP32 with the lane's flags; or the logarithm to base 2 of the magnitude, for a power of two its
exponent, with the sign. -/
def ContainerOf (res x : Nat) (fl : Flags) (c : Nat) : Prop :=
  let f := tyFmt 4
  match res with
  | 0 => c = x % 2 ^ 40
  | 1 => ∃ r : Nat × Flags, ConvertOf 3 4 .rn (x % 2 ^ 40) r ∧ c = r.1 + (fl ||| r.2).toNat * 2 ^ 32
  | _ => c / 2 ^ 32 = x / 2 ^ 39 % 2 ∧ (patNaN f x = true → c % 2 ^ 32 = 0x7FC00000) ∧ (patInf f x = true → c % 2 ^ 32 = 0x7F800000)
      ∧ (patNaN f x = false → patInf f x = false → patMag f x = 0 → c % 2 ^ 32 = 0xFF800000)
      ∧ ∀ e, 0 < e → e < 2 ^ 15 - 1 → x % 2 ^ 39 = e * 2 ^ 24 →
          if e = 16383 then c % 2 ^ 32 = 0
          else Rounded (tyFmt 3) .rn (decide (e < 16383)) ((e - 16383 + (16383 - e)) * unitDen (tyFmt 3)) 1 (c % 2 ^ 32, 0)

/-- R52, R53, R189: an element of a collective from those of its ranks, in rank order: the broadcast of rank 0's; sums of integers wrap; on
floats the NaN of the lowest rank, or the tree that combines the values 2^s apart, each combination rounded. -/
def CollectiveOf (m : Cmd) (xs : List Nat) (r : Nat × Flags) : Prop :=
  let c := m.w3.toNat
  let ty := c / 2 ^ 16 % 16
  let fn := c / 2 ^ 20 % 8
  let fm := tyFmt ty
  let op : RedOp := if fn = 1 then .max else if fn = 2 then .min else .sum
  let mode : RMode := match c / 2 ^ 23 % 8 with
    | 1 => .rz
    | 2 => .ru
    | 3 => .rd
    | _ => .rn
  let ints := xs.map (toSigned 32)
  if fn = 3 then r = (xs.headD 0, 0)
  else if ty = 7 then
    r.2 = 0 ∧ (match op with
      | .sum => r.1 = (ints.foldl (· + ·) 0 % 2 ^ 32).toNat
      | .max => (∃ i ∈ ints, r.1 = (i % 2 ^ 32).toNat ∧ ∀ j ∈ ints, j ≤ i)
      | .min => (∃ i ∈ ints, r.1 = (i % 2 ^ 32).toNat ∧ ∀ j ∈ ints, i ≤ j))
  else if xs.any (patNaN fm) then r = nanOf fm xs
  else ∃ v : Nat → Nat → FV, (∀ j x, xs[j]? = some x → v 0 j = fdecode fm x)
    ∧ (∀ l j, v (l + 1) j = if 2 ^ l * (2 * j + 1) < xs.length then fdecode fm (combined op fm mode (v l (2 * j)) (v l (2 * j + 1))).1
        else v l (2 * j))
    ∧ (∀ l, xs.length ≤ 2 ^ l → r.1 = (fencode fm .rn (v l 0)).1)
    ∧ ∀ b, r.2.getLsbD b = true ↔ ∃ l j, 2 ^ l * (2 * j + 1) < xs.length ∧ (combined op fm mode (v l (2 * j)) (v l (2 * j + 1))).2.getLsbD b = true

end Sys2Proof.Claims

/-- R52, R53, R187, R189, R223 to R231, R236: what is special to an engine. An index of a gather gives its row's address and the column
ticks of its sectors, and where it is not the one the controllers accepted at B its own bank commands (log entry 40). A collective's element
combines those of its ranks, other modules' free values (log entries 11 and 15). A fused node on 0 × ∞ and a NaN is log entry 75. A step of an evaluate computes its 1 to 8 nodes in every
lane from the state before it; outputs are written out or enter QC; an update's words are staged; a page's records reach the node window
with their index tags. -/
def Obligations.EngineResults : Prop :=
  ∀ (s : State) (m : Cmd) (e : EOp) (l r : List EOp), s.findCmd m.id = some m → m.phase = 1 → s.eops = l ++ e :: r → e.cmd = m.id → e.tick ≤ s.now →
    (∀ g ∈ l, g.cmd = m.id → s.now < g.tick) →
    let g := s.circuit (clusterOf m.core)
    (∀ j was col pace, e.act = .index j was col pace →
      let size := 32 * 2 ^ (m.w3.toNat / 2 ^ 16 % 8)
      let idx := m.bytes (2 ^ 24 + j) 0 4
      let va := (m.w1.toNat % 2 ^ 56 + idx * size) % 2 ^ 56
      let ps := s.sectors m va (size / 32) false
      let tick (i : Nat) : Nat := col + i * pace
      va % size = 0 → (was ≠ 2 ^ 32 ∨ ∀ i, i < j → s.rowWhole m i = true) → (idx = was ∨ ∃ u, ({ s with eops := l ++ r }).acceptRow (burstsOf m.id pace false tick 0 none ps) = .ok u) →
      ∃ t, exec (.gatherCommand m.id) s = .next t ∧ SameMemory s t ∧ ∀ (i : Nat) (p : Machine.Place), ps[i]? = some p →
        ⟨tick i, m.id, .rdDram p.tier p.ch p.bank p.byte ((j * size + 32 * i) / 128) ((j * size + 32 * i) % 128) ((va + 32 * i) % 2 ^ 56) p.mode⟩ ∈ t.eops)
    ∧ (∀ off n, e.act = .combine off n →
      let b := if m.w3.toNat / 2 ^ 16 % 16 = 1 ∨ m.w3.toNat / 2 ^ 16 % 16 = 2 then 2 else 4
      1 ≤ n → off % 128 + n ≤ 128 → off % b = 0 → n % b = 0 → m.w3.toNat / 2 ^ 16 % 16 ∈ [1, 2, 3, 7] → m.w3.toNat / 2 ^ 23 % 8 ≤ 3 →
      (∀ i, ({ s with eops := l ++ r }).coeValues m i ≠ []) →
      ∃ t u, ∃ x : Nat → Nat × Flags, exec (.collectiveCommand m.id) s = .next t ∧ SameMemory s t ∧ t.findCmd m.id = some u
        ∧ (∀ k, k < n / b → CollectiveOf m (({ s with eops := l ++ r }).coeValues m (off / b + k)) (x k)
            ∧ u.bytes (2 ^ 20 + off / 128) (off % 128 + b * k) b = (x k).1 % 2 ^ (8 * b))
        ∧ (m.lx ≠ 0 → (s.ctx m.core m.ctx).lx = m.lx → (t.ctx m.core m.ctx).fmt
            = (s.ctx m.core m.ctx).fmt ||| (((List.range (n / b)).foldl (fun a k => a ||| (x k).2) 0).setWidth 32 <<< 16)))
    ∧ (∀ run n, e.act = .evalStep → g.run = some run → 1 ≤ n → run.rec' + n ≤ hdrNrec run.hdr → m.lanes ≤ 16 → g.bad = [] →
      let rc (i : Nat) : Nat := (tget g.nodes 0 (nodeAddr run.hdr (run.rec' + i))).toNat
      let writes (i : Nat) : Prop := 1 ≤ rc i % 16 ∧ rc i % 16 ≤ 9
      let dst (i : Nat) : Nat := rc i / 32 % 2 ^ 13
      let out (i : Nat) : Nat := rc i / 2 ^ 44 % 2 ^ 12
      (∀ i, i < n → (tget g.tags (BitVec.allOnes 20) (nodeAddr run.hdr (run.rec' + i))).toNat = run.rec' + i) →
      (∀ i, i + 1 < n → (rc i).testBit 4 = false) → ((rc (n - 1)).testBit 4 = true ∨ run.rec' + n = hdrNrec run.hdr) →
      (∀ i j, i < n → j < n → i ≠ j → (writes i → writes j → dst i ≠ dst j) ∧ (rc i % 16 = 10 → rc j % 16 = 10 → out i ≠ out j)) →
      ∃ t run2, ∃ x : Nat → Nat → Nat × Flags, exec (.circuitEvaluate m.id) s = .next t ∧ SameMemory s t
        ∧ (t.circuit (clusterOf m.core)).run = some run2 ∧ run2.rec' = run.rec' + n
        ∧ (∀ i k, i < n → k < m.lanes → NodeLane g m run.hdr (rc i) k (x i k))
        ∧ (∀ i k, i < n → writes i → k < m.lanes → tget (t.circuit (clusterOf m.core)).values 0 (16 * dst i + k) = BitVec.ofNat 64 (x i k).1)
        ∧ (∀ j k, k < 16 → (m.lanes ≤ k ∨ ∀ i, i < n → writes i → dst i ≠ j) →
            tget (t.circuit (clusterOf m.core)).values 0 (16 * j + k) = tget g.values 0 (16 * j + k))
        ∧ (∀ i k, i < n → rc i % 16 = 10 → k < m.lanes → tget run2.outs 0 (16 * out i + k) = BitVec.ofNat 64 (x i k).1)
        ∧ ∀ k, k < m.lanes → tget (t.circuit (clusterOf m.core)).lflags 0 k = (List.range n).foldl (fun a i => a ||| (x i k).2) (tget g.lflags 0 k))
    ∧ (∀ run k d a, e.act = .evalOut k d a → g.run = some run → m.lanes ≤ 16 → (∀ c, (s.spad c).wf = true) →
      (d ≠ 256 → ¬ Scrubbed s d a → ∃ t, ∃ x : Nat → Nat, exec (.circuitEvaluate m.id) s = .next t
        ∧ (∀ h, h < m.lanes → ContainerOf m.res (tget run.outs 0 (16 * k + h)).toNat (tget g.lflags 0 h) (x h))
        ∧ (∀ h, h < 16 → mreadN (t.spad d) (a + 8 * h) 8 = if h < m.lanes then x h % 2 ^ 64 else 0)
        ∧ (∀ c y, ¬ (c = d ∧ a ≤ y ∧ y < a + 128) → mread (t.spad c) y = mread (s.spad c) y))
      ∧ (d = 256 → m.lx ≠ 0 → (s.ctx m.core m.ctx).lx = m.lx → let c := s.ctx m.core m.ctx
        (c.qc.length + c.qcPend.length < 16 → ∃ t w, ∃ x : Nat → Nat, exec (.circuitEvaluate m.id) s = .next t ∧ SameMemory s t
          ∧ t.ctx m.core m.ctx = { c with qcPend := c.qcPend ++ [⟨s.now + 4, w⟩] }
          ∧ ∀ h, h < 16 → (h < m.lanes → ContainerOf m.res (tget run.outs 0 (16 * k + h)).toNat (tget g.lflags 0 h) (x h))
              ∧ w.toNat / 2 ^ (64 * h) % 2 ^ 64 = if h < m.lanes then x h % 2 ^ 64 else 0)
        ∧ (16 ≤ c.qc.length + c.qcPend.length → ∃ t f, exec (.circuitEvaluate m.id) s = .next t ∧ SameMemory s t
          ∧ t.ctx m.core m.ctx = { c with stops := c.stops ++ [(s.now + 1, f)] } ∧ f.code = 28 ∧ f.kind = 1)))
    ∧ (∀ slot first n, e.act = .stage slot first n → n ≤ 16 →
      ∃ t, exec (.parameterUpdate m.id) s = .next t ∧ SameMemory s t
        ∧ (∀ k, k < n → tget (t.circuit (clusterOf m.core)).staging ⟨0, 0, 0⟩ (first + k) = ⟨BitVec.ofNat 64 (m.bytes slot (8 * k) 8), m.id, m.endAt.getD 0⟩)
        ∧ (t.circuit (clusterOf m.core)).params = g.params)
    ∧ (∀ base win j n slot off, e.act = .landRecords base win j n slot off → 1 ≤ win → n ≤ win →
      (∀ o ∈ l ++ r, o.cmd = m.id → o.tick ≤ s.now → o.act.isPage = true → ∃ b w i k x y, o.act = .landRecords b w i k x y) →
      ∃ t, exec (.pageFetch m.id) s = .next t ∧ SameMemory s t ∧ t.eops = l ++ r
        ∧ ∀ k, k < n → tget (t.circuit (clusterOf m.core)).nodes 0 (base + (j + k) % win) = BitVec.ofNat 64 (m.bytes slot (off + 8 * k) 8)
          ∧ (tget (t.circuit (clusterOf m.core)).tags 0 (base + (j + k) % win)).toNat = (j + k) % 2 ^ 20)

/-! ## Cellar engines -/

namespace Sys2Proof.Claims

/-- A J register's value. -/
def jv (e : Cellar) (a : BitVec 3) : Nat := (tget e.j 0 a.toNat).toNat

/-- The engine of the present step becomes `e`; nothing else changes. -/
def withCel (s : State) (e : Cellar) : State :=
  { s with channels := tput s.channels s.ceCh { s.channel 0 s.ceCh with cellar := e } }

/-- An engine after an instruction of duration `d` has started (R300). -/
def celAfter (s : State) (d : Nat) : Cellar := { s.cel with cpc := s.cel.cpc + 1, nextAt := s.now + d, count := s.cel.count + 1 }

/-- The scalar and control forms, and those on whole accumulator sets (R300, R301, R303), with the engine each leaves. -/
inductive CellarForm (s : State) : Instr → Cellar → Prop where
  | nop : ∀ n, CellarForm s (.ceNop n) (celAfter s (max 1 n.toNat))
  | jset : ∀ d i, CellarForm s (.ceJset d i) { celAfter s 1 with j := tput s.cel.j d.toNat (BitVec.ofInt 32 i.toInt) }
  | jadd : ∀ d a i, CellarForm s (.ceJadd d a i)
      { celAfter s 1 with j := tput s.cel.j d.toNat (BitVec.ofInt 32 ((jv s.cel a : Int) + i.toInt)) }
  | bnzEnd : ∀ d t, jv s.cel d = 1 → CellarForm s (.ceBnz d t) { celAfter s 1 with j := tput s.cel.j d.toNat 0 }
  | bnz : ∀ d t, jv s.cel d ≠ 1 → CellarForm s (.ceBnz d t) { celAfter s 1 with
      j := tput s.cel.j d.toNat (BitVec.ofNat 32 (jv s.cel d + 2 ^ 32 - 1)), cpc := t.toNat }
  | cfmt : ∀ w a c, CellarForm s (.ceCfmt w a c) { celAfter s 1 with wty := w.toNat, aty := a.toNat, ecc := c.toNat }
  | clr : ∀ m, CellarForm s (.ceClr m) { celAfter s 1 with
      pend := s.cel.pend ++ ((List.range 8).filter (fun c => m.getLsbD c)).map (fun c => ⟨s.now + 1, s.now, 3, c, 0, 0⟩) }
  | scl : ∀ a m, CellarForm s (.ceScl a m) { celAfter s 2 with
      pend := s.cel.pend ++ ((List.range 8).filter (fun c => m.getLsbD c)).flatMap (fun c => (List.range 64).map (fun i =>
        let d : Int := if jv s.cel a % 256 < 128 then jv s.cel a % 256 else (jv s.cel a % 256 : Nat) - 256
        let r := fMul fmtF .rn (fdecode fmtF (tget s.cel.acc 0 (64 * c + i)).toNat) (scaleG d)
        ⟨s.now + 2, s.now, 0, 64 * c + i, BitVec.ofNat 32 r.1, r.2⟩)) }
  | wait : ∀ a m, s.celCmd = some m → CellarForm s (.ceWait a) (celAfter s (max 1 (m.beginAt + jv s.cel a - s.now)))

/-- An area at a local address of the submitting core, own or peer, whose word `i` stands at offset `(place i).2` of core `(place i).1`, may
be used in the ticks `tick i` of its words: it is aligned and inside the scratchpads, its banks are owned where it is the core's own, and its
engine-side slots are free (R165, R194, R199, R298, R308). -/
def AreaReady (s : State) (m : Cmd) (a words : Nat) (place : Nat → Nat × Nat) (tick : Nat → Nat) (write : Bool) : Prop :=
  a % 128 = 0
  ∧ ∀ i, i < words → localPlace m.core (a + 128 * i) = some (place i)
      ∧ (a + 128 * i < spadSize → (s.ctx m.core m.ctx).lx = m.lx ∧ (s.core m.core).owns m.ctx (bankOf (a + 128 * i)) = true)
      ∧ (s.core (place i).1).slotTaken (bankOf (place i).2) (tick i) write = false

/-- Word `x` ranks above word `y`: as int32 in integer mode, and as FP32 else, where greater is better, −0 ties with +0, and a NaN ranks below
every other value, −∞ too, and above none (R306). -/
def RanksAbove (int : Bool) (x y : BitVec 32) : Prop :=
  if int = true then y.toInt < x.toInt
  else elemNaN fmtF x.toNat = false ∧ (elemNaN fmtF y.toNat = true ∨ elemKey fmtF y.toNat < elemKey fmtF x.toNat)

/-- The words of set `c` in the order of R306, by the first `k` of its elements' indices: best first, of equal words the lower index first,
and none left out that goes before one taken. -/
def Ranking (e : Cellar) (c : BitVec 3) (ids : List Nat) : Prop :=
  let word (i : Nat) : BitVec 32 := tget e.acc 0 (64 * c.toNat + i)
  let above (i j : Nat) : Prop := RanksAbove (e.wty == 1 && e.aty == 1) (word i) (word j)
  let before (i j : Nat) : Prop := above i j ∨ ¬ above j i ∧ i < j
  (∀ i ∈ ids, i < 64) ∧ ids.Nodup
  ∧ (∀ (p q i j : Nat), p < q → ids[p]? = some i → ids[q]? = some j → before i j)
  ∧ ∀ j, j < 64 → j ∉ ids → ∀ i ∈ ids, before i j

/-- The bytes `out.T` writes for a word (R307): element type and width. -/
def outType (ty : BitVec 3) : Nat × Nat := if ty = 1 then (1, 16) else if ty = 2 then (2, 16) else if ty = 3 then (0, 8) else (3, 32)

/-- A command's engine-side write of a result word at its place. -/
def ResultOp (s : State) (m : Cmd) (place : Nat → Nat × Nat) (i n data : Nat) : EOp :=
  ⟨s.now + 40 + 2 * i, m.id, .ceWrite (place i).1 (place i).2 (min 128 (n - 128 * i)) (BitVec.ofNat 1024 (data / 2 ^ (1024 * i) % 2 ^ (8 * min 128 (n - 128 * i))))⟩

/-- PEND of a command's barrier has room for `n` bytes more (R191). -/
def PendRoom (s : State) (m : Cmd) (n : Nat) : Prop := ∀ d b, Counts m d b → ((s.core d).barrier b).pend + n < 2 ^ 36

/-- R304, R305: the dot product of `n` weights and activations of types WTY and ATY (0 .d8, 1 .i8): the exact integer where both are .i8, else
the exact sum rounded once to FP32, special operands by R50. -/
def DotOf (wty aty n : Nat) (w q : Nat → Nat) (v : BitVec 32) (fl : Flags) : Prop :=
  let ty (c : Nat) : Nat := if c = 0 then 0 else 5
  if wty = 1 ∧ aty = 1 then
    v = BitVec.ofInt 32 ((List.range n).foldl (fun acc k => acc + toSigned 8 (w k) * toSigned 8 (q k)) 0) ∧ fl = 0
  else ColumnOf (ty wty) (ty aty) n n none w q [v] fl

/-- Byte `k` of a list of 128-byte words. -/
def byteOf (ws : List VWord) (k : Nat) : Nat := elem ((ws[k / 128]?).getD 0).toNat 8 (k % 128)

end Sys2Proof.Claims

/-- R304, R305: a row read that performs turns the 1,024 bytes of its row into results: of `wdot` one dot product for each buffer, of `psc`
one score for each block of the row whose element is below 64. -/
def Sys2Proof.Claims.RowResults : Prop :=
  ∀ (s : State) (ch : Nat) (r : CeRow), ch < 256 → r.row < 2 ^ 16 → r.bank < 32 → (s.channel 0 ch).errs = [] → (∀ b ∈ r.bufs, b.length = 8) →
    r.bufs ≠ [] → r.width ∈ [0, 32, 64, 128] →
    (∀ i, i < 32 → tget (s.channel 0 ch).modes 0 ((chanAddr 0 r.bank (r.row * 1024) + 32 * i) / 32) = r.ecc) →
    let byte (k : Nat) : Nat := (mread (s.channel 0 ch).mem (chanAddr 0 r.bank (r.row * 1024) + k)).toNat
    let t := s.ceReadRow ch r
    ∃ new : List CePend, SameMemory s t
      ∧ (t.channel 0 ch).cellar = { (s.channel 0 ch).cellar with
          rows := dropEq r (s.channel 0 ch).cellar.rows, pend := (s.channel 0 ch).cellar.pend ++ new }
      ∧ (r.width = 0 → new.length = r.bufs.length ∧ ∀ (j : Nat) (p : CePend), new[j]? = some p →
          p.land = r.land ∧ p.start = r.start ∧ p.key = 64 * j + r.e
          ∧ p.how = (if r.add then (if r.wty = 1 ∧ r.aty = 1 then 2 else 1) else 0)
          ∧ DotOf r.wty r.aty 1024 byte (byteOf ((r.bufs[j]?).getD [])) p.value p.flags)
      ∧ (r.width ≠ 0 → new.length = min (1024 / r.width) (64 - r.e) ∧ ∀ (j : Nat) (p : CePend), new[j]? = some p →
          p.land = r.land ∧ p.start = r.start ∧ p.key = 64 * r.set + r.e + j ∧ p.how = 0
          ∧ DotOf r.wty r.aty r.width (fun k => byte (j * r.width + k)) (byteOf ((r.bufs[0]?).getD [])) p.value p.flags)

/-- R300, R302, R304: results that are due land in their elements: a word replaces the old one, is added to it with one rounding, or is added
and clamped; a set becomes zero; flags stay in CFLG. Of two for one element the one that started first lands first. Bytes of `ald` reach
their buffer. -/
def Sys2Proof.Claims.CellarLands : Prop :=
  (∀ (e : Cellar) (t : Nat), (e.landDue t).pend = e.pend.filter (fun p => decide (t < p.land))
      ∧ (e.landDue t).abPend = e.abPend.filter (fun p => decide (t < p.land)))
  ∧ (∀ (e : Cellar) (p : CePend) (t : Nat), p.land ≤ t →
      let f := { e with pend := [p], abPend := [] }.landDue t
      (∀ k, (p.how ≤ 2 ∧ k ≠ p.key ∨ 3 ≤ p.how ∧ k / 64 ≠ p.key) → tget f.acc 0 k = tget e.acc 0 k)
      ∧ (p.how = 0 → tget f.acc 0 p.key = p.value ∧ f.cflg = e.cflg ||| p.flags)
      ∧ (p.how = 1 → ∃ r, SumOf fmtF .rn (tget e.acc 0 p.key).toNat p.value.toNat r
          ∧ (tget f.acc 0 p.key).toNat = r.1 ∧ f.cflg = e.cflg ||| p.flags ||| r.2)
      ∧ (p.how = 2 → let x := (tget e.acc 0 p.key).toInt + p.value.toInt
          (tget f.acc 0 p.key).toInt = max (-2 ^ 31) (min (2 ^ 31 - 1) x)
          ∧ f.cflg = e.cflg ||| p.flags ||| (if x < -2 ^ 31 ∨ 2 ^ 31 - 1 < x then flOF else 0))
      ∧ (p.how = 3 → ∀ k, k / 64 = p.key → tget f.acc 0 k = 0))
  ∧ (∀ (e : Cellar) (p q : CePend) (t : Nat), p.land ≤ t → q.land ≤ t → p.start < q.start →
      let one := { e with pend := [p], abPend := [] }.landDue t
      let two := { one with pend := [q] }.landDue t
      { e with pend := [p, q], abPend := [] }.landDue t = two ∧ { e with pend := [q, p], abPend := [] }.landDue t = two)
  ∧ (∀ (e : Cellar) (p : AbPend) (t : Nat), p.land ≤ t → p.pos % 128 + p.n ≤ 128 →
      let f := { e with pend := [], abPend := [p] }.landDue t
      (∀ w, w ≠ p.pos / 128 → tget f.ab 0 w = tget e.ab 0 w)
      ∧ ∀ i, i < 128 → elem (tget f.ab 0 (p.pos / 128)).toNat 8 i =
          if p.pos % 128 ≤ i ∧ i < p.pos % 128 + p.n then elem p.value.toNat 8 (i - p.pos % 128) else elem (tget e.ab 0 (p.pos / 128)).toNat 8 i)
  ∧ ∀ (c : Channel) (now : Nat), (c.tick now).cellar = c.cellar.landDue (now + 1)

/-- R300, R301, R303: the scalar and control forms of a cellar engine, and those on whole sets. -/
def Obligations.CellarRegisters : Prop :=
  ∀ (i : Instr) (s : State) (e : Cellar), CellarForm s i e → exec i s = .next (withCel s e)

/-- R300, R302, R304 to R307: the forms that move bytes, at their start. `ald` reads its 1,024 bytes, a word every second tick, from
the submitting core's scratchpad or a peer's (R298); a row instruction books its
row, to be read 32 ticks later, with the buffers it meets; `ptop` and `out` write their words from 40 ticks on. The tick in which a frame
takes its tag is log entry 26. -/
def Sys2Proof.Claims.CellarStarts : Prop :=
  ∀ (s : State) (m : Cmd), s.celCmd = some m →
    (∀ b a place, AreaReady s m (m.w2.toNat % 2 ^ 32 + jv s.cel a) 8 place (fun i => s.now + 2 * i) false → jv s.cel a % 128 = 0 →
      ∃ t, exec (.ceAld b a) s = .next t ∧ SameMemory s t ∧ t.cel = celAfter s 64
        ∧ t.eops = s.eops ++ (List.range 8).map (fun i => ⟨s.now + 2 * i, m.id,
            .ceRead s.ceCh (place i).1 (place i).2 128 (1024 * b.toNat + 128 * i) (s.now + 64)⟩))
    ∧ (∀ i a bufs width set e add d land,
      ((∃ b s1 f, (i = .ceWdot a b s1 f ∧ add = false ∨ i = .ceWdotAdd a b s1 f ∧ add = true) ∧ width = 0 ∧ set = 0 ∧ e = f.toNat
          ∧ bufs = (List.range (s1.toNat + 1)).map (fun j => (List.range 8).map (fun w => tget s.cel.ab 0 (8 * ((b.toNat + j) % 8) + w)))
          ∧ d = max 7 ((32 * (s1.toNat + 1) + 4) / 5) ∧ land = s.now + 32 + d)
        ∨ (∃ b c f w, i = .cePsc a b c f w ∧ width = 32 * 2 ^ w.toNat ∧ set = c.toNat ∧ e = f.toNat ∧ add = false
          ∧ bufs = [(List.range 8).map (fun w => tget s.cel.ab 0 (8 * b.toNat + w))] ∧ d = 7 ∧ land = s.now + 39)) →
      jv s.cel a < 2 ^ 21 →
      let burst : Burst := ⟨m.id, jv s.cel a % 32, jv s.cel a / 32, s.now, s.now + 56, s.now, 0, 1, false⟩
      (s.channel 0 s.ceCh).breaks 0 s.now burst = 0 →
      ∃ t, exec i s = .next t ∧ SameMemory s t ∧ t.eops = s.eops
        ∧ t.cel = { celAfter s d with rows := s.cel.rows
            ++ [⟨m.id, s.now + 32, s.now, land, jv s.cel a % 32, jv s.cel a / 32, bufs, s.cel.wty, s.cel.aty, s.cel.ecc, width, set, e, add⟩] }
        ∧ (t.channel 0 s.ceCh).bursts = (s.channel 0 s.ceCh).bursts ++ [burst])
    ∧ (∀ c k1 d f place, let a := m.w2.toNat / 2 ^ 32 + jv s.cel f
      let n := 4 * (k1.toNat + 1)
      AreaReady s m a ((n + 127) / 128) place (fun i => s.now + 40 + 2 * i) true → jv s.cel f % 128 = 0 → PendRoom s m n →
      ∃ t ids, exec (.cePtop c k1 d f) s = .next t ∧ SameMemory s t ∧ Ranking s.cel c ids ∧ ids.length = k1.toNat + 1
        ∧ t.cel = celAfter s (40 + 2 * ((n + 127) / 128))
        ∧ t.eops = s.eops ++ (List.range ((n + 127) / 128)).map (fun i => ResultOp s m place i n (packElems 32 (ids.map (fun j => jv s.cel d + j))))
        ∧ (s.findCmd m.id = some m → t.findCmd m.id = some { m with pend := m.pend + n } ∧ PendMoves s t m (· + n)))
    ∧ ∀ c f ty z place, let a := m.w2.toNat / 2 ^ 32 + jv s.cel f
      let n := if ty = 4 then 4 else 8 * (outType ty).2
      let word (i : Nat) : Nat × Flags := convert (outType ty).1 3 .rn (tget s.cel.acc 0 (64 * c.toNat + i)).toNat
      let data := if ty = 4 then s.cel.cflg.toNat else packElems (outType ty).2 ((List.range 64).map (fun i => (word i).1))
      let fl : Flags := if ty = 4 then 0 else (List.range 64).foldl (fun a i => a ||| (word i).2) 0
      ty.toNat < 6 → AreaReady s m a ((n + 127) / 128) place (fun i => s.now + 40 + 2 * i) true → jv s.cel f % 128 = 0 → PendRoom s m n →
      ∃ t, exec (.ceOut c f ty z) s = .next t ∧ SameMemory s t
        ∧ t.cel = { celAfter s (40 + 2 * ((n + 127) / 128)) with
            cflg := s.cel.cflg ||| fl, pend := s.cel.pend ++ (if z = 1 then [⟨s.now + 1, s.now, 3, c.toNat, 0, 0⟩] else []) }
        ∧ t.eops = s.eops ++ (List.range ((n + 127) / 128)).map (fun i => ResultOp s m place i n data)
        ∧ (s.findCmd m.id = some m → t.findCmd m.id = some { m with pend := m.pend + n } ∧ PendMoves s t m (· + n))

/-- R165, R194, R199, R298, R300, R302, R304 to R308: the cellar forms that move bytes, from and to the submitting core's scratchpad and its
peers', the order in which `ptop` ranks its words, the results of a row, and their landing. Which write takes a frame's tag is log entry 26. -/
def Obligations.CellarTraffic : Prop :=
  Sys2Proof.Claims.CellarStarts ∧ Sys2Proof.Claims.RowResults ∧ Sys2Proof.Claims.CellarLands

/-- R190, R297, R298: a cellar launch begins on its engines with fresh state, J0 and J1 set and CPC at its entry; `end` stops an engine, and
the launch ends in that tick when no engine of it runs and none of its writes is to come. A read of a launch fills its activation buffer, a
write of it reaches the scratchpad, the last one into a frame with its tag. A write that meets the scrub of its bank stops the
launch with code 13 and writes nothing (log entry 65). That rows and pending results of an earlier program still land after a new launch is log
entry 26. -/
def Obligations.CellarLaunches : Prop :=
  (∀ (s : State) (m : Cmd) (l : Launch), s.findCmd m.id = some m → m.phase = 0 → m.beginAt ≤ s.now → s.findLaunch m.lx = some l →
    m.ch + m.nch ≤ 256 → (∀ i, i < m.nch → l.ownsCh 0 (m.ch + i) = true ∧ (s.channel 0 (m.ch + i)).cellar.cmd = 0) →
    ∃ t, exec (.cellarLaunch m.id) s = .next t ∧ SameMemory s t ∧ t.findCmd m.id = some { m with phase := 1, endAt := none }
      ∧ (∀ i, i < m.nch → let e := (s.channel 0 (m.ch + i)).cellar
          t.channel 0 (m.ch + i) = { s.channel 0 (m.ch + i) with cellar := { Cellar.reset with
            prog := e.prog, pend := e.pend, abPend := e.abPend, rows := e.rows, cpc := m.w1.toNat / 2 ^ 16 % 128, cmd := m.id, nextAt := s.now
            j := [(0, BitVec.ofNat 32 m.w3.toNat), (1, BitVec.ofNat 32 i)] } })
      ∧ (∀ ch, ch < 256 → (ch < m.ch ∨ m.ch + m.nch ≤ ch) → t.channel 0 ch = s.channel 0 ch) ∧ t.cores = s.cores)
  ∧ (∀ (s : State) (m : Cmd), s.celCmd = some m → m.id ≠ 0 →
      ∃ t, exec .ceEnd s = .next t ∧ SameMemory s t ∧ t.cel = { s.cel with cmd := 0, cpc := s.cel.cpc + 1, count := s.cel.count + 1 }
        ∧ ((∀ p ∈ t.channels, p.2.cellar.cmd ≠ m.id) → (∀ e ∈ s.eops, e.cmd ≠ m.id) →
            t.findCmd m.id = some { m with endAt := some s.now }))
  ∧ ∀ (s : State) (m : Cmd) (e : EOp) (l r : List EOp), s.findCmd m.id = some m → m.phase = 1 → s.eops = l ++ e :: r → e.cmd = m.id → e.tick ≤ s.now →
      (∀ g ∈ l, g.cmd = m.id → s.now < g.tick) → m.w0.toNat.testBit 10 = false → (∀ c, (s.spad c).wf = true) →
      (∀ ch d a n pos land, e.act = .ceRead ch d a n pos land → (s.core d).bad = [] →
        ∃ t, exec (.cellarLaunch m.id) s = .next t ∧ SameMemory s t ∧ t.eops = l ++ r
          ∧ (t.channel 0 ch).cellar = { (s.channel 0 ch).cellar with abPend := (s.channel 0 ch).cellar.abPend
              ++ [⟨land, pos, n, BitVec.ofNat 1024 (mreadN (engineView s d (bankOf a)) a n)⟩] })
      ∧ (∀ d a n data, e.act = .ceWrite d a n data → (s.core d).bad = [] → Scrubbed s d a → m.lx ≠ 0 → (s.ctx m.core m.ctx).lx = m.lx →
        ∃ t f, exec (.cellarLaunch m.id) s = .next t ∧ f.code = 13 ∧ (s.now + 1, f) ∈ (t.ctx m.core m.ctx).stops
          ∧ (∃ u : Cmd, t.findCmd m.id = some u ∧ u.phase = 3) ∧ SameMemory s t)
      ∧ ∀ d a n data, e.act = .ceWrite d a n data → (s.core d).bad = [] → ¬ Scrubbed s d a →
        ∃ t, exec (.cellarLaunch m.id) s = .next t ∧ t.eops = l ++ r ∧ (∃ u : Cmd, t.findCmd m.id = some u ∧ u.pend = m.pend - n)
          ∧ PendMoves s t m (· - n)
          ∧ (m.id ≠ 0 → (∀ p ∈ s.channels, p.2.cellar.cmd ≠ m.id) →
              (∀ g ∈ l ++ r, g.cmd = m.id → ∀ c x k v, g.act = .ceWrite c x k v → ¬ (c = d ∧ x / 4096 % 512 = a / 4096 % 512)) →
              (t.core d).tagPend = (s.core d).tagPend ++ [(a / 4096 % 512, BitVec.ofNat 16 m.stag, m.beginAt, m.id)])
          ∧ ∀ c x, mread (t.spad c) x = if c = d ∧ a ≤ x ∧ x < a + n then BitVec.ofNat 8 (data.toNat / 256 ^ (x - a)) else mread (s.spad c) x

/-! ## Main memory, the host, and command streams -/

namespace Sys2Proof.Claims

/-- A pseudo-channel's own fields: refresh rotation, the next refresh, the refresh debt, the next window and the end of the last. -/
def rotOf (c : Channel) (pc : Nat) : Nat := if pc = 0 then c.rot0 else c.rot1
def refreshAt (c : Channel) (pc : Nat) : Nat := if pc = 0 then c.refAt0 else c.refAt1
def debtOf (c : Channel) (pc : Nat) : Int := if pc = 0 then c.debt0 else c.debt1
def windowAt (c : Channel) (pc : Nat) : Nat := if pc = 0 then c.winAt0 else c.winAt1
def windowEnd (c : Channel) (pc : Nat) : Nat := if pc = 0 then c.winEnd0 else c.winEnd1

/-- `t` is `s` but for one channel, now `c`. -/
def OnlyChannel (s t : State) (tier ch : Nat) (c : Channel) : Prop :=
  t = { s with channels := tput s.channels (tier * 256 + ch) c }

/-- What a refresh of the next bank of a rotation changes beside the time of the next one (R288 to R291). -/
def Refreshed (c d : Channel) (tier pc at' : Nat) : Prop :=
  let bank := pc * 16 + rotOf c pc
  d.occ = c.occ ++ [(bank, at', at' + (if tier = 0 then 360 else 540))]
  ∧ (∀ b, tget d.raa 0 b = if b = bank then tget c.raa 0 b - 16 else tget c.raa 0 b)
  ∧ debtOf d pc = max (-8) (debtOf c pc - 1) ∧ rotOf d pc = (rotOf c pc + 1) % 16
  ∧ debtOf d (1 - pc) = debtOf c (1 - pc) ∧ rotOf d (1 - pc) = rotOf c (1 - pc)

/-- A channel but for what a refresh changes. -/
def besidesRefresh (c : Channel) : Channel :=
  { c with occ := [], raa := [], debt0 := 0, debt1 := 0, rot0 := 0, rot1 := 0, refAt0 := 0, refAt1 := 0, forced := [] }

/-- A burst after the cut of its bank at tick `x`: no column from `x` on, and the bank closes at `x` (R290, R292). -/
def CutAt (b d : Burst) (x : Nat) : Prop :=
  d = { b with ncol := d.ncol, pre := x } ∧ d.ncol ≤ b.ncol ∧ ∀ i, i < b.ncol → (i < d.ncol ↔ b.c0 + i * b.pace < x)

/-- The first address of the row of an index that lies in a bank (R187, R204). -/
def RowIn (s : State) (m : Cmd) (idx tier ch bank v : Nat) : Prop :=
  let size := 32 * 2 ^ (m.w3.toNat / 2 ^ 16 % 8)
  let at' (i : Nat) : Nat := (m.w1.toNat % 2 ^ 56 + idx * size + 32 * i) % 2 ^ 56
  let in' (i : Nat) : Prop := ∃ l p, s.findLaunch m.lx = some l ∧ Translates s l (at' i) false p ∧ p.tier = tier ∧ p.ch = ch ∧ p.bank = bank
  ∃ i, i < size / 32 ∧ v = at' i ∧ in' i ∧ ∀ j, j < i → ¬ in' j

/-- A command's first access to a bank that is still to come is at address `a`: a sector's, else that of a gather's row whose index is still
to be read; 0 where it has none. -/
def FirstTo (s : State) (id tier ch bank a : Nat) : Prop :=
  let to' (e : EOp) (v : Nat) : Prop := e.cmd = id ∧ ((∃ y sl o md, e.act = .rdDram tier ch bank y sl o v md)
    ∨ ∃ y n sl o md, e.act = .wrDram tier ch bank y n sl o v md)
  let row (e : EOp) (v : Nat) : Prop := e.cmd = id ∧ ∃ j idx c p m, e.act = .index j idx c p ∧ idx < 2 ^ 32 ∧ s.findCmd id = some m
    ∧ RowIn s m idx tier ch bank v
  let firstOf (q : EOp → Nat → Prop) : Prop := ∃ l e r, s.eops = l ++ e :: r ∧ q e a ∧ ∀ f ∈ l, ∀ v, ¬ q f v
  let noneOf (q : EOp → Nat → Prop) : Prop := ∀ f ∈ s.eops, ∀ v, ¬ q f v
  firstOf to' ∨ noneOf to' ∧ (firstOf row ∨ noneOf row ∧ a = 0)

/-- The one burst `b` of its bank is cut in this tick, or taken out where its ACT is still to come; the command it belongs to stops, and its
context takes a fault of a code and INFO word (R192, R290, R292). -/
def Cuts (s t : State) (tier ch : Nat) (b : Burst) (code info : Nat) : Prop :=
  (∀ x y, (s.channel tier ch).bursts = x ++ b :: y → (∀ e ∈ x ++ y, e.bank ≠ b.bank) →
    ∃ v, CutAt b v s.now ∧ (t.channel tier ch).bursts = x ++ (if b.act < s.now then [v] else []) ++ y)
  ∧ ∀ m, s.findCmd b.cmd = some m → m.phase ≠ 3 → m.lx ≠ 0 → (s.ctx m.core m.ctx).lx = m.lx →
    t.findCmd b.cmd = some { m with phase := 3, endAt := some s.now } ∧ ∃ a, FirstTo s b.cmd tier ch b.bank a
      ∧ t.ctx m.core m.ctx = { s.ctx m.core m.ctx with
          stops := (s.ctx m.core m.ctx).stops ++ [(s.now + 1, ⟨code, 1, BitVec.ofNat 64 a, BitVec.ofNat 64 info, m.recWord⟩)] }

/-- A bank is open or occupied in some tick of a window that begins now (R293). -/
def busyBank (c : Channel) (tier now b : Nat) : Bool :=
  let w := if tier = 0 then 128 else 192
  c.bursts.any (fun x => x.bank == b && decide (x.act < now + w) && decide (now < x.pre + (if tier = 0 then 32 else 48)))
  || c.occ.any (fun o => o.1 == b && decide (o.2.1 < now + w) && decide (now < o.2.2))

/-- The lines of a queue that a window serves, by place: of the banks free for it, the first line of each, and no more than four (R293). -/
def servedOf (busy : Nat → Bool) (q : List HostLine) : List Nat :=
  ((List.range q.length).filter (fun i => match q[i]? with
    | some h => !(busy h.bank) && (q.take i).all (fun g => g.bank != h.bank)
    | none => false)).take 4

/-- The columns of the j-th line served by a window at `w`, and its ACT and PRE (R293). -/
def lineCols (tier w j : Nat) (h : HostLine) : List (Nat × HostLine) :=
  let t := w + (if tier = 0 then 8 * j + 32 else 12 * j + 48)
  [(t, h), (t + (if tier = 0 then 1 else 3),
    { h with byte := h.byte + 32, off := h.off + 32, data := h.data.map (fun (v : BitVec 512) => v >>> (256 : Nat)) })]
def lineBank (tier w j : Nat) (h : HostLine) : Burst :=
  let t := w + (if tier = 0 then 8 * j else 12 * j)
  ⟨0, h.bank, h.byte / 1024, t, t + (if tier = 0 then 65 else 99), t + (if tier = 0 then 32 else 48), 2, if tier = 0 then 1 else 3, h.data.isSome⟩

/-- No stream is enabled: events without a launch go nowhere (R327). -/
def Quiet (s : State) : Prop := ∀ q, q < 4 → (s.stream q).en = false

/-- The bits of a sector that a mode's check bits cover (R294). -/
def covers (mode i : Nat) : Prop := mode = 0 ∨ mode = 1 ∧ 3 ≤ i % 8 ∨ mode = 2 ∧ 7 ≤ i % 16 ∨ mode = 3 ∧ 10 ≤ i % 16

/-- A context's span of a B register meets a word (R91). -/
def spanMeets (k : Ctx) (b a : Nat) : Bool := k.bV.getLsbD b && decide ((a + 65536 - (tget k.bT 0 b).toNat) % 65536 < 16)

end Sys2Proof.Claims

/-- R288 to R293, R342: what a controller does by its plan: refreshes, refresh management and host windows; the debt count, forced
refreshes of a closed bank, reports of disturbed rows, the temperature class, and the patrol scrub of channels without errors. -/
def Sys2Proof.Claims.ControllerEvents : Prop :=
  ∀ (s : State) (tier ch pc : Nat), let c := s.channel tier ch
    pc < 2 →
    (refreshAt c pc ≤ s.now → ∃ d, exec (.refresh tier ch pc) s = .next { s with channels := tput s.channels (tier * 256 + ch) d }
      ∧ Refreshed c d tier pc s.now ∧ refreshAt d pc = refreshAt c pc + c.plan.refp ∧ refreshAt d (1 - pc) = refreshAt c (1 - pc)
      ∧ d.forced = c.forced ∧ besidesRefresh d = besidesRefresh c)
    ∧ (∀ i n x b per l r, c.rfmAt = l ++ (i, n) :: r → n ≤ s.now → c.plan.rfm[i]? = some (x, b, per) →
      (∀ p ∈ l, p.1 ≠ i ∧ ∀ e, c.plan.rfm[p.1]? = some e → e.2.1 = b → s.now < p.2) →
      ∃ d, exec (.refreshManagement tier ch b) s = .next { s with channels := tput s.channels (tier * 256 + ch) d }
        ∧ d.occ = c.occ ++ [(b, s.now, s.now + (if tier = 0 then 200 else 300))]
        ∧ (∀ k, tget d.raa 0 k = if k = b then tget c.raa 0 k - 32 else tget c.raa 0 k)
        ∧ (per ≠ 0 → tget d.rfmAt 0 i = n + per) ∧ (per = 0 → ∀ p ∈ d.rfmAt, p.1 ≠ i)
        ∧ { d with occ := c.occ, raa := c.raa, rfmAt := c.rfmAt } = c)
    ∧ (∀ n l r, c.forced = l ++ (pc, n) :: r → n ≤ s.now → (∀ f ∈ l, f.1 ≠ pc ∨ s.now < f.2) → c.bursts = [] →
      (∀ f ∈ c.late, f.1 / 16 = pc → s.now < f.2) →
      ∃ d, exec (.forcedRefresh tier ch pc) s = .next { s with channels := tput s.channels (tier * 256 + ch) d }
        ∧ Refreshed c d tier pc s.now ∧ d.forced = l ++ r ∧ d.refAt0 = c.refAt0 ∧ d.refAt1 = c.refAt1 ∧ besidesRefresh d = besidesRefresh c)
    ∧ (∃ d, exec (.debtInterval tier ch pc) s = .next { s with channels := tput s.channels (tier * 256 + ch) d }
        ∧ debtOf d pc = min 8 (debtOf c pc + 1) ∧ debtOf d (1 - pc) = debtOf c (1 - pc)
        ∧ d.forced = c.forced ++ (if debtOf c pc = 7 then [(pc, s.now + 1)] else [])
        ∧ { d with debt0 := c.debt0, debt1 := c.debt1, forced := c.forced } = c)
    ∧ (∀ row corrupt b, c.bursts = [] → c.dlog.length < 65535 →
      ∃ d, exec (.disturbReport tier ch b row corrupt) s = .next { s with channels := tput s.channels (tier * 256 + ch) d }
        ∧ d.dlog = c.dlog ++ [(b, row, corrupt)]
        ∧ d.occ = c.occ ++ [(b, s.now, s.now + (if tier = 0 then 32 else 48) + 400)] ∧ { d with dlog := c.dlog, occ := c.occ } = c)
    ∧ (∀ hot, tier < 2 → ∃ t, exec (.temperatureClassChange tier ch hot) s = .next t
        ∧ (∀ k, k < 256 → t.channel tier k = if k / (if tier = 0 then 32 else 16) = ch then { s.channel tier k with cls := hot } else s.channel tier k)
        ∧ { t with channels := s.channels } = s)
    ∧ (c.errs = [] ∨ c.idle = false ∨ c.winEnd0 ≤ s.now ∧ c.winEnd1 ≤ s.now → exec (.dramPatrolScrub tier ch) s = .next s)
    ∧ (windowAt c pc ≤ s.now → (∀ o ∈ c.hostOps, o.2.bank / 16 = pc → s.now < o.1) →
      let q := c.queue pc
      let served := servedOf (busyBank c tier s.now) q
      let lines := served.filterMap (fun i => q[i]?)
      ∃ d, exec (.hostWindow tier ch pc) s = .next { s with channels := tput s.channels (tier * 256 + ch) d }
        ∧ windowAt d pc = windowAt c pc + c.plan.hwp ∧ windowEnd d pc = s.now + (if tier = 0 then 128 else 192)
        ∧ d.queue pc = ((List.range q.length).filter (fun i => !(served.contains i))).filterMap (fun i => q[i]?)
        ∧ d.hostOps = c.hostOps ++ lines.zipIdx.flatMap (fun p => lineCols tier s.now p.2 p.1)
        ∧ d.bursts = c.bursts ++ lines.zipIdx.map (fun p => lineBank tier s.now p.2 p.1)
        ∧ windowAt d (1 - pc) = windowAt c (1 - pc) ∧ d.queue (1 - pc) = c.queue (1 - pc) ∧ d.mem = c.mem)

/-- R288, R290 to R292: a forced refresh that finds its bank open closes it first and follows tRP later; bank commands of the bank are cut,
here and after a report of a disturbed row, with codes 25 and 30; and in the 512 ticks before S a closed bank with RAA has a
refresh-management slot, of which the tick is a reading (log entry 50). -/
def Sys2Proof.Claims.ControllerCuts : Prop :=
  ∀ (s : State) (tier ch pc : Nat), let c := s.channel tier ch
    pc < 2 →
    let bank := pc * 16 + rotOf c pc
    let rp := if tier = 0 then 32 else 48
    let rfc := if tier = 0 then 360 else 540
    (∀ n l r x b y, c.forced = l ++ (pc, n) :: r → n ≤ s.now → (∀ f ∈ l, f.1 ≠ pc ∨ s.now < f.2) → (∀ f ∈ c.late, f.1 / 16 = pc → s.now < f.2) →
      c.bursts = x ++ b :: y → (∀ e ∈ x ++ y, e.bank ≠ bank) → b.bank = bank → s.now ≤ b.pre →
      (b.act < s.now → ∃ t, exec (.forcedRefresh tier ch pc) s = .next t ∧ Cuts s t tier ch b 25 (ch % 2 ^ 32 + bank % 2 ^ 32 * 2 ^ 32)
        ∧ let d := t.channel tier ch
          d.occ = c.occ ++ [(bank, s.now, s.now + rp + rfc)] ∧ d.late = c.late ++ [(bank, s.now + rp)] ∧ d.forced = l ++ r
          ∧ rotOf d pc = (rotOf c pc + 1) % 16 ∧ d.raa = c.raa ∧ debtOf d pc = debtOf c pc ∧ d.mem = c.mem)
      ∧ (s.now ≤ b.act → b.act < s.now + rfc → ∃ t, exec (.forcedRefresh tier ch pc) s = .next t
        ∧ Cuts s t tier ch b 25 (ch % 2 ^ 32 + bank % 2 ^ 32 * 2 ^ 32)
        ∧ Refreshed c (t.channel tier ch) tier pc s.now ∧ (t.channel tier ch).forced = l ++ r ∧ (t.channel tier ch).mem = c.mem))
    ∧ (∀ n l r b, c.late = l ++ (b, n) :: r → n ≤ s.now → b / 16 = pc → (∀ f ∈ l, f.1 / 16 = pc → s.now < f.2) →
      ∃ d, exec (.forcedRefresh tier ch pc) s = .next { s with channels := tput s.channels (tier * 256 + ch) d }
        ∧ (∀ k, tget d.raa 0 k = if k = b then tget c.raa 0 k - 16 else tget c.raa 0 k) ∧ debtOf d pc = max (-8) (debtOf c pc - 1)
        ∧ debtOf d (1 - pc) = debtOf c (1 - pc) ∧ d.late = l ++ r ∧ { d with raa := c.raa, debt0 := c.debt0, debt1 := c.debt1, late := c.late } = c)
    ∧ (∀ row corrupt x b y, c.bursts = x ++ b :: y → (∀ e ∈ x ++ y, e.bank ≠ b.bank) → s.now ≤ b.pre → b.act < s.now + rp + 400 →
      ∃ t, exec (.disturbReport tier ch b.bank row corrupt) s = .next t ∧ Cuts s t tier ch b 30 (ch % 2 ^ 32 + row % 2 ^ 32 * 2 ^ 32)
        ∧ (t.channel tier ch).dlog = (if c.dlog.length < 65535 then c.dlog ++ [(b.bank, row, corrupt)] else c.dlog)
        ∧ (t.channel tier ch).occ = c.occ ++ [(b.bank, s.now, s.now + rp + 400)] ∧ (t.channel tier ch).mem = c.mem)
    ∧ ∀ n k l r b, c.handAt = some n → n ≤ s.now → c.raa = l ++ (b, k) :: r → k ≠ 0 → (∀ p ∈ l, p.1 ≠ b) →
      (∀ p ∈ c.rfmAt, ∀ e, c.plan.rfm[p.1]? = some e → e.2.1 = b → s.now < p.2) →
      (∀ x ∈ c.bursts, x.bank = b → s.now < x.act ∨ x.pre + rp ≤ s.now) → (∀ o ∈ c.occ, o.1 = b → o.2.2 = o.2.1 + (if tier = 0 then 200 else 300) → s.now < o.2.1 ∨ o.2.2 ≤ s.now) →
      ∃ d, exec (.refreshManagement tier ch b) s = .next { s with channels := tput s.channels (tier * 256 + ch) d }
        ∧ d.occ = c.occ ++ [(b, s.now, s.now + (if tier = 0 then 200 else 300))]
        ∧ (∀ i, tget d.raa 0 i = if i = b then tget c.raa 0 i - 32 else tget c.raa 0 i) ∧ { d with occ := c.occ, raa := c.raa } = c

/-- R294, R295, R341, R342: what an access finds in a sector that was written in its own mode, by the bits that are flipped in it; and what a
patrol scrub makes of one it corrects or cannot correct. How the covered bits of a tolerant mode fall into symbols is log entry 52, and that
a corrected place counts in one list of recent corrections is log entry 8. -/
def Sys2Proof.Claims.SectorErrors : Prop :=
  (∀ (c : Channel) (tier bank byte mode : Nat), mode < 4 →
    let n := chanAddr tier bank byte / 32
    let v := mreadN c.mem (32 * n) 32
    let e := tget c.errs 0 n
    let hit (k : Nat) : Prop := ∃ i, i < 288 ∧ i / 8 = k ∧ e.getLsbD i = true
    tget c.modes 0 n = mode →
    (e = 0 → c.decodeSector tier bank byte mode = (some v, false))
    ∧ (mode = 0 → ∀ j, hit j → (∀ k, hit k → k = j) → c.decodeSector tier bank byte mode = (some v, true))
    ∧ (mode = 0 → ∀ i j, i ≠ j → hit i → hit j → (∀ k, hit k → k = i ∨ k = j) → c.decodeSector tier bank byte mode = (none, false))
    ∧ (mode ≠ 0 → e ≠ 0 → (∀ i, i < 288 → e.getLsbD i = true → i < 256 ∧ ¬ covers mode i) →
        c.decodeSector tier bank byte mode = (some (v ^^^ e.toNat), false))
    ∧ (mode ≠ 0 → ∀ i j, i < 256 → j < 256 → covers mode i → covers mode j →
        (∀ k, k < 288 → (e.getLsbD k = true ↔ k = i ∨ k = j)) → c.decodeSector tier bank byte mode = (some v, true)))
  ∧ ∀ (s : State) (tier ch i : Nat) (e : BitVec 288), tier < 2 →
    let c := s.channel tier ch
    let at' := 32 * i
    let bytes := if tier = 0 then 2 ^ 26 else 2 ^ 28
    let r := c.decodeSector tier (at' / bytes) (at' % bytes) (tget c.modes 0 i)
    let place : Word := BitVec.ofNat 64 at'
    c.idle = true → (s.now < c.winEnd0 ∨ s.now < c.winEnd1) → c.errs = [(i, e)] → s.seunc < 2 ^ 32 - 1 → s.secor < 2 ^ 32 - 1 →
    (r.1 = none → Quiet s → exec (.dramPatrolScrub tier ch) s = .next { s with seunc := s.seunc + 1 })
    ∧ (r.1 = none → ∀ q, q < 4 → (s.stream q).en = true → (∀ p, p < 4 → p ≠ q → (s.stream p).en = false) →
        exec (.dramPatrolScrub tier ch) s = .next ({ s with seunc := s.seunc + 1 }.post q 0 14 5 place))
    ∧ (r.1 ≠ none → r.2 = false → exec (.dramPatrolScrub tier ch) s = .next s)
    ∧ (r.1 ≠ none → r.2 = true → c.cecnt < 65535 →
        let s1 : State := { s with channels := tput s.channels (tier * 256 + ch) { c with cecnt := c.cecnt + 1 }, secor := s.secor + 1 }
        (s.fixes = [] → exec (.dramPatrolScrub tier ch) s = .next { s1 with fixes := [(tier * 256 + ch, 0, 5, place, s.now)] })
        ∧ ∀ m n q, s.fixes = [(tier * 256 + ch, 0, 5, place, m), (tier * 256 + ch, 0, 5, place, n)] → s.now < m + 2 ^ 32 → s.now < n + 2 ^ 32 →
          q < 4 → (s.stream q).en = true → (∀ p, p < 4 → p ≠ q → (s.stream p).en = false) →
          exec (.dramPatrolScrub tier ch) s = .next ({ s1 with fixes := [] }.post q 0 14 5 place))

/-- R288 to R295, R342: what a controller does by its plan and beyond it, with the commands it cuts; what errors do to a sector. The
packing of a record's INFO is log entry 16, the hand-over's slots log entry 50, that a window takes no line whose bank is occupied in some tick of
it log entry 51, the symbols of a sector log entry 52, and the list of recent corrections log entry 8; each is the model's choice. -/
def Obligations.DramTimeline : Prop :=
  Sys2Proof.Claims.ControllerEvents ∧ Sys2Proof.Claims.ControllerCuts ∧ Sys2Proof.Claims.SectorErrors

/-- R219, R254, R255, R293, R295, R330, R331, R341, R342: what the host does to memory. A line waits in its channel's queue, and is offered again where
that is full; the completion of a write is returned as it is accepted; in its column tick a sector of it is written or answered, poisoned
where it is uncorrectable; a device write completes in host memory, counts in EVHEAD and raises its stream's vector; a store to the command
window keeps its word, and word 63 closes the packet; an event is lost when its ring is full. That a full queue's access is offered again in the
next tick is log entry 5, the list of recent corrections and the report of an uncorrectable sector log entry 8, and the vector that a completed
event raises log entry 54; each is the model's choice. -/
def Obligations.HostAccesses : Prop :=
  (∀ (s : State) (off : Nat) (i : Instr) (data : Option (BitVec 512)),
    (i = .hostMemRead off ∧ data = none ∨ ∃ v, i = .hostMemWrite off v ∧ data = some v) →
    (s.hostPlace (off / 64 * 64) = none → exec i s = .next { s with outputs := s.outputs ++ [.unsupported s.now (off / 64 * 64)] })
    ∧ ∀ tier ch b y, s.hostPlace (off / 64 * 64) = some (tier, ch, b, y) →
      let c := s.channel tier ch
      (16 ≤ (c.queue (b / 16)).length → exec i s = .next { s with inputs := s.inputs ++ [(s.now + 1, i)] })
      ∧ ((c.queue (b / 16)).length < 16 →
        ∃ d, exec i s = .next { s with
            channels := tput s.channels (tier * 256 + ch) d
            outputs := s.outputs ++ (if data.isSome then [.accepted s.now (off / 64 * 64)] else []) }
          ∧ d.queue (b / 16) = c.queue (b / 16) ++ [⟨s.now, off / 64 * 64, b, y, data⟩]
          ∧ { d with hostQ0 := c.hostQ0, hostQ1 := c.hostQ1 } = c ∧ (b / 16 = 0 → d.hostQ1 = c.hostQ1) ∧ (b / 16 ≠ 0 → d.hostQ0 = c.hostQ0)))
  ∧ (∀ (s : State) (tier ch pc n : Nat) (h : HostLine) (l r' : List (Nat × HostLine)), let c := s.channel tier ch
    c.hostOps = l ++ (n, h) :: r' → n ≤ s.now → h.bank / 16 = pc → (∀ o ∈ l, o.2.bank / 16 = pc → s.now < o.1) →
    let a := chanAddr tier h.bank h.byte / 32 * 32
    let r := c.decodeSector tier h.bank h.byte 0
    (h.data = none → r.1 ≠ none → r.2 = false →
      exec (.hostWindow tier ch pc) s = .next { s with
        channels := tput s.channels (tier * 256 + ch) { c with hostOps := l ++ r' }
        outputs := s.outputs ++ [.line s.now h.off (r.1.getD 0) false] })
    ∧ (h.data = none → r.1 = none → s.seunc < 2 ^ 32 - 1 →
      let s1 : State := { s with channels := tput s.channels (tier * 256 + ch) { c with hostOps := l ++ r' }, seunc := s.seunc + 1 }
      (Quiet s → exec (.hostWindow tier ch pc) s = .next { s1 with outputs := s.outputs ++ [.line s.now h.off 0 true] })
      ∧ ∀ q, q < 4 → (s.stream q).en = true → (∀ p, p < 4 → p ≠ q → (s.stream p).en = false) →
          exec (.hostWindow tier ch pc) s = .next { s1.post q 0 14 5 (BitVec.ofNat 64 a) with outputs := s.outputs ++ [.line s.now h.off 0 true] })
    ∧ (h.data = none → r.1 ≠ none → r.2 = true → c.cecnt < 65535 → s.secor < 2 ^ 32 - 1 → s.fixes = [] →
      exec (.hostWindow tier ch pc) s = .next { s with
        channels := tput s.channels (tier * 256 + ch) { c with hostOps := l ++ r', cecnt := c.cecnt + 1 }
        secor := s.secor + 1
        fixes := [(tier * 256 + ch, 0, 5, BitVec.ofNat 64 a, s.now)]
        outputs := s.outputs ++ [.line s.now h.off (r.1.getD 0) false] })
    ∧ ∀ v, h.data = some v → c.mem.wf = true → ∃ d, exec (.hostWindow tier ch pc) s = .next { s with
        channels := tput s.channels (tier * 256 + ch) d
        performed := s.performed ++ [h.acc] }
      ∧ d.hostOps = l ++ r' ∧ tget d.errs 0 (a / 32) = 0 ∧ tget d.modes 0 (a / 32) = 0
      ∧ ∀ b, mread d.mem b = if a ≤ b ∧ b < a + 32 then BitVec.ofNat 8 (v.toNat / 256 ^ (b - a)) else mread c.mem b)
  ∧ (∀ (s : State) (w : HostWrite) (q : Nat) (r : List HostWrite), s.hostWrites = w :: r → w.stream = some q → s.hostMem.wf = true →
    ∃ t, exec .deviceWriteCompletion s = .next t ∧ t.hostWrites = r
      ∧ (∀ a, mread t.hostMem a = if w.addr ≤ a ∧ a < w.addr + w.bytes then BitVec.ofNat 8 (w.data / 256 ^ (a - w.addr)) else mread s.hostMem a)
      ∧ t = { s with
          hostWrites := r, hostMem := t.hostMem, streams := tput s.streams q { s.stream q with evhead := (s.stream q).evhead + 1 }
          outputs := s.outputs ++ [.interrupt s.now q] })
  ∧ (∀ (s : State) (q k n size : Nat) (v : Word) (i : Instr), let st := s.stream q
    (i = .packetWordWrite q k n size v ∨ i = .packetClose q k v ∧ n = 63 ∧ size = 8) →
    ((size ≠ 8 ∨ ∃ p ∈ st.closed, p.1 = k) → exec i s = .next { s with streams := tput s.streams q { st with drop := true } })
    ∧ (size = 8 → (∀ p ∈ st.closed, p.1 ≠ k) → exec i s = .next { s with streams := tput s.streams q { st with
        slots := tput st.slots (64 * k + n) v, closed := st.closed ++ (if n = 63 then [(k, s.now)] else []) } }))
  ∧ ∀ (s : State) (q lid kind detail : Nat) (v : Word), lid < 2 ^ 16 → kind < 2 ^ 8 → detail < 2 ^ 8 →
    let st := s.stream q
    let head := st.evhead.toNat + (s.hostWrites.filter (fun w => w.stream == some q)).length
    ((head + 2 ^ 32 - st.evtail.toNat) % 2 ^ 32 = 2 ^ st.evlog →
      s.post q lid kind detail v = { s with nextId := s.nextId + 1, streams := tput s.streams q { st with evovf := true } })
    ∧ ((head + 2 ^ 32 - st.evtail.toNat) % 2 ^ 32 ≠ 2 ^ st.evlog →
      s.post q lid kind detail v = { s with nextId := s.nextId + 1, hostWrites := s.hostWrites
        ++ [⟨s.nextId, 0, st.evbase.toNat + 16 * (head % 2 ^ st.evlog), 16, lid + kind * 2 ^ 16 + detail * 2 ^ 24 + v.toNat * 2 ^ 64, some q⟩] })

/-- R254 to R256, R276, R334: a stream takes its closed packets in order, one command at a time, a retry ahead of them, and refuses one it does
not know; the commands wait-for-tick, signal host, end and launch; and the registers of a stream. That a stream takes a packet in the tick after its close is the
model's reading (log entry 29), and so is that a retry goes ahead of a packet already taken whose effect has not begun (log entry 35), and that a
host's write to EVHEAD changes nothing (log entry 77). -/
def Obligations.StreamCommands : Prop :=
  ∀ (s : State) (q : Nat), let st := s.stream q
    let done : Stream := { st with held := none, closed := st.closed.tail, freeAt := s.now + 1 }
    (∀ k n r, st.en = true → st.ended = false → st.held = none → st.freeAt ≤ s.now → s.pauseTo ≤ s.now → st.retry = [] →
      st.closed = (k, n) :: r → n < s.now →
      let ws := (List.range 64).map (fun i => tget st.slots 0 (64 * k + i))
      let w := (tget st.slots 0 (64 * k)).toNat
      (1 ≤ w → w ≤ 7 → exec (.streamNextPacket q) s = .next (s.setStream q { st with held := some ⟨k, n, ws, s.now, none, 0, none⟩ }))
      ∧ (w = 0 ∨ 7 < w → exec (.streamNextPacket q) s
          = .next ((s.setStream q { st with held := none, closed := if k = 8 then (k, n) :: r else r, freeAt := s.now + 1 }).post q 0 4 1 s.nowW)))
    ∧ (∀ a r, st.freeAt ≤ s.now → s.pauseTo ≤ s.now → st.retry = a :: r →
      (st.held = none ∨ ∃ h, st.held = some h ∧ h.slot ≠ 8 ∧ (h.word 0 % 256 = 1 ∧ h.prog ≤ 1 ∨ h.word 0 % 256 = 2 ∨ h.word 0 % 256 = 3
        ∨ h.word 0 % 256 = 4 ∧ h.actAt = none)) →
      exec (.streamNextPacket q) s = .next (s.setStream q { st with retry := r, held := some ⟨8, 0, [1, BitVec.ofNat 64 a], s.now, none, 0, none⟩ }))
    ∧ (∀ h, st.held = some h → h.slot ≠ 8 →
      (h.word 0 % 256 = 2 → h.word 1 ≤ s.now → exec (.waitForTick q) s = .next (s.setStream q done))
      ∧ (h.word 0 % 256 = 2 → s.now < h.word 1 → exec (.waitForTick q) s = .next s)
      ∧ (h.word 0 % 256 = 3 → (∀ l ∈ s.launches, l.stream = q → l.phase ≠ 1 ∧ l.phase ≠ 2) →
          ∃ t, exec (.signalHost q) s = .next t ∧ (t.stream q).held = none ∧ (t.stream q).closed = st.closed.tail
            ∧ t.hostWrites = (s.post q 0 7 0 (BitVec.ofNat 64 (h.word 1))).hostWrites)
      ∧ (h.word 0 % 256 = 7 → exec (.endStream q) s = .next (s.setStream q { done with ended := true }))
      ∧ (h.word 0 % 256 = 1 → h.prog = 0 → exec (.launch q) s = .next (s.setStream q { st with held := some { h with prog := 1 } })))
    ∧ (∀ v : Word, exec (.scfgWrite q v) s = .next (s.setStream q { st with
        prio := v.toNat % 4, en := v.getLsbD 2 && s.pupolOk, ended := st.ended && !(v.getLsbD 2 && s.pupolOk && !st.en) }))
    ∧ (∀ v : Word, exec (.sstatWrite q v) s = .next (s.setStream q { st with
        drop := st.drop && !v.getLsbD 8, evovf := st.evovf && !v.getLsbD 10 }))
    ∧ ∀ v : Word, q < 4 →
      (exec (.registerWrite true 0 (0x8010 + 0x40 * q) v) s = .next (s.setStream q { st with evbase := BitVec.ofNat 64 (v.toNat / 64 * 64) }))
      ∧ (exec (.registerWrite true 0 (0x8018 + 0x40 * q) v) s
          = .next (s.setStream q { st with evlog := if 4 ≤ v.toNat % 32 ∧ v.toNat % 32 ≤ 16 then v.toNat % 32 else 4 }))
      ∧ exec (.registerWrite true 0 (0x8020 + 0x40 * q) v) s = .next (s.setStream q st)
      ∧ (exec (.registerWrite true 0 (0x8028 + 0x40 * q) v) s = .next (s.setStream q { st with evtail := BitVec.ofNat 32 v.toNat }))

/-- Device memory is without errors, and written in the regular mode: the supervisor's reads of it correct and report nothing (R294, R341). -/
def Sys2Proof.Claims.CleanDevice (s : State) : Prop := ∀ p ∈ s.channels, p.2.errs = [] ∧ p.2.modes = []

namespace Sys2Proof.Claims

/-- The header of an object image is admitted: every field in its range, every other bit 0 (R234, R237). -/
def HeaderAdmitted (h : List Word) : Prop :=
  let nrec := fieldOf h 0 0 20
  let nwin := fieldOf h 1 40 15
  let npage := fieldOf h 3 0 6
  let img := fieldOf h 2 0 56
  1 ≤ nrec ∧ fieldOf h 0 22 42 = 0
  ∧ 1 ≤ fieldOf h 1 0 13 ∧ fieldOf h 1 0 13 ≤ 4096 ∧ 1 ≤ fieldOf h 1 13 13 ∧ fieldOf h 1 13 13 ≤ 4096
  ∧ 1 ≤ nwin ∧ nwin ≤ 16384 ∧ fieldOf h 1 26 14 + nwin ≤ 16384 ∧ fieldOf h 1 55 9 = 0
  ∧ fieldOf h 2 56 8 = 0 ∧ npage ≤ 56 ∧ fieldOf h 3 6 58 = 0 ∧ (∀ i, 4 ≤ i → i < 8 → fieldOf h i 0 64 = 0)
  ∧ (fieldOf h 0 20 1 = 1 → img % 128 = 0) ∧ (fieldOf h 0 20 1 = 0 → nrec ≤ nwin ∧ npage = 0 ∧ img = 0)

/-- The pages of a paged object: each has 1 to NWIN records, they follow one another from record 0 to NREC − 1, and PSTART does not fall
(R235, R237). -/
def PagesAdmitted (h ps : List Word) : Prop :=
  let count (p : Word) : Nat := p.toNat / 2 ^ 20 % 2 ^ 15
  (∀ (i : Nat) (p : Word), ps[i]? = some p → p.toNat % 2 ^ 20 = ((ps.take i).map count).sum ∧ 1 ≤ count p ∧ count p ≤ fieldOf h 1 40 15)
  ∧ (∀ (i : Nat) (p q : Word), ps[i]? = some p → ps[i + 1]? = some q → p.toNat / 2 ^ 35 ≤ q.toNat / 2 ^ 35)
  ∧ (ps.map count).sum = fieldOf h 0 0 20

/-- The slots a record reads, and whether it writes its DST (R223, R224): 1 leaf, 2 to 7 the operations on a and b, 8 pmul, 9 const, 10 out. -/
def slotsRead (r : Nat) : List Nat :=
  if 2 ≤ r % 16 ∧ r % 16 ≤ 7 then [r / 2 ^ 18 % 2 ^ 13, r / 2 ^ 31 % 2 ^ 13] else if r % 16 = 8 ∨ r % 16 = 10 then [r / 2 ^ 18 % 2 ^ 13] else []
abbrev hasDst (r : Nat) : Prop := 1 ≤ r % 16 ∧ r % 16 ≤ 9
abbrev dstOf (r : Nat) : Nat := r / 2 ^ 5 % 2 ^ 13
def parOf (r : Nat) : Nat := r / 2 ^ 44 % 2 ^ 12

/-- The fields of a record: an OP of R224, 0 in every field it does not use, and a leaf or an output that the object has (R223, R224, R237). -/
abbrev RecordAdmitted (h : List Word) (r : Nat) : Prop :=
  let op := r % 16
  1 ≤ op ∧ op ≤ 10 ∧ r / 2 ^ 56 % 2 ^ 8 = 0
  ∧ (op = 10 → dstOf r = 0) ∧ (op = 1 ∨ op = 9 → r / 2 ^ 18 % 2 ^ 13 = 0) ∧ (op = 1 ∨ 8 ≤ op → r / 2 ^ 31 % 2 ^ 13 = 0)
  ∧ (2 ≤ op → op ≤ 5 → parOf r = 0) ∧ (op = 1 → parOf r < fieldOf h 1 0 13) ∧ (op = 10 → parOf r < fieldOf h 1 13 13)

/-- The records of an object, in steps that end at a LAST of 1: at most 8 in a step; in a step at most two reads of a bank of 1,024 slots and one
write of it, and no read of a slot that another record of it writes; a slot is read only after an earlier step has written it; and each output
is written, once (R222, R226, R237). -/
def RecordsAdmitted (h : List Word) (rs : List Nat) : Prop :=
  let step (i : Nat) : Nat := ((rs.take i).filter (fun r => r.testBit 4)).length
  let inStep (k : Nat) : List Nat := (List.range rs.length).filter (fun i => step i == k)
  let rec' (i : Nat) : Nat := (rs[i]?).getD 0
  (∀ r ∈ rs, RecordAdmitted h r) ∧ (∃ r, rs.getLast? = some r ∧ r.testBit 4 = true)
  ∧ (∀ k, k < rs.length → (inStep k).length ≤ 8)
  ∧ (∀ k, k < rs.length → ∀ b, b < 8 → (((inStep k).flatMap (fun i => slotsRead (rec' i))).filter (fun x => x / 1024 == b)).length ≤ 2)
  ∧ (∀ i, i < rs.length → ∀ j, j < rs.length → i ≠ j → step i = step j →
      (hasDst (rec' i) → hasDst (rec' j) → dstOf (rec' i) / 1024 ≠ dstOf (rec' j) / 1024)
      ∧ (hasDst (rec' j) → dstOf (rec' j) ∉ slotsRead (rec' i)))
  ∧ (∀ i, i < rs.length → ∀ x ∈ slotsRead (rec' i), ∃ j, j < rs.length ∧ step j < step i ∧ hasDst (rec' j) ∧ dstOf (rec' j) = x)
  ∧ ∀ o, o < fieldOf h 1 13 13 → ∃ i, i < rs.length ∧ rec' i % 16 = 10 ∧ parOf (rec' i) = o
      ∧ ∀ j, j < rs.length → rec' j % 16 = 10 → parOf (rec' j) = o → j = i

/-- R237: the load command takes an image for object `obj` of an engine. -/
def ImageAdmitted (g : Circuit) (obj : Nat) (h ps : List Word) (rs : List Nat) : Prop :=
  HeaderAdmitted h ∧ (fieldOf h 0 20 1 = 1 → PagesAdmitted h ps) ∧ RecordsAdmitted h rs
  ∧ (∀ p ∈ g.dir, p.1 ≠ obj → let d := p.2.hdr
      fieldOf d 1 26 14 + fieldOf d 1 40 15 ≤ fieldOf h 1 26 14 ∨ fieldOf h 1 26 14 + fieldOf h 1 40 15 ≤ fieldOf d 1 26 14)
  ∧ ∀ r, g.run = some r → r.obj ≠ obj

/-- A cellar program word is of none of the reserved forms of R299. -/
abbrev CellarWordAdmitted (v : Nat) : Prop :=
  let op := v / 2 ^ 27
  op ≤ 13 ∧ (op = 0 → v % 2 ^ 27 < 2 ^ 12) ∧ (op = 3 → v / 2 ^ 7 % 2 ^ 17 = 0) ∧ (op = 4 → v % 2 ^ 24 = 0)
  ∧ (op = 5 → v % 2 ^ 27 < 2 ^ 6 ∧ v % 4 < 2 ∧ v / 4 % 4 < 2) ∧ (op = 6 → v % 2 ^ 21 = 0) ∧ (op = 7 → v % 2 ^ 27 < 2 ^ 8)
  ∧ (op = 8 → v % 2 ^ 11 = 0) ∧ (op = 9 → v % 2 ^ 10 = 0 ∧ v / 2 ^ 10 % 4 ≠ 3) ∧ (op = 10 → v / 2 ^ 8 % 2 ^ 16 = 0)
  ∧ (op = 11 → v % 2 ^ 12 = 0) ∧ (op = 12 → v % 2 ^ 17 = 0 ∧ v / 2 ^ 18 % 8 < 6) ∧ (op = 13 → v % 2 ^ 27 = 0)

/-- The words of a plan block: three, its refresh-management entries, and its program words two to a word (R287). -/
def blockWords (w2 : Word) : Nat := 3 + w2.toNat % 2 ^ 8 + (w2.toNat / 2 ^ 8 % 2 ^ 8 + 1) / 2
def programWord (ws : List Word) (k : Nat) : Nat := fieldOf ws (3 + fieldOf ws 2 0 8 + k / 2) (32 * (k % 2)) 32

/-- R287: a block is accepted: each field in its range, every other bit 0, and no program word of a reserved form. That REF1 is below REFP as REF0 is
is log entry 90. -/
def BlockAdmitted (tier : Nat) (ws : List Word) : Prop :=
  let refp := fieldOf ws 0 0 9
  let hwp := fieldOf ws 1 0 16
  let nprog := fieldOf ws 2 8 8
  fieldOf ws 0 10 6 = 0 ∧ fieldOf ws 0 48 16 = 0 ∧ fieldOf ws 1 48 16 = 0 ∧ fieldOf ws 2 17 47 = 0
  ∧ refp ≤ (if fieldOf ws 0 9 1 = 1 then 182 else 365) ∧ fieldOf ws 0 16 16 < refp ∧ fieldOf ws 0 32 16 < refp
  ∧ (if tier = 0 then 256 else 384) ≤ hwp ∧ fieldOf ws 1 16 16 < hwp ∧ fieldOf ws 1 32 16 < hwp
  ∧ nprog ≤ 128 ∧ (tier ≠ 0 → nprog = 0) ∧ (∀ k, k < nprog → CellarWordAdmitted (programWord ws k))
  ∧ (nprog % 2 = 1 → programWord ws nprog = 0)

/-- The plan of a block (R287). -/
def BlockPlan (ws : List Word) (p : Plan) : Prop :=
  p.refp = fieldOf ws 0 0 9 ∧ (p.hot = true ↔ fieldOf ws 0 9 1 = 1) ∧ p.ref0 = fieldOf ws 0 16 16 ∧ p.ref1 = fieldOf ws 0 32 16
  ∧ p.hwp = fieldOf ws 1 0 16 ∧ p.hw0 = fieldOf ws 1 16 16 ∧ p.hw1 = fieldOf ws 1 32 16 ∧ (p.keep = true ↔ fieldOf ws 2 16 1 = 1)
  ∧ p.rfm = (List.range (fieldOf ws 2 0 8)).map (fun i => (fieldOf ws (3 + i) 0 36, fieldOf ws (3 + i) 36 5, fieldOf ws (3 + i) 41 23))
  ∧ p.prog = (List.range (fieldOf ws 2 8 8)).map (fun k => BitVec.ofNat 32 (programWord ws k))

end Sys2Proof.Claims

/-- R91, R222 to R224, R226, R234 to R238, R256, R257, R287, R299: the commands that load. A word of a kernel image is written a tick, and a B register whose span it
meets is refilled, in a live context or a saved one; a circuit object is installed whole, or refused by the cases of R237; a timeline stages its
plan, or is refused by the ranges of its fields. Where the records of a paged object stand at its load is log entry 21, and that REF1 is below
REFP log entry 90; an object and a plan are read here from device memory without errors. -/
def Obligations.ObjectLoads : Prop :=
  (∀ (s : State) (q n : Nat) (h : Held) (img : Image) (w : BitVec 16), (s.stream q).held = some h → h.word 0 % 256 = 4 → h.actAt = some n → n ≤ s.now →
    h.image = some img → img.words[h.prog]? = some w → 1 ≤ h.prog → h.word 2 / 2 ^ 10 % 2 = 0 → h.prog + 1 < img.items false →
    let c := h.word 2 % 256
    let a := (h.word 2 / 2 ^ 16 % 2 ^ 16 + h.prog) % 2 ^ 16
    ∃ t, exec (.loadCode q) s = .next t ∧ SameMemory s t
      ∧ (∀ i, tget (t.core c).imem 0 i = if i = a then w else tget (s.core c).imem 0 i)
      ∧ (t.stream q).held = some { h with prog := h.prog + 1, actAt := some (s.now + 1) }
      ∧ (∀ p ∈ (s.core c).ctxs, ∀ b, b < 8 → tget (t.ctx c p.1).bAgain 0 b
          = if spanMeets (s.ctx c p.1) b a then s.now + 6 else tget (s.ctx c p.1).bAgain 0 b)
      ∧ (∀ x, { t.ctx c x with bAgain := [] } = { s.ctx c x with bAgain := [] })
      ∧ (t.core c).saved.length = (s.core c).saved.length
      ∧ (∀ (i : Nat) (p : Nat × Ctx), (s.core c).saved[i]? = some p → ∃ u, (t.core c).saved[i]? = some (p.1, u)
          ∧ (∀ b, b < 8 → tget u.bAgain 0 b = if spanMeets p.2 b a then s.now + 6 else tget p.2.bAgain 0 b)
          ∧ { u with bAgain := [] } = { p.2 with bAgain := [] })
      ∧ (∀ e, e ∈ (t.core c).bad ↔ e ∈ (s.core c).bad ∧ ¬ (e.struct = 3 ∧ e.place = a))
      ∧ { (t.core c).besidesCtxs with imem := [], bad := [], saved := [] } = { (s.core c).besidesCtxs with imem := [], bad := [], saved := [] } ∧ ∀ d, d ≠ c → t.core d = s.core d)
  ∧ (∀ (s : State) (q : Nat) (h : Held), Sys2Proof.Claims.CleanDevice s → (s.stream q).held = some h → h.word 0 % 256 = 5 → h.slot ≠ 8 →
    let c := h.word 2 % 32
    let obj := h.word 2 / 32 % 64
    let hdr := s.devWords (h.word 1) 8
    let pages := s.devWords (h.word 1 + 64) (fieldOf hdr 3 0 6)
    let recs := if fieldOf hdr 0 20 1 = 1 then (List.range (fieldOf hdr 0 0 20)).map (Config.pagedRecord s.channels (h.word 1))
      else (s.devWords (h.word 1 + 64 + 8 * fieldOf hdr 3 0 6) (fieldOf hdr 0 0 20)).map (·.toNat)
    let ok := (s.circuit c).retired = false ∧ ImageAdmitted (s.circuit c) obj hdr pages recs
    (ok → ∃ t, exec (.loadCircuitObject q) s = .next t ∧ SameMemory s t ∧ tget (t.circuit c).dir ⟨[], []⟩ obj = ⟨hdr, pages⟩
      ∧ (fieldOf hdr 0 20 1 = 0 → ∀ (j : Nat) (r : Nat), recs[j]? = some r → (tget (t.circuit c).nodes 0 (fieldOf hdr 1 26 14 + j)).toNat = r
          ∧ (tget (t.circuit c).tags 0 (fieldOf hdr 1 26 14 + j)).toNat = j)
      ∧ t.hostWrites = (s.post q 0 9 0 s.nowW).hostWrites ∧ (t.stream q).held = none)
    ∧ (¬ ok → ∃ t, exec (.loadCircuitObject q) s = .next t ∧ t.circuits = s.circuits
      ∧ t.hostWrites = (s.post q 0 4 9 s.nowW).hostWrites ∧ (t.stream q).held = none))
  ∧ ∀ (s : State) (q : Nat) (h : Held), Sys2Proof.Claims.CleanDevice s → (s.stream q).held = some h → h.word 0 % 256 = 6 → h.slot ≠ 8 → h.word 2 / 256 % 256 = 1 →
    let ch := h.word 2 % 256
    let tier := h.word 2 / 2 ^ 16 % 2
    ch < (if tier = 0 then 256 else 128) →
    let ws := s.devWords (h.word 1) (blockWords (s.devWord (h.word 1 + 16)))
    (BlockAdmitted tier ws → ∃ t p, exec (.loadTimeline q) s = .next t ∧ SameMemory s t ∧ BlockPlan ws p ∧ (t.channel tier ch).staged = some p
      ∧ t.hostWrites = (s.post q 0 9 0 s.nowW).hostWrites ∧ (t.stream q).held = none)
    ∧ (¬ BlockAdmitted tier ws → ∃ t, exec (.loadTimeline q) s = .next t ∧ t.channels = s.channels
      ∧ t.hostWrites = (s.post q (tier * 256 + ch) 4 11 s.nowW).hostWrites ∧ (t.stream q).held = none)

/-! ## Launches -/

namespace Sys2Proof.Claims

/-- A context that no kernel holds (R76, R110, R143, R265). -/
def Emptied (t : Ctx) : Prop :=
  t.status = .empty ∧ t.lx = 0 ∧ t.flights = [] ∧ t.shadow = [] ∧ t.signals = [] ∧ t.aq = [] ∧ t.qg = [] ∧ t.qc = [] ∧ t.qm = []
  ∧ t.hcw = [] ∧ t.hcwValid = BitVec.allOnes 512 ∧ t.bV = 0 ∧ t.stops = [] ∧ t.service = none

/-- The tick a launch that ends its admission at `a` starts in (R258, R276). -/
def startTick (l : Launch) (a : Nat) : Nat :=
  if l.isRetry = true then a + 4096 else if l.asap = true then a + l.word 1 else l.word 1

/-- The refusal of a launch at the end of its admission; 0: none (R259, R264, R266). -/
def refusedFor (s : State) (l : Launch) : Nat :=
  if l.refusal = 1 then 1
  else if l.asap = true ∧ s.cexm = true then 12
  else if l.refusal ≠ 0 then l.refusal
  else if startTick l s.now < s.now + 512 then 3
  else if l.nmod ≠ 0 ∧ (s.lock ≠ 2 ∨ startTick l s.now < s.now + 65536) then 5 else 0

/-- The checks made as the scheduler takes a launch, in their order, each with its reason (R259). -/
def reasonsOf (s : State) (l : Launch) : List (Bool × Nat) :=
  let is := List.range (l.ncore + 1)
  let wrongLines (g : Option Staged) (i : Nat) : Bool := match g with
    | some g => decide ((g.params.filter (fun p => p.rank.all (· == l.modix * (l.ncore + 1) + i))).length ≠ l.nparam)
    | none => false
  [(!l.wellFormed || is.any (fun i => wrongLines (s.stagedFor l i) i), 1), (l.asap && s.cexm, 12), (s.outOfService l, 6), (s.notDedicated l, 7),
    (is.any (fun i => !(l.imageOk (s.stagedFor l i))), 13), (!(s.rangesOk l), 2)]

/-- A context of a core, or one saved there under its number plus 4, waits for a bank (R197, R198). -/
def WaitsFor (s : State) (c key b : Nat) (l : Launch) : Prop :=
  ∃ k : Ctx, (key < 4 ∧ k = s.ctx c key ∨ 4 ≤ key ∧ (key - 4, k) ∈ (s.core c).saved) ∧ k.status = .banks ∧ s.findLaunch k.lx = some l
    ∧ l.banks.testBit b = true

/-- Nothing of a context is reserved or pending in a bank (R201). -/
def IdleBank (s : State) (c x b : Nat) : Prop :=
  (∀ r ∈ (s.core c).resv, r.bank = b → r.core = c → r.ctx = x → r.tick < s.now) ∧ ∀ e ∈ (s.core c).timed, bankOf e.addr = b → e.vis < s.now

end Sys2Proof.Claims

/-- R256, R258, R259, R264: admission. The idle scheduler takes a ready launch of the highest priority, whose admission takes 1,024 ticks
and one for each page; at its end the launch is admitted with its start tick, or refused with the first reason that holds; one that cannot
be ready in time is refused. A gang across modules counts confirmations, and is dropped or stopped on an abort or a missed deadline. The
tick from which the scheduler is idle again, DETAIL 5 for a gang whose START is nearer than 65,536 ticks, and P15 taken from PDEG at the admission
are readings of the model (log entry 30); the confirmation goes out on port 15 with kind 3 and LID and MODIX as its payload by log entry 31; and
what becomes of a confirmation or an abort that comes before this module's own launch is log entry 47. Descriptors are read here from device memory without errors. -/
def Obligations.Admissions : Prop :=
  (∀ (s : State) (q v : Nat) (l : Launch), Sys2Proof.Claims.CleanDevice s → s.admitDue = none → s.chosen = some (q, l, v) →
    (∀ g ∈ s.gangMsgs, g.1 = l.lid → l.nmod ≠ 0 → g.2.2 = false) →
    ∃ t m, exec .admission s = .next t ∧ t.launches = s.launches ++ [m] ∧ t.nextLx = s.nextLx + 1
      ∧ m.lx = l.lx ∧ m.desc = l.desc ∧ m.phase = 0 ∧ m.admitAt = s.now + 1024 + l.npg ∧ m.victim = v
      ∧ m.refusal = (((reasonsOf s m).find? (·.1)).map (·.2)).getD 0
      ∧ (∀ n, n ∈ m.confirmed ↔ l.nmod ≠ 0 ∧ (l.lid, n, false) ∈ s.gangMsgs)
      ∧ (∀ p n, p < 4 → s.waiting p = some n → (s.readyFor n).isSome = true → n.prio ≤ l.prio)
      ∧ t.cores = s.cores ∧ t.channels = s.channels ∧ t.hostWrites = s.hostWrites)
  ∧ (∀ (s : State) (l : Launch) (a b : List Launch), s.launches = a ++ l :: b → l.phase = 0 → l.admitAt ≤ s.now → s.hostBefore l.shut = true →
      (∀ m ∈ a, m.phase ≠ 0) → (∀ m ∈ a ++ b, m.lx ≠ l.lx) →
      (refusedFor s l = 0 → ∃ t, exec .admission s = .next t
        ∧ t.launches = a ++ { l with phase := 1, start := startTick l s.now, admitAt := s.now, order := s.nextOrder, p15 := l.lowp && s.pdeg } :: b
        ∧ t.hostWrites = (s.post l.stream l.lid 1 0 s.nowW).hostWrites ∧ (t.stream l.stream).held = none ∧ t.nextOrder = s.nextOrder + 1
        ∧ t.cores = s.cores
        ∧ (∀ tier ch, tier < 2 → ch < 256 → t.channel tier ch
          = if l.ownsCh tier ch = true then { s.channel tier ch with handAt := some (startTick l s.now - 512) } else s.channel tier ch)
        ∧ (l.nmod ≠ 0 → t.outputs = s.outputs ++ [.message s.now 15 3 (BitVec.ofNat 64 (l.lid + l.modix * 2 ^ 16))]))
      ∧ (refusedFor s l ≠ 0 → ∃ t, exec .admission s = .next t ∧ t.launches = a ++ b
        ∧ t.hostWrites = (s.post l.stream l.lid 4 (refusedFor s l) s.nowW).hostWrites ∧ (t.stream l.stream).held = none
        ∧ t.cores = s.cores ∧ t.channels = s.channels))
  ∧ (∀ (s : State) (q : Nat) (l : Launch), s.waiting q = some l → l.asap = false → l.isRetry = false → s.readyFor l = none →
      l.word 1 < s.now + 1024 + l.npg + 512 →
      ∃ t, exec (.launchRefuseLate q) s = .next t ∧ (t.stream q).held = none ∧ t.launches = s.launches
        ∧ t.hostWrites = (s.post l.stream l.lid 4 4 s.nowW).hostWrites)
  ∧ (∀ (s : State) (l : Launch) (n : Nat) (a b : List Launch), s.launches = a ++ l :: b → l.nmod ≠ 0 → l.phase < 3 →
      (∀ m ∈ a, m.lid ≠ l.lid ∨ m.nmod = 0 ∨ 3 ≤ m.phase) → (∀ m ∈ a ++ b, m.lx ≠ l.lx) →
      (n ∉ l.confirmed → exec (.gangConfirm l.lid n) s = .next { s with launches := a ++ { l with confirmed := n :: l.confirmed } :: b })
      ∧ (l.phase = 2 → l.lx ≠ 0 → (∀ c ∈ l.cores, (s.ctx c l.ctxNo).lx = l.lx) → ∃ t, exec (.gangAbort l.lid n) s = .next t ∧ SameMemory s t
          ∧ ∀ c ∈ l.cores, t.ctx c l.ctxNo = { s.ctx c l.ctxNo with
              stops := (s.ctx c l.ctxNo).stops ++ [(s.now + 1, ⟨32, 2, 0, BitVec.ofNat 64 n, 0⟩)] })
      ∧ (l.phase = 1 → (∀ c ∈ l.cores, (s.ctx c l.ctxNo).preBy ≠ l.lx) → ∃ t, exec (.gangAbort l.lid n) s = .next t ∧ t.launches = a ++ b
          ∧ t.hostWrites = (s.post l.stream l.lid 5 0 s.nowW).hostWrites))
  ∧ (∀ (s : State) (lid n : Nat), (∀ m ∈ s.launches, m.lid ≠ lid ∨ m.nmod = 0) →
      ((lid, n, false) ∉ s.gangMsgs → exec (.gangConfirm lid n) s = .next { s with gangMsgs := s.gangMsgs ++ [(lid, n, false)] })
      ∧ ((lid, n, true) ∉ s.gangMsgs → exec (.gangAbort lid n) s = .next { s with gangMsgs := s.gangMsgs ++ [(lid, n, true)] }))
  ∧ (∀ (s : State) (q v n : Nat) (l : Launch), Sys2Proof.Claims.CleanDevice s → s.admitDue = none → s.chosen = some (q, l, v) → l.nmod ≠ 0 → (l.lid, n, true) ∈ s.gangMsgs →
      (∀ m ∈ s.launches, m.lx ≠ l.lx) → (s.stream q).held ≠ none → l.lx ≠ 0 → (∀ c ∈ l.cores, (s.ctx c l.ctxNo).preBy ≠ l.lx) →
      ∃ t, exec .admission s = .next t ∧ t.launches = s.launches ∧ t.hostWrites = (s.post l.stream l.lid 5 0 s.nowW).hostWrites)
  ∧ ∀ (s : State) (l : Launch) (a b : List Launch), s.launches = a ++ l :: b → (∀ m ∈ a ++ b, m.lx ≠ l.lx) → l.phase = 1 → l.nmod ≠ 0 →
      l.start ≤ s.now + 65536 → l.modix ∉ l.confirmed →
      (s.lock = 2 → (∀ i, i ≤ l.nmod → i ≠ l.modix → i ∈ l.confirmed) →
        exec (.gangConfirmationDeadline l.lx) s = .next { s with launches := a ++ { l with confirmed := l.modix :: l.confirmed } :: b })
      ∧ ((s.lock ≠ 2 ∨ ∃ i, i ≤ l.nmod ∧ i ≠ l.modix ∧ i ∉ l.confirmed) → (∀ c ∈ l.cores, (s.ctx c l.ctxNo).preBy ≠ l.lx) →
        ∃ t, exec (.gangConfirmationDeadline l.lx) s = .next t ∧ t.launches = a ++ b
          ∧ t.hostWrites = (s.post l.stream l.lid 4 5 s.nowW).hostWrites)

/-- R198, R258, R260, R262, R271, R280: a launch at its start tick gives each of its contexts its initial state; a context that owns all its
banks is ready; a pre-empted context is stopped, and goes on where it stopped when its image is restored. The ticks of a restore and the
single victim of a pre-emption are readings (log entries 27 and 28), and so is that PVAL is read at the start tick (log entry 30), that a context
which gets its last bank after S is ready 0, 1 or 2 ticks later and counts none of its wait in WACC (log entry 36), and that its fault record reads
zeros from S on (log entry 71). A channel of the launch takes its staged plan, which runs from S (R287, R288). -/
def Obligations.LaunchStarts : Prop :=
  (∀ (s : State) (l : Launch) (i : Nat) (g : Staged), Sys2Proof.Claims.CleanDevice s → s.findLaunch l.lx = some l → l.phase = 1 → l.start ≤ s.now → i ≤ l.ncore → l.lx ≠ 0 →
    (s.ctx (l.fcore + i) l.ctxNo).preBy ≠ l.lx → s.stagedFor l i = some g →
    let c := l.fcore + i
    let rank := l.modix * (l.ncore + 1) + i
    ∃ t, exec (.launchStart l.lx) s = .next t ∧ (∃ ps, t.findLaunch l.lx = some { l with phase := 2, plans := ps })
      ∧ t.ctx c l.ctxNo = { Ctx.reset with
          g := (t.ctx c l.ctxNo).g, vs := (t.ctx c l.ctxNo).vs, status := .banks, lx := l.lx, rank := rank
          pc := BitVec.ofNat 16 (l.word 13), ibase := BitVec.ofNat 16 (l.word 13), ilim := BitVec.ofNat 17 (l.word 13 / 65536)
          hcw := g.hcw, hcwValid := g.hcwValid, delta := g.deltas, lseed := BitVec.ofNat 64 (l.word 4)
          qrseed := BitVec.ofNat 64 (l.word 5) ^^^ BitVec.ofNat 64 rank, bud := BitVec.ofNat 64 (l.word 3)
          p := if l.p15 then 0x8000 else 0, bcast := if l.bcast then (if rank = 0 then 1 else 2) else 0, fresh := true }
      ∧ ((∀ p ∈ g.lines rank, p.idx < 16) →
          let value (n : Nat) : Word := s.devWord (l.pval + 8 * (rank * l.nparam + n))
          let last (ok : Param → Prop) (n : Nat) : Prop := ∃ p, (g.lines rank)[n]? = some p ∧ ok p ∧ ∀ m q, n < m → (g.lines rank)[m]? = some q → ¬ ok q
          ∀ j r, j < 5 → r < 16 → let names (p : Param) : Prop := p.idx = r ∧ p.slices.getLsbD j = true
            (∀ n, last names n → tget (t.ctx c l.ctxNo).g 0 (16 * j + r) = value n)
            ∧ ((∀ p ∈ g.lines rank, ¬ names p) → tget (t.ctx c l.ctxNo).g 0 (16 * j + r) = 0)
            ∧ (∀ n, last (·.vs = true) n → (t.ctx c l.ctxNo).vs = value n)
            ∧ ((∀ p ∈ g.lines rank, p.vs = false) → (t.ctx c l.ctxNo).vs = 0))
      ∧ (l.array = true → (t.core c).arrayOwner = some l.ctxNo ∧ (t.core c).array = ArrayState.reset)
      ∧ (l.isRetry = false → ∀ tier ch p, tier < 2 → l.ownsCh tier ch = true → (s.channel tier ch).staged = some p →
          let d := t.channel tier ch
          d.plan = p ∧ d.origin = l.start ∧ d.staged = none ∧ d.owner = l.lx ∧ d.idle = false ∧ d.refAt0 = l.start + p.ref0
          ∧ d.refAt1 = l.start + p.ref1 ∧ d.winAt0 = l.start + p.hw0 ∧ d.winAt1 = l.start + p.hw1)
      ∧ (∀ x, x ≠ l.ctxNo → t.ctx c x = s.ctx c x) ∧ t.hostWrites = (s.post l.stream l.lid 2 0 s.nowW).hostWrites)
  ∧ (∀ (s : State) (c x o : Nat) (l : Launch), s.bankWaiters c = [(o, x, l)] → x < 4 → (s.ctx c x).service = none → (s.ctx c x).preBy = 0 →
      (∀ b, b < 32 → bitAt l.banks b = true → tget (s.core c).own 0 b = 0 ∧ tget (s.core c).releasing 0 b = 0 ∧ tget (s.core c).kept 0 b = 0) →
      ∃ t, exec (.bankGrant c) s = .next t ∧ SameMemory s t
        ∧ (∀ b, b < 32 → tget (t.core c).own 0 b = if bitAt l.banks b = true then x + 1 else tget (s.core c).own 0 b)
        ∧ t.ctx c x = { s.ctx c x with
            status := .ready s.now (if s.now = l.start then 0 else if (s.core c).lastCtx = some x then 1 else 2) false }
        ∧ ∀ y, y ≠ x → t.ctx c y = s.ctx c y)
  ∧ (∀ (s : State) (c : Nat), ∃ t, exec (.bankGrant c) s = .next t ∧ SameMemory s t
      ∧ ∀ b, b < 32 → (tget (s.core c).own 0 b ≠ 0 → tget (t.core c).own 0 b = tget (s.core c).own 0 b)
        ∧ ((∀ x l, ¬ WaitsFor s c x b l) → tget (t.core c).own 0 b = tget (s.core c).own 0 b)
        ∧ ∀ x l, tget (s.core c).own 0 b = 0 → WaitsFor s c x b l →
          (∀ y m, WaitsFor s c y b m → y = x ∧ m = l ∨ l.order < m.order ∨ l.order = m.order ∧ x < 4 ∧ x < y) →
          tget (t.core c).own 0 b = x % 4 + 1)
  ∧ (∀ (s : State) (l : Launch) (c : Nat), s.findLaunch l.lx = some l → c ∈ s.preemptCores l.lx → (s.ctx c l.ctxNo).service ≠ none →
      (s.ctx c l.ctxNo).bcast = 0 → ∃ t, exec (.preemption l.lx) s = .next t ∧ SameMemory s t
      ∧ t.ctx c l.ctxNo = { s.ctx c l.ctxNo with preBy := l.lx, preAt := s.now })
  ∧ (∀ (s : State) (l : Launch) (c : Nat), s.findLaunch l.lx = some l → c ∈ s.preemptCores l.lx → (s.ctx c l.ctxNo).service = none →
      (s.ctx c l.ctxNo).bcast = 0 →
      ∃ t, exec (.preemption l.lx) s = .next t ∧ SameMemory s t ∧ stopped s c l.ctxNo (t.ctx c l.ctxNo)
        ∧ (t.ctx c l.ctxNo).preBy = l.lx ∧ (t.ctx c l.ctxNo).preAt = s.now)
  ∧ ∀ (s : State) (c x : Nat) (k : Ctx), (s.core c).saved = [(x, k)] → k.preBy = 0 → k.preAt ≤ s.now → k.service = none → k.bcast = 0 →
      ∀ counts, (k.status = .issuing ∧ counts = false ∨ k.fenceLater = [] ∧ ∃ a b, k.status = .ready a b counts) → (∀ w ∈ (s.core c).bad, w.struct ≠ 2) →
      ∃ t, exec (.restore c x) s = .next t ∧ SameMemory s t ∧ t.ctx c x = { k with backAt := some s.now, status := .ready s.now 0 counts }
        ∧ (t.core c).saved = [] ∧ (∀ p ∈ (t.core c).kept, p.2 ≠ x + 1)
        ∧ ((s.core c).savedBy = some x → ∀ a, (s.core c).savedArray = some a → (t.core c).array = a ∧ (t.core c).arrayOwner = some x)
        ∧ ∀ y, y ≠ x → t.ctx c y = s.ctx c y

/-- R110, R182, R201, R202, R260: a halted context with nothing left to land or end is released with its banks, and its launch ends with its last
context; its banks, and those of a killed one, are freed together when nothing of their context is left in any of them, and are scrubbed for 512
ticks first where that is asked; the signals that a halted context has deferred are still to come (R182). That the banks of a context killed while
it was saved are freed by themselves is the model's reading (log entry 36). -/
def Obligations.Releases : Prop :=
  (∀ (s : State) (c x : Nat), let k := s.ctx c x
    k.status = .halted → k.service = none → k.preBy = 0 → k.flights = [] → k.shadow = [] → k.stops = [] → k.shadowRows = [] →
    ((s.core c).arrayOwner = some x → ∀ r ∈ (s.core c).array.rows, r.exit ≤ s.now) →
    (∀ m ∈ s.cmds, m.core = c → m.ctx = x → m.lx = k.lx → 2 ≤ m.phase) →
    ∃ t, exec (.contextRelease c x) s = .next t ∧ SameMemory s t ∧ Emptied (t.ctx c x) ∧ (t.core c).arrayOwner ≠ some x
      ∧ (∀ b, b < 32 → (s.core c).owns x b = true → tget (t.core c).releasing 0 b = if s.scrubs c x then 2 else 1)
      ∧ (t.core c).lateSignals = (s.core c).lateSignals ++ (k.signals.filter (fun d => !d.released)).map (fun d => (x, k.lx, d))
      ∧ (∀ y, y ≠ x → t.ctx c y = s.ctx c y) ∧ (∀ d, d ≠ c → t.core d = s.core d)
      ∧ ∀ l, s.findLaunch k.lx = some l → l.phase = 2 → l.wantRetry = false → k.lx ≠ 0 → (∀ p ∈ s.cores, p.2.saved = [] ∧ ∀ q ∈ p.2.ctxs, q.2.lx = k.lx → p.1 = c ∧ q.1 = x) →
          (∀ d, ((s.core d).ctxs.map (·.1)).Nodup) → (s.cores.map (·.1)).Nodup →
          t.findLaunch k.lx = some { l with phase := 3 } ∧ (∀ q, (t.stream q).retry = (s.stream q).retry) ∧ t.hostWrites = (s.post l.stream l.lid 3 0 s.nowW).hostWrites)
  ∧ (∀ (s : State) (c x b : Nat), let k := s.core c
      let with' (e : Nat) : Prop := e < 32 ∧ tget k.own 0 e = x + 1 ∧ tget k.releasing 0 e ≠ 0 ∧ (tget k.kept 0 e ≠ 0 ↔ tget k.kept 0 b ≠ 0)
      with' b →
      ((∀ e, with' e → IdleBank s c x e) →
        ∃ t, exec (.haltBankRelease c x) s = .next t ∧ SameMemory s t ∧ tget (t.core c).releasing 0 b = 0
          ∧ (tget k.releasing 0 b % 2 = 0 → tget (t.core c).own 0 b = 5 ∧ (b, s.now + 512) ∈ (t.core c).scrubs)
          ∧ (tget k.releasing 0 b % 2 = 1 → tget (t.core c).own 0 b = 0) ∧ ∀ d y, t.ctx d y = s.ctx d y)
      ∧ ((∃ e, with' e ∧ ¬ IdleBank s c x e) →
        ∃ t, exec (.haltBankRelease c x) s = .next t ∧ tget (t.core c).own 0 b = x + 1 ∧ tget (t.core c).releasing 0 b = tget k.releasing 0 b))
  ∧ ∀ (s : State) (c : Nat), ∃ t, exec (.scrubEnd c) s = .next t ∧ SameMemory s t
      ∧ (∀ b, tget (t.core c).own 0 b = if tget (s.core c).own 0 b = 5 ∧ ∃ p ∈ (s.core c).scrubs, p.1 = b ∧ p.2 ≤ s.now then 0 else tget (s.core c).own 0 b)
      ∧ OnlyCore s t c { s.core c with scrubs := (s.core c).scrubs.filter (fun p => decide (s.now < p.2)), own := (t.core c).own }

/-! ## Time, service and security -/

namespace Sys2Proof.Claims

/-- No launch of a gang across modules is admitted and not yet ended. -/
def NoGangs (s : State) : Prop := ∀ l ∈ s.launches, l.nmod = 0

/-- Every byte of every scratchpad, of the 256 and 128 channels and of host memory reads as before. -/
def RealMemory (s t : State) : Prop :=
  (∀ c a, mread (t.spad c) a = mread (s.spad c) a) ∧ (∀ ch a, ch < 256 → mread (t.channel 0 ch).mem a = mread (s.channel 0 ch).mem a)
  ∧ (∀ ch a, ch < 128 → mread (t.channel 1 ch).mem a = mread (s.channel 1 ch).mem a) ∧ ∀ a, mread t.hostMem a = mread s.hostMem a

/-- A message of time and control goes out: it is an output, and its flits wait at the ports; those of a sync and of a delay request take the NOW
at which they leave (R325, R328, R332; log entry 31). -/
def Tells (s t : State) (port kind : Nat) (v : Word) : Prop :=
  let to' := if port < 12 then [(port, Config.neighbour port)] else Config.recipients kind v
  t = { s with outputs := s.outputs ++ [.message s.now port kind v], ports := t.ports }
  ∧ ∀ p, tget t.ports Port.reset p = { tget s.ports Port.reset p with
      queue := (tget s.ports Port.reset p).queue ++ (to'.filter (fun r => r.1 == p)).map (fun r => ⟨2, r.2, Config.controlPay kind v, if kind < 2 then some kind else none⟩) }

/-- The round trip of a path in 1/256 tick: that of the latest exchange, before the first answer `trip` ticks (R325; log entry 32). -/
def roundOf (s : State) (trip : Word) : Nat := s.pathTrip.getD (256 * trip.toNat)

/-- The offset a sync measures, in 1/256 tick: local NOW less the sender's stamp and half the round trip; and the reference's NOW as it is
estimated (R325, R326). -/
def offsetOf (s : State) (stamp trip : Word) (part : Byte) : Int := 256 * s.now + part.toNat - 256 * stamp.toNat - (roundOf s trip / 2 : Nat)
def estimateOf (s : State) (stamp trip : Word) : Nat := (256 * stamp.toNat + roundOf s trip / 2) / 256

/-- A port carries flits: in service, and not in training (R345, R347). -/
def Up (s : State) (p : Nat) : Prop := (tget s.ports Port.reset p).inService = true ∧ (tget s.ports Port.reset p).until' ≤ s.now

/-- Every command has ended or stopped. -/
def NoCommands (s : State) : Prop := ∀ m ∈ s.cmds, 2 ≤ m.phase

/-- Launch and command numbers are each used once. -/
def Numbered (s : State) : Prop := (s.launches.map (·.lx)).Nodup ∧ (s.cmds.map (·.id)).Nodup

/-- The one stream that is enabled. -/
def OnlyStream (s : State) (q : Nat) : Prop := q < 4 ∧ (s.stream q).en = true ∧ ∀ p, p < 4 → p ≠ q → (s.stream p).en = false

/-- What a module that has lost time lock leaves of its gangs across modules: a running one stops with code 32, an admitted one that all
have confirmed is dropped, and every command of a gang that has not ended has missed its deadline (R216, R264, R327, R329). -/
def GangsGivenUp (s t : State) : Prop :=
  (∀ l ∈ s.launches, l.nmod ≠ 0 → l.phase = 2 → l.lx ≠ 0 → (∀ c ∈ l.cores, (s.ctx c l.ctxNo).lx = l.lx →
      (s.now + 1, ⟨32, 2, 0, BitVec.ofNat 64 l.modix, 0⟩) ∈ (t.ctx c l.ctxNo).stops)
    ∧ .message s.now 15 4 (BitVec.ofNat 64 (l.lid + l.modix * 2 ^ 16)) ∈ t.outputs)
  ∧ (∀ l ∈ s.launches, l.nmod ≠ 0 → l.phase = 1 → l.modix ∈ l.confirmed → ∀ m ∈ t.launches, m.lx ≠ l.lx)
  ∧ ∀ m ∈ s.cmds, ∀ l, m.phase < 2 → s.findLaunch m.lx = some l → l.nmod ≠ 0 → t.findCmd m.id = some { m with phase := 3, endAt := some s.now }

/-- The bits of a flit that leaves with a SEQ: its class, destination, payload and CRC; a sync and a delay request carry NOW (R325, R332). -/
def FlitBits (f : FlitOut) (seq : BitVec 16) (now : Nat) (w : BitVec 1024) : Prop :=
  w.toNat % 2 ^ 64 = f.cls % 4 + f.dmod % 256 * 2 ^ 2 + seq.toNat * 2 ^ 10
  ∧ w.toNat / 2 ^ 64 % 2 ^ 896 = (match f.stamped with
    | some kind => Config.controlPay kind (BitVec.ofNat 64 now)
    | none => f.pay).toNat
  ∧ w.toNat / 2 ^ 960 = (Config.crc64 (BitVec.ofNat 960 w.toNat)).toNat

/-- A port may send a flit it has not sent: its buffer of 256 has room, or no request for the oldest in it can come any more (R333; log entry 31). -/
def Room (now win : Nat) (k : Port) : Prop := k.sent.length < 256 ∨ ∃ g r, k.sent = g :: r ∧ g.left + win ≤ now

/-- The port with a request that no further one can follow forgotten: nothing is to be sent again, and the flit it named left long enough ago
(R333; log entry 31). -/
def Settles (now win : Nat) (k p : Port) : Prop :=
  ((k.again = [] ∧ ∀ g ∈ k.sent, g.seq = k.asked.1 → g.left + win ≤ now) → p = { k with asked := (0, 0) })
  ∧ (¬ (k.again = [] ∧ ∀ g ∈ k.sent, g.seq = k.asked.1 → g.left + win ≤ now) → p = k)

/-- A flit leaves a port: one to be sent again, else the next that waits, class 2 first and classes 0 and 1 in turn, with the next SEQ; the latest
256 are kept, each with the tick it last left at, and a new flit waits while one of them may still be asked for (R332, R333; log entry 31). -/
def Leaves (now win : Nat) (k : Port) (w : BitVec 1024) (t : Port) : Prop :=
  let req (f : FlitOut) : Nat := if f.stamped = some 1 then now else k.reqAt
  (∃ seq f r, k.again = (seq, f) :: r ∧ FlitBits f seq now w ∧ t = { k with
      again := r, reqAt := req f, sent := k.sent.map (fun g => if g.seq = seq then { g with left := now } else g) })
  ∨ k.again = [] ∧ Room now win k ∧ ∃ l f r, k.queue = l ++ f :: r ∧ f.cls ≤ 2 ∧ (∀ g ∈ l, g.cls ≠ f.cls)
    ∧ (f.cls = 2 ∨ (∀ g ∈ k.queue, g.cls ≠ 2) ∧ (f.cls ≠ k.lastCls ∨ ∀ g ∈ k.queue, g.cls ≠ 1 - k.lastCls))
    ∧ FlitBits f k.seqOut now w
    ∧ t = { k with
        seqOut := k.seqOut + 1, queue := l ++ r, lastCls := if f.cls = 2 then k.lastCls else f.cls, reqAt := req f
        sent := (k.sent ++ [(⟨k.seqOut, f, now⟩ : SentFlit)]).drop (k.sent.length + 1 - 256) }

/-- What a port sends in a tick, and the port after it: flits one after another at 400 GB/s, half of it on four lanes, as many as begin to leave
within the tick; none while it trains or is out of service (R332, R333, R345, R347). The units of its rate, and the two hops and 8 ticks in which a
flit may still be asked for, are log entry 31. -/
def Sends (now mhz : Nat) (k : Port) (bs : List (BitVec 1024)) (t : Port) : Prop :=
  let rate := if 2 ≤ k.lanes.length then 200000 else 400000
  let win := 2 * (180 * mhz / 1000) + 8
  (k.inService = false ∨ now < k.until' → bs = [] ∧ t = k)
  ∧ (k.inService = true → k.until' ≤ now → k.lastCls < 2 → ∃ ps : List Port, ps.length = bs.length + 1 ∧ (∃ p, ps.head? = some p ∧ Settles now win k p)
      ∧ (∀ (i : Nat) (w : BitVec 1024) (p q : Port), bs[i]? = some w → ps[i]? = some p → ps[i + 1]? = some q →
          p.busy < rate ∧ ∃ u, Leaves now win p w u ∧ q = { u with busy := p.busy + 128 * mhz })
      ∧ ∃ z, ps.getLast? = some z ∧ t = { z with busy := z.busy - rate }
        ∧ (bs.length = 3 ∨ rate ≤ z.busy ∨ z.again = [] ∧ ((∀ f ∈ z.queue, 2 < f.cls) ∨ ¬ Room now win z)))

/-- The megahertz of the present tick step (R324). -/
def mhzOf (s : State) : Nat := 2250 - 250 * min s.stepF 3

/-- A launch is the gang of its launch id here, and the one of its number (R264). -/
def GangHere (s : State) (l : Launch) : Prop :=
  l.nmod ≠ 0 ∧ l.phase < 3 ∧ s.findLaunch l.lx = some l
  ∧ ∃ a b, s.launches = a ++ l :: b ∧ ∀ m ∈ a, m.lid ≠ l.lid ∨ m.nmod = 0 ∨ 3 ≤ m.phase

/-- The step a governor's window asks for (R339). -/
def windowRequest (s : State) (pnow tdie : Nat) : Option Nat :=
  let n := if 10 * pnow ≤ 9 * s.plim ∧ tdie ≤ 85 then s.coolWins + 1 else 0
  if 100 ≤ tdie then some 3
  else if s.plim < pnow ∨ 95 ≤ tdie then some (min 3 (s.stepF + 1))
  else if 16 ≤ n ∧ 0 < s.stepF then some (s.stepF - 1) else none

/-- The service operations (R343): their codes, and the targets they admit. -/
inductive ServiceForm : Instr → Nat → BitVec 8 → BitVec 52 → Bool → Prop where
  | core : ∀ t a, ServiceForm (.retireCore t a) 1 t a true
  | cluster : ∀ t a, ServiceForm (.retireCluster t a) 2 t a (decide (t.toNat < 32))
  | channel : ∀ t a, ServiceForm (.retireChannel t a) 3 t a (decide (t.toNat < if a.getLsbD 0 then 128 else 256))
  | row : ∀ t a, ServiceForm (.spareARow t a) 4 t a
      (decide (t.toNat < if a.getLsbD 0 then 128 else 256) && decide (a.toNat / 64 % 2 ^ 18 < if a.getLsbD 0 then 2 ^ 18 else 2 ^ 16))
  | lane : ∀ t a, ServiceForm (.retireALinkLane t a) 5 t a (decide (t.toNat < 12) && decide (a.toNat ≤ 8))
  | pupol : ∀ t a, ServiceForm (.updatePupol t a) 6 t a (decide (t.toNat = 0))
  | microcode : ∀ t a, ServiceForm (.updateCellarMicrocode t a) 7 t a (decide (t.toNat < 4))
  | retrain : ∀ t a, ServiceForm (.retrainAPort t a) 8 t a (decide (t.toNat < 12))
  | trace : ∀ t a, ServiceForm (.copyATraceRing t a) 9 t a true

/-- A launch, admitted or in admission, uses the target of an operation (R282, R343, R346, R347). -/
def UsesTarget (o : ServiceOp) (l : Launch) : Prop :=
  l.phase < 3 ∧
  ((o.sop = 1 ∨ o.sop = 9) ∧ l.fcore ≤ o.tgt ∧ o.tgt ≤ l.fcore + l.ncore
    ∨ o.sop = 2 ∧ (∃ i, i < 8 ∧ l.fcore ≤ 8 * o.tgt + i ∧ 8 * o.tgt + i ≤ l.fcore + l.ncore)
    ∨ (o.sop = 3 ∨ o.sop = 4) ∧ l.ownsCh (o.arg % 2) o.tgt = true
    ∨ o.sop = 7 ∧ (∃ ch, ch / 64 = o.tgt ∧ l.ownsCh 0 ch = true ∨ ch / 32 = o.tgt ∧ l.ownsCh 1 ch = true)
    ∨ (o.sop = 5 ∨ o.sop = 8) ∧ l.nmod ≠ 0)

/-- An operation waits: a launch uses its target; an update of Pupol waits for an admission or a service; cycle-exact mode holds all but the
copy of a trace ring (R266, R343, R346). -/
def Holds (s : State) (o : ServiceOp) : Prop :=
  (∃ l ∈ s.launches, UsesTarget o l)
  ∨ o.sop = 6 ∧ ((∃ l ∈ s.launches, l.phase = 0)
    ∨ ∃ p ∈ s.cores, (∃ q ∈ p.2.ctxs, q.2.service ≠ none) ∨ ∃ q ∈ p.2.saved, q.2.service ≠ none)
  ∨ s.cexm = true ∧ o.sop ≤ 8
  ∨ o.sop = 9 ∧ ∃ w ∈ s.hostWrites, w.stream = none

/-- `n` bytes of a list from byte `i`, little-endian. -/
def bytesAt (bs : List Byte) (i n : Nat) : Nat := ((bs.drop i).take n).foldr (fun b acc => b.toNat + 256 * acc) 0

/-- The bytes of a number, little-endian. -/
def bytesOf (n v : Nat) : List Byte := (List.range n).map (fun i => BitVec.ofNat 8 (v / 2 ^ (8 * i)))

/-- The digest of an image, by SHA-512 (log entry 6 names its text and that of Ed25519), and whether it is accepted: its TYPE, its signature under the root key, and an SVN no lower than the rollback
counter (R334). -/
def digestOf (bs : List Byte) : BitVec 512 := sha512 (bs.take 128 ++ (bs.drop 256).take (bytesAt bs 8 8))
def Accepted (s : State) (ty : Nat) (bs : List Byte) : Prop :=
  bytesAt bs 4 2 = ty ∧ ed25519Verify Config.rootKey (bytesOf 64 (digestOf bs).toNat) (BitVec.ofNat 512 (bytesAt bs 128 64)) = true
  ∧ tget s.rollback 0 ty ≤ bytesAt bs 6 2

/-- An accepted image runs: its SVN and digest. -/
def running (s : State) (ty : Nat) (bs : List Byte) : State :=
  { s with svns := tput s.svns ty (bytesAt bs 6 2), digests := tput s.digests ty (digestOf bs) }

end Sys2Proof.Claims

/-- R266, R323 to R327, R337, R338, R340, R345, R347: the time and service registers the host writes, and the discipline of time. TSET sets a
free module's NOW forward with no launch live; DEN starts discipline; a sync of the reference trims the module or has it set NOW once, and 16
good ones in a row lock it; a locked module that hears none, or a large error, is in holdover, and acquires again at the next sync. That syncs
and their measures are inputs is log entry 5; that they go out at multiples of 4,096 and that an acquisition sets NOW once is log entry 32; message
kinds and port 15 are log entry 31; that a reserved code of SOP answers SRES 1 is log entry 38. -/
def Sys2Proof.Claims.TimeRegisters : Prop :=
  (∀ (s : State) (v : Word),
    (s.lock = 0 → s.noneLive = true → s.cexm = false → s.now < v.toNat → ∃ t, exec (.tsetWrite v) s = .next t ∧ RealMemory s t
      ∧ t.now = v.toNat ∧ { t with now := s.now, channels := s.channels } = { s with syncSeen := none })
    ∧ ((s.lock ≠ 0 ∨ s.noneLive = false ∨ s.cexm = true) → exec (.tsetWrite v) s = .next s)
    ∧ exec (.plimWrite v) s = .next { s with plim := min 2400 (max 600 (v.toNat % 65536)) }
    ∧ exec (.cexmWrite v) s = .next { s with pdeg := v.getLsbD 0, cexm := if s.noneLive then v.getLsbD 1 else s.cexm }
    ∧ exec (.registerWrite true 2 0x008 v) s = .next { s with trip := s.trip && (s.tripOn || !v.getLsbD 7) }
    ∧ (∀ i, i < 4 → exec (.registerWrite true 2 (0x100 + 8 * i) v) s = .next { s with nonce := tput s.nonce i v })
    ∧ (v.toNat % 16 = 0 ∨ 9 < v.toNat % 16 → exec (.registerWrite true 2 0xC18 v) s = .next (if s.sbusy then { s with sres := 4 }
        else { s with sres := 1, stgt := BitVec.ofNat 8 (v.toNat / 2 ^ 4), sarg := BitVec.ofNat 52 (v.toNat / 2 ^ 12) })))
  ∧ (∀ (s : State) (v : Word), s.lock = 0 → s.pupolOk = true → v.getLsbD 4 = true →
      ∃ t, exec (.denWrite v) s = .next t ∧ t.den = true ∧ t.src = v.toNat % 16 ∧ t.lock = (if 12 ≤ v.toNat % 16 then 2 else 1) ∧ t.cores = s.cores
        ∧ t.syncAt = (if s.den then s.syncAt else (s.now / 4096 + 1) * 4096))
  ∧ (∀ (s : State) (v : Word), s.lock ≠ 2 → v.getLsbD 4 = false ∨ s.pupolOk = false →
      exec (.denWrite v) s = .next { s with
        src := v.toNat % 16, den := false, lock := 0, syncGood := 0, coarseTo := none
        syncAt := if s.den then s.syncAt else (s.now / 4096 + 1) * 4096
        syncSeen := if s.den then s.syncSeen else none, pathTrip := if s.den then s.pathTrip else none })
  ∧ (∀ (s : State), s.den = true → s.syncAt ≤ s.now → ∃ u, Tells s u 15 0 (BitVec.ofNat 64 s.now)
      ∧ exec .syncSend s = .next { u with syncAt := (s.now / 4096 + 1) * 4096 })
  ∧ (∀ (s : State) (p : Nat) (stamp trip : Word) (part : Byte), s.den = false ∨ 12 ≤ s.src ∨ p ≠ s.src ∨ ¬ Up s p →
      exec (.syncReceive p stamp trip part) s = .next s)
  ∧ (∀ (s : State) (stamp trip : Word) (part : Byte), s.den = true → s.src < 12 → Up s s.src →
      let off := offsetOf s stamp trip part
      let estimate := estimateOf s stamp trip
      ∃ u, Tells s u s.src 1 (BitVec.ofNat 64 s.now) ∧
      let s1 := { u with tofs := BitVec.ofInt 32 off, syncSeen := some (stamp, 256 * s.now + part.toNat) }
      let vector := s1.outputs ++ [Output.interrupt s.now 4]
      let run := exec (.syncReceive s.src stamp trip part) s
      (s.lock = 1 → off.natAbs ≤ 256 → s.syncGood + 1 < 16 → run = .next { s1 with syncGood := s.syncGood + 1, coarseTo := none })
      ∧ (s.lock = 1 → off.natAbs ≤ 256 → 16 ≤ s.syncGood + 1 → Quiet s →
        run = .next { s1 with syncGood := s.syncGood + 1, coarseTo := none, lock := 2, outputs := vector })
      ∧ (s.lock = 1 → 256 < off.natAbs → off.natAbs ≤ 1024 * 256 → run = .next { s1 with syncGood := 0, coarseTo := none })
      ∧ (s.lock = 1 → 1024 * 256 < off.natAbs → s.coarseDone = true → run = .next { s1 with syncGood := 0 })
      ∧ (s.lock = 1 → 1024 * 256 < off.natAbs → s.coarseDone = false → s.now < estimate →
        run = .next { s1 with syncGood := 0, coarseTo := some (estimate - s.now) })
      ∧ (s.lock = 1 → 1024 * 256 < off.natAbs → s.coarseDone = false → estimate ≤ s.now → Quiet s →
        run = .next { s1 with syncGood := 0, coarseDone := true, outputs := vector })
      ∧ (s.lock = 2 → off.natAbs ≤ 3 * 256 → run = .next s1)
      ∧ (s.lock = 2 → 3 * 256 < off.natAbs → Quiet s → NoGangs s → run = .next { s1 with lock := 3, syncGood := 0, outputs := vector })
      ∧ (s.lock = 3 → run = .next { s1 with lock := 1, syncGood := 0, coarseDone := false, coarseTo := none }))
  ∧ (∀ (s : State), (s.lock = 2 → s.src < 12 → Quiet s → NoGangs s →
        exec .syncNotReceived s = .next { s with lock := 3, syncGood := 0, outputs := s.outputs ++ [.interrupt s.now 4] })
      ∧ (s.lock ≠ 2 ∨ 12 ≤ s.src → exec .syncNotReceived s = .next s))
  ∧ ∀ (s : State) (n : Nat), s.lock = 1 → s.coarseTo = some n → 0 < n → s.noneLive = true → s.cexm = false →
      ∃ t, exec .coarseSet s = .next t ∧ RealMemory s t ∧ t.now = s.now + n
        ∧ { t with now := s.now, channels := s.channels } = { s with coarseDone := true, coarseTo := none, syncSeen := none }

/-- R216, R255, R264, R326, R327, R329: what the loss of lock posts and gives up, in holdover and when DEN is cleared, and what a lock, and a
reference estimate that is behind, post. Which gangs are given up is log entry 32; the vector of an event is log entry 54. -/
def Sys2Proof.Claims.LockLost : Prop :=
  (∀ (s : State) (q : Nat), OnlyStream s q → NoGangs s → s.lock = 2 → s.src < 12 →
    ∃ t, exec .syncNotReceived s = .next t ∧ t.lock = 3 ∧ t.hostWrites = (s.post q 0 10 0 (BitVec.ofNat 64 s.now)).hostWrites)
  ∧ (∀ (s : State) (q : Nat) (v : Word), OnlyStream s q → NoGangs s → s.lock = 2 → v.getLsbD 4 = false →
    ∃ t, exec (.denWrite v) s = .next t ∧ t.lock = 0 ∧ t.den = false ∧ t.hostWrites = (s.post q 0 10 0 (BitVec.ofNat 64 s.now)).hostWrites)
  ∧ (∀ (s : State) (q : Nat) (v : Word), OnlyStream s q → s.lock = 0 → s.pupolOk = true → v.getLsbD 4 = true → 12 ≤ v.toNat % 16 →
    ∃ t, exec (.denWrite v) s = .next t ∧ t.lock = 2 ∧ t.hostWrites = (s.post q 0 11 0 (BitVec.ofNat 64 s.now)).hostWrites)
  ∧ (∀ (s : State) (q : Nat) (stamp trip : Word) (part : Byte), OnlyStream s q → s.den = true → s.src < 12 → Up s s.src → s.lock = 1 →
    ((offsetOf s stamp trip part).natAbs ≤ 256 → 16 ≤ s.syncGood + 1 → ∃ t, exec (.syncReceive s.src stamp trip part) s = .next t ∧ t.lock = 2
      ∧ t.hostWrites = (s.post q 0 11 0 (BitVec.ofNat 64 s.now)).hostWrites)
    ∧ (1024 * 256 < (offsetOf s stamp trip part).natAbs → s.coarseDone = false → estimateOf s stamp trip ≤ s.now →
      ∃ t, exec (.syncReceive s.src stamp trip part) s = .next t ∧ t.lock = 1 ∧ t.hostWrites = (s.post q 0 10 1 (BitVec.ofNat 64 s.now)).hostWrites))
  ∧ ∀ (s : State), s.lock = 2 → Numbered s →
    (s.src < 12 → ∃ t, exec .syncNotReceived s = .next t ∧ t.lock = 3 ∧ GangsGivenUp s t)
    ∧ ∀ v : Word, v.getLsbD 4 = false → ∃ t, exec (.denWrite v) s = .next t ∧ t.lock = 0 ∧ GangsGivenUp s t

/-- R216, R255, R264, R266, R323 to R327, R329, R337, R338, R340, R345, R347: the time and service registers, the discipline of time, and what the
loss of lock posts and gives up. The model's readings are log entries 5, 31, 32, 38 and 54, as their clauses say. -/
def Obligations.TimeRegisters : Prop := Sys2Proof.Claims.TimeRegisters ∧ Sys2Proof.Claims.LockLost

/-- R328, R329, R339: steps of the tick and what asks for them. At the end of a window the governor asks for a step by its power and
heat; a change is announced 65,536 ticks ahead, by the reference of a domain 131,072 ticks ahead and to its modules, and takes place at its
tick; a member asks its reference. An emergency trip takes the slowest step at once, and with it every command that has not ended
misses its deadline and a locked module loses lock. Power and heat of a window are operands, free values in a run, and the count of cool windows starts again
after a request (log entry 33). -/
def Sys2Proof.Claims.TickSteps : Prop :=
  (∀ (s : State) (pnow : BitVec 16) (tdie : BitVec 8), s.now < s.windowAt → exec (.governorWindow pnow tdie) s = .next s)
  ∧ (∀ (s : State) (pnow : BitVec 16) (tdie : BitVec 8), s.windowAt ≤ s.now →
      let cool := if 10 * pnow.toNat ≤ 9 * s.plim ∧ tdie.toNat ≤ 85 then s.coolWins + 1 else 0
      let want := windowRequest s pnow.toNat tdie.toNat
      let s1 := { s with windowAt := (s.now / 65536 + 1) * 65536, pnow := pnow, tdie := tdie, coolWins := cool }
      (tdie.toNat < 105 → want = none → exec (.governorWindow pnow tdie) s = .next s1)
      ∧ (tdie.toNat < 105 → want = some s.stepF → s.stepPend = false → exec (.governorWindow pnow tdie) s = .next s1)
      ∧ (tdie.toNat < 105 → ∀ k, want = some k → k ≠ s.stepF → s.stepPend = false → s.den = false →
          ∃ t, exec (.governorWindow pnow tdie) s = .next t ∧ t.stepNext = k ∧ t.stepPend = true ∧ t.tchg = BitVec.ofNat 64 (s.now + 65536)
            ∧ t.pnow = pnow ∧ t.tdie = tdie ∧ t.stepF = s.stepF ∧ t.windowAt = s1.windowAt
            ∧ ∀ q, OnlyStream s q → t.hostWrites = (s.post q 0 12 0 (BitVec.ofNat 64 (s.now + 65536))).hostWrites)
      ∧ (tdie.toNat < 105 → ∀ k, want = some k → k ≠ s.stepF → s.stepPend = false → s.den = true → 12 ≤ s.src →
          ∃ t, exec (.governorWindow pnow tdie) s = .next t ∧ t.stepNext = k ∧ t.stepPend = true ∧ t.tchg = BitVec.ofNat 64 (s.now + 131072)
            ∧ t.stepF = s.stepF ∧ .message s.now 15 6 (BitVec.ofNat 64 (k + 4 * (s.now + 131072))) ∈ t.outputs
            ∧ ∀ q, OnlyStream s q → t.hostWrites = (s.post q 0 12 0 (BitVec.ofNat 64 (s.now + 131072))).hostWrites)
      ∧ (tdie.toNat < 105 → ∀ k, want = some k → k ≠ s.stepF → s.den = true → s.src < 12 →
          ∃ t, exec (.governorWindow pnow tdie) s = .next t ∧ .message s.now s.src 2 (BitVec.ofNat 64 k) ∈ t.outputs ∧ t.stepPend = s.stepPend ∧ t.stepF = s.stepF)
      ∧ (tdie.toNat < 105 → ∀ k, want = some k → s.stepPend = true → (s.den = false ∨ 12 ≤ s.src) →
          ∃ t, exec (.governorWindow pnow tdie) s = .next t ∧ t.stepWant = some (max (s.stepWant.getD 0) k) ∧ t.stepPend = true ∧ t.tchg = s.tchg)
      ∧ (105 ≤ tdie.toNat → s.lock ≠ 2 → NoGangs s → NoCommands s → s.stepPend = false →
          exec (.governorWindow pnow tdie) s = .next { s1 with trip := true, tripOn := true, stepF := 3 }))
  ∧ (∀ (s : State), s.stepPend = true → s.tchg.toNat ≤ s.now → s.stepWant = none →
      (s.lock ≠ 2 ∨ 12 ≤ s.src ∨ s.stepDom = true ∧ s.now = s.tchg.toNat →
        exec .stepChange s = .next { s with stepF := s.stepNext, stepPend := false })
      ∧ (s.lock = 2 → s.src < 12 → (s.stepDom = false ∨ s.tchg.toNat < s.now) → Quiet s → NoGangs s →
        exec .stepChange s = .next { s with
          stepF := s.stepNext, stepPend := false, lock := 3, syncGood := 0, outputs := s.outputs ++ [.interrupt s.now 4] }))
  ∧ (∀ (s : State) (k : Nat), s.stepPend = true → s.tchg.toNat ≤ s.now → s.stepWant = some k → k ≠ s.stepNext → s.den = false → s.lock ≠ 2 →
      Quiet s → exec .stepChange s = .next { s with
        stepF := s.stepNext, stepNext := k, stepPend := true, stepWant := none, stepDom := false, tchg := BitVec.ofNat 64 (s.now + 65536)
        outputs := s.outputs ++ [.interrupt s.now 4] })
  ∧ (∀ (s : State), s.stepF = 3 → exec .thermalTrip s = .next { s with trip := true, tripOn := true })
  ∧ (∀ (s : State), s.stepF ≠ 3 → NoGangs s → NoCommands s →
      (s.lock ≠ 2 → exec .thermalTrip s = .next { s with trip := true, tripOn := true, stepF := 3 })
      ∧ (s.lock = 2 → Quiet s → exec .thermalTrip s = .next { s with
          trip := true, tripOn := true, stepF := 3, lock := 3, syncGood := 0, outputs := s.outputs ++ [.interrupt s.now 4] })
      ∧ ∀ q, s.lock = 2 → OnlyStream s q → ∃ t, exec .thermalTrip s = .next t ∧ t.lock = 3 ∧ t.stepF = 3
          ∧ t.hostWrites = (s.post q 0 10 0 (BitVec.ofNat 64 s.now)).hostWrites)
  ∧ (∀ (s : State), s.stepF ≠ 3 → Numbered s → ∃ t, exec .thermalTrip s = .next t ∧ t.stepF = 3 ∧ t.trip = true
      ∧ (s.lock = 2 → t.lock = 3 ∧ GangsGivenUp s t)
      ∧ (∀ l ∈ s.launches, l.nmod ≠ 0 → l.phase = 2 → l.lx ≠ 0 → ∀ c ∈ l.cores, (s.ctx c l.ctxNo).lx = l.lx →
          (s.now + 1, ⟨32, 2, 0, BitVec.ofNat 64 l.modix, 0⟩) ∈ (t.ctx c l.ctxNo).stops)
      ∧ ∀ m ∈ s.cmds, ∀ l, m.phase < 2 → s.findLaunch m.lx = some l → t.findCmd m.id = some { m with phase := 3, endAt := some s.now }
          ∧ (m.lx ≠ 0 → (s.ctx m.core m.ctx).lx = m.lx → ∃ f : FaultRec, f.code = 16 ∧ f.kind = 1
              ∧ (m.cls = 0 → m.w0.toNat.testBit 8 = true → f.info = BitVec.ofNat 64 (m.beginAt + m.w3.toNat / 2 ^ 48)) ∧ (s.now + 1, f) ∈ (t.ctx m.core m.ctx).stops))
  ∧ ∀ (s : State), exec .thermalTripEnd s = .next { s with tripOn := false }

/-- R328, R332, R333, R345, R347: flits. A port in service takes the next flit of its SEQ: one of class 2 for this module has its message, one for
another module goes on; one that fails its CRC is dropped and asked for again, once in the time a replay takes, and 17 in a row take the port out of
service. What a port sends in a tick is as the layout says. Words that a lead on another module sends reach the members here with their delays, and
so do its gang's stop and its going on (R263). That a flit of class 0 or 1 for this module only counts SEQ on is log entry 10; kinds, CRC, routes, the
time a replay takes, what a port does whose neighbour asks for a flit it no longer holds, that it sends nothing
new while its buffer is full of flits which may still be asked for, and when it forgets a request are log entry 31; the round trip is log entry 32, the
messages of a gang log entry 46. -/
def Sys2Proof.Claims.LinkFlits : Prop :=
  (∀ (s : State) (p : Nat) (flit : BitVec 960) (crc : BitVec 64), let k := tget s.ports Port.reset p
    let w := flit.toNat
    let good := crc = Config.crc64 flit
    let pay : BitVec 896 := BitVec.ofNat 896 (w / 2 ^ 64)
    let s1 := { s with ports := tput s.ports p { k with seqIn := k.seqIn + 1, fails := 0, askUntil := 0 } }
    let run := exec (.linkFlitReceive p flit crc) s
    (¬ Up s p → run = .next s)
    ∧ (Up s p → ¬ good → s.now < k.askUntil → run = .next s)
    ∧ (Up s p → ¬ good → k.askUntil ≤ s.now → p < 12 → s.den = false → ∃ u,
        Tells { s with ports := tput s.ports p { k with fails := k.fails + 1, askUntil := s.now + 2 * (180 * mhzOf s / 1000) } } u p 8 (k.seqIn.setWidth 64)
        ∧ run = .next (if 17 ≤ k.fails + 1 then { u with ports := tput u.ports p { tget u.ports Port.reset p with inService := false } } else u))
    ∧ (Up s p → good → w / 2 ^ 10 % 2 ^ 16 ≠ k.seqIn.toNat → run = .next s)
    ∧ (Up s p → good → w / 2 ^ 10 % 2 ^ 16 = k.seqIn.toNat →
      (w / 2 ^ 2 % 2 ^ 8 ≠ Config.moduleNumber →
        let r := Config.portToward (w / 2 ^ 2 % 2 ^ 8)
        let out := tget s1.ports Port.reset r
        run = .next { s1 with ports := tput s1.ports r { out with queue := out.queue ++ [⟨w % 4, w / 2 ^ 2 % 2 ^ 8, pay, none⟩] } })
      ∧ (w / 2 ^ 2 % 2 ^ 8 = Config.moduleNumber → w % 4 ≠ 2 → run = .next s1)
      ∧ (w / 2 ^ 2 % 2 ^ 8 = Config.moduleNumber → w % 4 = 2 →
        let kind := (Config.controlOf pay).1
        let v := (Config.controlOf pay).2
        (kind = 1 → ∃ u, Tells s1 u p 7 (BitVec.ofNat 64 s.now) ∧ run = .next u)
        ∧ (kind = 2 → s.den = true → s.src < 12 → ∃ u, Tells s1 u s.src 2 v ∧ run = .next u)
        ∧ (kind = 2 → s.den = true → 12 ≤ s.src → s.stepPend = false → v.toNat % 4 ≠ s.stepF →
            ∃ t, run = .next t ∧ t.stepNext = v.toNat % 4 ∧ t.stepPend = true ∧ t.tchg = BitVec.ofNat 64 (s.now + 131072))
        ∧ (kind = 3 → run = exec (.gangConfirm (v.toNat % 2 ^ 16) (v.toNat / 2 ^ 16 % 2 ^ 8)) s1)
        ∧ (kind = 4 → run = exec (.gangAbort (v.toNat % 2 ^ 16) (v.toNat / 2 ^ 16 % 2 ^ 8)) s1)
        ∧ (kind = 6 → s.den = true → s.src = p → p < 12 → ∃ t, run = .next t ∧ t.stepNext = v.toNat % 4 ∧ t.stepPend = true
            ∧ t.tchg = BitVec.ofNat 64 (v.toNat / 4) ∧ t.stepDom = true)
        ∧ (kind = 7 → (s.syncSeen = none → run = .next s1)
            ∧ ∀ sent came, s.syncSeen = some (sent, came) → s.den = true → s.src = p → p < 12 →
              run = .next { s1 with
                syncSeen := none, pathTrip := some ((came : Int) - 256 * sent.toNat + 256 * ((v.toNat : Int) - k.reqAt)).toNat })
        ∧ (kind = 5 → ∀ l i, GangHere s l → l.lid = v.toNat / 2 ^ 48 → l.lx ≠ 0 → i ≤ l.ncore → (l.modix ≠ 0 ∨ i ≠ 0) →
            let c := s.ctx (l.fcore + i) l.ctxNo
            c.lx = l.lx → ∃ t lead, run = .next t ∧ lead ≤ s.now ∧ s.now < lead + 4096 ∧ (2 ^ 12 ≤ s.now → lead % 4096 = v.toNat / 2 ^ 36 % 4096)
              ∧ t.ctx (l.fcore + i) l.ctxNo = { c with bq := c.bq ++ [⟨lead + (l.modix * (l.ncore + 1) + i) * l.skew, v.toNat.testBit 35,
                  BitVec.ofNat 16 v.toNat, BitVec.ofNat 16 (v.toNat / 2 ^ 16), v.toNat / 2 ^ 32 % 8⟩] })
        ∧ (kind = 9 → ∀ l d, GangHere s l → l.lx ≠ 0 → l.lid = v.toNat % 2 ^ 16 → l.bcast = true → l.phase = 2 → d ∈ l.cores →
            let c := s.ctx d l.ctxNo
            c.lx = l.lx → c.service = none → c.preBy = 0 → c.status ≠ .halted → 1 ≤ c.bcast → c.bcast ≤ 2 →
            ∃ t x, run = .next t ∧ (t.ctx d l.ctxNo).service = some x ∧ x.sigma = s.now ∧ (t.ctx d l.ctxNo).bheld = true
              ∧ ∀ f ∈ (t.ctx d l.ctxNo).flights, f.land ≤ s.now)
        ∧ (kind = 10 → ∀ l i, GangHere s l → l.lx ≠ 0 → l.lid = v.toNat % 2 ^ 16 → i ≤ l.ncore → (l.modix ≠ 0 ∨ i ≠ 0) →
            let c := s.ctx (l.fcore + i) l.ctxNo
            c.lx = l.lx → c.bheld = true → ∃ t, run = .next t ∧ t.ctx (l.fcore + i) l.ctxNo
              = { c with bheld := false, bq := c.bq.map (fun b => { b with tick := b.tick + v.toNat / 2 ^ 16 }) })
        ∧ (kind = 8 → let seq := v.setWidth 16
            let asked (n : Nat) (again : List (BitVec 16 × FlitOut)) : Port :=
              { k with seqIn := k.seqIn + 1, fails := 0, askUntil := 0, asked := (seq, n), again := again }
            let times := if k.asked.1 = seq ∧ k.asked.2 ≠ 0 then k.asked.2 + 1 else 1
            (times ≤ 16 → ∀ l f r, k.sent = l ++ f :: r → f.seq = seq → (∀ g ∈ l, g.seq ≠ seq) →
              run = .next { s1 with ports := tput s1.ports p (asked times ((f :: r).map (fun g => (g.seq, g.flit)))) })
            ∧ (∀ n, k.asked = (seq, n) → 16 ≤ n → s.den = false → ∃ t, run = .next t ∧ (tget t.ports Port.reset p).inService = false)
            ∧ (seq ≠ k.seqOut → (∀ g ∈ k.sent, g.seq ≠ seq) → s.den = false → ∃ t, run = .next t ∧ (tget t.ports Port.reset p).inService = false)))))
  ∧ ∀ (s : State) (p : Nat), ∃ bs, Sends s.now (mhzOf s) (tget s.ports Port.reset p) bs (tget s.advance.ports Port.reset p)
      ∧ ((∃ k, (p, k) ∈ s.ports) → (s.ports.map (·.1)).Nodup → ∀ w ∈ bs, .flit s.now p w ∈ s.advance.outputs)

/-- R216, R263, R264, R325, R328, R329, R332, R333, R339, R345, R347: steps of the tick, the governor and the emergency trip; flits that come and go.
What a flit of class 0 or 1 carries is log entry 10; message kinds, CRC and routes are log entry 31; that lock is lost only where it was locked,
and which gangs and commands are given up, is log entry 32; the power and heat of a window, and the count of cool windows, are log entry 33; the
messages of a gang are log entry 46, and the vector of an event is log entry 54. Each is the model's choice. -/
def Obligations.StepsAndLinks : Prop := Sys2Proof.Claims.TickSteps ∧ Sys2Proof.Claims.LinkFlits

namespace Sys2Proof.Claims

/-- An operation changes the retirement map: its target is still in service, or a spare of its bank is still free (R338, R344). -/
def NewInMap (s : State) (o : ServiceOp) : Prop :=
  o.sop = 1 ∧ (s.core o.tgt).retired = false
  ∨ o.sop = 2 ∧ ((s.circuit o.tgt).retired = false ∨ ∃ i, i < 8 ∧ (s.core (8 * o.tgt + i)).retired = false)
  ∨ o.sop = 3 ∧ (s.channel (o.arg % 2) o.tgt).retired = false
  ∨ o.sop = 4 ∧ tget (s.channel (o.arg % 2) o.tgt).spares 0 (o.arg / 2 % 32) < 8
  ∨ o.sop = 5 ∧ o.arg ∉ (tget s.ports Port.reset o.tgt).lanes

/-- An operation is to end at a tick with a result. -/
def EndsAt (s t : State) (o : ServiceOp) (n r : Nat) : Prop :=
  ∃ a, t.service = some { o with doneAt := some n, result := r, image := none, alters := a } ∧ (a = true ↔ NewInMap s o)

end Sys2Proof.Claims

/-- R343: a service request is ignored while one is pending, refused for a bad target, else pending until its quiet tick. -/
def Sys2Proof.Claims.ServiceRequests : Prop :=
  (∀ (i : Instr) (s : State) (n : Nat) (t : BitVec 8) (a : BitVec 52) (ok : Bool), ServiceForm i n t a ok →
    exec i s = .next (if s.sbusy then { s with sres := 4 } else if ok = false then { s with sres := 1, stgt := t, sarg := a }
      else { s with sbusy := true, sres := 0, stgt := t, sarg := a, service := some ⟨n, t.toNat, a.toNat, none, 0, none, false⟩ }))
  ∧ ∀ (s : State), (∀ o, s.service = some o → o.doneAt = none → Holds s o) → exec .serviceQuietTick s = .next s

/-- R338, R343 to R348: what an operation does at its quiet tick. Whether an image is accepted depends on free constants (log entry 6), and that its
magic number is not asked for is log entry 37. -/
def Sys2Proof.Claims.QuietTicks : Prop :=
  ∀ (s : State) (o : ServiceOp), s.service = some o → o.doneAt = none → ¬ Holds s o → 1 ≤ o.sop → o.sop ≤ 9 →
      let image := s.imageAt (o.arg * 4096)
      ∃ t, exec .serviceQuietTick s = .next t
        ∧ (o.sop = 1 → (t.core o.tgt).retired = true ∧ EndsAt s t o s.now 0)
        ∧ (o.sop = 2 → o.tgt < 32 → (∀ c, c / 8 = o.tgt → (t.core c).retired = true) ∧ (t.circuit o.tgt).retired = true ∧ (t.circuit o.tgt).dir = []
            ∧ EndsAt s t o s.now 0)
        ∧ (o.sop = 3 → (t.channel (o.arg % 2) o.tgt).retired = true ∧ EndsAt s t o s.now 0)
        ∧ (o.sop = 4 → let c := s.channel (o.arg % 2) o.tgt
            let b := o.arg / 2 % 32
            (tget c.spares 0 b < 8 → tget (t.channel (o.arg % 2) o.tgt).spares 0 b = tget c.spares 0 b + 1 ∧ EndsAt s t o (s.now + 2048) 0)
            ∧ (8 ≤ tget c.spares 0 b → EndsAt s t o s.now 3 ∧ t.channels = s.channels))
        ∧ (o.sop = 5 → s.den = false → o.arg ∈ (tget t.ports Port.reset o.tgt).lanes ∧ EndsAt s t o s.now 0
            ∧ (6 ≤ (tget t.ports Port.reset o.tgt).lanes.length → (tget t.ports Port.reset o.tgt).inService = false))
        ∧ (o.sop = 6 → (Accepted s 1 image → t.pauseTo = s.now + 262144 ∧ EndsAt s t o (s.now + 262144) 0
              ∧ t.svns = tput s.svns 1 (bytesAt image 6 2) ∧ t.digests = tput s.digests 1 (digestOf image))
            ∧ (¬ Accepted s 1 image → CleanDevice s → t = { s with service := t.service } ∧ EndsAt s t o s.now 2))
        ∧ (o.sop = 7 → CleanDevice s → (Accepted s 2 image → t = { s with service := some { o with
              doneAt := some (s.now + 65536), result := 0, image := some (bytesAt image 6 2, digestOf image), alters := false } })
            ∧ (¬ Accepted s 2 image → t = { s with service := t.service } ∧ EndsAt s t o s.now 2))
        ∧ (o.sop = 8 → (tget t.ports Port.reset o.tgt).until' = s.now + 4194304 ∧ EndsAt s t o (s.now + 4194304) 0
            ∧ (s.den = true → s.src < 12 → s.src = o.tgt → t.lock = 3) ∧ ((s.den = false ∨ s.src ≠ o.tgt) → t.lock = s.lock))
        ∧ (o.sop = 9 → ∃ w : HostWrite, t.hostWrites = s.hostWrites ++ [w] ∧ w.addr = o.arg * 64 ∧ w.bytes = 4096 ∧ w.stream = none
            ∧ (∀ i, w.data / 2 ^ (128 * i) % 2 ^ 128 = (((s.core o.tgt).trace[i]?).getD 0).toNat)
            ∧ t.service = some { o with doneAt := none, result := 0, image := none, alters := false })

/-- R255, R343, R344, R346: an operation is complete: the request is over with its result, KIND 13 is posted with the target, and the map has
changed where the operation has changed it, or a microcode image runs and the die's cellar program memories are zero. A refused image changes
nothing. That KIND 13 is posted after SRES 2 and 3 too, and that the copy of a trace ring ends with its device write, is log entry 37. -/
def Sys2Proof.Claims.ServiceEnds : Prop :=
  (∀ (s : State) (o : ServiceOp) (n : Nat), s.service = some o → o.doneAt = some n → n ≤ s.now →
      ∃ t, exec .serviceOperationDone s = .next t ∧ t.sbusy = false ∧ t.sres = o.result ∧ t.service = none
        ∧ ((o.sop ≤ 5) → o.result = 0 → t.rmapv = if o.alters then s.rmapv + 1 else s.rmapv)
        ∧ (o.sop = 4 → o.result = 0 → (t.channel (o.arg % 2) o.tgt).spared = (s.channel (o.arg % 2) o.tgt).spared ++ [(o.arg / 2 % 32, o.arg / 64 % 2 ^ 18)])
        ∧ (o.sop = 7 → o.result = 0 → (∀ c, c / 64 = o.tgt → c < 256 → (t.channel 0 c).cellar.prog = [])
            ∧ ∀ i, o.image = some i → t.svns = tput s.svns 2 i.1 ∧ t.digests = tput s.digests 2 i.2)
        ∧ (o.result ≠ 0 → Quiet s → t = { s with sbusy := false, sres := o.result, service := none })
        ∧ (∀ q, CleanDevice s → OnlyStream s q → t.hostWrites = (s.post q 0 13 o.tgt (BitVec.ofNat 64 s.now)).hostWrites)
        ∧ t.launches = s.launches)
  ∧ ∀ (s : State) (w : HostWrite) (r : List HostWrite) (o : ServiceOp), s.hostWrites = w :: r → w.stream = none → s.service = some o →
      s.hostMem.wf = true → ∃ t, exec .deviceWriteCompletion s = .next t ∧ t.hostWrites = r
      ∧ t.service = some { o with doneAt := some s.now }
      ∧ ∀ a, mread t.hostMem a = if w.addr ≤ a ∧ a < w.addr + w.bytes then BitVec.ofNat 8 (w.data / 256 ^ (a - w.addr)) else mread s.hostMem a

/-- R255, R266, R282, R338, R343 to R348: service operations, from the request to its end. Whether an image is accepted depends on free constants (log
entry 6), and the layout of the map is free too (log entry 23); KIND 13 after SRES 2 or 3, the end of a trace ring's copy with its device write, the
acceptance of an image without its magic number, and that a second spare of a row changes the map are log entry 37. Each is the model's choice. -/
def Obligations.ServiceOperations : Prop :=
  Sys2Proof.Claims.ServiceRequests ∧ Sys2Proof.Claims.QuietTicks ∧ Sys2Proof.Claims.ServiceEnds

/-- R324, R330, R334 to R337: at power-on the images are verified one after another, and a module whose Pupol is refused keeps its streams off; a
rollback counter rises, no higher than the SVN in use; a request for a report makes the device busy, and the report carries nonce, NOW, serial
number, counters, digests, key and signature. The images, the keys, the certificate and the serial number are free constants, and SHA-512 and Ed25519 are the functions of
their published texts (log entry 6); the ticks a report takes, and that
its nonce is the one held then, are log entry 53; the vector its interrupt raises is log entry 54, the acceptance of an image without its magic
number log entry 37, and the bytes and the address of the map log entry 23. Each is the model's choice. -/
def Sys2Proof.Claims.BootAndReports : Prop :=
  (∀ (s : State), let bs := Config.bootImage
      (¬ Accepted s 0 (bs 0) → exec .boot s = .next { s with booted := true, pupolOk := false })
      ∧ (Accepted s 0 (bs 0) → ¬ Accepted s 1 (bs 1) → exec .boot s = .next { running s 0 (bs 0) with booted := true, pupolOk := false })
      ∧ (Accepted s 0 (bs 0) → Accepted s 1 (bs 1) → ∃ t, exec .boot s = .next t ∧ t.booted = true ∧ t.pupolOk = true
          ∧ t.rmapa = BitVec.ofNat 64 Config.rmapAddress ∧ t.cores = s.cores ∧ t.now = s.now ∧ t.rollback = s.rollback
          ∧ let s1 := running (running s 0 (bs 0)) 1 (bs 1)
            (Accepted s 2 (bs 2) → t.svns = (running s1 2 (bs 2)).svns ∧ t.digests = (running s1 2 (bs 2)).digests)
            ∧ (¬ Accepted s 2 (bs 2) → t.svns = s1.svns ∧ t.digests = s1.digests)))
  ∧ (∀ (s : State) (ty : Nat) (v : Word),
      ((∀ p ∈ s.svns, p.1 ≠ ty) → exec (.rollbackRaise ty v) s = .next s)
      ∧ ∀ svn l r, s.svns = l ++ (ty, svn) :: r → (∀ p ∈ l, p.1 ≠ ty) →
        exec (.rollbackRaise ty v) s = .next (if tget s.rollback 0 ty < v.toNat ∧ v.toNat ≤ svn ∧ v.toNat ≤ 63
          then { s with rollback := tput s.rollback ty v.toNat } else s))
  ∧ (∀ (s : State) (v : Word), (∀ n, s.attDue = some n → s.now < n) →
      exec (.attestationRequest v) s = .next (if v = 1 ∧ s.attStat / 2 % 2 = 0
        then { s with attStat := s.attStat ||| 2, attDue := some (s.now + 1 + Config.reportTicks s.now) } else s))
  ∧ ∀ (s : State) (v : Word) (n : Nat), s.attDue = some n → n ≤ s.now →
      ∃ t, exec (.attestationRequest v) s = .next t
      ∧ { t with attRep := s.attRep } = { s with attStat := 1, attDue := none, outputs := s.outputs ++ [.interrupt s.now 4] }
      ∧ (∀ i, i < 4 → tget t.attRep 0 i = tget s.nonce 0 i) ∧ (tget t.attRep 0 4).toNat = s.now % 2 ^ 64
      ∧ tget t.attRep 0 5 = Config.serialNumber
      ∧ (∀ ty, ty < 16 → (tget t.attRep 0 (6 + ty / 8)).toNat / 2 ^ (8 * (ty % 8)) % 256 = tget s.rollback 0 ty % 256)
      ∧ (∀ ty i, ty < 3 → i < 8 → (tget t.attRep 0 (8 + 8 * ty + i)).toNat = (tget s.digests 0 ty).toNat / 2 ^ (64 * i) % 2 ^ 64)
      ∧ (∀ i, i < 8 → (tget t.attRep 0 (32 + i)).toNat = (sha512 s.retirementMap).toNat / 2 ^ (64 * i) % 2 ^ 64)
      ∧ (∀ i, i < 4 → (tget t.attRep 0 (40 + i)).toNat = (ed25519Public Config.identitySecret).toNat / 2 ^ (64 * i) % 2 ^ 64)
      ∧ (∀ i, i < 12 → tget t.attRep 0 (44 + i) = 0)
      ∧ ∃ body : List Byte, body.length = 448
        ∧ (∀ k, k < 448 → body[k]? = some (BitVec.ofNat 8 ((tget t.attRep 0 (k / 8)).toNat / 2 ^ (8 * (k % 8)))))
        ∧ ∀ i, i < 8 → (tget t.attRep 0 (56 + i)).toNat = (ed25519Sign Config.identitySecret (bytesOf 64 (sha512 body).toNat)).toNat / 2 ^ (64 * i) % 2 ^ 64

/-- R254, R255, R269, R324, R335 to R338: what a host read of the three ranges returns, 8 bytes at a time. -/
def Sys2Proof.Claims.HostReads : Prop :=
  (∀ (s : State), s.readTime 0 = BitVec.ofNat 64 s.now
      ∧ (s.lock < 4 → s.stepF < 4 → s.stepNext < 4 → (s.readTime 8).toNat
          = s.lock + 4 * s.stepF + 16 * s.stepNext + (if s.stepPend then 64 else 0) + (if s.trip then 128 else 0))
      ∧ s.readTime 0x010 = s.tchg ∧ s.readTime 0x018 = s.tofs.setWidth 64
      ∧ (s.src < 16 → (s.readTime 0x020).toNat = s.src + (if s.den then 16 else 0))
      ∧ (∀ i, i < 4 → s.readTime (0x100 + 8 * i) = tget s.nonce 0 i) ∧ s.readTime 0x128 = BitVec.ofNat 64 s.attStat
      ∧ (∀ i, i < 64 → s.readTime (0x200 + 8 * i) = tget s.attRep 0 i)
      ∧ (∀ ty, ty < 16 → (s.readTime (0x400 + ty / 8 * 8)).toNat / 2 ^ (8 * (ty % 8)) % 256 = tget s.rollback 0 ty % 256)
      ∧ (∀ i, i < 1024 → (s.readTime (0x800 + i / 8 * 8)).toNat / 2 ^ (8 * (i % 8)) % 256 = (Config.certificate i).toNat)
      ∧ s.readTime 0xC00 = BitVec.ofNat 64 s.plim ∧ (s.readTime 0xC08).toNat = s.pnow.toNat + 2 ^ 16 * s.tdie.toNat
      ∧ (s.readTime 0xC10).toNat = (if s.pdeg then 1 else 0) + (if s.cexm then 2 else 0)
      ∧ (s.readTime 0xC18).toNat = 2 ^ 4 * s.stgt.toNat + 2 ^ 12 * s.sarg.toNat
      ∧ (s.sres < 8 → (s.readTime 0xC20).toNat = (if s.sbusy then 1 else 0) + 2 * s.sres)
      ∧ s.readTime 0xC28 = BitVec.ofNat 64 s.secor ∧ s.readTime 0xC30 = BitVec.ofNat 64 s.seunc ∧ s.readTime 0xC38 = s.rmapa
      ∧ s.readTime 0xC40 = s.rmapv.setWidth 64 ∧ s.readTime 0x028 = 0 ∧ s.readTime 0x120 = 0 ∧ s.readTime 0xC48 = 0)
  ∧ (∀ (s : State) (q k i : Nat), q < 4 → k < 8 → i < 64 → s.readStreams (0x1000 * q + 0x200 * k + 8 * i) = tget (s.stream q).slots 0 (64 * k + i))
  ∧ (∀ (s : State) (q : Nat), q < 4 → let st := s.stream q
      let at' := 0x8000 + 0x40 * q
      (st.prio < 4 → (s.readStreams at').toNat = st.prio + (if st.en then 4 else 0))
      ∧ (∀ b, b < 64 → ((s.readStreams (at' + 8)).getLsbD b = true ↔ b < 8 ∧ (∃ p ∈ st.closed, p.1 = b) ∨ b = 8 ∧ st.drop = true
          ∨ b = 9 ∧ st.ended = true ∨ b = 10 ∧ st.evovf = true))
      ∧ s.readStreams (at' + 0x10) = st.evbase ∧ s.readStreams (at' + 0x18) = BitVec.ofNat 64 st.evlog
      ∧ s.readStreams (at' + 0x20) = st.evhead.setWidth 64 ∧ s.readStreams (at' + 0x28) = st.evtail.setWidth 64)
  ∧ ∀ (s : State) (c x i : Nat), c < 256 → x < 4 → i < 8 → s.readRecords (256 * c + 64 * x + 8 * i) = ((s.ctx c x).record[i]?).getD 0

/-- R254, R255, R269, R324, R330, R334 to R338: boot, rollback counters and reports, and what the host reads of the registers. Images, keys
and the texts of the algorithms are log entry 6, the map log entry 23, the acceptance of an image log entry 37, the ticks and the nonce of a report log entry 53, its
vector log entry 54. -/
def Obligations.Security : Prop := Sys2Proof.Claims.BootAndReports ∧ Sys2Proof.Claims.HostReads

/-! ## Steps, encodings, reset and invariants -/

namespace Sys2Proof.Claims

/-- The bits of a slot (R54). -/
def slotWidth (u : SlotName) : Nat :=
  match u with
  | .c => 22 | .sa => 25 | .sb => 25 | .ma => 24 | .mb => 24 | .x => 25 | .va => 35 | .vb => 35 | .mx => 17 | .e => 12

/-- The fifteen cellar instructions (R299). -/
inductive CellarWord : Instr → Prop where
  | nop n : CellarWord (.ceNop n)
  | jset d i : CellarWord (.ceJset d i)
  | jadd d a i : CellarWord (.ceJadd d a i)
  | bnz d l : CellarWord (.ceBnz d l)
  | wait a : CellarWord (.ceWait a)
  | cfmt w a e : CellarWord (.ceCfmt w a e)
  | ald b a : CellarWord (.ceAld b a)
  | clr m : CellarWord (.ceClr m)
  | wdot a b k e : CellarWord (.ceWdot a b k e)
  | wdotAdd a b k e : CellarWord (.ceWdotAdd a b k e)
  | psc a b c e w : CellarWord (.cePsc a b c e w)
  | scl a m : CellarWord (.ceScl a m)
  | ptop c k d f : CellarWord (.cePtop c k d f)
  | out c f t z : CellarWord (.ceOut c f t z)
  | stop : CellarWord .ceEnd

end Sys2Proof.Claims

/-- R12, R56, R297, R308: a step runs the decoded instruction. With a bundle in the latch it is the front slot's, which then leaves the latch,
after the last of which the bundle ends; with none, what the tick brings first; a due cellar engine runs the word at CPC. The order in which
a tick's happenings are taken, and the issue latch, are the model's own (log entries 2 and 22). -/
def Obligations.StepRuns : Prop :=
  (∀ (s t : State) (u : SlotName) (r : List SlotName) (i : Instr), s.iss.left = u :: r →
      decodeSlot u (slotBits s.iss.entry u) = .ok i → exec i s = .next t →
      step s = .next t.retire
      ∧ (t.iss.left = [] → step s = .next t)
      ∧ (∀ a, t.iss.left = [a] → step s = .next (State.finishBundle { t with iss := { t.iss with left := [] } }))
      ∧ (∀ a b l, t.iss.left = a :: b :: l → step s = .next { t with iss := { t.iss with left := b :: l } }))
  ∧ (∀ (s : State) (u : SlotName) (r : List SlotName) (e : Reject), s.iss.left = u :: r →
      decodeSlot u (slotBits s.iss.entry u) = .error e → step s = .fault .reservedSlot)
  ∧ (∀ (s : State), s.iss.left = [] → s.booted = false → step s = exec .boot s)
  ∧ (∀ (s : State), s.iss.left = [] → s.booted = true → s.counted = false →
      (∀ n i, s.inputNext = some (n, i) → step s = exec i { s with inputs := dropEq (n, i) s.inputs })
      ∧ (s.inputNext = none → s.earlyDue = true → step s = .next (s.performWhere s.readsEarly))
      ∧ (s.inputNext = none → s.earlyDue = false →
        (∀ i, s.workNext = some i → step s = exec i s)
        ∧ (s.workNext = none → ∀ m ch e, s.cellarFirst = some (m, ch, e) →
          (128 ≤ e.cpc ∨ 2 ^ 24 ≤ e.count → step s = exec (.cellarLaunch m.id) s)
          ∧ (e.cpc < 128 → e.count < 2 ^ 24 →
            (∀ i, decodeCellar (tget e.prog 0 e.cpc).toNat = .ok i → step s = exec i { s with ceCh := ch })
            ∧ (∀ x, decodeCellar (tget e.prog 0 e.cpc).toNat = .error x → step s = .fault .reservedCellarWord)))
        ∧ (s.workNext = none → s.cellarFirst = none → step s = .next s.countWaits)))
  ∧ ∀ (s : State), s.iss.left = [] → s.booted = true → s.counted = true → (∀ p ∈ s.places, (s.ctx p.1 p.2).wrapDue = false) →
      (∀ i, s.stopNext = some i → step s = exec i s)
      ∧ (s.stopNext = none → ∀ i t, s.endNext = .event i t → step s = exec i t)
      ∧ (s.stopNext = none → ∀ t, s.endNext = .own t → step s = .next t)

/-- R54, R56 to R69, R81, R82, R299: words the spec writes out, a few of each layout, and one whole entry, decode to what they stand for. -/
def Obligations.DecodeWords : Prop :=
  decodeSlot .c 0x1A904 = .ok (.xfer 2 2 4 1) ∧ decodeSlot .c 0x21000 = .ok (.go 1) ∧ decodeSlot .c 0x28400 = .ok (.loop 0 4)
  ∧ decodeSlot .c 0x42480 = .ok (.waitTick 9)
  ∧ decodeSlot .sa 0x2643B = .ok (.add .sa 0 ⟨3, 1⟩ 1 27) ∧ decodeSlot .sa 0x30847F = .ok (.cmp .sa 0 4 1 3 31)
  ∧ decodeSlot .ma 0x75041 = .ok (.ldI64 .ma 0 ⟨5, 0⟩ 2 1) ∧ decodeSlot .mb 0x1C0C02 = .ok (.drain 0 0 3 0 0 2)
  ∧ decodeSlot .mb 0x1C4662 = .ok (.drain 0 1 1 1 3 2)
  ∧ decodeSlot .x 0x12003B = .ok (.aqp 0 1 27)
  ∧ decodeSlot .va 0x019830880 = .ok (.vmul .va ⟨0, 3, 0, 3, 1, 2, 0, 0⟩) ∧ decodeSlot .va 0x089841800 = .ok (.vred .va ⟨0, 3, 0, 4, 3, 0, 0, 0⟩)
  ∧ decodeCellar 0x28000000 = .ok (.ceCfmt 0 0 0) ∧ decodeCellar 0x30400000 = .ok (.ceAld 0 2) ∧ decodeCellar 0x0B000003 = .ok (.ceJset 3 3)
  ∧ decodeCellar 0x4B000000 = .ok (.cePsc 3 0 0 0 0) ∧ decodeCellar 0x00000020 = .ok (.ceNop 32)
  ∧ decodeCellar 0x58042000 = .ok (.cePtop 0 1 0 2) ∧ decodeCellar 0x68000000 = .ok .ceEnd
  ∧ decodeSlots 0x00200000004C8760000000750410000000000000000000000000000000000000 allSlots
      = some [.nop .c, .add .sa 0 ⟨3, 1⟩ 1 27, .nop .sb, .ldI64 .ma 0 ⟨5, 0⟩ 2 1, .memNop .mb, .nop .x, .nop .va, .nop .vb, .nop .mx, .nop .e]
  ∧ entryValid 0x00200000004C8760000000750410000000000000000000000000000000000000 = true

/-- R54, R56 to R69, R299: every slot operation and every one of the fifteen cellar instructions has a word of its width, and a well-formed one
decodes from it, with every operand at every value the encoding admits. -/
def Obligations.DecodeOfEncode : Prop :=
  (∀ (i : Instr) (w : Nat), i.wf = true → encode i = some w → decodeFor i w = some i)
  ∧ (∀ (i : Instr) (u : SlotName), slotOf i = some u → ∃ w, encode i = some w ∧ w < 2 ^ Claims.slotWidth u)
  ∧ (∀ (i : Instr), Claims.CellarWord i → ∃ w, encode i = some w ∧ w < 2 ^ 32)
  ∧ ∀ (i : Instr), isCellar i = true ↔ Claims.CellarWord i

/-- R56, R299: each word has one meaning, and no bit of it is dropped. A word that decodes is the encoding of what it decodes to, which
is well formed and belongs to the slot. -/
def Obligations.EncodeOfDecode : Prop :=
  (∀ (u : SlotName) (w : Nat) (i : Instr), w < 2 ^ Claims.slotWidth u → decodeSlot u w = .ok i →
      i.wf = true ∧ slotOf i = some u ∧ encode i = some w)
  ∧ ∀ (w : Nat) (i : Instr), w < 2 ^ 32 → decodeCellar w = .ok i → i.wf = true ∧ isCellar i = true ∧ encode i = some w

/-- R28, R45, R88, R119, R145 to R148, R157, R179, R195, R197, R255, R287 to R292, R297, R324, R338: the machine right after reset holds the
values of the Reset columns. -/
def Obligations.ResetValues : Prop :=
  let s := State.reset
  (∀ c x i, (s.ctx c x).status = .empty ∧ tget (s.ctx c x).g 0 i = 0 ∧ tget (s.ctx c x).v 0 i = 0
      ∧ tget (s.ctx c x).k (BitVec.allOnes 128) i = BitVec.allOnes 128 ∧ (s.ctx c x).p = 0 ∧ (s.ctx c x).bV = 0 ∧ tget (s.ctx c x).bT 0 i = 0
      ∧ tget (s.ctx c x).a 0 i = 0 ∧ tget (s.ctx c x).lc 0 i = 0 ∧ tget (s.ctx c x).lsw 0 i = 0 ∧ tget (s.ctx c x).delta 0 i = 0
      ∧ tget (s.ctx c x).e 0 i = 0 ∧ tget (s.ctx c x).latch 0 i = 0 ∧ (s.ctx c x).vs = 0 ∧ (s.ctx c x).fmt = 0 ∧ (s.ctx c x).wacc = 0
      ∧ (s.ctx c x).gsel = 0 ∧ (s.ctx c x).vwc = 0 ∧ (s.ctx c x).qrpos = 0 ∧ (s.ctx c x).aqocc = 0 ∧ (s.ctx c x).estat = 0
      ∧ tget (s.ctx c x).hcw 0 i = 0)
  ∧ (∀ c i, (s.core c).array.actl.toNat = 128 + 2 ^ 8 * 128 + 2 ^ 16 * 128 ∧ (s.core c).array.aptr = 0 ∧ (s.core c).array.dptr = 0
      ∧ (s.core c).array.lptr = 0 ∧ (s.core c).array.awc = 0 ∧ tget (s.core c).array.w 0 i = 0 ∧ tget (s.core c).array.acc 0 i = 0
      ∧ tget (s.core c).barriers Barrier.reset i = ⟨0, 0, 0, false, 0, 0, []⟩ ∧ tget (s.core c).tags 0 i = 0 ∧ tget (s.core c).own 0 i = 0
      ∧ tget (s.core c).waitq 0 i = 0)
  ∧ (∀ c, (s.channel 0 c).plan = ⟨365, false, 0, 0, 256, 0, 128, false, [], []⟩ ∧ (s.channel 1 c).plan = ⟨365, false, 0, 0, 384, 0, 192, false, [], []⟩
      ∧ ∀ t, (s.channel t c).debt0 = 0 ∧ (s.channel t c).debt1 = 0 ∧ (s.channel t c).raat = 32 ∧ (s.channel t c).raamax = 64
        ∧ (s.channel t c).cls = false ∧ (s.channel t c).cecnt = 0 ∧ (s.channel t c).cellar = Cellar.reset)
  ∧ (∀ q, (s.stream q).prio = q ∧ (s.stream q).en = false ∧ (s.stream q).evlog = 4 ∧ (s.stream q).evbase = 0 ∧ (s.stream q).evhead = 0
      ∧ (s.stream q).evtail = 0)
  ∧ s.now = 0 ∧ s.lock = 0 ∧ s.stepF = 0 ∧ s.src = 15 ∧ s.den = false ∧ s.plim = 2400 ∧ s.pdeg = false ∧ s.cexm = false ∧ s.sbusy = false
  ∧ s.sres = 0 ∧ s.rmapv = 0

/-- At reset every memory is in its canonical form. The form is the model's own. See log entry 1. -/
def Obligations.MemoriesCanonicalAtReset : Prop := MemoriesCanonical State.reset

/-- Every step keeps every memory in its canonical form, so that equal memories are equal data. The form is the model's own. See log entry
1. -/
def Obligations.StepsKeepMemoriesCanonical : Prop :=
  ∀ (s t : State), MemoriesCanonical s → step s = .next t → MemoriesCanonical t


/-- R30 to R43, R48 to R50, R122, R124 to R126, R144, R152, R153, R157 to R161: rounding, the arithmetic of the float formats and
conversions, from the formats' layouts; the sums of the matrix array and the rows of generators. A conversion of .c40 to .c40 is log
entry 19, the sign of zero log entry 20, draws into integers log entry 57, and which of two NaNs an accumulator word takes log entry 72. -/
def Obligations.FloatArithmetic : Prop :=
  Sys2Proof.Claims.RoundingRight ∧ Sys2Proof.Claims.FloatsRight ∧ Sys2Proof.Claims.ConversionsRight
  ∧ Sys2Proof.Claims.ColumnSums ∧ Sys2Proof.Claims.GeneratorRows
end

