-- ==== Sys2Proof/Laws/State.lean ====
section
/-! SUPPORT. What each update of the state leaves alone: one lemma per field per update, all by `rfl`. -/

namespace Sys2Proof.Machine

/-! ## setCore -/

@[simp] theorem State.setCore_now (s : State) (c : Nat) (k : Core) : (s.setCore c k).now = s.now := rfl
@[simp] theorem State.setCore_iss (s : State) (c : Nat) (k : Core) : (s.setCore c k).iss = s.iss := rfl
@[simp] theorem State.setCore_counted (s : State) (c : Nat) (k : Core) : (s.setCore c k).counted = s.counted := rfl
@[simp] theorem State.setCore_ceCh (s : State) (c : Nat) (k : Core) : (s.setCore c k).ceCh = s.ceCh := rfl
@[simp] theorem State.setCore_inputs (s : State) (c : Nat) (k : Core) : (s.setCore c k).inputs = s.inputs := rfl
@[simp] theorem State.setCore_accesses (s : State) (c : Nat) (k : Core) : (s.setCore c k).accesses = s.accesses := rfl
@[simp] theorem State.setCore_msgs (s : State) (c : Nat) (k : Core) : (s.setCore c k).msgs = s.msgs := rfl
@[simp] theorem State.setCore_cmds (s : State) (c : Nat) (k : Core) : (s.setCore c k).cmds = s.cmds := rfl
@[simp] theorem State.setCore_eops (s : State) (c : Nat) (k : Core) : (s.setCore c k).eops = s.eops := rfl
@[simp] theorem State.setCore_circuits (s : State) (c : Nat) (k : Core) : (s.setCore c k).circuits = s.circuits := rfl
@[simp] theorem State.setCore_channels (s : State) (c : Nat) (k : Core) : (s.setCore c k).channels = s.channels := rfl
@[simp] theorem State.setCore_streams (s : State) (c : Nat) (k : Core) : (s.setCore c k).streams = s.streams := rfl
@[simp] theorem State.setCore_launches (s : State) (c : Nat) (k : Core) : (s.setCore c k).launches = s.launches := rfl
@[simp] theorem State.setCore_served (s : State) (c : Nat) (k : Core) : (s.setCore c k).served = s.served := rfl
@[simp] theorem State.setCore_gangMsgs (s : State) (c : Nat) (k : Core) : (s.setCore c k).gangMsgs = s.gangMsgs := rfl
@[simp] theorem State.setCore_performed (s : State) (c : Nat) (k : Core) : (s.setCore c k).performed = s.performed := rfl
@[simp] theorem State.setCore_hostMem (s : State) (c : Nat) (k : Core) : (s.setCore c k).hostMem = s.hostMem := rfl
@[simp] theorem State.setCore_outputs (s : State) (c : Nat) (k : Core) : (s.setCore c k).outputs = s.outputs := rfl
@[simp] theorem State.setCore_hostWrites (s : State) (c : Nat) (k : Core) : (s.setCore c k).hostWrites = s.hostWrites := rfl
@[simp] theorem State.setCore_hsigs (s : State) (c : Nat) (k : Core) : (s.setCore c k).hsigs = s.hsigs := rfl
@[simp] theorem State.setCore_nextId (s : State) (c : Nat) (k : Core) : (s.setCore c k).nextId = s.nextId := rfl
@[simp] theorem State.setCore_nextLx (s : State) (c : Nat) (k : Core) : (s.setCore c k).nextLx = s.nextLx := rfl
@[simp] theorem State.setCore_nextOrder (s : State) (c : Nat) (k : Core) : (s.setCore c k).nextOrder = s.nextOrder := rfl
@[simp] theorem State.setCore_admitted (s : State) (c : Nat) (k : Core) : (s.setCore c k).admitted = s.admitted := rfl
@[simp] theorem State.setCore_lock (s : State) (c : Nat) (k : Core) : (s.setCore c k).lock = s.lock := rfl
@[simp] theorem State.setCore_stepF (s : State) (c : Nat) (k : Core) : (s.setCore c k).stepF = s.stepF := rfl
@[simp] theorem State.setCore_stepNext (s : State) (c : Nat) (k : Core) : (s.setCore c k).stepNext = s.stepNext := rfl
@[simp] theorem State.setCore_stepPend (s : State) (c : Nat) (k : Core) : (s.setCore c k).stepPend = s.stepPend := rfl
@[simp] theorem State.setCore_tchg (s : State) (c : Nat) (k : Core) : (s.setCore c k).tchg = s.tchg := rfl
@[simp] theorem State.setCore_tofs (s : State) (c : Nat) (k : Core) : (s.setCore c k).tofs = s.tofs := rfl
@[simp] theorem State.setCore_src (s : State) (c : Nat) (k : Core) : (s.setCore c k).src = s.src := rfl
@[simp] theorem State.setCore_den (s : State) (c : Nat) (k : Core) : (s.setCore c k).den = s.den := rfl
@[simp] theorem State.setCore_trip (s : State) (c : Nat) (k : Core) : (s.setCore c k).trip = s.trip := rfl
@[simp] theorem State.setCore_tripOn (s : State) (c : Nat) (k : Core) : (s.setCore c k).tripOn = s.tripOn := rfl
@[simp] theorem State.setCore_syncGood (s : State) (c : Nat) (k : Core) : (s.setCore c k).syncGood = s.syncGood := rfl
@[simp] theorem State.setCore_coarseDone (s : State) (c : Nat) (k : Core) : (s.setCore c k).coarseDone = s.coarseDone := rfl
@[simp] theorem State.setCore_coarseTo (s : State) (c : Nat) (k : Core) : (s.setCore c k).coarseTo = s.coarseTo := rfl
@[simp] theorem State.setCore_syncAt (s : State) (c : Nat) (k : Core) : (s.setCore c k).syncAt = s.syncAt := rfl
@[simp] theorem State.setCore_syncSeen (s : State) (c : Nat) (k : Core) : (s.setCore c k).syncSeen = s.syncSeen := rfl
@[simp] theorem State.setCore_pathTrip (s : State) (c : Nat) (k : Core) : (s.setCore c k).pathTrip = s.pathTrip := rfl
@[simp] theorem State.setCore_stepDom (s : State) (c : Nat) (k : Core) : (s.setCore c k).stepDom = s.stepDom := rfl
@[simp] theorem State.setCore_plim (s : State) (c : Nat) (k : Core) : (s.setCore c k).plim = s.plim := rfl
@[simp] theorem State.setCore_pnow (s : State) (c : Nat) (k : Core) : (s.setCore c k).pnow = s.pnow := rfl
@[simp] theorem State.setCore_tdie (s : State) (c : Nat) (k : Core) : (s.setCore c k).tdie = s.tdie := rfl
@[simp] theorem State.setCore_windowAt (s : State) (c : Nat) (k : Core) : (s.setCore c k).windowAt = s.windowAt := rfl
@[simp] theorem State.setCore_coolWins (s : State) (c : Nat) (k : Core) : (s.setCore c k).coolWins = s.coolWins := rfl
@[simp] theorem State.setCore_stepWant (s : State) (c : Nat) (k : Core) : (s.setCore c k).stepWant = s.stepWant := rfl
@[simp] theorem State.setCore_pdeg (s : State) (c : Nat) (k : Core) : (s.setCore c k).pdeg = s.pdeg := rfl
@[simp] theorem State.setCore_cexm (s : State) (c : Nat) (k : Core) : (s.setCore c k).cexm = s.cexm := rfl
@[simp] theorem State.setCore_sbusy (s : State) (c : Nat) (k : Core) : (s.setCore c k).sbusy = s.sbusy := rfl
@[simp] theorem State.setCore_stgt (s : State) (c : Nat) (k : Core) : (s.setCore c k).stgt = s.stgt := rfl
@[simp] theorem State.setCore_sarg (s : State) (c : Nat) (k : Core) : (s.setCore c k).sarg = s.sarg := rfl
@[simp] theorem State.setCore_sres (s : State) (c : Nat) (k : Core) : (s.setCore c k).sres = s.sres := rfl
@[simp] theorem State.setCore_secor (s : State) (c : Nat) (k : Core) : (s.setCore c k).secor = s.secor := rfl
@[simp] theorem State.setCore_seunc (s : State) (c : Nat) (k : Core) : (s.setCore c k).seunc = s.seunc := rfl
@[simp] theorem State.setCore_fixes (s : State) (c : Nat) (k : Core) : (s.setCore c k).fixes = s.fixes := rfl
@[simp] theorem State.setCore_rmapa (s : State) (c : Nat) (k : Core) : (s.setCore c k).rmapa = s.rmapa := rfl
@[simp] theorem State.setCore_rmapv (s : State) (c : Nat) (k : Core) : (s.setCore c k).rmapv = s.rmapv := rfl
@[simp] theorem State.setCore_service (s : State) (c : Nat) (k : Core) : (s.setCore c k).service = s.service := rfl
@[simp] theorem State.setCore_pauseTo (s : State) (c : Nat) (k : Core) : (s.setCore c k).pauseTo = s.pauseTo := rfl
@[simp] theorem State.setCore_booted (s : State) (c : Nat) (k : Core) : (s.setCore c k).booted = s.booted := rfl
@[simp] theorem State.setCore_pupolOk (s : State) (c : Nat) (k : Core) : (s.setCore c k).pupolOk = s.pupolOk := rfl
@[simp] theorem State.setCore_svns (s : State) (c : Nat) (k : Core) : (s.setCore c k).svns = s.svns := rfl
@[simp] theorem State.setCore_digests (s : State) (c : Nat) (k : Core) : (s.setCore c k).digests = s.digests := rfl
@[simp] theorem State.setCore_rollback (s : State) (c : Nat) (k : Core) : (s.setCore c k).rollback = s.rollback := rfl
@[simp] theorem State.setCore_nonce (s : State) (c : Nat) (k : Core) : (s.setCore c k).nonce = s.nonce := rfl
@[simp] theorem State.setCore_attStat (s : State) (c : Nat) (k : Core) : (s.setCore c k).attStat = s.attStat := rfl
@[simp] theorem State.setCore_attDue (s : State) (c : Nat) (k : Core) : (s.setCore c k).attDue = s.attDue := rfl
@[simp] theorem State.setCore_attRep (s : State) (c : Nat) (k : Core) : (s.setCore c k).attRep = s.attRep := rfl
@[simp] theorem State.setCore_ports (s : State) (c : Nat) (k : Core) : (s.setCore c k).ports = s.ports := rfl

/-! ## setStream -/

@[simp] theorem State.setStream_now (s : State) (q : Nat) (v : Stream) : (s.setStream q v).now = s.now := rfl
@[simp] theorem State.setStream_iss (s : State) (q : Nat) (v : Stream) : (s.setStream q v).iss = s.iss := rfl
@[simp] theorem State.setStream_counted (s : State) (q : Nat) (v : Stream) : (s.setStream q v).counted = s.counted := rfl
@[simp] theorem State.setStream_ceCh (s : State) (q : Nat) (v : Stream) : (s.setStream q v).ceCh = s.ceCh := rfl
@[simp] theorem State.setStream_inputs (s : State) (q : Nat) (v : Stream) : (s.setStream q v).inputs = s.inputs := rfl
@[simp] theorem State.setStream_cores (s : State) (q : Nat) (v : Stream) : (s.setStream q v).cores = s.cores := rfl
@[simp] theorem State.setStream_accesses (s : State) (q : Nat) (v : Stream) : (s.setStream q v).accesses = s.accesses := rfl
@[simp] theorem State.setStream_msgs (s : State) (q : Nat) (v : Stream) : (s.setStream q v).msgs = s.msgs := rfl
@[simp] theorem State.setStream_cmds (s : State) (q : Nat) (v : Stream) : (s.setStream q v).cmds = s.cmds := rfl
@[simp] theorem State.setStream_eops (s : State) (q : Nat) (v : Stream) : (s.setStream q v).eops = s.eops := rfl
@[simp] theorem State.setStream_circuits (s : State) (q : Nat) (v : Stream) : (s.setStream q v).circuits = s.circuits := rfl
@[simp] theorem State.setStream_channels (s : State) (q : Nat) (v : Stream) : (s.setStream q v).channels = s.channels := rfl
@[simp] theorem State.setStream_launches (s : State) (q : Nat) (v : Stream) : (s.setStream q v).launches = s.launches := rfl
@[simp] theorem State.setStream_served (s : State) (q : Nat) (v : Stream) : (s.setStream q v).served = s.served := rfl
@[simp] theorem State.setStream_gangMsgs (s : State) (q : Nat) (v : Stream) : (s.setStream q v).gangMsgs = s.gangMsgs := rfl
@[simp] theorem State.setStream_performed (s : State) (q : Nat) (v : Stream) : (s.setStream q v).performed = s.performed := rfl
@[simp] theorem State.setStream_hostMem (s : State) (q : Nat) (v : Stream) : (s.setStream q v).hostMem = s.hostMem := rfl
@[simp] theorem State.setStream_outputs (s : State) (q : Nat) (v : Stream) : (s.setStream q v).outputs = s.outputs := rfl
@[simp] theorem State.setStream_hostWrites (s : State) (q : Nat) (v : Stream) : (s.setStream q v).hostWrites = s.hostWrites := rfl
@[simp] theorem State.setStream_hsigs (s : State) (q : Nat) (v : Stream) : (s.setStream q v).hsigs = s.hsigs := rfl
@[simp] theorem State.setStream_nextId (s : State) (q : Nat) (v : Stream) : (s.setStream q v).nextId = s.nextId := rfl
@[simp] theorem State.setStream_nextLx (s : State) (q : Nat) (v : Stream) : (s.setStream q v).nextLx = s.nextLx := rfl
@[simp] theorem State.setStream_nextOrder (s : State) (q : Nat) (v : Stream) : (s.setStream q v).nextOrder = s.nextOrder := rfl
@[simp] theorem State.setStream_admitted (s : State) (q : Nat) (v : Stream) : (s.setStream q v).admitted = s.admitted := rfl
@[simp] theorem State.setStream_lock (s : State) (q : Nat) (v : Stream) : (s.setStream q v).lock = s.lock := rfl
@[simp] theorem State.setStream_stepF (s : State) (q : Nat) (v : Stream) : (s.setStream q v).stepF = s.stepF := rfl
@[simp] theorem State.setStream_stepNext (s : State) (q : Nat) (v : Stream) : (s.setStream q v).stepNext = s.stepNext := rfl
@[simp] theorem State.setStream_stepPend (s : State) (q : Nat) (v : Stream) : (s.setStream q v).stepPend = s.stepPend := rfl
@[simp] theorem State.setStream_tchg (s : State) (q : Nat) (v : Stream) : (s.setStream q v).tchg = s.tchg := rfl
@[simp] theorem State.setStream_tofs (s : State) (q : Nat) (v : Stream) : (s.setStream q v).tofs = s.tofs := rfl
@[simp] theorem State.setStream_src (s : State) (q : Nat) (v : Stream) : (s.setStream q v).src = s.src := rfl
@[simp] theorem State.setStream_den (s : State) (q : Nat) (v : Stream) : (s.setStream q v).den = s.den := rfl
@[simp] theorem State.setStream_trip (s : State) (q : Nat) (v : Stream) : (s.setStream q v).trip = s.trip := rfl
@[simp] theorem State.setStream_tripOn (s : State) (q : Nat) (v : Stream) : (s.setStream q v).tripOn = s.tripOn := rfl
@[simp] theorem State.setStream_syncGood (s : State) (q : Nat) (v : Stream) : (s.setStream q v).syncGood = s.syncGood := rfl
@[simp] theorem State.setStream_coarseDone (s : State) (q : Nat) (v : Stream) : (s.setStream q v).coarseDone = s.coarseDone := rfl
@[simp] theorem State.setStream_coarseTo (s : State) (q : Nat) (v : Stream) : (s.setStream q v).coarseTo = s.coarseTo := rfl
@[simp] theorem State.setStream_syncAt (s : State) (q : Nat) (v : Stream) : (s.setStream q v).syncAt = s.syncAt := rfl
@[simp] theorem State.setStream_syncSeen (s : State) (q : Nat) (v : Stream) : (s.setStream q v).syncSeen = s.syncSeen := rfl
@[simp] theorem State.setStream_pathTrip (s : State) (q : Nat) (v : Stream) : (s.setStream q v).pathTrip = s.pathTrip := rfl
@[simp] theorem State.setStream_stepDom (s : State) (q : Nat) (v : Stream) : (s.setStream q v).stepDom = s.stepDom := rfl
@[simp] theorem State.setStream_plim (s : State) (q : Nat) (v : Stream) : (s.setStream q v).plim = s.plim := rfl
@[simp] theorem State.setStream_pnow (s : State) (q : Nat) (v : Stream) : (s.setStream q v).pnow = s.pnow := rfl
@[simp] theorem State.setStream_tdie (s : State) (q : Nat) (v : Stream) : (s.setStream q v).tdie = s.tdie := rfl
@[simp] theorem State.setStream_windowAt (s : State) (q : Nat) (v : Stream) : (s.setStream q v).windowAt = s.windowAt := rfl
@[simp] theorem State.setStream_coolWins (s : State) (q : Nat) (v : Stream) : (s.setStream q v).coolWins = s.coolWins := rfl
@[simp] theorem State.setStream_stepWant (s : State) (q : Nat) (v : Stream) : (s.setStream q v).stepWant = s.stepWant := rfl
@[simp] theorem State.setStream_pdeg (s : State) (q : Nat) (v : Stream) : (s.setStream q v).pdeg = s.pdeg := rfl
@[simp] theorem State.setStream_cexm (s : State) (q : Nat) (v : Stream) : (s.setStream q v).cexm = s.cexm := rfl
@[simp] theorem State.setStream_sbusy (s : State) (q : Nat) (v : Stream) : (s.setStream q v).sbusy = s.sbusy := rfl
@[simp] theorem State.setStream_stgt (s : State) (q : Nat) (v : Stream) : (s.setStream q v).stgt = s.stgt := rfl
@[simp] theorem State.setStream_sarg (s : State) (q : Nat) (v : Stream) : (s.setStream q v).sarg = s.sarg := rfl
@[simp] theorem State.setStream_sres (s : State) (q : Nat) (v : Stream) : (s.setStream q v).sres = s.sres := rfl
@[simp] theorem State.setStream_secor (s : State) (q : Nat) (v : Stream) : (s.setStream q v).secor = s.secor := rfl
@[simp] theorem State.setStream_seunc (s : State) (q : Nat) (v : Stream) : (s.setStream q v).seunc = s.seunc := rfl
@[simp] theorem State.setStream_fixes (s : State) (q : Nat) (v : Stream) : (s.setStream q v).fixes = s.fixes := rfl
@[simp] theorem State.setStream_rmapa (s : State) (q : Nat) (v : Stream) : (s.setStream q v).rmapa = s.rmapa := rfl
@[simp] theorem State.setStream_rmapv (s : State) (q : Nat) (v : Stream) : (s.setStream q v).rmapv = s.rmapv := rfl
@[simp] theorem State.setStream_service (s : State) (q : Nat) (v : Stream) : (s.setStream q v).service = s.service := rfl
@[simp] theorem State.setStream_pauseTo (s : State) (q : Nat) (v : Stream) : (s.setStream q v).pauseTo = s.pauseTo := rfl
@[simp] theorem State.setStream_booted (s : State) (q : Nat) (v : Stream) : (s.setStream q v).booted = s.booted := rfl
@[simp] theorem State.setStream_pupolOk (s : State) (q : Nat) (v : Stream) : (s.setStream q v).pupolOk = s.pupolOk := rfl
@[simp] theorem State.setStream_svns (s : State) (q : Nat) (v : Stream) : (s.setStream q v).svns = s.svns := rfl
@[simp] theorem State.setStream_digests (s : State) (q : Nat) (v : Stream) : (s.setStream q v).digests = s.digests := rfl
@[simp] theorem State.setStream_rollback (s : State) (q : Nat) (v : Stream) : (s.setStream q v).rollback = s.rollback := rfl
@[simp] theorem State.setStream_nonce (s : State) (q : Nat) (v : Stream) : (s.setStream q v).nonce = s.nonce := rfl
@[simp] theorem State.setStream_attStat (s : State) (q : Nat) (v : Stream) : (s.setStream q v).attStat = s.attStat := rfl
@[simp] theorem State.setStream_attDue (s : State) (q : Nat) (v : Stream) : (s.setStream q v).attDue = s.attDue := rfl
@[simp] theorem State.setStream_attRep (s : State) (q : Nat) (v : Stream) : (s.setStream q v).attRep = s.attRep := rfl
@[simp] theorem State.setStream_ports (s : State) (q : Nat) (v : Stream) : (s.setStream q v).ports = s.ports := rfl

/-! ## setCircuit -/

@[simp] theorem State.setCircuit_now (s : State) (g : Nat) (v : Circuit) : (s.setCircuit g v).now = s.now := rfl
@[simp] theorem State.setCircuit_iss (s : State) (g : Nat) (v : Circuit) : (s.setCircuit g v).iss = s.iss := rfl
@[simp] theorem State.setCircuit_counted (s : State) (g : Nat) (v : Circuit) : (s.setCircuit g v).counted = s.counted := rfl
@[simp] theorem State.setCircuit_ceCh (s : State) (g : Nat) (v : Circuit) : (s.setCircuit g v).ceCh = s.ceCh := rfl
@[simp] theorem State.setCircuit_inputs (s : State) (g : Nat) (v : Circuit) : (s.setCircuit g v).inputs = s.inputs := rfl
@[simp] theorem State.setCircuit_cores (s : State) (g : Nat) (v : Circuit) : (s.setCircuit g v).cores = s.cores := rfl
@[simp] theorem State.setCircuit_accesses (s : State) (g : Nat) (v : Circuit) : (s.setCircuit g v).accesses = s.accesses := rfl
@[simp] theorem State.setCircuit_msgs (s : State) (g : Nat) (v : Circuit) : (s.setCircuit g v).msgs = s.msgs := rfl
@[simp] theorem State.setCircuit_cmds (s : State) (g : Nat) (v : Circuit) : (s.setCircuit g v).cmds = s.cmds := rfl
@[simp] theorem State.setCircuit_eops (s : State) (g : Nat) (v : Circuit) : (s.setCircuit g v).eops = s.eops := rfl
@[simp] theorem State.setCircuit_channels (s : State) (g : Nat) (v : Circuit) : (s.setCircuit g v).channels = s.channels := rfl
@[simp] theorem State.setCircuit_streams (s : State) (g : Nat) (v : Circuit) : (s.setCircuit g v).streams = s.streams := rfl
@[simp] theorem State.setCircuit_launches (s : State) (g : Nat) (v : Circuit) : (s.setCircuit g v).launches = s.launches := rfl
@[simp] theorem State.setCircuit_served (s : State) (g : Nat) (v : Circuit) : (s.setCircuit g v).served = s.served := rfl
@[simp] theorem State.setCircuit_gangMsgs (s : State) (g : Nat) (v : Circuit) : (s.setCircuit g v).gangMsgs = s.gangMsgs := rfl
@[simp] theorem State.setCircuit_performed (s : State) (g : Nat) (v : Circuit) : (s.setCircuit g v).performed = s.performed := rfl
@[simp] theorem State.setCircuit_hostMem (s : State) (g : Nat) (v : Circuit) : (s.setCircuit g v).hostMem = s.hostMem := rfl
@[simp] theorem State.setCircuit_outputs (s : State) (g : Nat) (v : Circuit) : (s.setCircuit g v).outputs = s.outputs := rfl
@[simp] theorem State.setCircuit_hostWrites (s : State) (g : Nat) (v : Circuit) : (s.setCircuit g v).hostWrites = s.hostWrites := rfl
@[simp] theorem State.setCircuit_hsigs (s : State) (g : Nat) (v : Circuit) : (s.setCircuit g v).hsigs = s.hsigs := rfl
@[simp] theorem State.setCircuit_nextId (s : State) (g : Nat) (v : Circuit) : (s.setCircuit g v).nextId = s.nextId := rfl
@[simp] theorem State.setCircuit_nextLx (s : State) (g : Nat) (v : Circuit) : (s.setCircuit g v).nextLx = s.nextLx := rfl
@[simp] theorem State.setCircuit_nextOrder (s : State) (g : Nat) (v : Circuit) : (s.setCircuit g v).nextOrder = s.nextOrder := rfl
@[simp] theorem State.setCircuit_admitted (s : State) (g : Nat) (v : Circuit) : (s.setCircuit g v).admitted = s.admitted := rfl
@[simp] theorem State.setCircuit_lock (s : State) (g : Nat) (v : Circuit) : (s.setCircuit g v).lock = s.lock := rfl
@[simp] theorem State.setCircuit_stepF (s : State) (g : Nat) (v : Circuit) : (s.setCircuit g v).stepF = s.stepF := rfl
@[simp] theorem State.setCircuit_stepNext (s : State) (g : Nat) (v : Circuit) : (s.setCircuit g v).stepNext = s.stepNext := rfl
@[simp] theorem State.setCircuit_stepPend (s : State) (g : Nat) (v : Circuit) : (s.setCircuit g v).stepPend = s.stepPend := rfl
@[simp] theorem State.setCircuit_tchg (s : State) (g : Nat) (v : Circuit) : (s.setCircuit g v).tchg = s.tchg := rfl
@[simp] theorem State.setCircuit_tofs (s : State) (g : Nat) (v : Circuit) : (s.setCircuit g v).tofs = s.tofs := rfl
@[simp] theorem State.setCircuit_src (s : State) (g : Nat) (v : Circuit) : (s.setCircuit g v).src = s.src := rfl
@[simp] theorem State.setCircuit_den (s : State) (g : Nat) (v : Circuit) : (s.setCircuit g v).den = s.den := rfl
@[simp] theorem State.setCircuit_trip (s : State) (g : Nat) (v : Circuit) : (s.setCircuit g v).trip = s.trip := rfl
@[simp] theorem State.setCircuit_tripOn (s : State) (g : Nat) (v : Circuit) : (s.setCircuit g v).tripOn = s.tripOn := rfl
@[simp] theorem State.setCircuit_syncGood (s : State) (g : Nat) (v : Circuit) : (s.setCircuit g v).syncGood = s.syncGood := rfl
@[simp] theorem State.setCircuit_coarseDone (s : State) (g : Nat) (v : Circuit) : (s.setCircuit g v).coarseDone = s.coarseDone := rfl
@[simp] theorem State.setCircuit_coarseTo (s : State) (g : Nat) (v : Circuit) : (s.setCircuit g v).coarseTo = s.coarseTo := rfl
@[simp] theorem State.setCircuit_syncAt (s : State) (g : Nat) (v : Circuit) : (s.setCircuit g v).syncAt = s.syncAt := rfl
@[simp] theorem State.setCircuit_syncSeen (s : State) (g : Nat) (v : Circuit) : (s.setCircuit g v).syncSeen = s.syncSeen := rfl
@[simp] theorem State.setCircuit_pathTrip (s : State) (g : Nat) (v : Circuit) : (s.setCircuit g v).pathTrip = s.pathTrip := rfl
@[simp] theorem State.setCircuit_stepDom (s : State) (g : Nat) (v : Circuit) : (s.setCircuit g v).stepDom = s.stepDom := rfl
@[simp] theorem State.setCircuit_plim (s : State) (g : Nat) (v : Circuit) : (s.setCircuit g v).plim = s.plim := rfl
@[simp] theorem State.setCircuit_pnow (s : State) (g : Nat) (v : Circuit) : (s.setCircuit g v).pnow = s.pnow := rfl
@[simp] theorem State.setCircuit_tdie (s : State) (g : Nat) (v : Circuit) : (s.setCircuit g v).tdie = s.tdie := rfl
@[simp] theorem State.setCircuit_windowAt (s : State) (g : Nat) (v : Circuit) : (s.setCircuit g v).windowAt = s.windowAt := rfl
@[simp] theorem State.setCircuit_coolWins (s : State) (g : Nat) (v : Circuit) : (s.setCircuit g v).coolWins = s.coolWins := rfl
@[simp] theorem State.setCircuit_stepWant (s : State) (g : Nat) (v : Circuit) : (s.setCircuit g v).stepWant = s.stepWant := rfl
@[simp] theorem State.setCircuit_pdeg (s : State) (g : Nat) (v : Circuit) : (s.setCircuit g v).pdeg = s.pdeg := rfl
@[simp] theorem State.setCircuit_cexm (s : State) (g : Nat) (v : Circuit) : (s.setCircuit g v).cexm = s.cexm := rfl
@[simp] theorem State.setCircuit_sbusy (s : State) (g : Nat) (v : Circuit) : (s.setCircuit g v).sbusy = s.sbusy := rfl
@[simp] theorem State.setCircuit_stgt (s : State) (g : Nat) (v : Circuit) : (s.setCircuit g v).stgt = s.stgt := rfl
@[simp] theorem State.setCircuit_sarg (s : State) (g : Nat) (v : Circuit) : (s.setCircuit g v).sarg = s.sarg := rfl
@[simp] theorem State.setCircuit_sres (s : State) (g : Nat) (v : Circuit) : (s.setCircuit g v).sres = s.sres := rfl
@[simp] theorem State.setCircuit_secor (s : State) (g : Nat) (v : Circuit) : (s.setCircuit g v).secor = s.secor := rfl
@[simp] theorem State.setCircuit_seunc (s : State) (g : Nat) (v : Circuit) : (s.setCircuit g v).seunc = s.seunc := rfl
@[simp] theorem State.setCircuit_fixes (s : State) (g : Nat) (v : Circuit) : (s.setCircuit g v).fixes = s.fixes := rfl
@[simp] theorem State.setCircuit_rmapa (s : State) (g : Nat) (v : Circuit) : (s.setCircuit g v).rmapa = s.rmapa := rfl
@[simp] theorem State.setCircuit_rmapv (s : State) (g : Nat) (v : Circuit) : (s.setCircuit g v).rmapv = s.rmapv := rfl
@[simp] theorem State.setCircuit_service (s : State) (g : Nat) (v : Circuit) : (s.setCircuit g v).service = s.service := rfl
@[simp] theorem State.setCircuit_pauseTo (s : State) (g : Nat) (v : Circuit) : (s.setCircuit g v).pauseTo = s.pauseTo := rfl
@[simp] theorem State.setCircuit_booted (s : State) (g : Nat) (v : Circuit) : (s.setCircuit g v).booted = s.booted := rfl
@[simp] theorem State.setCircuit_pupolOk (s : State) (g : Nat) (v : Circuit) : (s.setCircuit g v).pupolOk = s.pupolOk := rfl
@[simp] theorem State.setCircuit_svns (s : State) (g : Nat) (v : Circuit) : (s.setCircuit g v).svns = s.svns := rfl
@[simp] theorem State.setCircuit_digests (s : State) (g : Nat) (v : Circuit) : (s.setCircuit g v).digests = s.digests := rfl
@[simp] theorem State.setCircuit_rollback (s : State) (g : Nat) (v : Circuit) : (s.setCircuit g v).rollback = s.rollback := rfl
@[simp] theorem State.setCircuit_nonce (s : State) (g : Nat) (v : Circuit) : (s.setCircuit g v).nonce = s.nonce := rfl
@[simp] theorem State.setCircuit_attStat (s : State) (g : Nat) (v : Circuit) : (s.setCircuit g v).attStat = s.attStat := rfl
@[simp] theorem State.setCircuit_attDue (s : State) (g : Nat) (v : Circuit) : (s.setCircuit g v).attDue = s.attDue := rfl
@[simp] theorem State.setCircuit_attRep (s : State) (g : Nat) (v : Circuit) : (s.setCircuit g v).attRep = s.attRep := rfl
@[simp] theorem State.setCircuit_ports (s : State) (g : Nat) (v : Circuit) : (s.setCircuit g v).ports = s.ports := rfl

/-! ## setChannel -/

@[simp] theorem State.setChannel_now (s : State) (t n : Nat) (v : Channel) : (s.setChannel t n v).now = s.now := rfl
@[simp] theorem State.setChannel_iss (s : State) (t n : Nat) (v : Channel) : (s.setChannel t n v).iss = s.iss := rfl
@[simp] theorem State.setChannel_counted (s : State) (t n : Nat) (v : Channel) : (s.setChannel t n v).counted = s.counted := rfl
@[simp] theorem State.setChannel_ceCh (s : State) (t n : Nat) (v : Channel) : (s.setChannel t n v).ceCh = s.ceCh := rfl
@[simp] theorem State.setChannel_inputs (s : State) (t n : Nat) (v : Channel) : (s.setChannel t n v).inputs = s.inputs := rfl
@[simp] theorem State.setChannel_cores (s : State) (t n : Nat) (v : Channel) : (s.setChannel t n v).cores = s.cores := rfl
@[simp] theorem State.setChannel_accesses (s : State) (t n : Nat) (v : Channel) : (s.setChannel t n v).accesses = s.accesses := rfl
@[simp] theorem State.setChannel_msgs (s : State) (t n : Nat) (v : Channel) : (s.setChannel t n v).msgs = s.msgs := rfl
@[simp] theorem State.setChannel_cmds (s : State) (t n : Nat) (v : Channel) : (s.setChannel t n v).cmds = s.cmds := rfl
@[simp] theorem State.setChannel_eops (s : State) (t n : Nat) (v : Channel) : (s.setChannel t n v).eops = s.eops := rfl
@[simp] theorem State.setChannel_circuits (s : State) (t n : Nat) (v : Channel) : (s.setChannel t n v).circuits = s.circuits := rfl
@[simp] theorem State.setChannel_streams (s : State) (t n : Nat) (v : Channel) : (s.setChannel t n v).streams = s.streams := rfl
@[simp] theorem State.setChannel_launches (s : State) (t n : Nat) (v : Channel) : (s.setChannel t n v).launches = s.launches := rfl
@[simp] theorem State.setChannel_served (s : State) (t n : Nat) (v : Channel) : (s.setChannel t n v).served = s.served := rfl
@[simp] theorem State.setChannel_gangMsgs (s : State) (t n : Nat) (v : Channel) : (s.setChannel t n v).gangMsgs = s.gangMsgs := rfl
@[simp] theorem State.setChannel_performed (s : State) (t n : Nat) (v : Channel) : (s.setChannel t n v).performed = s.performed := rfl
@[simp] theorem State.setChannel_hostMem (s : State) (t n : Nat) (v : Channel) : (s.setChannel t n v).hostMem = s.hostMem := rfl
@[simp] theorem State.setChannel_outputs (s : State) (t n : Nat) (v : Channel) : (s.setChannel t n v).outputs = s.outputs := rfl
@[simp] theorem State.setChannel_hostWrites (s : State) (t n : Nat) (v : Channel) : (s.setChannel t n v).hostWrites = s.hostWrites := rfl
@[simp] theorem State.setChannel_hsigs (s : State) (t n : Nat) (v : Channel) : (s.setChannel t n v).hsigs = s.hsigs := rfl
@[simp] theorem State.setChannel_nextId (s : State) (t n : Nat) (v : Channel) : (s.setChannel t n v).nextId = s.nextId := rfl
@[simp] theorem State.setChannel_nextLx (s : State) (t n : Nat) (v : Channel) : (s.setChannel t n v).nextLx = s.nextLx := rfl
@[simp] theorem State.setChannel_nextOrder (s : State) (t n : Nat) (v : Channel) : (s.setChannel t n v).nextOrder = s.nextOrder := rfl
@[simp] theorem State.setChannel_admitted (s : State) (t n : Nat) (v : Channel) : (s.setChannel t n v).admitted = s.admitted := rfl
@[simp] theorem State.setChannel_lock (s : State) (t n : Nat) (v : Channel) : (s.setChannel t n v).lock = s.lock := rfl
@[simp] theorem State.setChannel_stepF (s : State) (t n : Nat) (v : Channel) : (s.setChannel t n v).stepF = s.stepF := rfl
@[simp] theorem State.setChannel_stepNext (s : State) (t n : Nat) (v : Channel) : (s.setChannel t n v).stepNext = s.stepNext := rfl
@[simp] theorem State.setChannel_stepPend (s : State) (t n : Nat) (v : Channel) : (s.setChannel t n v).stepPend = s.stepPend := rfl
@[simp] theorem State.setChannel_tchg (s : State) (t n : Nat) (v : Channel) : (s.setChannel t n v).tchg = s.tchg := rfl
@[simp] theorem State.setChannel_tofs (s : State) (t n : Nat) (v : Channel) : (s.setChannel t n v).tofs = s.tofs := rfl
@[simp] theorem State.setChannel_src (s : State) (t n : Nat) (v : Channel) : (s.setChannel t n v).src = s.src := rfl
@[simp] theorem State.setChannel_den (s : State) (t n : Nat) (v : Channel) : (s.setChannel t n v).den = s.den := rfl
@[simp] theorem State.setChannel_trip (s : State) (t n : Nat) (v : Channel) : (s.setChannel t n v).trip = s.trip := rfl
@[simp] theorem State.setChannel_tripOn (s : State) (t n : Nat) (v : Channel) : (s.setChannel t n v).tripOn = s.tripOn := rfl
@[simp] theorem State.setChannel_syncGood (s : State) (t n : Nat) (v : Channel) : (s.setChannel t n v).syncGood = s.syncGood := rfl
@[simp] theorem State.setChannel_coarseDone (s : State) (t n : Nat) (v : Channel) : (s.setChannel t n v).coarseDone = s.coarseDone := rfl
@[simp] theorem State.setChannel_coarseTo (s : State) (t n : Nat) (v : Channel) : (s.setChannel t n v).coarseTo = s.coarseTo := rfl
@[simp] theorem State.setChannel_syncAt (s : State) (t n : Nat) (v : Channel) : (s.setChannel t n v).syncAt = s.syncAt := rfl
@[simp] theorem State.setChannel_syncSeen (s : State) (t n : Nat) (v : Channel) : (s.setChannel t n v).syncSeen = s.syncSeen := rfl
@[simp] theorem State.setChannel_pathTrip (s : State) (t n : Nat) (v : Channel) : (s.setChannel t n v).pathTrip = s.pathTrip := rfl
@[simp] theorem State.setChannel_stepDom (s : State) (t n : Nat) (v : Channel) : (s.setChannel t n v).stepDom = s.stepDom := rfl
@[simp] theorem State.setChannel_plim (s : State) (t n : Nat) (v : Channel) : (s.setChannel t n v).plim = s.plim := rfl
@[simp] theorem State.setChannel_pnow (s : State) (t n : Nat) (v : Channel) : (s.setChannel t n v).pnow = s.pnow := rfl
@[simp] theorem State.setChannel_tdie (s : State) (t n : Nat) (v : Channel) : (s.setChannel t n v).tdie = s.tdie := rfl
@[simp] theorem State.setChannel_windowAt (s : State) (t n : Nat) (v : Channel) : (s.setChannel t n v).windowAt = s.windowAt := rfl
@[simp] theorem State.setChannel_coolWins (s : State) (t n : Nat) (v : Channel) : (s.setChannel t n v).coolWins = s.coolWins := rfl
@[simp] theorem State.setChannel_stepWant (s : State) (t n : Nat) (v : Channel) : (s.setChannel t n v).stepWant = s.stepWant := rfl
@[simp] theorem State.setChannel_pdeg (s : State) (t n : Nat) (v : Channel) : (s.setChannel t n v).pdeg = s.pdeg := rfl
@[simp] theorem State.setChannel_cexm (s : State) (t n : Nat) (v : Channel) : (s.setChannel t n v).cexm = s.cexm := rfl
@[simp] theorem State.setChannel_sbusy (s : State) (t n : Nat) (v : Channel) : (s.setChannel t n v).sbusy = s.sbusy := rfl
@[simp] theorem State.setChannel_stgt (s : State) (t n : Nat) (v : Channel) : (s.setChannel t n v).stgt = s.stgt := rfl
@[simp] theorem State.setChannel_sarg (s : State) (t n : Nat) (v : Channel) : (s.setChannel t n v).sarg = s.sarg := rfl
@[simp] theorem State.setChannel_sres (s : State) (t n : Nat) (v : Channel) : (s.setChannel t n v).sres = s.sres := rfl
@[simp] theorem State.setChannel_secor (s : State) (t n : Nat) (v : Channel) : (s.setChannel t n v).secor = s.secor := rfl
@[simp] theorem State.setChannel_seunc (s : State) (t n : Nat) (v : Channel) : (s.setChannel t n v).seunc = s.seunc := rfl
@[simp] theorem State.setChannel_fixes (s : State) (t n : Nat) (v : Channel) : (s.setChannel t n v).fixes = s.fixes := rfl
@[simp] theorem State.setChannel_rmapa (s : State) (t n : Nat) (v : Channel) : (s.setChannel t n v).rmapa = s.rmapa := rfl
@[simp] theorem State.setChannel_rmapv (s : State) (t n : Nat) (v : Channel) : (s.setChannel t n v).rmapv = s.rmapv := rfl
@[simp] theorem State.setChannel_service (s : State) (t n : Nat) (v : Channel) : (s.setChannel t n v).service = s.service := rfl
@[simp] theorem State.setChannel_pauseTo (s : State) (t n : Nat) (v : Channel) : (s.setChannel t n v).pauseTo = s.pauseTo := rfl
@[simp] theorem State.setChannel_booted (s : State) (t n : Nat) (v : Channel) : (s.setChannel t n v).booted = s.booted := rfl
@[simp] theorem State.setChannel_pupolOk (s : State) (t n : Nat) (v : Channel) : (s.setChannel t n v).pupolOk = s.pupolOk := rfl
@[simp] theorem State.setChannel_svns (s : State) (t n : Nat) (v : Channel) : (s.setChannel t n v).svns = s.svns := rfl
@[simp] theorem State.setChannel_digests (s : State) (t n : Nat) (v : Channel) : (s.setChannel t n v).digests = s.digests := rfl
@[simp] theorem State.setChannel_rollback (s : State) (t n : Nat) (v : Channel) : (s.setChannel t n v).rollback = s.rollback := rfl
@[simp] theorem State.setChannel_nonce (s : State) (t n : Nat) (v : Channel) : (s.setChannel t n v).nonce = s.nonce := rfl
@[simp] theorem State.setChannel_attStat (s : State) (t n : Nat) (v : Channel) : (s.setChannel t n v).attStat = s.attStat := rfl
@[simp] theorem State.setChannel_attDue (s : State) (t n : Nat) (v : Channel) : (s.setChannel t n v).attDue = s.attDue := rfl
@[simp] theorem State.setChannel_attRep (s : State) (t n : Nat) (v : Channel) : (s.setChannel t n v).attRep = s.attRep := rfl
@[simp] theorem State.setChannel_ports (s : State) (t n : Nat) (v : Channel) : (s.setChannel t n v).ports = s.ports := rfl

/-! ## setLaunch -/

@[simp] theorem State.setLaunch_now (s : State) (l : Launch) : (s.setLaunch l).now = s.now := rfl
@[simp] theorem State.setLaunch_iss (s : State) (l : Launch) : (s.setLaunch l).iss = s.iss := rfl
@[simp] theorem State.setLaunch_counted (s : State) (l : Launch) : (s.setLaunch l).counted = s.counted := rfl
@[simp] theorem State.setLaunch_ceCh (s : State) (l : Launch) : (s.setLaunch l).ceCh = s.ceCh := rfl
@[simp] theorem State.setLaunch_inputs (s : State) (l : Launch) : (s.setLaunch l).inputs = s.inputs := rfl
@[simp] theorem State.setLaunch_cores (s : State) (l : Launch) : (s.setLaunch l).cores = s.cores := rfl
@[simp] theorem State.setLaunch_accesses (s : State) (l : Launch) : (s.setLaunch l).accesses = s.accesses := rfl
@[simp] theorem State.setLaunch_msgs (s : State) (l : Launch) : (s.setLaunch l).msgs = s.msgs := rfl
@[simp] theorem State.setLaunch_cmds (s : State) (l : Launch) : (s.setLaunch l).cmds = s.cmds := rfl
@[simp] theorem State.setLaunch_eops (s : State) (l : Launch) : (s.setLaunch l).eops = s.eops := rfl
@[simp] theorem State.setLaunch_circuits (s : State) (l : Launch) : (s.setLaunch l).circuits = s.circuits := rfl
@[simp] theorem State.setLaunch_channels (s : State) (l : Launch) : (s.setLaunch l).channels = s.channels := rfl
@[simp] theorem State.setLaunch_streams (s : State) (l : Launch) : (s.setLaunch l).streams = s.streams := rfl
@[simp] theorem State.setLaunch_served (s : State) (l : Launch) : (s.setLaunch l).served = s.served := rfl
@[simp] theorem State.setLaunch_gangMsgs (s : State) (l : Launch) : (s.setLaunch l).gangMsgs = s.gangMsgs := rfl
@[simp] theorem State.setLaunch_performed (s : State) (l : Launch) : (s.setLaunch l).performed = s.performed := rfl
@[simp] theorem State.setLaunch_hostMem (s : State) (l : Launch) : (s.setLaunch l).hostMem = s.hostMem := rfl
@[simp] theorem State.setLaunch_outputs (s : State) (l : Launch) : (s.setLaunch l).outputs = s.outputs := rfl
@[simp] theorem State.setLaunch_hostWrites (s : State) (l : Launch) : (s.setLaunch l).hostWrites = s.hostWrites := rfl
@[simp] theorem State.setLaunch_hsigs (s : State) (l : Launch) : (s.setLaunch l).hsigs = s.hsigs := rfl
@[simp] theorem State.setLaunch_nextId (s : State) (l : Launch) : (s.setLaunch l).nextId = s.nextId := rfl
@[simp] theorem State.setLaunch_nextLx (s : State) (l : Launch) : (s.setLaunch l).nextLx = s.nextLx := rfl
@[simp] theorem State.setLaunch_nextOrder (s : State) (l : Launch) : (s.setLaunch l).nextOrder = s.nextOrder := rfl
@[simp] theorem State.setLaunch_admitted (s : State) (l : Launch) : (s.setLaunch l).admitted = s.admitted := rfl
@[simp] theorem State.setLaunch_lock (s : State) (l : Launch) : (s.setLaunch l).lock = s.lock := rfl
@[simp] theorem State.setLaunch_stepF (s : State) (l : Launch) : (s.setLaunch l).stepF = s.stepF := rfl
@[simp] theorem State.setLaunch_stepNext (s : State) (l : Launch) : (s.setLaunch l).stepNext = s.stepNext := rfl
@[simp] theorem State.setLaunch_stepPend (s : State) (l : Launch) : (s.setLaunch l).stepPend = s.stepPend := rfl
@[simp] theorem State.setLaunch_tchg (s : State) (l : Launch) : (s.setLaunch l).tchg = s.tchg := rfl
@[simp] theorem State.setLaunch_tofs (s : State) (l : Launch) : (s.setLaunch l).tofs = s.tofs := rfl
@[simp] theorem State.setLaunch_src (s : State) (l : Launch) : (s.setLaunch l).src = s.src := rfl
@[simp] theorem State.setLaunch_den (s : State) (l : Launch) : (s.setLaunch l).den = s.den := rfl
@[simp] theorem State.setLaunch_trip (s : State) (l : Launch) : (s.setLaunch l).trip = s.trip := rfl
@[simp] theorem State.setLaunch_tripOn (s : State) (l : Launch) : (s.setLaunch l).tripOn = s.tripOn := rfl
@[simp] theorem State.setLaunch_syncGood (s : State) (l : Launch) : (s.setLaunch l).syncGood = s.syncGood := rfl
@[simp] theorem State.setLaunch_coarseDone (s : State) (l : Launch) : (s.setLaunch l).coarseDone = s.coarseDone := rfl
@[simp] theorem State.setLaunch_coarseTo (s : State) (l : Launch) : (s.setLaunch l).coarseTo = s.coarseTo := rfl
@[simp] theorem State.setLaunch_syncAt (s : State) (l : Launch) : (s.setLaunch l).syncAt = s.syncAt := rfl
@[simp] theorem State.setLaunch_syncSeen (s : State) (l : Launch) : (s.setLaunch l).syncSeen = s.syncSeen := rfl
@[simp] theorem State.setLaunch_pathTrip (s : State) (l : Launch) : (s.setLaunch l).pathTrip = s.pathTrip := rfl
@[simp] theorem State.setLaunch_stepDom (s : State) (l : Launch) : (s.setLaunch l).stepDom = s.stepDom := rfl
@[simp] theorem State.setLaunch_plim (s : State) (l : Launch) : (s.setLaunch l).plim = s.plim := rfl
@[simp] theorem State.setLaunch_pnow (s : State) (l : Launch) : (s.setLaunch l).pnow = s.pnow := rfl
@[simp] theorem State.setLaunch_tdie (s : State) (l : Launch) : (s.setLaunch l).tdie = s.tdie := rfl
@[simp] theorem State.setLaunch_windowAt (s : State) (l : Launch) : (s.setLaunch l).windowAt = s.windowAt := rfl
@[simp] theorem State.setLaunch_coolWins (s : State) (l : Launch) : (s.setLaunch l).coolWins = s.coolWins := rfl
@[simp] theorem State.setLaunch_stepWant (s : State) (l : Launch) : (s.setLaunch l).stepWant = s.stepWant := rfl
@[simp] theorem State.setLaunch_pdeg (s : State) (l : Launch) : (s.setLaunch l).pdeg = s.pdeg := rfl
@[simp] theorem State.setLaunch_cexm (s : State) (l : Launch) : (s.setLaunch l).cexm = s.cexm := rfl
@[simp] theorem State.setLaunch_sbusy (s : State) (l : Launch) : (s.setLaunch l).sbusy = s.sbusy := rfl
@[simp] theorem State.setLaunch_stgt (s : State) (l : Launch) : (s.setLaunch l).stgt = s.stgt := rfl
@[simp] theorem State.setLaunch_sarg (s : State) (l : Launch) : (s.setLaunch l).sarg = s.sarg := rfl
@[simp] theorem State.setLaunch_sres (s : State) (l : Launch) : (s.setLaunch l).sres = s.sres := rfl
@[simp] theorem State.setLaunch_secor (s : State) (l : Launch) : (s.setLaunch l).secor = s.secor := rfl
@[simp] theorem State.setLaunch_seunc (s : State) (l : Launch) : (s.setLaunch l).seunc = s.seunc := rfl
@[simp] theorem State.setLaunch_fixes (s : State) (l : Launch) : (s.setLaunch l).fixes = s.fixes := rfl
@[simp] theorem State.setLaunch_rmapa (s : State) (l : Launch) : (s.setLaunch l).rmapa = s.rmapa := rfl
@[simp] theorem State.setLaunch_rmapv (s : State) (l : Launch) : (s.setLaunch l).rmapv = s.rmapv := rfl
@[simp] theorem State.setLaunch_service (s : State) (l : Launch) : (s.setLaunch l).service = s.service := rfl
@[simp] theorem State.setLaunch_pauseTo (s : State) (l : Launch) : (s.setLaunch l).pauseTo = s.pauseTo := rfl
@[simp] theorem State.setLaunch_booted (s : State) (l : Launch) : (s.setLaunch l).booted = s.booted := rfl
@[simp] theorem State.setLaunch_pupolOk (s : State) (l : Launch) : (s.setLaunch l).pupolOk = s.pupolOk := rfl
@[simp] theorem State.setLaunch_svns (s : State) (l : Launch) : (s.setLaunch l).svns = s.svns := rfl
@[simp] theorem State.setLaunch_digests (s : State) (l : Launch) : (s.setLaunch l).digests = s.digests := rfl
@[simp] theorem State.setLaunch_rollback (s : State) (l : Launch) : (s.setLaunch l).rollback = s.rollback := rfl
@[simp] theorem State.setLaunch_nonce (s : State) (l : Launch) : (s.setLaunch l).nonce = s.nonce := rfl
@[simp] theorem State.setLaunch_attStat (s : State) (l : Launch) : (s.setLaunch l).attStat = s.attStat := rfl
@[simp] theorem State.setLaunch_attDue (s : State) (l : Launch) : (s.setLaunch l).attDue = s.attDue := rfl
@[simp] theorem State.setLaunch_attRep (s : State) (l : Launch) : (s.setLaunch l).attRep = s.attRep := rfl
@[simp] theorem State.setLaunch_ports (s : State) (l : Launch) : (s.setLaunch l).ports = s.ports := rfl

/-! ## setCmd -/

@[simp] theorem State.setCmd_now (s : State) (m : Cmd) : (s.setCmd m).now = s.now := rfl
@[simp] theorem State.setCmd_iss (s : State) (m : Cmd) : (s.setCmd m).iss = s.iss := rfl
@[simp] theorem State.setCmd_counted (s : State) (m : Cmd) : (s.setCmd m).counted = s.counted := rfl
@[simp] theorem State.setCmd_ceCh (s : State) (m : Cmd) : (s.setCmd m).ceCh = s.ceCh := rfl
@[simp] theorem State.setCmd_inputs (s : State) (m : Cmd) : (s.setCmd m).inputs = s.inputs := rfl
@[simp] theorem State.setCmd_cores (s : State) (m : Cmd) : (s.setCmd m).cores = s.cores := rfl
@[simp] theorem State.setCmd_accesses (s : State) (m : Cmd) : (s.setCmd m).accesses = s.accesses := rfl
@[simp] theorem State.setCmd_msgs (s : State) (m : Cmd) : (s.setCmd m).msgs = s.msgs := rfl
@[simp] theorem State.setCmd_eops (s : State) (m : Cmd) : (s.setCmd m).eops = s.eops := rfl
@[simp] theorem State.setCmd_circuits (s : State) (m : Cmd) : (s.setCmd m).circuits = s.circuits := rfl
@[simp] theorem State.setCmd_channels (s : State) (m : Cmd) : (s.setCmd m).channels = s.channels := rfl
@[simp] theorem State.setCmd_streams (s : State) (m : Cmd) : (s.setCmd m).streams = s.streams := rfl
@[simp] theorem State.setCmd_launches (s : State) (m : Cmd) : (s.setCmd m).launches = s.launches := rfl
@[simp] theorem State.setCmd_served (s : State) (m : Cmd) : (s.setCmd m).served = s.served := rfl
@[simp] theorem State.setCmd_gangMsgs (s : State) (m : Cmd) : (s.setCmd m).gangMsgs = s.gangMsgs := rfl
@[simp] theorem State.setCmd_performed (s : State) (m : Cmd) : (s.setCmd m).performed = s.performed := rfl
@[simp] theorem State.setCmd_hostMem (s : State) (m : Cmd) : (s.setCmd m).hostMem = s.hostMem := rfl
@[simp] theorem State.setCmd_outputs (s : State) (m : Cmd) : (s.setCmd m).outputs = s.outputs := rfl
@[simp] theorem State.setCmd_hostWrites (s : State) (m : Cmd) : (s.setCmd m).hostWrites = s.hostWrites := rfl
@[simp] theorem State.setCmd_hsigs (s : State) (m : Cmd) : (s.setCmd m).hsigs = s.hsigs := rfl
@[simp] theorem State.setCmd_nextId (s : State) (m : Cmd) : (s.setCmd m).nextId = s.nextId := rfl
@[simp] theorem State.setCmd_nextLx (s : State) (m : Cmd) : (s.setCmd m).nextLx = s.nextLx := rfl
@[simp] theorem State.setCmd_nextOrder (s : State) (m : Cmd) : (s.setCmd m).nextOrder = s.nextOrder := rfl
@[simp] theorem State.setCmd_admitted (s : State) (m : Cmd) : (s.setCmd m).admitted = s.admitted := rfl
@[simp] theorem State.setCmd_lock (s : State) (m : Cmd) : (s.setCmd m).lock = s.lock := rfl
@[simp] theorem State.setCmd_stepF (s : State) (m : Cmd) : (s.setCmd m).stepF = s.stepF := rfl
@[simp] theorem State.setCmd_stepNext (s : State) (m : Cmd) : (s.setCmd m).stepNext = s.stepNext := rfl
@[simp] theorem State.setCmd_stepPend (s : State) (m : Cmd) : (s.setCmd m).stepPend = s.stepPend := rfl
@[simp] theorem State.setCmd_tchg (s : State) (m : Cmd) : (s.setCmd m).tchg = s.tchg := rfl
@[simp] theorem State.setCmd_tofs (s : State) (m : Cmd) : (s.setCmd m).tofs = s.tofs := rfl
@[simp] theorem State.setCmd_src (s : State) (m : Cmd) : (s.setCmd m).src = s.src := rfl
@[simp] theorem State.setCmd_den (s : State) (m : Cmd) : (s.setCmd m).den = s.den := rfl
@[simp] theorem State.setCmd_trip (s : State) (m : Cmd) : (s.setCmd m).trip = s.trip := rfl
@[simp] theorem State.setCmd_tripOn (s : State) (m : Cmd) : (s.setCmd m).tripOn = s.tripOn := rfl
@[simp] theorem State.setCmd_syncGood (s : State) (m : Cmd) : (s.setCmd m).syncGood = s.syncGood := rfl
@[simp] theorem State.setCmd_coarseDone (s : State) (m : Cmd) : (s.setCmd m).coarseDone = s.coarseDone := rfl
@[simp] theorem State.setCmd_coarseTo (s : State) (m : Cmd) : (s.setCmd m).coarseTo = s.coarseTo := rfl
@[simp] theorem State.setCmd_syncAt (s : State) (m : Cmd) : (s.setCmd m).syncAt = s.syncAt := rfl
@[simp] theorem State.setCmd_syncSeen (s : State) (m : Cmd) : (s.setCmd m).syncSeen = s.syncSeen := rfl
@[simp] theorem State.setCmd_pathTrip (s : State) (m : Cmd) : (s.setCmd m).pathTrip = s.pathTrip := rfl
@[simp] theorem State.setCmd_stepDom (s : State) (m : Cmd) : (s.setCmd m).stepDom = s.stepDom := rfl
@[simp] theorem State.setCmd_plim (s : State) (m : Cmd) : (s.setCmd m).plim = s.plim := rfl
@[simp] theorem State.setCmd_pnow (s : State) (m : Cmd) : (s.setCmd m).pnow = s.pnow := rfl
@[simp] theorem State.setCmd_tdie (s : State) (m : Cmd) : (s.setCmd m).tdie = s.tdie := rfl
@[simp] theorem State.setCmd_windowAt (s : State) (m : Cmd) : (s.setCmd m).windowAt = s.windowAt := rfl
@[simp] theorem State.setCmd_coolWins (s : State) (m : Cmd) : (s.setCmd m).coolWins = s.coolWins := rfl
@[simp] theorem State.setCmd_stepWant (s : State) (m : Cmd) : (s.setCmd m).stepWant = s.stepWant := rfl
@[simp] theorem State.setCmd_pdeg (s : State) (m : Cmd) : (s.setCmd m).pdeg = s.pdeg := rfl
@[simp] theorem State.setCmd_cexm (s : State) (m : Cmd) : (s.setCmd m).cexm = s.cexm := rfl
@[simp] theorem State.setCmd_sbusy (s : State) (m : Cmd) : (s.setCmd m).sbusy = s.sbusy := rfl
@[simp] theorem State.setCmd_stgt (s : State) (m : Cmd) : (s.setCmd m).stgt = s.stgt := rfl
@[simp] theorem State.setCmd_sarg (s : State) (m : Cmd) : (s.setCmd m).sarg = s.sarg := rfl
@[simp] theorem State.setCmd_sres (s : State) (m : Cmd) : (s.setCmd m).sres = s.sres := rfl
@[simp] theorem State.setCmd_secor (s : State) (m : Cmd) : (s.setCmd m).secor = s.secor := rfl
@[simp] theorem State.setCmd_seunc (s : State) (m : Cmd) : (s.setCmd m).seunc = s.seunc := rfl
@[simp] theorem State.setCmd_fixes (s : State) (m : Cmd) : (s.setCmd m).fixes = s.fixes := rfl
@[simp] theorem State.setCmd_rmapa (s : State) (m : Cmd) : (s.setCmd m).rmapa = s.rmapa := rfl
@[simp] theorem State.setCmd_rmapv (s : State) (m : Cmd) : (s.setCmd m).rmapv = s.rmapv := rfl
@[simp] theorem State.setCmd_service (s : State) (m : Cmd) : (s.setCmd m).service = s.service := rfl
@[simp] theorem State.setCmd_pauseTo (s : State) (m : Cmd) : (s.setCmd m).pauseTo = s.pauseTo := rfl
@[simp] theorem State.setCmd_booted (s : State) (m : Cmd) : (s.setCmd m).booted = s.booted := rfl
@[simp] theorem State.setCmd_pupolOk (s : State) (m : Cmd) : (s.setCmd m).pupolOk = s.pupolOk := rfl
@[simp] theorem State.setCmd_svns (s : State) (m : Cmd) : (s.setCmd m).svns = s.svns := rfl
@[simp] theorem State.setCmd_digests (s : State) (m : Cmd) : (s.setCmd m).digests = s.digests := rfl
@[simp] theorem State.setCmd_rollback (s : State) (m : Cmd) : (s.setCmd m).rollback = s.rollback := rfl
@[simp] theorem State.setCmd_nonce (s : State) (m : Cmd) : (s.setCmd m).nonce = s.nonce := rfl
@[simp] theorem State.setCmd_attStat (s : State) (m : Cmd) : (s.setCmd m).attStat = s.attStat := rfl
@[simp] theorem State.setCmd_attDue (s : State) (m : Cmd) : (s.setCmd m).attDue = s.attDue := rfl
@[simp] theorem State.setCmd_attRep (s : State) (m : Cmd) : (s.setCmd m).attRep = s.attRep := rfl
@[simp] theorem State.setCmd_ports (s : State) (m : Cmd) : (s.setCmd m).ports = s.ports := rfl

/-! ## fly -/

@[simp] theorem State.fly_now (s : State) (fs : List Flight) : (s.fly fs).now = s.now := rfl
@[simp] theorem State.fly_iss (s : State) (fs : List Flight) : (s.fly fs).iss = s.iss := rfl
@[simp] theorem State.fly_counted (s : State) (fs : List Flight) : (s.fly fs).counted = s.counted := rfl
@[simp] theorem State.fly_ceCh (s : State) (fs : List Flight) : (s.fly fs).ceCh = s.ceCh := rfl
@[simp] theorem State.fly_inputs (s : State) (fs : List Flight) : (s.fly fs).inputs = s.inputs := rfl
@[simp] theorem State.fly_accesses (s : State) (fs : List Flight) : (s.fly fs).accesses = s.accesses := rfl
@[simp] theorem State.fly_msgs (s : State) (fs : List Flight) : (s.fly fs).msgs = s.msgs := rfl
@[simp] theorem State.fly_cmds (s : State) (fs : List Flight) : (s.fly fs).cmds = s.cmds := rfl
@[simp] theorem State.fly_eops (s : State) (fs : List Flight) : (s.fly fs).eops = s.eops := rfl
@[simp] theorem State.fly_circuits (s : State) (fs : List Flight) : (s.fly fs).circuits = s.circuits := rfl
@[simp] theorem State.fly_channels (s : State) (fs : List Flight) : (s.fly fs).channels = s.channels := rfl
@[simp] theorem State.fly_streams (s : State) (fs : List Flight) : (s.fly fs).streams = s.streams := rfl
@[simp] theorem State.fly_launches (s : State) (fs : List Flight) : (s.fly fs).launches = s.launches := rfl
@[simp] theorem State.fly_served (s : State) (fs : List Flight) : (s.fly fs).served = s.served := rfl
@[simp] theorem State.fly_gangMsgs (s : State) (fs : List Flight) : (s.fly fs).gangMsgs = s.gangMsgs := rfl
@[simp] theorem State.fly_performed (s : State) (fs : List Flight) : (s.fly fs).performed = s.performed := rfl
@[simp] theorem State.fly_hostMem (s : State) (fs : List Flight) : (s.fly fs).hostMem = s.hostMem := rfl
@[simp] theorem State.fly_outputs (s : State) (fs : List Flight) : (s.fly fs).outputs = s.outputs := rfl
@[simp] theorem State.fly_hostWrites (s : State) (fs : List Flight) : (s.fly fs).hostWrites = s.hostWrites := rfl
@[simp] theorem State.fly_hsigs (s : State) (fs : List Flight) : (s.fly fs).hsigs = s.hsigs := rfl
@[simp] theorem State.fly_nextId (s : State) (fs : List Flight) : (s.fly fs).nextId = s.nextId := rfl
@[simp] theorem State.fly_nextLx (s : State) (fs : List Flight) : (s.fly fs).nextLx = s.nextLx := rfl
@[simp] theorem State.fly_nextOrder (s : State) (fs : List Flight) : (s.fly fs).nextOrder = s.nextOrder := rfl
@[simp] theorem State.fly_admitted (s : State) (fs : List Flight) : (s.fly fs).admitted = s.admitted := rfl
@[simp] theorem State.fly_lock (s : State) (fs : List Flight) : (s.fly fs).lock = s.lock := rfl
@[simp] theorem State.fly_stepF (s : State) (fs : List Flight) : (s.fly fs).stepF = s.stepF := rfl
@[simp] theorem State.fly_stepNext (s : State) (fs : List Flight) : (s.fly fs).stepNext = s.stepNext := rfl
@[simp] theorem State.fly_stepPend (s : State) (fs : List Flight) : (s.fly fs).stepPend = s.stepPend := rfl
@[simp] theorem State.fly_tchg (s : State) (fs : List Flight) : (s.fly fs).tchg = s.tchg := rfl
@[simp] theorem State.fly_tofs (s : State) (fs : List Flight) : (s.fly fs).tofs = s.tofs := rfl
@[simp] theorem State.fly_src (s : State) (fs : List Flight) : (s.fly fs).src = s.src := rfl
@[simp] theorem State.fly_den (s : State) (fs : List Flight) : (s.fly fs).den = s.den := rfl
@[simp] theorem State.fly_trip (s : State) (fs : List Flight) : (s.fly fs).trip = s.trip := rfl
@[simp] theorem State.fly_tripOn (s : State) (fs : List Flight) : (s.fly fs).tripOn = s.tripOn := rfl
@[simp] theorem State.fly_syncGood (s : State) (fs : List Flight) : (s.fly fs).syncGood = s.syncGood := rfl
@[simp] theorem State.fly_coarseDone (s : State) (fs : List Flight) : (s.fly fs).coarseDone = s.coarseDone := rfl
@[simp] theorem State.fly_coarseTo (s : State) (fs : List Flight) : (s.fly fs).coarseTo = s.coarseTo := rfl
@[simp] theorem State.fly_syncAt (s : State) (fs : List Flight) : (s.fly fs).syncAt = s.syncAt := rfl
@[simp] theorem State.fly_syncSeen (s : State) (fs : List Flight) : (s.fly fs).syncSeen = s.syncSeen := rfl
@[simp] theorem State.fly_pathTrip (s : State) (fs : List Flight) : (s.fly fs).pathTrip = s.pathTrip := rfl
@[simp] theorem State.fly_stepDom (s : State) (fs : List Flight) : (s.fly fs).stepDom = s.stepDom := rfl
@[simp] theorem State.fly_plim (s : State) (fs : List Flight) : (s.fly fs).plim = s.plim := rfl
@[simp] theorem State.fly_pnow (s : State) (fs : List Flight) : (s.fly fs).pnow = s.pnow := rfl
@[simp] theorem State.fly_tdie (s : State) (fs : List Flight) : (s.fly fs).tdie = s.tdie := rfl
@[simp] theorem State.fly_windowAt (s : State) (fs : List Flight) : (s.fly fs).windowAt = s.windowAt := rfl
@[simp] theorem State.fly_coolWins (s : State) (fs : List Flight) : (s.fly fs).coolWins = s.coolWins := rfl
@[simp] theorem State.fly_stepWant (s : State) (fs : List Flight) : (s.fly fs).stepWant = s.stepWant := rfl
@[simp] theorem State.fly_pdeg (s : State) (fs : List Flight) : (s.fly fs).pdeg = s.pdeg := rfl
@[simp] theorem State.fly_cexm (s : State) (fs : List Flight) : (s.fly fs).cexm = s.cexm := rfl
@[simp] theorem State.fly_sbusy (s : State) (fs : List Flight) : (s.fly fs).sbusy = s.sbusy := rfl
@[simp] theorem State.fly_stgt (s : State) (fs : List Flight) : (s.fly fs).stgt = s.stgt := rfl
@[simp] theorem State.fly_sarg (s : State) (fs : List Flight) : (s.fly fs).sarg = s.sarg := rfl
@[simp] theorem State.fly_sres (s : State) (fs : List Flight) : (s.fly fs).sres = s.sres := rfl
@[simp] theorem State.fly_secor (s : State) (fs : List Flight) : (s.fly fs).secor = s.secor := rfl
@[simp] theorem State.fly_seunc (s : State) (fs : List Flight) : (s.fly fs).seunc = s.seunc := rfl
@[simp] theorem State.fly_fixes (s : State) (fs : List Flight) : (s.fly fs).fixes = s.fixes := rfl
@[simp] theorem State.fly_rmapa (s : State) (fs : List Flight) : (s.fly fs).rmapa = s.rmapa := rfl
@[simp] theorem State.fly_rmapv (s : State) (fs : List Flight) : (s.fly fs).rmapv = s.rmapv := rfl
@[simp] theorem State.fly_service (s : State) (fs : List Flight) : (s.fly fs).service = s.service := rfl
@[simp] theorem State.fly_pauseTo (s : State) (fs : List Flight) : (s.fly fs).pauseTo = s.pauseTo := rfl
@[simp] theorem State.fly_booted (s : State) (fs : List Flight) : (s.fly fs).booted = s.booted := rfl
@[simp] theorem State.fly_pupolOk (s : State) (fs : List Flight) : (s.fly fs).pupolOk = s.pupolOk := rfl
@[simp] theorem State.fly_svns (s : State) (fs : List Flight) : (s.fly fs).svns = s.svns := rfl
@[simp] theorem State.fly_digests (s : State) (fs : List Flight) : (s.fly fs).digests = s.digests := rfl
@[simp] theorem State.fly_rollback (s : State) (fs : List Flight) : (s.fly fs).rollback = s.rollback := rfl
@[simp] theorem State.fly_nonce (s : State) (fs : List Flight) : (s.fly fs).nonce = s.nonce := rfl
@[simp] theorem State.fly_attStat (s : State) (fs : List Flight) : (s.fly fs).attStat = s.attStat := rfl
@[simp] theorem State.fly_attDue (s : State) (fs : List Flight) : (s.fly fs).attDue = s.attDue := rfl
@[simp] theorem State.fly_attRep (s : State) (fs : List Flight) : (s.fly fs).attRep = s.attRep := rfl
@[simp] theorem State.fly_ports (s : State) (fs : List Flight) : (s.fly fs).ports = s.ports := rfl

/-! ## A context of a core -/

@[simp] theorem Core.setCtx_imem (k : Core) (x : Nat) (v : Ctx) : (k.setCtx x v).imem = k.imem := rfl
@[simp] theorem Core.setCtx_spad (k : Core) (x : Nat) (v : Ctx) : (k.setCtx x v).spad = k.spad := rfl
@[simp] theorem Core.setCtx_tags (k : Core) (x : Nat) (v : Ctx) : (k.setCtx x v).tags = k.tags := rfl
@[simp] theorem Core.setCtx_tagPend (k : Core) (x : Nat) (v : Ctx) : (k.setCtx x v).tagPend = k.tagPend := rfl
@[simp] theorem Core.setCtx_own (k : Core) (x : Nat) (v : Ctx) : (k.setCtx x v).own = k.own := rfl
@[simp] theorem Core.setCtx_waitq (k : Core) (x : Nat) (v : Ctx) : (k.setCtx x v).waitq = k.waitq := rfl
@[simp] theorem Core.setCtx_kept (k : Core) (x : Nat) (v : Ctx) : (k.setCtx x v).kept = k.kept := rfl
@[simp] theorem Core.setCtx_releasing (k : Core) (x : Nat) (v : Ctx) : (k.setCtx x v).releasing = k.releasing := rfl
@[simp] theorem Core.setCtx_scrubs (k : Core) (x : Nat) (v : Ctx) : (k.setCtx x v).scrubs = k.scrubs := rfl
@[simp] theorem Core.setCtx_array (k : Core) (x : Nat) (v : Ctx) : (k.setCtx x v).array = k.array := rfl
@[simp] theorem Core.setCtx_arrayOwner (k : Core) (x : Nat) (v : Ctx) : (k.setCtx x v).arrayOwner = k.arrayOwner := rfl
@[simp] theorem Core.setCtx_barriers (k : Core) (x : Nat) (v : Ctx) : (k.setCtx x v).barriers = k.barriers := rfl
@[simp] theorem Core.setCtx_barStores (k : Core) (x : Nat) (v : Ctx) : (k.setCtx x v).barStores = k.barStores := rfl
@[simp] theorem Core.setCtx_timed (k : Core) (x : Nat) (v : Ctx) : (k.setCtx x v).timed = k.timed := rfl
@[simp] theorem Core.setCtx_resv (k : Core) (x : Nat) (v : Ctx) : (k.setCtx x v).resv = k.resv := rfl
@[simp] theorem Core.setCtx_trace (k : Core) (x : Nat) (v : Ctx) : (k.setCtx x v).trace = k.trace := rfl
@[simp] theorem Core.setCtx_lastCtx (k : Core) (x : Nat) (v : Ctx) : (k.setCtx x v).lastCtx = k.lastCtx := rfl
@[simp] theorem Core.setCtx_issueFrom (k : Core) (x : Nat) (v : Ctx) : (k.setCtx x v).issueFrom = k.issueFrom := rfl
@[simp] theorem Core.setCtx_issuedAt (k : Core) (x : Nat) (v : Ctx) : (k.setCtx x v).issuedAt = k.issuedAt := rfl
@[simp] theorem Core.setCtx_saved (k : Core) (x : Nat) (v : Ctx) : (k.setCtx x v).saved = k.saved := rfl
@[simp] theorem Core.setCtx_savedArray (k : Core) (x : Nat) (v : Ctx) : (k.setCtx x v).savedArray = k.savedArray := rfl
@[simp] theorem Core.setCtx_savedBy (k : Core) (x : Nat) (v : Ctx) : (k.setCtx x v).savedBy = k.savedBy := rfl
@[simp] theorem Core.setCtx_staged (k : Core) (x : Nat) (v : Ctx) : (k.setCtx x v).staged = k.staged := rfl
@[simp] theorem Core.setCtx_lateSignals (k : Core) (x : Nat) (v : Ctx) : (k.setCtx x v).lateSignals = k.lateSignals := rfl
@[simp] theorem Core.setCtx_retired (k : Core) (x : Nat) (v : Ctx) : (k.setCtx x v).retired = k.retired := rfl
@[simp] theorem Core.setCtx_bad (k : Core) (x : Nat) (v : Ctx) : (k.setCtx x v).bad = k.bad := rfl

end Sys2Proof.Machine
end

