-- ==== Sys2Proof/Laws/Table.lean ====
section
/-! SUPPORT. Reading a table or a memory after writing it, and the canonical form of a memory, which every write keeps. -/

namespace Sys2Proof.Machine

/-! ## Tables -/

@[simp] theorem tget_nil {α : Type} (d : α) (k : Nat) : tget [] d k = d := rfl

theorem tget_tput {α : Type} (t : Table α) (d v : α) (k j : Nat) :
    tget (tput t k v) d j = if k = j then v else tget t d j := by
  induction t with
  | nil => simp [tput, tget]
  | cons p r ih =>
    obtain ⟨i, w⟩ := p
    simp only [tput]
    split
    · subst_vars; simp only [tget]; split <;> rfl
    · split
      · simp only [tget]
      · simp only [tget, ih]; split <;> split <;> first | rfl | omega

@[simp] theorem tget_tput_same {α : Type} (t : Table α) (d v : α) (k : Nat) : tget (tput t k v) d k = v := by
  simp [tget_tput]

theorem tget_tput_ne {α : Type} (t : Table α) (d v : α) {k j : Nat} (h : k ≠ j) :
    tget (tput t k v) d j = tget t d j := by
  simp [tget_tput, h]

theorem tget_tdel {α : Type} (t : Table α) (d : α) (k j : Nat) :
    tget (tdel t k) d j = if k = j then d else tget t d j := by
  induction t with
  | nil => simp [tdel, tget]
  | cons p r ih =>
    obtain ⟨i, w⟩ := p
    simp only [tdel] at ih
    by_cases h : i = k
    · subst h; simp only [tdel, List.filter_cons, ne_eq, not_true_eq_false, decide_false, Bool.false_eq_true, if_false, ih, tget]
      split <;> rfl
    · simp only [tdel, List.filter_cons, ne_eq, h, not_false_eq_true, decide_true, if_true, tget, ih]
      split <;> split <;> first | rfl | omega

theorem tget_tmap {α β : Type} (f : α → β) (t : Table α) (d : α) (k : Nat) :
    tget (tmap f t) (f d) k = f (tget t d k) := by
  induction t with
  | nil => rfl
  | cons p r ih => simp only [tmap, List.map_cons, tget] at ih ⊢; split <;> simp_all

/-- Every value a table lists has a property. -/
def TableAll {α : Type} (P : α → Prop) (t : Table α) : Prop := ∀ p ∈ t, P p.2

theorem TableAll.get {α : Type} {P : α → Prop} {t : Table α} (h : TableAll P t) {d : α} (hd : P d) (k : Nat) :
    P (tget t d k) := by
  induction t with
  | nil => exact hd
  | cons p r ih =>
    simp only [tget]; split
    · exact h p (by simp)
    · exact ih (fun q hq => h q (by simp [hq]))

theorem TableAll.put {α : Type} {P : α → Prop} {t : Table α} (h : TableAll P t) (k : Nat) {v : α} (hv : P v) :
    TableAll P (tput t k v) := by
  induction t with
  | nil => intro p hp; simp [tput] at hp; simp [hp, hv]
  | cons p r ih =>
    have hr : TableAll P r := fun q hq => h q (by simp [hq])
    have hp := h p (by simp)
    intro q hq
    simp only [tput] at hq
    split at hq
    · simp only [List.mem_cons] at hq
      rcases hq with rfl | hq
      · exact hv
      · exact hr q hq
    · split at hq
      · simp only [List.mem_cons] at hq
        rcases hq with rfl | rfl | hq
        · exact hv
        · exact hp
        · exact hr q hq
      · simp only [List.mem_cons] at hq
        rcases hq with rfl | hq
        · exact hp
        · exact ih hr q hq

theorem TableAll.map {α β : Type} {P : α → Prop} {Q : β → Prop} {t : Table α} {f : α → β} (h : TableAll P t)
    (hf : ∀ a, P a → Q (f a)) : TableAll Q (tmap f t) := by
  intro p hp
  simp only [tmap, List.mem_map] at hp
  obtain ⟨q, hq, rfl⟩ := hp
  exact hf _ (h q hq)

/-! ## Memory: one byte -/

theorem memWfFrom_mono {lo lo' : Nat} {m : Memory} (h : memWfFrom lo m = true) (hl : lo' ≤ lo) : memWfFrom lo' m = true := by
  cases m with
  | nil => rfl
  | cons p r => simp only [memWfFrom, Bool.and_eq_true, decide_eq_true_eq] at h ⊢; exact ⟨⟨by omega, h.1.2⟩, h.2⟩

theorem mread_below {m : Memory} {lo a : Nat} (h : memWfFrom lo m = true) (ha : a < lo) : mread m a = unlistedByte := by
  induction m generalizing lo with
  | nil => rfl
  | cons p r ih =>
    simp only [memWfFrom, Bool.and_eq_true, decide_eq_true_eq] at h
    simp only [mread]
    rw [if_neg (by omega)]
    exact ih h.2 (by omega)

theorem mwrite_wfFrom {m : Memory} {lo : Nat} (a : Nat) (b : Byte) (h : memWfFrom lo m = true) (ha : lo ≤ a) :
    memWfFrom lo (mwrite m a b) = true := by
  induction m generalizing lo with
  | nil => simp only [mwrite]; split <;> simp_all [memWfFrom]
  | cons p r ih =>
    obtain ⟨j, c⟩ := p
    simp only [memWfFrom, Bool.and_eq_true, decide_eq_true_eq] at h
    simp only [mwrite]
    split
    · subst_vars
      split
      · exact memWfFrom_mono h.2 (by omega)
      · simp_all [memWfFrom]
    · split
      · split
        · simp [memWfFrom, h]
        · simp only [memWfFrom, Bool.and_eq_true, decide_eq_true_eq]
          exact ⟨⟨ha, ‹_›⟩, ⟨by omega, h.1.2⟩, h.2⟩
      · simp only [memWfFrom, Bool.and_eq_true, decide_eq_true_eq]
        exact ⟨h.1, ih h.2 (by omega)⟩

/-- A byte written keeps the canonical form. -/
theorem mwrite_wf {m : Memory} (a : Nat) (b : Byte) (h : m.wf = true) : (mwrite m a b).wf = true :=
  mwrite_wfFrom a b h (Nat.zero_le a)

theorem mread_mwriteFrom {m : Memory} {lo : Nat} (a : Nat) (b : Byte) (x : Nat) (h : memWfFrom lo m = true) :
    mread (mwrite m a b) x = if x = a then b else mread m x := by
  induction m generalizing lo with
  | nil =>
    simp only [mwrite]
    by_cases hx : x = a
    · subst hx; split <;> simp_all [mread]
    · split <;> simp_all [mread, Ne.symm hx]
  | cons p r ih =>
    obtain ⟨j, c⟩ := p
    simp only [memWfFrom, Bool.and_eq_true, decide_eq_true_eq] at h
    simp only [mwrite]
    by_cases hj : j = a
    · rw [if_pos hj]
      by_cases hx : x = a
      · rw [if_pos hx]
        split
        · subst_vars; exact mread_below h.2 (by omega)
        · simp only [mread]; rw [if_pos hx.symm]
      · rw [if_neg hx]
        have hjx : ¬ j = x := fun e => hx (e.symm.trans hj)
        split
        · simp only [mread]; rw [if_neg hjx]
        · simp only [mread]; rw [if_neg (fun e => hx e.symm), if_neg hjx]
    · rw [if_neg hj]
      split
      · split
        · subst_vars
          by_cases hx : x = a
          · subst hx; rw [if_pos rfl]; simp only [mread]
            rw [if_neg (by omega)]
            exact mread_below h.2 (by omega)
          · rw [if_neg hx]
        · simp only [mread]
          by_cases hx : x = a
          · simp [hx]
          · rw [if_neg (fun e => hx e.symm), if_neg hx]
      · simp only [mread, ih h.2]
        by_cases hx : x = a
        · subst hx; rw [if_neg hj, if_pos rfl, if_pos rfl]
        · simp [hx]

/-- Reading after writing one byte of a canonical memory. -/
theorem mread_mwrite {m : Memory} (h : m.wf = true) (a : Nat) (b : Byte) (x : Nat) :
    mread (mwrite m a b) x = if x = a then b else mread m x := mread_mwriteFrom a b x h

/-! ## Memory: several bytes -/

/-- A value written keeps the canonical form. -/
theorem mwriteN_wf {m : Memory} (a n v : Nat) (h : m.wf = true) : (mwriteN m a n v).wf = true := by
  induction n generalizing m a v with
  | zero => exact h
  | succ k ih => exact ih _ _ (mwrite_wf _ _ h)

/-- Every byte after a write: byte `x - a` of the value inside the `n` bytes, as before outside. -/
theorem mread_mwriteN {m : Memory} (h : m.wf = true) (a n v x : Nat) :
    mread (mwriteN m a n v) x = if a ≤ x ∧ x < a + n then BitVec.ofNat 8 (v / 256 ^ (x - a)) else mread m x := by
  induction n generalizing m a v with
  | zero => rw [if_neg (by omega)]; rfl
  | succ k ih =>
    simp only [mwriteN]
    rw [ih (mwrite_wf _ _ h), mread_mwrite h]
    by_cases hx : x = a
    · subst hx; rw [if_neg (by omega), if_pos rfl, if_pos (by omega)]; simp
    · by_cases hin : a + 1 ≤ x ∧ x < a + 1 + k
      · rw [if_pos hin, if_pos (by omega), Nat.div_div_eq_div_mul]
        congr 2
        rw [show x - a = (x - (a + 1)) + 1 by omega, Nat.pow_succ, Nat.mul_comm]
      · rw [if_neg hin, if_neg hx, if_neg (by omega)]

/-- Outside the bytes written every byte reads as before. -/
theorem mread_mwriteN_ne {m : Memory} (h : m.wf = true) {a n v x : Nat} (hx : x < a ∨ a + n ≤ x) :
    mread (mwriteN m a n v) x = mread m x := by
  rw [mread_mwriteN h, if_neg (by omega)]

/-- Two memories that agree on the bytes read give the same value. -/
theorem mreadN_congr {m m' : Memory} {a n : Nat} (h : ∀ x, a ≤ x → x < a + n → mread m x = mread m' x) :
    mreadN m a n = mreadN m' a n := by
  induction n generalizing a with
  | zero => rfl
  | succ k ih =>
    simp only [mreadN]
    rw [h a (by omega) (by omega), ih (fun x h1 h2 => h x (by omega) (by omega))]

/-- Reading back what was written. -/
theorem mreadN_mwriteN_same {m : Memory} (h : m.wf = true) (a n v : Nat) :
    mreadN (mwriteN m a n v) a n = v % 256 ^ n := by
  induction n generalizing m a v with
  | zero => simp [mreadN, Nat.mod_one]
  | succ k ih =>
    simp only [mreadN, mwriteN]
    have e : (256 : Nat) ^ (k + 1) = 256 * 256 ^ k := by rw [Nat.pow_succ, Nat.mul_comm]
    have b : (BitVec.ofNat 8 v).toNat = v % 256 := BitVec.toNat_ofNat v 8
    rw [ih (mwrite_wf _ _ h), mread_mwriteN_ne (mwrite_wf _ _ h) (by omega), mread_mwrite h, if_pos rfl, b, e, Nat.mod_mul]

/-- A value read is below 256 to the number of its bytes. -/
theorem mreadN_lt (m : Memory) (a n : Nat) : mreadN m a n < 256 ^ n := by
  induction n generalizing a with
  | zero => simp [mreadN]
  | succ k ih =>
    simp only [mreadN]
    have h1 := ih (a + 1)
    have h2 := (mread m a).isLt
    rw [Nat.pow_succ]
    omega

end Sys2Proof.Machine
end

