-- ==== Sys2Proof/Laws/Cores.lean ====
section
/-! SUPPORT. Cores and contexts after an update, what a put into flight changes, and what a guarded slot answers. -/

namespace Sys2Proof.Machine

/-! ## Cores and contexts -/

theorem State.core_setCore (s : State) (c d : Nat) (k : Core) : (s.setCore c k).core d = if c = d then k else s.core d :=
  tget_tput ..

@[simp] theorem State.core_setCore_same (s : State) (c : Nat) (k : Core) : (s.setCore c k).core c = k := tget_tput_same ..

theorem State.core_setCore_ne (s : State) {c d : Nat} (k : Core) (h : c ≠ d) : (s.setCore c k).core d = s.core d :=
  tget_tput_ne _ _ _ h

theorem Core.ctx_setCtx (k : Core) (x y : Nat) (v : Ctx) : (k.setCtx x v).ctx y = if x = y then v else k.ctx y := tget_tput ..

@[simp] theorem Core.ctx_setCtx_same (k : Core) (x : Nat) (v : Ctx) : (k.setCtx x v).ctx x = v := tget_tput_same ..

theorem Core.ctx_setCtx_ne (k : Core) {x y : Nat} (v : Ctx) (h : x ≠ y) : (k.setCtx x v).ctx y = k.ctx y := tget_tput_ne _ _ _ h

theorem State.modCore_eq (s : State) (c : Nat) (f : Core → Core) : s.modCore c f = s.setCore c (f (s.core c)) := rfl

theorem State.setCtx_eq (s : State) (c x : Nat) (v : Ctx) : s.setCtx c x v = s.setCore c ((s.core c).setCtx x v) := rfl

theorem State.modCtx_eq (s : State) (c x : Nat) (f : Ctx → Ctx) : s.modCtx c x f = s.setCtx c x (f (s.ctx c x)) := rfl

theorem State.core_modCore (s : State) (c d : Nat) (f : Core → Core) :
    (s.modCore c f).core d = if c = d then f (s.core c) else s.core d := State.core_setCore ..

@[simp] theorem State.core_modCore_same (s : State) (c : Nat) (f : Core → Core) : (s.modCore c f).core c = f (s.core c) :=
  State.core_setCore_same ..

theorem State.ctx_setCtx (s : State) (c x d y : Nat) (v : Ctx) :
    (s.setCtx c x v).ctx d y = if c = d ∧ x = y then v else s.ctx d y := by
  simp only [State.setCtx, State.ctx, State.core_setCore]
  by_cases h : c = d
  · subst h; simp [Core.ctx_setCtx]
  · simp [h]

@[simp] theorem State.ctx_setCtx_same (s : State) (c x : Nat) (v : Ctx) : (s.setCtx c x v).ctx c x = v := by
  simp [State.ctx_setCtx]

theorem State.ctx_modCtx (s : State) (c x d y : Nat) (f : Ctx → Ctx) :
    (s.modCtx c x f).ctx d y = if c = d ∧ x = y then f (s.ctx c x) else s.ctx d y := State.ctx_setCtx ..

@[simp] theorem State.ctx_modCtx_same (s : State) (c x : Nat) (f : Ctx → Ctx) : (s.modCtx c x f).ctx c x = f (s.ctx c x) :=
  State.ctx_setCtx_same ..

/-- What a change of one context leaves in every core. -/
theorem State.coreRest_modCtx (s : State) (c x d : Nat) (f : Ctx → Ctx) :
    ((s.modCtx c x f).core d).besidesCtxs = (s.core d).besidesCtxs := by
  simp only [State.modCtx, State.setCtx, State.core_setCore]
  split
  · subst_vars; rfl
  · rfl

/-! ## Streams, circuits, channels -/

theorem State.stream_setStream (s : State) (q r : Nat) (v : Stream) :
    (s.setStream q v).stream r = if q = r then v else s.stream r := by
  simp only [State.stream, State.setStream, tget_tput]

theorem State.circuit_setCircuit (s : State) (g h : Nat) (v : Circuit) :
    (s.setCircuit g v).circuit h = if g = h then v else s.circuit h := tget_tput ..

theorem State.channel_setChannel (s : State) (t n t' n' : Nat) (v : Channel) :
    (s.setChannel t n v).channel t' n' = if chKey t n = chKey t' n' then v else s.channel t' n' := by
  simp only [State.channel, State.setChannel, tget_tput]

/-! ## Frames -/

theorem onlyCtx_modCtx (s : State) (c x : Nat) (f : Ctx → Ctx) : OnlyCtx s (s.modCtx c x f) c x (f (s.ctx c x)) := by
  refine ⟨by simp, fun d y h => ?_, fun d => State.coreRest_modCtx s c x d f, rfl⟩
  rw [State.ctx_modCtx, if_neg (fun e => h ⟨e.1.symm, e.2.symm⟩)]

theorem onlyCore_modCore (s : State) (c : Nat) (f : Core → Core) : OnlyCore s (s.modCore c f) c (f (s.core c)) :=
  ⟨by simp, fun d h => by rw [State.core_modCore, if_neg (fun e => h e.symm)], rfl⟩

/-- Putting results into flight changes nothing but the list of results in flight of the bundle's context. -/
theorem puts_fly (s : State) (fs : List Flight) : Puts s (s.fly fs) fs := onlyCtx_modCtx ..

/-- A change of one context leaves every memory as it was. -/
theorem OnlyCtx.sameMemory {s t : State} {c x : Nat} {v : Ctx} (h : OnlyCtx s t c x v) : SameMemory s t := by
  obtain ⟨-, -, h3, h4⟩ := h
  have hs (d : Nat) : (t.core d).besidesCtxs.spad = (s.core d).besidesCtxs.spad := by rw [h3]
  have hc : t.besidesCores.channels = s.besidesCores.channels := by rw [h4]
  have hn : t.besidesCores.now = s.besidesCores.now := by rw [h4]
  have hm : t.besidesCores.hostMem = s.besidesCores.hostMem := by rw [h4]
  simp only [State.besidesCores] at hc hn hm
  simp only [Core.besidesCtxs] at hs
  exact ⟨fun d a => by simp only [State.spad, hs], fun tier ch a => by simp only [State.channel, hc, hn], fun a => by rw [hm]⟩

theorem Puts.sameMemory {s t : State} {fs : List Flight} (h : Puts s t fs) : SameMemory s t := OnlyCtx.sameMemory h

/-! ## What a slot answers -/

theorem guarded_skips {i : Instr} {s : State} (e : State) (h : slotRuns i s = false) : guarded i s e = .next s := by
  simp [guarded, h]

/-- A slot whose tag matches and whose checks pass has its effect. -/
theorem guarded_runs {i : Instr} {s : State} (e : State) (h : slotRuns i s = true)
    (hc : s.iss.checked = true ∨ bundleFaults s [i] = []) : guarded i s e = .next e := by
  rcases hc with hc | hc <;> simp [guarded, h, hc, lowestFault]

/-- A slot that fails a check in a bundle not yet checked takes the fault of lowest code. -/
theorem guarded_faults {i : Instr} {s : State} (e : State) {f : FaultRec} (h : slotRuns i s = true)
    (hc : s.iss.checked = false) (hf : lowestFault (bundleFaults s [i]) = some f) : guarded i s e = .next (s.bundleFault f) := by
  simp [guarded, h, hc, hf]

theorem selFault_none {c : Ctx} {qs : List (BitVec 5)}
    (h : ∀ q ∈ qs, 22 ≤ q.toNat → q.toNat ≤ 25 → c.queueReady (q.toNat - 22) = true) : selFault c qs = none := by
  simp only [selFault, List.findSome?_eq_none_iff, List.mem_filter, namesQueue, Bool.and_eq_true, decide_eq_true_eq]
  intro q hq
  simp [Ctx.emptyFault, h q hq.1 hq.2.1 hq.2.2]

theorem besideWords_none {s : State} (r : MReq) (h : NoBadWord s) : besideWords s r = [] := by
  have hb (c : Nat) : (s.core c).bad = [] := h c
  simp only [besideWords, hb, List.filter_nil, List.map_nil]
  repeat' split <;> try rfl

theorem softWords_none {s : State} (i : Instr) (h : NoBadWord s) : softWords s i = [] := by
  have hb (c : Nat) : (s.core c).bad = [] := h c
  simp only [softWords, hb, List.filter_nil, List.map_nil, List.nil_append, List.append_eq_nil_iff, List.flatMap_eq_nil_iff]
  refine ⟨fun r _ => by split <;> rfl, ?_⟩
  split
  · exact besideWords_none _ h
  · rfl

theorem softFaults_none {s : State} (i : Instr) (h : NoBadWord s) : softFaults s i = [] := by
  simp [softFaults, softWords_none i h]

/-- A slot that executes, without a memory access, a push, a beat or a check of its own, has its effect. -/
theorem Executes.guarded {i : Instr} {s : State} (e : State) (h : Executes i s) (hm : memReq s i = none)
    (ha : aqPushes s i = []) (hx : mxReads s i = []) (hu : coreUses s i = []) (hk : slotChecks s i = []) :
    Machine.guarded i s e = .next e := by
  refine guarded_runs e h.1 (h.2.imp_right fun hs => ?_)
  have hf : slotFaults s i = [] := by
    simp [slotFaults, selFault_none hs.1, hm, softFaults_none i hs.2, hk]
  simp [bundleFaults, hm, hf, bankFaults, hx, hu, portFaults, portReqs, pushPorts, ha, timedFaults, messageFaults]

end Sys2Proof.Machine
end

