-- ==== Sys2Proof/Laws/Accesses.lean ====
section
/-! SUPPORT. Memory slots: when an access passes its checks, and what issuing one changes. -/

namespace Sys2Proof.Machine

/-- What an access asks of its core port (R168). -/
theorem coreUses_access {s : State} {i : Instr} {r : MReq} (hm : memReq s i = some r) :
    ∀ u ∈ coreUses s i, u.mb = (r.u == .mb) := by
  unfold coreUses
  split
  · simp [memReq] at hm
  · rw [hm]
    simp only
    split
    · split <;> simp
    · simp

/-- One access does not conflict with itself. -/
theorem bankFaults_access {s : State} {i : Instr} {r : MReq} (hm : memReq s i = some r) (hx : mxReads s i = []) :
    bankFaults s [i] = [] := by
  have h := coreUses_access hm
  unfold bankFaults
  simp only [List.flatMap_cons, List.flatMap_nil, List.append_nil, hx]
  have hpart : (coreUses s i).filter (fun u => !u.mb) = [] ∨ (coreUses s i).filter (fun u => u.mb) = [] := by
    cases hb : (r.u == .mb)
    · right; rw [List.filter_eq_nil_iff]; intro u hu; simp [h u hu, hb]
    · left; rw [List.filter_eq_nil_iff]; intro u hu; simp [h u hu, hb]
  rcases hpart with hp | hp <;> simp [hp]

/-- The requests of one access never ask twice for one slot. -/
theorem portFaults_access {s : State} {r : MReq}
    (hp : ∀ p ∈ memPorts s r, (s.core p.core).slotTaken p.bank p.tick p.write = false) : portFaults s (memPorts s r) [] = [] := by
  have one (p : PortReq) (h : ∀ q ∈ [p], (s.core q.core).slotTaken q.bank q.tick q.write = false) : portFaults s [p] [] = [] := by
    simp [portFaults, faultIf, h p (by simp)]
  revert hp
  unfold memPorts
  split
  · exact fun _ => rfl
  · split
    · exact one _
    · split
      · exact fun _ => rfl
      · split
        · exact one _
        · split
          · intro hp
            simp only [List.mem_cons, List.not_mem_nil, or_false, forall_eq_or_imp, forall_eq] at hp
            simp [portFaults, faultIf, hp.1, hp.2]
          · exact one _

/-- An access passes its checks: alignment, region, ownership, tag, tick, release and port. -/
theorem bundleFaults_access {s : State} {i : Instr} {r : MReq} (hm : memReq s i = some r) (hs : SelectorsHold i s)
    (hb : NoBadWord s) (hx : mxReads s i = []) (hk : slotChecks s i = []) (hf : memFaults s r = []) (hr : releaseFault s [r] r = [])
    (hp : ∀ p ∈ memPorts s r, (s.core p.core).slotTaken p.bank p.tick p.write = false)
    (ht : timedFaults s [r] [] = []) (hg : messageFaults s [r] = []) : bundleFaults s [i] = [] := by
  have h1 : slotFaults s i = [] := by simp [slotFaults, selFault_none hs, hm, hf, softFaults_none i hb, hk]
  have h2 : portReqs s i = memPorts s r := by simp [portReqs, hm]
  simp [bundleFaults, hm, h1, h2, portFaults_access hp, bankFaults_access hm hx, hr, ht, hg]

/-- An access to scratchpad storage, or anywhere but the barrier window, releases no bank. -/
theorem releaseFault_none {s : State} {rs : List MReq} {r : MReq} (h : ∀ p x m, barStoreOf s.iss.ctx r ≠ some (p, .release x m)) :
    releaseFault s rs r = [] := by
  unfold releaseFault
  split
  · rename_i e; exact absurd e (h _ _ _)
  · rfl

/-- A memory slot that executes has its effect. -/
theorem guarded_access {s : State} {i : Instr} {r : MReq} {ok : Prop} (e : State) (h : ExecutesIf i s ok) (hm : memReq s i = some r)
    (hx : mxReads s i = []) (hk : slotChecks s i = []) (hf : ok → memFaults s r = []) (hr : ok → releaseFault s [r] r = [])
    (hp : ok → ∀ p ∈ memPorts s r, (s.core p.core).slotTaken p.bank p.tick p.write = false)
    (ht : ok → timedFaults s [r] [] = []) (hg : ok → messageFaults s [r] = []) : guarded i s e = .next e :=
  guarded_runs e h.1 (h.2.imp_right fun ⟨hs, hb, ho⟩ =>
    bundleFaults_access hm hs hb hx hk (hf ho) (hr ho) (hp ho) (ht ho) (hg ho))

/-- An access other than a timed store brings no timed-buffer fault. -/
theorem timedFaults_plain {s : State} {r : MReq} (h : r.form ≠ .va) : timedFaults s [r] [] = [] := by
  unfold timedFaults
  split
  · simp_all
  · rfl

/-- An access that closes no packet brings no message fault. -/
theorem messageFaults_open {s : State} {r : MReq} (h : r.closes = false) : messageFaults s [r] = [] := by
  simp [messageFaults, h]

/-! ## Reserving engine-side slots -/

/-- Reserving one slot. -/
theorem reserve_one (s : State) (p : PortReq) (c x : Nat) :
    OnlyCtxResv s (s.modCore p.core (fun k => k.reserve ⟨p.bank, p.tick, p.write, 0, s.iss.core, s.iss.ctx⟩)) c x (s.ctx c x)
      [(p.core, ⟨p.bank, p.tick, p.write, 0, s.iss.core, s.iss.ctx⟩)] := by
  have hc (d y : Nat) : (s.modCore p.core (fun k => k.reserve ⟨p.bank, p.tick, p.write, 0, s.iss.core, s.iss.ctx⟩)).ctx d y
      = s.ctx d y := by
    simp only [State.ctx, State.core_modCore]
    split
    · subst_vars; rfl
    · rfl
  refine ⟨hc c x, fun d y _ => hc d y, fun d => ?_, fun d r => ?_, rfl⟩
  · simp only [State.core_modCore]
    split
    · subst_vars; rfl
    · rfl
  · simp only [State.core_modCore, List.mem_cons, List.not_mem_nil, or_false, Prod.mk.injEq]
    split
    · subst_vars; simp only [Core.reserve, List.mem_cons, true_and]; exact or_comm
    · rename_i h
      have hd : ¬ d = p.core := fun e => h e.symm
      simp [hd]

/-- Two changes one after the other, the second of other slots only. -/
theorem OnlyCtxResv.trans {s t u : State} {c x : Nat} {v w : Ctx} {rs qs : List (Nat × Resv)}
    (h : OnlyCtxResv s t c x v rs) (k : OnlyCtxResv t u c x w qs) : OnlyCtxResv s u c x w (rs ++ qs) := by
  obtain ⟨-, h2, h3, h4, h5⟩ := h
  obtain ⟨k1, k2, k3, k4, k5⟩ := k
  refine ⟨k1, fun d y n => (k2 d y n).trans (h2 d y n), fun d => (k3 d).trans (h3 d), fun d r => ?_, k5.trans h5⟩
  rw [k4, h4, List.mem_append, or_assoc]

/-- What reserving changes: the reserved slots of the cores that the requests name. -/
theorem reservePorts_spec (s : State) (ps : List PortReq) (c x : Nat) :
    OnlyCtxResv s (s.reservePorts ps) c x (s.ctx c x)
      (ps.map (fun p => (p.core, ⟨p.bank, p.tick, p.write, 0, s.iss.core, s.iss.ctx⟩))) := by
  unfold State.reservePorts
  simp only
  induction ps generalizing s with
  | nil => exact ⟨rfl, fun _ _ _ => rfl, fun _ => rfl, fun _ _ => by simp, rfl⟩
  | cons p ps ih =>
    have h := reserve_one s p c x
    have k := ih (s.modCore p.core (fun k => k.reserve ⟨p.bank, p.tick, p.write, 0, s.iss.core, s.iss.ctx⟩))
    rw [h.1] at k
    exact h.trans k

end Sys2Proof.Machine
end

