-- ==== Sys2Proof/Laws/Elements.lean ====
section
/-! SUPPORT. Elements of packed vectors: what packing puts where. -/

namespace Sys2Proof.Machine

theorem packElems_cons (e x : Nat) (xs : List Nat) : packElems e (x :: xs) = x % 2 ^ e + packElems e xs * 2 ^ e := rfl

/-- A packed vector fits its elements. -/
theorem packElems_lt (e : Nat) (xs : List Nat) : packElems e xs < 2 ^ (e * xs.length) := by
  induction xs with
  | nil => simp [packElems]
  | cons x xs ih =>
    have h1 : x % 2 ^ e < 2 ^ e := Nat.mod_lt _ (Nat.two_pow_pos e)
    rw [packElems_cons, List.length_cons, Nat.mul_succ, Nat.pow_add]
    calc x % 2 ^ e + packElems e xs * 2 ^ e < 2 ^ e + packElems e xs * 2 ^ e := by omega
      _ = (packElems e xs + 1) * 2 ^ e := by rw [Nat.add_mul, Nat.one_mul, Nat.add_comm]
      _ ≤ 2 ^ (e * xs.length) * 2 ^ e := Nat.mul_le_mul_right _ ih

/-- Element `i` of a packed vector. -/
theorem elem_packElems (e : Nat) (xs : List Nat) (i : Nat) (h : i < xs.length) : elem (packElems e xs) e i = xs[i] % 2 ^ e := by
  induction xs generalizing i with
  | nil => simp at h
  | cons x xs ih =>
    have h1 : x % 2 ^ e < 2 ^ e := Nat.mod_lt _ (Nat.two_pow_pos e)
    cases i with
    | zero => simp [elem, bitsAt, packElems_cons, Nat.add_mul_mod_self_right]
    | succ i =>
      have := ih i (by simpa using h)
      simp only [elem, bitsAt] at this ⊢
      rw [packElems_cons, Nat.mul_succ, Nat.add_comm (e * i), Nat.pow_add, ← Nat.div_div_eq_div_mul,
        Nat.add_mul_div_right _ _ (Nat.two_pow_pos e), Nat.div_eq_of_lt h1, Nat.zero_add, this]
      rfl

/-- A vector of at most 1,024 bits survives being held in a V register. -/
theorem toNat_packElems {e : Nat} {xs : List Nat} (h : e * xs.length ≤ 1024) :
    (BitVec.ofNat 1024 (packElems e xs)).toNat = packElems e xs := by
  rw [BitVec.toNat_ofNat, Nat.mod_eq_of_lt]
  exact Nat.lt_of_lt_of_le (packElems_lt e xs) (Nat.pow_le_pow_right Nat.two_pos h)

/-- Element `i` of a packed mask. -/
theorem elem_packMask (e : Nat) (bs : List Bool) (i : Nat) (h : i < bs.length) :
    elem (packMask e bs) e i = if bs[i] then 2 ^ e - 1 else 0 := by
  unfold packMask
  rw [elem_packElems e _ i (by simpa using h)]
  have := Nat.two_pow_pos e
  simp only [List.getElem_map]
  split
  · exact Nat.mod_eq_of_lt (Nat.sub_lt this Nat.one_pos)
  · exact Nat.zero_mod _

end Sys2Proof.Machine
end

