-- ==== Sys2Proof/Tests/Slice0.lean ====
section
/-! SUPPORT. The model's own tests: ill-formed terms, words written out from the encodings of the spec, one small step of an instruction here
and there with a result worked out from the spec, and a witness for the hypotheses of every statement. -/

open Sys2Proof Sys2Proof.Machine Sys2Proof.Claims

namespace Sys2Proof.Tests

/-! ## Ill-formed terms: one for each check of WellFormed -/

/-- Core 256, context 4, core 256 of a core's own event, barrier 32, and a register write of core 256 (R2, R179). -/
theorem test_wf_agents : Instr.wf (.issueWord 256 0) = false ∧ Instr.wf (.issueWord 255 4) = false ∧ Instr.wf (.issueWord 255 3) = true
    ∧ Instr.wf (.gatherRead 256 0) = false ∧ Instr.wf (.messageSend 0 4) = false ∧ Instr.wf (.restore 0 4) = false
    ∧ Instr.wf (.arrayRowExit 256) = false ∧ Instr.wf (.registerWrite true 256 0 0) = false
    ∧ Instr.wf (.barrierComplete 0 32) = false ∧ Instr.wf (.barrierMirrorFlip 0 31) = true := by decide
/-- Tier 2, loft channel 128, pseudo-channel 2, bank 32, stack 8 (R203, R281, R286). -/
theorem test_wf_channels : Instr.wf (.refresh 2 0 0) = false ∧ Instr.wf (.refresh 1 128 0) = false ∧ Instr.wf (.refresh 0 255 1) = true
    ∧ Instr.wf (.refresh 0 0 2) = false ∧ Instr.wf (.refreshManagement 0 0 32) = false ∧ Instr.wf (.disturbReport 0 0 32 0 false) = false
    ∧ Instr.wf (.dramPatrolScrub 0 256) = false ∧ Instr.wf (.temperatureClassChange 0 8 true) = false := by decide
/-- Stream 4 and packet slot 8 (R254). -/
theorem test_wf_streams : Instr.wf (.packetClose 4 0 0) = false ∧ Instr.wf (.packetWordWrite 0 8 0 8 0) = false
    ∧ Instr.wf (.streamNextPacket 4) = false ∧ Instr.wf (.loadTimeline 4) = false ∧ Instr.wf (.launchRefuseLate 3) = true := by decide
/-- Predicates past P15, a polarity bit without a test, and a wait of class 5 (R57). -/
theorem test_wf_control : Instr.wf (.xfer 0 1 15 0) = false ∧ Instr.wf (.xfer 0 0 0 2) = false ∧ Instr.wf (.waitEngine 5) = false
    ∧ Instr.wf (.nop .ma) = false ∧ Instr.wf (.nop .mb) = false := by decide
/-- Tag 6 in every kind of slot (R25). -/
theorem test_wf_tags : Instr.wf (.add .sa 6 ⟨0, 0⟩ 0 0) = false ∧ Instr.wf (.xadd 7 ⟨0, 0⟩ 0 0) = false ∧ Instr.wf (.ldI8 .ma 6 ⟨0, 0⟩ 0 0) = false
    ∧ Instr.wf (.vand .va ⟨6, 5, 0, 0, 0, 0, 0, 0⟩) = false ∧ Instr.wf (.lsh 6 0 0) = false ∧ Instr.wf (.fclr 6 0) = false := by decide
/-- Reserved types, modes and widths of vector slots (R64 to R66). -/
theorem test_wf_vectors : Instr.wf (.vadd .va ⟨0, 13, 0, 0, 0, 0, 0, 0⟩) = false ∧ Instr.wf (.vadd .va ⟨0, 3, 0, 0, 0, 0, 0, 6⟩) = false
    ∧ Instr.wf (.vadd .va ⟨0, 3, 3, 0, 0, 0, 0, 0⟩) = false ∧ Instr.wf (.vadd .va ⟨0, 3, 2, 0, 0, 0, 0, 5⟩) = true
    ∧ Instr.wf (.vexp2 .va ⟨0, 3, 0, 0, 0, 1, 0, 0⟩) = false ∧ Instr.wf (.vclmul .va ⟨0, 3, 0, 0, 0, 0, 0, 0⟩) = false := by decide
/-- Reserved codes of the memory and E slots (R60, R62, R69, R156). -/
theorem test_wf_memory : Instr.wf (.vld .ma 0 3 0 0 0) = false ∧ Instr.wf (.fence .ma 0 7 0 0) = false ∧ Instr.wf (.drain 0 0 4 0 0 0) = false
    ∧ Instr.wf (.rmode 0 5) = false ∧ Instr.wf (.afmt 0 3) = false ∧ Instr.wf (.bfmt 0 4) = false := by decide
/-- Reserved codes of the cellar words (R299). -/
theorem test_wf_cellar : Instr.wf (.ceCfmt 2 0 0) = false ∧ Instr.wf (.ceCfmt 0 2 0) = false ∧ Instr.wf (.cePsc 0 0 0 0 3) = false
    ∧ Instr.wf (.ceOut 0 0 6 0) = false ∧ Instr.wf (.ceOut 0 0 5 1) = true := by decide

/-! ## Reserved words: each refused by its name -/

/-- R25, R56 to R62, R299: a reserved operation code, tag and field value, a bit that is not used, and a drain in the MA slot. -/
theorem test_reserved_words : decodeSlot .c (13 * 2 ^ 15) = .error .reservedOpcode ∧ decodeSlot .sa (6 * 2 ^ 22) = .error .reservedTag
    ∧ decodeSlot .c 1 = .error .unusedField ∧ decodeSlot .c (8 * 2 ^ 15 + 4 * 2 ^ 12) = .error .reservedField
    ∧ decodeSlot .ma 0x1C0C02 = .error .wrongSlot ∧ decodeCellar (14 * 2 ^ 27) = .error .reservedOpcode
    ∧ decodeCellar (5 * 2 ^ 27 + 2) = .error .reservedField ∧ decodeCellar (13 * 2 ^ 27 + 1) = .error .unusedField :=
  ⟨rfl, rfl, rfl, rfl, rfl, rfl, rfl, rfl⟩

/-! ## Words written out, field by field, from the encoding tables of R57 to R69 and R299: one for every operation -/

/-- A word of fields: each with its value and its lowest bit. -/
def word (fs : List (Nat × Nat)) : Nat := fs.foldl (fun w f => w + f.1 * 2 ^ f.2) 0

/-- R57. -/
theorem test_words_control : decodeSlot .c (word [(0, 15)]) = .ok (.nop .c)
    ∧ decodeSlot .c (word [(1, 15), (3, 12), (4091, 0)]) = .ok (.prep 3 0xFFB)
    ∧ decodeSlot .c (word [(2, 15), (4, 12), (9, 7)]) = .ok (.prepr 4 9)
    ∧ decodeSlot .c (word [(3, 15), (2, 12), (3, 10), (5, 6), (9, 2)]) = .ok (.xfer 2 3 5 9)
    ∧ decodeSlot .c (word [(4, 15), (6, 12)]) = .ok (.go 6)
    ∧ decodeSlot .c (word [(5, 15), (3, 13), (17, 8)]) = .ok (.loop 3 17)
    ∧ decodeSlot .c (word [(6, 15), (2, 13), (11, 9), (21, 4)]) = .ok (.ldelta 2 11 21)
    ∧ decodeSlot .c (word [(7, 15), (5, 12), (18, 7), (1, 6)]) = .ok (.ldk 5 18 1)
    ∧ decodeSlot .c (word [(8, 15), (0, 12), (31, 7)]) = .ok (.waitBarrier 31)
    ∧ decodeSlot .c (word [(8, 15), (1, 12), (2, 7)]) = .ok (.waitQueue 2)
    ∧ decodeSlot .c (word [(8, 15), (2, 12), (9, 7)]) = .ok (.waitTick 9)
    ∧ decodeSlot .c (word [(8, 15), (3, 12), (4, 7)]) = .ok (.waitEngine 4)
    ∧ decodeSlot .c (word [(9, 15), (5, 11), (2, 8)]) = .ok (.budr ⟨5, 2⟩)
    ∧ decodeSlot .c (word [(10, 15), (165, 0)]) = .ok (.trap 0xA5)
    ∧ decodeSlot .c (word [(11, 15)]) = .ok (.halt)
    ∧ decodeSlot .c (word [(12, 15), (0, 10), (7, 5)]) = .ok (.tmark 7)
    ∧ decodeSlot .c (word [(12, 15), (1, 10), (8, 5)]) = .ok (.hsig 8) :=
  ⟨rfl, rfl, rfl, rfl, rfl, rfl, rfl, rfl, rfl, rfl, rfl, rfl, rfl, rfl, rfl, rfl, rfl⟩

/-- R58. -/
theorem test_words_scalar1 : decodeSlot .sa (word [(3, 22), (1, 17), (9, 13), (5, 10), (18, 5), (7, 0)]) = .ok (.add .sa 3 ⟨9, 5⟩ 18 7)
    ∧ decodeSlot .sa (word [(3, 22), (2, 17), (9, 13), (5, 10), (18, 5), (7, 0)]) = .ok (.sub .sa 3 ⟨9, 5⟩ 18 7)
    ∧ decodeSlot .sa (word [(3, 22), (3, 17), (9, 13), (5, 10), (18, 5), (7, 0)]) = .ok (.and .sa 3 ⟨9, 5⟩ 18 7)
    ∧ decodeSlot .sa (word [(3, 22), (4, 17), (9, 13), (5, 10), (18, 5), (7, 0)]) = .ok (.or .sa 3 ⟨9, 5⟩ 18 7)
    ∧ decodeSlot .sa (word [(3, 22), (5, 17), (9, 13), (5, 10), (18, 5), (7, 0)]) = .ok (.xor .sa 3 ⟨9, 5⟩ 18 7)
    ∧ decodeSlot .sa (word [(3, 22), (6, 17), (9, 13), (5, 10), (18, 5), (7, 0)]) = .ok (.andn .sa 3 ⟨9, 5⟩ 18 7)
    ∧ decodeSlot .sa (word [(3, 22), (7, 17), (9, 13), (5, 10), (18, 5), (7, 0)]) = .ok (.shl .sa 3 ⟨9, 5⟩ 18 7)
    ∧ decodeSlot .sa (word [(3, 22), (8, 17), (9, 13), (5, 10), (18, 5), (7, 0)]) = .ok (.shr .sa 3 ⟨9, 5⟩ 18 7)
    ∧ decodeSlot .sa (word [(3, 22), (9, 17), (9, 13), (5, 10), (18, 5), (7, 0)]) = .ok (.sar .sa 3 ⟨9, 5⟩ 18 7)
    ∧ decodeSlot .sa (word [(3, 22), (10, 17), (9, 13), (5, 10), (18, 5), (7, 0)]) = .ok (.rol .sa 3 ⟨9, 5⟩ 18 7)
    ∧ decodeSlot .sa (word [(3, 22), (11, 17), (9, 13), (5, 10), (18, 5), (7, 0)]) = .ok (.min .sa 3 ⟨9, 5⟩ 18 7)
    ∧ decodeSlot .sa (word [(3, 22), (12, 17), (9, 13), (5, 10), (18, 5), (7, 0)]) = .ok (.max .sa 3 ⟨9, 5⟩ 18 7) :=
  ⟨rfl, rfl, rfl, rfl, rfl, rfl, rfl, rfl, rfl, rfl, rfl, rfl⟩

/-- R58. -/
theorem test_words_scalar2 : decodeSlot .sa (word [(3, 22), (13, 17), (9, 13), (5, 10), (18, 5), (7, 0)]) = .ok (.minu .sa 3 ⟨9, 5⟩ 18 7)
    ∧ decodeSlot .sa (word [(3, 22), (14, 17), (9, 13), (5, 10), (18, 5), (7, 0)]) = .ok (.maxu .sa 3 ⟨9, 5⟩ 18 7)
    ∧ decodeSlot .sa (word [(3, 22), (15, 17), (9, 13), (5, 10), (18, 5), (7, 0)]) = .ok (.mul .sa 3 ⟨9, 5⟩ 18 7)
    ∧ decodeSlot .sa (word [(3, 22), (16, 17), (9, 13), (5, 10), (18, 5), (7, 0)]) = .ok (.mulh .sa 3 ⟨9, 5⟩ 18 7)
    ∧ decodeSlot .sa (word [(3, 22), (17, 17), (9, 13), (5, 10), (18, 5), (7, 0)]) = .ok (.mulhu .sa 3 ⟨9, 5⟩ 18 7)
    ∧ decodeSlot .sa (word [(3, 22), (18, 17), (9, 13), (5, 10), (18, 5)]) = .ok (.clz .sa 3 ⟨9, 5⟩ 18)
    ∧ decodeSlot .sa (word [(3, 22), (19, 17), (9, 13), (5, 10), (18, 5)]) = .ok (.ctz .sa 3 ⟨9, 5⟩ 18)
    ∧ decodeSlot .sa (word [(3, 22), (20, 17), (9, 13), (5, 10), (18, 5)]) = .ok (.pcnt .sa 3 ⟨9, 5⟩ 18)
    ∧ decodeSlot .sa (word [(3, 22), (21, 17), (9, 13), (5, 10), (18, 5), (7, 0)]) = .ok (.sext .sa 3 ⟨9, 5⟩ 18 7)
    ∧ decodeSlot .sa (word [(3, 22), (22, 17), (9, 13), (5, 10), (18, 5), (7, 0)]) = .ok (.zext .sa 3 ⟨9, 5⟩ 18 7)
    ∧ decodeSlot .sa (word [(3, 22), (23, 17), (9, 13), (5, 10), (18, 5), (7, 0)]) = .ok (.cat7 .sa 3 ⟨9, 5⟩ 18 7)
    ∧ decodeSlot .sb (word [(5, 22), (24, 17), (12, 13), (6, 10), (3, 5), (30, 0)]) = .ok (.cmp .sb 5 12 6 3 30)
    ∧ decodeSlot .sb (word [(5, 22), (25, 17), (12, 13), (6, 10), (3, 5), (30, 0)]) = .ok (.cmpa .sb 5 12 6 3 30)
    ∧ decodeSlot .sb (word [(5, 22), (26, 17), (12, 13), (6, 10), (3, 5), (30, 0)]) = .ok (.cmpo .sb 5 12 6 3 30)
    ∧ decodeSlot .sb (word [(1, 22), (27, 17), (2, 13), (7, 10)]) = .ok (.prd .sb 1 ⟨2, 7⟩)
    ∧ decodeSlot .sb (word [(1, 22), (28, 17), (19, 5)]) = .ok (.pwr .sb 1 19)
    ∧ decodeSlot .sa (0) = .ok (.nop .sa) :=
  ⟨rfl, rfl, rfl, rfl, rfl, rfl, rfl, rfl, rfl, rfl, rfl, rfl, rfl, rfl, rfl, rfl, rfl⟩

/-- R63. -/
theorem test_words_index : decodeSlot .x (word [(4, 22), (1, 17), (9, 13), (5, 10), (18, 5), (7, 0)]) = .ok (.xadd 4 ⟨9, 5⟩ 18 7)
    ∧ decodeSlot .x (word [(4, 22), (2, 17), (9, 13), (5, 10), (18, 5), (7, 0)]) = .ok (.xsub 4 ⟨9, 5⟩ 18 7)
    ∧ decodeSlot .x (word [(4, 22), (3, 17), (9, 13), (5, 10), (18, 5), (7, 0)]) = .ok (.xshl 4 ⟨9, 5⟩ 18 7)
    ∧ decodeSlot .x (word [(4, 22), (4, 17), (9, 13), (5, 10), (18, 5), (7, 0)]) = .ok (.xshr 4 ⟨9, 5⟩ 18 7)
    ∧ decodeSlot .x (word [(4, 22), (5, 17), (9, 13), (5, 10), (18, 5), (7, 0)]) = .ok (.xand 4 ⟨9, 5⟩ 18 7)
    ∧ decodeSlot .x (word [(4, 22), (6, 17), (9, 13), (5, 10), (18, 5)]) = .ok (.xpcnt 4 ⟨9, 5⟩ 18)
    ∧ decodeSlot .x (word [(4, 22), (7, 17), (9, 13), (5, 10), (18, 5), (7, 0)]) = .ok (.cadv 4 ⟨9, 5⟩ 18 7)
    ∧ decodeSlot .x (word [(4, 22), (8, 17), (9, 13), (5, 10), (18, 5), (7, 0)]) = .ok (.cadvp 4 ⟨9, 5⟩ 18 7)
    ∧ decodeSlot .x (word [(4, 22), (10, 17), (9, 13), (5, 10), (18, 5), (7, 0)]) = .ok (.xlea 4 ⟨9, 5⟩ 18 7)
    ∧ decodeSlot .x (word [(4, 22), (11, 17), (9, 13), (5, 10), (18, 5), (7, 0)]) = .ok (.xmin 4 ⟨9, 5⟩ 18 7)
    ∧ decodeSlot .x (word [(4, 22), (12, 17), (9, 13), (5, 10), (18, 5), (7, 0)]) = .ok (.xmax 4 ⟨9, 5⟩ 18 7)
    ∧ decodeSlot .x (word [(4, 22), (9, 17), (18, 5), (7, 0)]) = .ok (.aqp 4 18 7)
    ∧ decodeSlot .x (word [(4, 22), (13, 17), (9, 13), (5, 10)]) = .ok (.aqfree 4 ⟨9, 5⟩)
    ∧ decodeSlot .x (0) = .ok (.nop .x) :=
  ⟨rfl, rfl, rfl, rfl, rfl, rfl, rfl, rfl, rfl, rfl, rfl, rfl, rfl, rfl⟩

/-- R60, R61. -/
theorem test_words_memory1 : decodeSlot .ma (word [(2, 21), (1, 16), (11, 12), (3, 9), (6, 5), (29, 0)]) = .ok (.ldI8 .ma 2 ⟨11, 3⟩ 6 29)
    ∧ decodeSlot .ma (word [(2, 21), (2, 16), (11, 12), (3, 9), (6, 5), (29, 0)]) = .ok (.ldN8 .ma 2 ⟨11, 3⟩ 6 29)
    ∧ decodeSlot .ma (word [(2, 21), (3, 16), (11, 12), (3, 9), (6, 5), (29, 0)]) = .ok (.ldI16 .ma 2 ⟨11, 3⟩ 6 29)
    ∧ decodeSlot .ma (word [(2, 21), (4, 16), (11, 12), (3, 9), (6, 5), (29, 0)]) = .ok (.ldN16 .ma 2 ⟨11, 3⟩ 6 29)
    ∧ decodeSlot .ma (word [(2, 21), (5, 16), (11, 12), (3, 9), (6, 5), (29, 0)]) = .ok (.ldI32 .ma 2 ⟨11, 3⟩ 6 29)
    ∧ decodeSlot .ma (word [(2, 21), (6, 16), (11, 12), (3, 9), (6, 5), (29, 0)]) = .ok (.ldN32 .ma 2 ⟨11, 3⟩ 6 29)
    ∧ decodeSlot .ma (word [(2, 21), (7, 16), (11, 12), (3, 9), (6, 5), (29, 0)]) = .ok (.ldI64 .ma 2 ⟨11, 3⟩ 6 29)
    ∧ decodeSlot .ma (word [(2, 21), (8, 16), (22, 9), (6, 5), (29, 0)]) = .ok (.st8 .ma 2 22 6 29)
    ∧ decodeSlot .ma (word [(2, 21), (9, 16), (22, 9), (6, 5), (29, 0)]) = .ok (.st16 .ma 2 22 6 29)
    ∧ decodeSlot .ma (word [(2, 21), (10, 16), (22, 9), (6, 5), (29, 0)]) = .ok (.st32 .ma 2 22 6 29)
    ∧ decodeSlot .ma (word [(2, 21), (11, 16), (22, 9), (6, 5), (29, 0)]) = .ok (.st64 .ma 2 22 6 29)
    ∧ decodeSlot .ma (word [(2, 21), (12, 16), (1, 14), (27, 9), (6, 5), (29, 0)]) = .ok (.vld .ma 2 1 27 6 29)
    ∧ decodeSlot .ma (word [(2, 21), (13, 16), (1, 14), (27, 9), (6, 5), (29, 0)]) = .ok (.vst .ma 2 1 27 6 29)
    ∧ decodeSlot .ma (word [(2, 21), (15, 16), (1, 14), (27, 9), (6, 5), (29, 0)]) = .ok (.vldTc .ma 2 1 27 6 29)
    ∧ decodeSlot .ma (word [(2, 21), (17, 16), (1, 14), (27, 9), (6, 5), (29, 0)]) = .ok (.vldNb .ma 2 1 27 6 29)
    ∧ decodeSlot .ma (word [(2, 21), (19, 16), (1, 14), (27, 9), (6, 5), (29, 0)]) = .ok (.vstVa .ma 2 1 27 6 29) :=
  ⟨rfl, rfl, rfl, rfl, rfl, rfl, rfl, rfl, rfl, rfl, rfl, rfl, rfl, rfl, rfl, rfl⟩

/-- R60 to R62. -/
theorem test_words_memory2 : decodeSlot .ma (word [(2, 21), (14, 16), (11, 12), (3, 9), (6, 5), (29, 0)]) = .ok (.ldTc .ma 2 ⟨11, 3⟩ 6 29)
    ∧ decodeSlot .ma (word [(2, 21), (16, 16), (11, 12), (3, 9), (6, 5), (29, 0)]) = .ok (.ldNb .ma 2 ⟨11, 3⟩ 6 29)
    ∧ decodeSlot .ma (word [(2, 21), (20, 16), (11, 12), (3, 9), (6, 5), (29, 0)]) = .ok (.amoAdd .ma 2 ⟨11, 3⟩ 6 29)
    ∧ decodeSlot .ma (word [(2, 21), (21, 16), (11, 12), (3, 9), (6, 5), (29, 0)]) = .ok (.amoAnd .ma 2 ⟨11, 3⟩ 6 29)
    ∧ decodeSlot .ma (word [(2, 21), (22, 16), (11, 12), (3, 9), (6, 5), (29, 0)]) = .ok (.amoOr .ma 2 ⟨11, 3⟩ 6 29)
    ∧ decodeSlot .ma (word [(2, 21), (23, 16), (11, 12), (3, 9), (6, 5), (29, 0)]) = .ok (.amoMax .ma 2 ⟨11, 3⟩ 6 29)
    ∧ decodeSlot .ma (word [(2, 21), (24, 16), (11, 12), (3, 9), (6, 5), (29, 0)]) = .ok (.amoSwp .ma 2 ⟨11, 3⟩ 6 29)
    ∧ decodeSlot .ma (word [(2, 21), (18, 16), (22, 9), (6, 5), (29, 0)]) = .ok (.stVa .ma 2 22 6 29)
    ∧ decodeSlot .ma (word [(2, 21), (25, 16), (6, 13), (1, 11), (85, 4)]) = .ok (.fence .ma 2 6 1 0x55)
    ∧ decodeSlot .ma (word [(2, 21), (26, 16), (31, 0)]) = .ok (.arrive .ma 2 31)
    ∧ decodeSlot .ma (word [(2, 21), (27, 16), (65, 9), (30, 0)]) = .ok (.signal .ma 2 0x41 30)
    ∧ decodeSlot .ma (word [(2, 21), (27, 16), (65, 9), (1, 8), (30, 0)]) = .ok (.signalDrain .ma 2 0x41 30)
    ∧ decodeSlot .ma (word [(2, 21), (29, 16), (13, 9), (20, 0)]) = .ok (.lda .ma 2 13 20)
    ∧ decodeSlot .ma (word [(2, 21), (30, 16), (11, 12), (3, 9), (6, 5)]) = .ok (.rda .ma 2 ⟨11, 3⟩ 6)
    ∧ decodeSlot .ma (word [(0, 0)]) = .ok (.memNop .ma)
    ∧ decodeSlot .mb (word [(2, 21), (28, 16), (3, 14), (7, 10), (1, 9), (6, 5), (29, 0)]) = .ok (.drain 2 3 7 1 6 29) :=
  ⟨rfl, rfl, rfl, rfl, rfl, rfl, rfl, rfl, rfl, rfl, rfl, rfl, rfl, rfl, rfl, rfl⟩

/-- R64, R65. -/
theorem test_words_vector1 : decodeSlot .vb (word [(1, 32), (1, 27), (3, 23), (1, 21), (26, 16), (19, 11), (21, 6), (5, 3), (4, 0)]) = .ok (.vadd .vb ⟨1, 3, 1, 26, 19, 21, 5, 4⟩)
    ∧ decodeSlot .vb (word [(1, 32), (2, 27), (3, 23), (1, 21), (26, 16), (19, 11), (21, 6), (5, 3), (4, 0)]) = .ok (.vsub .vb ⟨1, 3, 1, 26, 19, 21, 5, 4⟩)
    ∧ decodeSlot .vb (word [(1, 32), (3, 27), (3, 23), (1, 21), (26, 16), (19, 11), (21, 6), (5, 3), (4, 0)]) = .ok (.vmul .vb ⟨1, 3, 1, 26, 19, 21, 5, 4⟩)
    ∧ decodeSlot .vb (word [(1, 32), (4, 27), (3, 23), (1, 21), (26, 16), (19, 11), (21, 6), (5, 3), (5, 0)]) = .ok (.vfma .vb ⟨1, 3, 1, 26, 19, 21, 5, 5⟩)
    ∧ decodeSlot .vb (word [(1, 32), (5, 27), (3, 23), (1, 21), (26, 16), (19, 11), (21, 6), (5, 3), (0, 0)]) = .ok (.vmin .vb ⟨1, 3, 1, 26, 19, 21, 5, 0⟩)
    ∧ decodeSlot .vb (word [(1, 32), (6, 27), (3, 23), (1, 21), (26, 16), (19, 11), (21, 6), (5, 3), (0, 0)]) = .ok (.vmax .vb ⟨1, 3, 1, 26, 19, 21, 5, 0⟩)
    ∧ decodeSlot .vb (word [(1, 32), (7, 27), (3, 23), (1, 21), (26, 16), (19, 11), (0, 6), (5, 3), (1, 0)]) = .ok (.vexp2 .vb ⟨1, 3, 1, 26, 19, 0, 5, 1⟩)
    ∧ decodeSlot .vb (word [(1, 32), (8, 27), (3, 23), (1, 21), (26, 16), (19, 11), (0, 6), (5, 3), (2, 0)]) = .ok (.vrsqrt .vb ⟨1, 3, 1, 26, 19, 0, 5, 2⟩)
    ∧ decodeSlot .vb (word [(1, 32), (9, 27), (3, 23), (1, 21), (26, 16), (19, 11), (0, 6), (5, 3), (3, 0)]) = .ok (.vrecip .vb ⟨1, 3, 1, 26, 19, 0, 5, 3⟩)
    ∧ decodeSlot .vb (word [(1, 32), (10, 27), (3, 23), (1, 21), (26, 16), (19, 11), (12, 6), (5, 3), (5, 0)]) = .ok (.vcvt .vb ⟨1, 3, 1, 26, 19, 12, 5, 5⟩)
    ∧ decodeSlot .vb (word [(1, 32), (11, 27), (3, 23), (1, 21), (6, 16), (19, 11), (21, 6), (5, 3), (7, 0)]) = .ok (.vcmp .vb ⟨1, 3, 1, 6, 19, 21, 5, 7⟩)
    ∧ decodeSlot .vb (word [(1, 32), (12, 27), (3, 23), (1, 21), (26, 16), (19, 11), (21, 6), (5, 3), (0, 0)]) = .ok (.vsel .vb ⟨1, 3, 1, 26, 19, 21, 5, 0⟩)
    ∧ decodeSlot .vb (word [(1, 32), (13, 27), (3, 23), (1, 21), (26, 16), (19, 11), (0, 6), (5, 3), (0, 0)]) = .ok (.vrot .vb ⟨1, 3, 1, 26, 19, 0, 5, 0⟩)
    ∧ decodeSlot .vb (word [(1, 32), (14, 27), (3, 23), (1, 21), (26, 16), (19, 11), (21, 6), (5, 3), (0, 0)]) = .ok (.vshuf .vb ⟨1, 3, 1, 26, 19, 21, 5, 0⟩)
    ∧ decodeSlot .vb (word [(1, 32), (15, 27), (3, 23), (1, 21), (26, 16), (19, 11), (0, 6), (5, 3), (4, 0)]) = .ok (.vscan .vb ⟨1, 3, 1, 26, 19, 0, 5, 4⟩) :=
  ⟨rfl, rfl, rfl, rfl, rfl, rfl, rfl, rfl, rfl, rfl, rfl, rfl, rfl, rfl, rfl⟩

/-- R64, R65. -/
theorem test_words_vector2 : decodeSlot .vb (word [(1, 32), (16, 27), (3, 23), (1, 21), (26, 16), (19, 11), (0, 6), (5, 3), (0, 0)]) = .ok (.vscanx .vb ⟨1, 3, 1, 26, 19, 0, 5, 0⟩)
    ∧ decodeSlot .vb (word [(1, 32), (17, 27), (3, 23), (1, 21), (26, 16), (19, 11), (0, 6), (5, 3), (4, 0)]) = .ok (.vred .vb ⟨1, 3, 1, 26, 19, 0, 5, 4⟩)
    ∧ decodeSlot .vb (word [(1, 32), (18, 27), (3, 23), (1, 21), (26, 16), (19, 11), (0, 6), (5, 3), (0, 0)]) = .ok (.vredx .vb ⟨1, 3, 1, 26, 19, 0, 5, 0⟩)
    ∧ decodeSlot .vb (word [(1, 32), (19, 27), (3, 23), (1, 21), (26, 16), (19, 11), (0, 6), (5, 3), (0, 0)]) = .ok (.vredn .vb ⟨1, 3, 1, 26, 19, 0, 5, 0⟩)
    ∧ decodeSlot .vb (word [(1, 32), (20, 27), (3, 23), (1, 21), (26, 16), (19, 11), (0, 6), (5, 3), (6, 0)]) = .ok (.vcx .vb ⟨1, 3, 1, 26, 19, 0, 5, 6⟩)
    ∧ decodeSlot .vb (word [(1, 32), (21, 27), (12, 23), (1, 21), (26, 16), (19, 11), (21, 6), (5, 3), (0, 0)]) = .ok (.vclmul .vb ⟨1, 12, 1, 26, 19, 21, 5, 0⟩)
    ∧ decodeSlot .vb (word [(1, 32), (22, 27), (6, 23), (1, 21), (26, 16), (19, 11), (0, 6), (5, 3), (0, 0)]) = .ok (.vpcnt .vb ⟨1, 6, 1, 26, 19, 0, 5, 0⟩)
    ∧ decodeSlot .vb (word [(1, 32), (23, 27), (6, 23), (1, 21), (26, 16), (19, 11), (21, 6), (5, 3), (0, 0)]) = .ok (.vand .vb ⟨1, 6, 1, 26, 19, 21, 5, 0⟩)
    ∧ decodeSlot .vb (word [(1, 32), (24, 27), (6, 23), (1, 21), (26, 16), (19, 11), (21, 6), (5, 3), (0, 0)]) = .ok (.vor .vb ⟨1, 6, 1, 26, 19, 21, 5, 0⟩)
    ∧ decodeSlot .vb (word [(1, 32), (25, 27), (6, 23), (1, 21), (26, 16), (19, 11), (21, 6), (5, 3), (0, 0)]) = .ok (.vxor .vb ⟨1, 6, 1, 26, 19, 21, 5, 0⟩)
    ∧ decodeSlot .vb (word [(1, 32), (26, 27), (6, 23), (1, 21), (26, 16), (19, 11), (21, 6), (5, 3), (0, 0)]) = .ok (.vshl .vb ⟨1, 6, 1, 26, 19, 21, 5, 0⟩)
    ∧ decodeSlot .vb (word [(1, 32), (27, 27), (6, 23), (1, 21), (26, 16), (19, 11), (21, 6), (5, 3), (0, 0)]) = .ok (.vshr .vb ⟨1, 6, 1, 26, 19, 21, 5, 0⟩)
    ∧ decodeSlot .vb (word [(1, 32), (28, 27), (3, 23), (1, 21), (26, 16), (0, 11), (0, 6), (5, 3), (0, 0)]) = .ok (.vbc .vb ⟨1, 3, 1, 26, 0, 0, 5, 0⟩)
    ∧ decodeSlot .vb (word [(1, 32), (29, 27), (3, 23), (1, 21), (26, 16), (19, 11), (0, 6), (5, 3), (0, 0)]) = .ok (.vabs .vb ⟨1, 3, 1, 26, 19, 0, 5, 0⟩)
    ∧ decodeSlot .vb (word [(1, 32), (30, 27), (3, 23), (1, 21), (26, 16), (19, 11), (0, 6), (5, 3), (0, 0)]) = .ok (.vneg .vb ⟨1, 3, 1, 26, 19, 0, 5, 0⟩)
    ∧ decodeSlot .va (0) = .ok (.nop .va) :=
  ⟨rfl, rfl, rfl, rfl, rfl, rfl, rfl, rfl, rfl, rfl, rfl, rfl, rfl, rfl, rfl, rfl⟩

/-- R68. -/
theorem test_words_matrix : decodeSlot .mx (word [(4, 14), (1, 11), (0, 7), (0, 5), (2, 3), (5, 0)]) = .ok (.lsh 4 2 5)
    ∧ decodeSlot .mx (word [(4, 14), (2, 11), (0, 7), (3, 5), (0, 3), (0, 0)]) = .ok (.acc 4 3)
    ∧ decodeSlot .mx (word [(4, 14), (3, 11), (0, 7), (3, 5), (2, 3), (5, 0)]) = .ok (.acl 4 3 2 5)
    ∧ decodeSlot .mx (word [(4, 14), (4, 11), (14, 7), (0, 5), (0, 3), (0, 0)]) = .ok (.psh 4 14)
    ∧ decodeSlot .mx (word [(4, 14), (5, 11), (14, 7), (0, 5), (2, 3), (5, 0)]) = .ok (.psl 4 14 2 5)
    ∧ decodeSlot .mx (word [(4, 14), (6, 11), (14, 7), (3, 5), (0, 3), (0, 0)]) = .ok (.pac 4 14 3)
    ∧ decodeSlot .mx (word [(4, 14), (7, 11), (14, 7), (3, 5), (2, 3), (5, 0)]) = .ok (.pal 4 14 3 2 5)
    ∧ decodeSlot .mx (0) = .ok (.nop .mx) :=
  ⟨rfl, rfl, rfl, rfl, rfl, rfl, rfl, rfl⟩

/-- R69. -/
theorem test_words_engine : decodeSlot .e (word [(5, 9), (1, 5), (27, 0)]) = .ok (.fmtw 5 27)
    ∧ decodeSlot .e (word [(5, 9), (2, 5), (13, 0)]) = .ok (.fmtr 5 13)
    ∧ decodeSlot .e (word [(5, 9), (3, 5), (4, 0)]) = .ok (.rmode 5 4)
    ∧ decodeSlot .e (word [(5, 9), (4, 5), (5, 0)]) = .ok (.afmt 5 5)
    ∧ decodeSlot .e (word [(5, 9), (5, 5), (2, 0)]) = .ok (.bfmt 5 2)
    ∧ decodeSlot .e (word [(5, 9), (6, 5), (1, 0)]) = .ok (.scal 5 1)
    ∧ decodeSlot .e (word [(5, 9), (7, 5), (21, 0)]) = .ok (.fclr 5 0x15)
    ∧ decodeSlot .e (word [(5, 9), (8, 5), (6, 0)]) = .ok (.gpsh 5 6)
    ∧ decodeSlot .e (word [(5, 9), (9, 5), (7, 0)]) = .ok (.glat 5 7)
    ∧ decodeSlot .e (word [(5, 9), (10, 5), (3, 0)]) = .ok (.gsr 5 3)
    ∧ decodeSlot .e (word [(5, 9), (11, 5), (12, 0)]) = .ok (.eSub 5 12)
    ∧ decodeSlot .e (0) = .ok (.nop .e) :=
  ⟨rfl, rfl, rfl, rfl, rfl, rfl, rfl, rfl, rfl, rfl, rfl, rfl⟩

/-- R299. -/
theorem test_words_cellar : decodeCellar (word [(0, 27), (2748, 0)]) = .ok (.ceNop 0xABC)
    ∧ decodeCellar (word [(1, 27), (5, 24), (1193046, 0)]) = .ok (.ceJset 5 0x123456)
    ∧ decodeCellar (word [(2, 27), (5, 24), (3, 21), (74565, 0)]) = .ok (.ceJadd 5 3 0x12345)
    ∧ decodeCellar (word [(3, 27), (5, 24), (85, 0)]) = .ok (.ceBnz 5 0x55)
    ∧ decodeCellar (word [(4, 27), (6, 24)]) = .ok (.ceWait 6)
    ∧ decodeCellar (word [(5, 27), (3, 4), (0, 2), (1, 0)]) = .ok (.ceCfmt 1 0 3)
    ∧ decodeCellar (word [(6, 27), (7, 24), (2, 21)]) = .ok (.ceAld 7 2)
    ∧ decodeCellar (word [(7, 27), (129, 0)]) = .ok (.ceClr 0x81)
    ∧ decodeCellar (word [(8, 27), (1, 24), (6, 21), (7, 18), (42, 12)]) = .ok (.ceWdot 1 6 7 0x2A)
    ∧ decodeCellar (word [(8, 27), (1, 24), (6, 21), (7, 18), (42, 12), (1, 11)]) = .ok (.ceWdotAdd 1 6 7 0x2A)
    ∧ decodeCellar (word [(9, 27), (1, 24), (6, 21), (7, 18), (42, 12), (2, 10)]) = .ok (.cePsc 1 6 7 0x2A 2)
    ∧ decodeCellar (word [(10, 27), (4, 24), (240, 0)]) = .ok (.ceScl 4 0xF0)
    ∧ decodeCellar (word [(11, 27), (1, 24), (63, 18), (6, 15), (7, 12)]) = .ok (.cePtop 1 0x3F 6 7)
    ∧ decodeCellar (word [(12, 27), (1, 24), (6, 21), (5, 18), (1, 17)]) = .ok (.ceOut 1 6 5 1)
    ∧ decodeCellar (word [(13, 27)]) = .ok (.ceEnd) :=
  ⟨rfl, rfl, rfl, rfl, rfl, rfl, rfl, rfl, rfl, rfl, rfl, rfl, rfl, rfl, rfl⟩

/-- What the table decoder gives for 24 and 32 bits (R60, R299). -/
theorem test_words_table : decodeTableWord 24 (word [(7, 16), (5, 12), (2, 5), (1, 0)]) = some (.ldI64 .mb 0 ⟨5, 0⟩ 2 1)
    ∧ decodeTableWord 32 (word [(1, 27), (3, 24), (3, 0)]) = some (.ceJset 3 3)
    ∧ decodeTableWord 16 0 = none
    ∧ decodeTableWord 24 (word [(31, 16)]) = none :=
  ⟨rfl, rfl, rfl, rfl⟩

/-! ## Witnesses: for each statement with hypotheses, states and operands that meet them, each clause apart -/

/-- Context 0 of core 0, with its array and all its banks, in the tick 100. -/
def ctx0 : Ctx := { Ctx.reset with status := .issuing, lx := 1, bud := 5, ilim := 0x100 }
def core0 : Core := { Core.reset with ctxs := [(0, ctx0)], own := (List.range 32).map (fun b => (b, 1)), arrayOwner := some 0 }
def launch0 : Launch := ⟨1, 0, 0, 0, [7, 0, 0], [], [], 0, 50, 2, 0, false, false, 0, 0, 0, false, [], 0, []⟩
def stOf (k : Core) : State :=
  { State.reset with now := 100, booted := true, cores := [(0, k)], launches := [launch0], iss := { Issue.reset with checked := true, left := [.sa] } }
/-- A state whose bundle has been checked, and one whose bundle has not. -/
def s0 : State := stOf core0
def u0 : State := { s0 with iss := { s0.iss with checked := false } }
/-- The same with another context 0. -/
def withCtx (k : Ctx) : State := stOf { core0 with ctxs := [(0, k)] }

theorem runs {i : Instr} {s : State} (h : slotRuns i s = true) (hc : s.iss.checked = true) : Executes i s := ⟨h, .inl hc⟩
theorem runsIf {i : Instr} {s : State} {p : Prop} (h : slotRuns i s = true) (hc : s.iss.checked = true) : ExecutesIf i s p := ⟨h, .inl hc⟩
theorem holds {i : Instr} {s : State} (h : ∀ q ∈ selsOf i, 22 ≤ q.toNat → q.toNat ≤ 25 → s.cur.queueReady (q.toNat - 22) = true) : SelectorsHold i s := h
theorem noBad {s : State} {k : Core} (h : s.cores = [(0, k)]) (hk : k.bad = []) : NoBadWord s := fun c => by
  simp only [State.core, h, tget]
  split
  · exact hk
  · rfl
/-- A slot whose bundle has not been checked executes where its operands are there (R19, R342). -/
theorem test_meets_Executes_unchecked : Executes (.add .sa 0 ⟨1, 0⟩ 22 24) { withCtx { ctx0 with qc := [0] } with iss := u0.iss } :=
  ⟨by decide, .inr ⟨holds (by decide), noBad rfl rfl⟩⟩
theorem test_meets_ScalarResults : ∃ f g h, ScalarForm (.add .sb 0 ⟨15, 7⟩ 31 26) .sb ⟨15, 7⟩ 31 26 1 f ∧ Executes (.add .sb 0 ⟨15, 7⟩ 31 26) s0
    ∧ ScalarForm (.mulh .sa 5 ⟨1, 1⟩ 2 3) .sa ⟨1, 1⟩ 2 3 3 g ∧ Executes (.mulh .sa 5 ⟨1, 1⟩ 2 3) s0
    ∧ ScalarForm (.clz .sa 0 ⟨1, 2⟩ 2) .sa ⟨1, 2⟩ 2 0 1 h ∧ Executes (.clz .sa 0 ⟨1, 2⟩ 2) s0 :=
  ⟨_, _, _, .add _ _ _ _ _, runs (by decide) rfl, .mulh _ _ _ _ _, runs (by decide) rfl, .clz _ _ _ _, runs (by decide) rfl⟩
theorem test_meets_Compares : (1 = 1 ↔ scalarHolds 0 (s0.sel .sa 0) (s0.sel .sa 0)) ∧ (0 = 1 ↔ s0.cur.p.getLsbD 4 = true ∧ scalarHolds 1 (s0.sel .sa 0) (s0.sel .sa 1))
    ∧ (1 = 1 ↔ s0.cur.p.getLsbD 4 = true ∨ scalarHolds 0 (s0.sel .sa 0) (s0.sel .sa 0))
    ∧ Executes (.cmp .sa 0 4 0 0 0) s0 ∧ Executes (.cmpa .sa 0 4 1 0 1) s0 ∧ Executes (.cmpo .sa 0 4 0 0 0) s0 := by
  refine ⟨?_, ?_, ?_, runs (by decide) rfl, runs (by decide) rfl, runs (by decide) rfl⟩
  · exact ⟨fun _ => rfl, fun _ => rfl⟩
  · exact ⟨fun h => absurd h (by decide), fun h => absurd h.1 (by decide)⟩
  · exact ⟨fun _ => .inr rfl, fun _ => rfl⟩
theorem test_meets_IndexResults : ∃ f g h, IndexForm s0 (.xlea 0 ⟨3, 6⟩ 1 27) ⟨3, 6⟩ 1 27 1 f ∧ Executes (.xlea 0 ⟨3, 6⟩ 1 27) s0
    ∧ IndexForm s0 (.cadv 0 ⟨3, 0⟩ 1 2) ⟨3, 0⟩ 1 2 2 g ∧ Executes (.cadv 0 ⟨3, 0⟩ 1 2) s0
    ∧ IndexForm s0 (.aqfree 0 ⟨3, 0⟩) ⟨3, 0⟩ 0 0 1 h ∧ Executes (.aqfree 0 ⟨3, 0⟩) s0 :=
  ⟨_, _, _, .xlea _ _ _ _, runs (by decide) rfl, .cadv _ _ _ _, runs (by decide) rfl, .aqfree _ _, runs (by decide) rfl⟩
theorem test_meets_RegisterForms : ∃ f g, RegisterForm s0 (.prep 7 0xFFF) f ∧ Executes (.prep 7 0xFFF) s0
    ∧ RegisterForm s0 (.gsr 5 7) g ∧ Executes (.gsr 5 7) s0 ∧ Executes (.fmtw 0 9) s0 :=
  ⟨_, _, .prep _ _, runs (by decide) rfl, .gsr _ _, runs (by decide) rfl, runs (by decide) rfl⟩
/-- An xfer that falls through with no target valid, one that takes B3 in a bundle not yet checked, and a go. -/
theorem test_meets_Transfers : ExecutesIf (.xfer 2 3 12 0) u0 (leftmost 4 (fun i => u0.cur.p.getLsbD (12 + i) != (0 : BitVec 4).getLsbD i) = 5 ∨ u0.cur.bOk 100 6 = true)
    ∧ ExecutesIf (.xfer 2 1 4 1) { withCtx { ctx0 with p := 0x30, bV := 0x8 } with iss := u0.iss }
        (leftmost 2 (fun i => ({ ctx0 with p := 0x30, bV := 0x8 } : Ctx).p.getLsbD (4 + i) != (1 : BitVec 4).getLsbD i) = 5
          ∨ ({ ctx0 with p := 0x30, bV := 0x8 } : Ctx).bOk 100 3 = true)
    ∧ ExecutesIf (.go 7) { withCtx { ctx0 with bV := 0x80 } with iss := u0.iss } ((withCtx { ctx0 with bV := 0x80 }).cur.bOk 100 7 = true) :=
  ⟨⟨by decide, .inr ⟨holds (by decide), noBad rfl rfl, by decide⟩⟩, ⟨by decide, .inr ⟨holds (by decide), noBad rfl rfl, by decide⟩⟩,
    ⟨by decide, .inr ⟨holds (by decide), noBad rfl rfl, by decide⟩⟩⟩
theorem test_meets_UnpreparedTargets : u0.iss.checked = false ∧ u0.cur.bOk u0.now 1 = false ∧ NoBadWord u0 ∧ slotRuns (.go 1) u0 = true
    ∧ leftmost 1 (fun i => u0.cur.p.getLsbD (4 + i) != (1 : BitVec 4).getLsbD i) = 1 ∧ u0.cur.bOk u0.now ((2 + 1 - 1) % 8) = false ∧ slotRuns (.xfer 2 0 4 1) u0 = true :=
  ⟨rfl, by decide, noBad rfl rfl, by decide, by decide, by decide, by decide⟩
theorem test_meets_SystemRequests : Executes (.waitBarrier 31) s0 ∧ Executes (.waitQueue 3) s0 ∧ Executes (.waitTick 9) s0 ∧ Executes (.waitEngine 4) s0
    ∧ Executes (.trap 255) s0 ∧ Executes .halt s0 ∧ Executes (.tmark 9) s0 ∧ Executes (.hsig 9) s0 :=
  ⟨runs (by decide) rfl, runs (by decide) rfl, runs (by decide) rfl, runs (by decide) rfl, runs (by decide) rfl, runs (by decide) rfl,
    runs (by decide) rfl, runs (by decide) rfl⟩
/-- Scalar destinations: a copy to the slot's own slice and latch, and to VS. -/
theorem test_meets_ScalarDestinations : (scalarFlights s0 .sa ⟨3, 0⟩ 1 0 9).length = 2 ∧ (scalarFlights s0 .x ⟨3, 7⟩ 1 0 9).length = 3 := by decide

/-- A state whose bundle has not been checked, of a context. -/
def openOf (k : Ctx) : State := { withCtx k with iss := u0.iss }
/-- The same of a core. -/
def openCore (k : Core) : State := { stOf k with iss := u0.iss }
/-- A slot of a bundle not yet checked whose operands are there and whose own checks hold. -/
theorem ready {i : Instr} {s : State} {k : Core} {p : Prop} (h : slotRuns i s = true)
    (hs : ∀ q ∈ selsOf i, 22 ≤ q.toNat → q.toNat ≤ 25 → s.cur.queueReady (q.toNat - 22) = true) (hc : s.cores = [(0, k)]) (hk : k.bad = [])
    (hp : p) : ExecutesIf i s p := ⟨h, .inr ⟨hs, noBad hc hk, hp⟩⟩
/-- X reads 0x0000_2000_0000_3080 in G1, and in G2 the keys 0x11 and 0x11, in G3 the keys 1 and 2. -/
def ctxX : Ctx := { ctx0 with g := [(65, 0x0000200000003080), (66, 0x0000001100000011), (67, 0x0000000100000002)], aqocc := 62 }
theorem test_meets_QueuePushes : PushForm (openOf { ctxX with aqocc := 63 }) (.aqp 0 1 0) [(0x3080, 128)] []
    ∧ ExecutesIf (.aqp 0 1 0) (openOf { ctxX with aqocc := 63 }) (PushesReady (openOf { ctxX with aqocc := 63 }) [(0x3080, 128)]) :=
  ⟨.aqp 0 1 0 128 (by decide), ready (by decide) (by decide) rfl rfl ⟨by decide, fun p hp => ⟨0, 0x3080, by
    rw [List.mem_singleton] at hp; subst hp; exact ⟨rfl, by decide, by decide⟩⟩⟩⟩
theorem test_meets_QueuePushes_cadvp : ∃ f g fs gs, PushForm (openOf ctxX) (.cadvp 0 ⟨4, 0⟩ 1 2) [(0x2000, 8), (0x3080, 8)] fs
    ∧ ExecutesIf (.cadvp 0 ⟨4, 0⟩ 1 2) (openOf ctxX) (PushesReady (openOf ctxX) [(0x2000, 8), (0x3080, 8)])
    ∧ PushForm (openOf ctxX) (.cadvp 0 ⟨4, 0⟩ 1 3) [] gs ∧ IndexForm (openOf ctxX) (.cadv 0 ⟨4, 0⟩ 1 2) ⟨4, 0⟩ 1 2 2 f
    ∧ IndexForm (openOf ctxX) (.cadv 0 ⟨4, 0⟩ 1 3) ⟨4, 0⟩ 1 3 2 g :=
  ⟨_, _, _, _, .matching 0 ⟨4, 0⟩ 1 2 2 _ (.cadv _ _ _ _) (by decide) (by decide), ready (by decide) (by decide) rfl rfl ⟨by decide, fun p hp => by
    rcases List.mem_cons.mp hp with h | h
    · subst h; exact ⟨0, 0x2000, rfl, by decide, by decide⟩
    · rw [List.mem_singleton] at h; subst h; exact ⟨0, 0x3080, rfl, by decide, by decide⟩⟩,
    .apart 0 ⟨4, 0⟩ 1 3 2 _ (.cadv _ _ _ _) (by decide), .cadv _ _ _ _, .cadv _ _ _ _⟩
theorem test_meets_VectorBits : ∃ g h, VecBitForm s0 (.vrot .va ⟨0, 6, 2, 3, 1, 0, 7, 0⟩) ⟨0, 6, 2, 3, 1, 0, 7, 0⟩ 2 g
    ∧ Instr.wf (.vrot .va ⟨0, 6, 2, 3, 1, 0, 7, 0⟩) = true ∧ Executes (.vrot .va ⟨0, 6, 2, 3, 1, 0, 7, 0⟩) s0
    ∧ VecBitForm s0 (.vclmul .vb ⟨5, 12, 0, 3, 1, 2, 0, 0⟩) ⟨5, 12, 0, 3, 1, 2, 0, 0⟩ 4 h
    ∧ Instr.wf (.vclmul .vb ⟨5, 12, 0, 3, 1, 2, 0, 0⟩) = true ∧ Executes (.vclmul .vb ⟨5, 12, 0, 3, 1, 2, 0, 0⟩) s0
    ∧ Instr.wf (.vpcnt .va ⟨0, 5, 1, 3, 1, 0, 0, 0⟩) = true ∧ Executes (.vpcnt .va ⟨0, 5, 1, 3, 1, 0, 0, 0⟩) s0 :=
  ⟨_, _, .vrot _ _, by decide, runs (by decide) rfl, .vclmul _ _, by decide, runs (by decide) rfl, by decide, runs (by decide) rfl⟩
theorem test_meets_VectorIntegers : ∃ r q, VecIntForm s0 (.vadd .va ⟨0, 5, 2, 3, 1, 2, 0, 1⟩) ⟨0, 5, 2, 3, 1, 2, 0, 1⟩ r
    ∧ Instr.wf (.vadd .va ⟨0, 5, 2, 3, 1, 2, 0, 1⟩) = true ∧ tyIsInt 5 = true ∧ Executes (.vadd .va ⟨0, 5, 2, 3, 1, 2, 0, 1⟩) s0
    ∧ VecIntForm s0 (.vneg .vb ⟨0, 12, 0, 3, 1, 0, 0, 0⟩) ⟨0, 12, 0, 3, 1, 0, 0, 0⟩ q ∧ Instr.wf (.vneg .vb ⟨0, 12, 0, 3, 1, 0, 0, 0⟩) = true
    ∧ tyIsInt 12 = true ∧ Executes (.vneg .vb ⟨0, 12, 0, 3, 1, 0, 0, 0⟩) s0 :=
  ⟨_, _, .vadd _ _, by decide, by decide, runs (by decide) rfl, .vneg _ _, by decide, by decide, runs (by decide) rfl⟩
theorem test_meets_VectorFloats : ∃ g h, VecFloatForm s0 (.vfma .va ⟨0, 3, 2, 3, 1, 2, 0, 4⟩) ⟨0, 3, 2, 3, 1, 2, 0, 4⟩ 6 g
    ∧ Instr.wf (.vfma .va ⟨0, 3, 2, 3, 1, 2, 0, 4⟩) = true ∧ tyIsInt 3 = false ∧ Executes (.vfma .va ⟨0, 3, 2, 3, 1, 2, 0, 4⟩) s0
    ∧ VecPlainForm s0 (.vmin .vb ⟨0, 1, 0, 3, 1, 2, 0, 0⟩) ⟨0, 1, 0, 3, 1, 2, 0, 0⟩ h ∧ Instr.wf (.vmin .vb ⟨0, 1, 0, 3, 1, 2, 0, 0⟩) = true
    ∧ tyIsInt 1 = false ∧ Executes (.vmin .vb ⟨0, 1, 0, 3, 1, 2, 0, 0⟩) s0
    ∧ Instr.wf (.vcvt .va ⟨0, 4, 1, 3, 1, 3, 0, 5⟩) = true ∧ Executes (.vcvt .va ⟨0, 4, 1, 3, 1, 3, 0, 5⟩) s0 :=
  ⟨_, _, .vfma _ _, by decide, by decide, runs (by decide) rfl, .vmin _ _, by decide, by decide, runs (by decide) rfl, by decide, runs (by decide) rfl⟩
theorem test_meets_VectorComparesAndMoves : Instr.wf (.vcmp .va ⟨0, 3, 2, 7, 1, 2, 0, 7⟩) = true ∧ Executes (.vcmp .va ⟨0, 3, 2, 7, 1, 2, 0, 7⟩) s0
    ∧ Instr.wf (.vsel .vb ⟨0, 4, 2, 3, 1, 2, 7, 0⟩) = true ∧ Executes (.vsel .vb ⟨0, 4, 2, 3, 1, 2, 7, 0⟩) s0
    ∧ Instr.wf (.vcx .va ⟨0, 12, 0, 3, 1, 0, 1, 7⟩) = true ∧ Executes (.vcx .va ⟨0, 12, 0, 3, 1, 0, 1, 7⟩) s0 :=
  ⟨by decide, runs (by decide) rfl, by decide, runs (by decide) rfl, by decide, runs (by decide) rfl⟩
theorem test_meets_VectorReductions : tyIsInt 7 = true ∧ tyIsInt 3 = false
    ∧ (∀ i ∈ [Instr.vscan .va ⟨0, 7, 2, 3, 1, 0, 2, 0⟩, .vscanx .va ⟨0, 7, 2, 3, 1, 0, 2, 0⟩, .vred .va ⟨0, 7, 2, 3, 1, 0, 2, 0⟩,
        .vredx .va ⟨0, 7, 2, 3, 1, 0, 2, 0⟩, .vredn .va ⟨0, 7, 2, 3, 1, 0, 2, 0⟩, .vscan .vb ⟨0, 3, 2, 3, 1, 0, 0, 4⟩, .vscanx .vb ⟨0, 3, 2, 3, 1, 0, 0, 0⟩,
        .vred .vb ⟨0, 3, 2, 3, 1, 0, 0, 5⟩, .vredx .vb ⟨0, 3, 2, 3, 1, 0, 0, 0⟩, .vredn .vb ⟨0, 3, 2, 3, 1, 0, 0, 0⟩],
      i.wf = true ∧ Executes i s0) :=
  ⟨by decide, by decide, fun i hi => ⟨by revert i; decide, runs (by revert i; decide) rfl⟩⟩

/-- A core with words in its address registers for the beats, and four rows and columns in use. -/
def ctxM : Ctx := { ctx0 with a := [(1, 0x10000), (8, 0x10C80)] }
def coreM : Core := { core0 with ctxs := [(0, ctxM)], array := { ArrayState.reset with actl := 0x00040404 } }
theorem test_meets_MatrixBeats : BeatForm (.pal 0 1 3 2 0) (some 1) (some 3) (some (2, 0))
    ∧ ExecutesIf (.pal 0 1 3 2 0) (openCore coreM) (BeatReady (openCore coreM) (.pal 0 1 3 2 0))
    ∧ BeatForm (.acc 0 3) none (some 3) none ∧ ExecutesIf (.acc 0 3) (openCore coreM) (BeatReady (openCore coreM) (.acc 0 3))
    ∧ ExecutesIf (.psh 0 15) (openCore coreM) (((openCore coreM).core 0).arrayOwner = some 0) :=
  ⟨.pal _ _ _ _ _, ready (by decide) (by decide) rfl rfl ⟨rfl, by decide, fun p l h => by
      have e : mxReads (openCore coreM) (.pal 0 1 3 2 0) = [0x10000, 0x10C80] := by decide
      rw [e] at h; injection h with h1 h2; injection h2 with h2 _; subst h1; subst h2; decide⟩,
    .acc _ _, ready (by decide) (by decide) rfl rfl ⟨rfl, by decide, fun p l h => by
      have e : mxReads (openCore coreM) (.acc 0 3) = [] := by decide
      rw [e] at h; cases h⟩, ready (by decide) (by decide) rfl rfl rfl⟩
theorem test_meets_Drains : Instr.wf (.drain 0 3 3 1 1 31) = true
    ∧ (let s := openCore coreM
      let a := ((tget s.cur.a 0 1).toNat + 31 * 128) % 2 ^ 32
      let n := (drainElems s 3 3).length * drainBytes 3
      ExecutesIf (.drain 0 3 3 1 1 31) s ((s.core 0).arrayOwner = some 0 ∧ a % 128 = 0 ∧ a < spadSize ∧ a + 128 * ((n + 127) / 128) ≤ spadSize
        ∧ ∀ j, j < (n + 127) / 128 → (s.core 0).owns 0 (bankOf (a + 128 * j)) = true)) :=
  ⟨by decide, ready (by decide) (by decide) rfl rfl ⟨rfl, by decide, by decide, by decide, by decide⟩⟩
/-- A record at 0 of a copy of one word between scratchpads, to begin 256 ticks after the launch's start. -/
def coreR (b : Memory) : Core := { core0 with spad := b, ctxs := [(0, { ctx0 with a := [(1, 0x20)] })] }
theorem test_meets_Submissions : (openCore (coreR [(0x25, 1)])).iss.core = 0 ∧ ExecutesIf (.eSub 0 1) (openCore (coreR [(0x25, 1)])) (esubFaults (openCore (coreR [(0x25, 1)])) 0x20 = []) :=
  ⟨rfl, ready (by decide) (by decide) rfl rfl (by decide)⟩
/-- The clauses on submissions not issued: misaligned, past the scratchpad, a class past 4, a begin tick one too early, a full queue, a
copy with a window for source. -/
theorem test_meets_SubmissionFaults : (33 : Nat) % 32 ≠ 0 ∧ (0x200000 % 32 = 0 ∧ spadSize ≤ 0x200000)
    ∧ 4 < ((openCore (coreR [(0x20, 5)])).recordCmd 0x20).w0.toNat % 16
    ∧ ((openCore (coreR [(0x24, 53)])).recordCmd 0x20).beginAt < 100 + 4
    ∧ (let m := (openCore (coreR [(0x25, 1)])).recordCmd 0x20
      let s := { openCore (coreR [(0x25, 1)]) with cmds := List.replicate 16 m }
      0 ∈ engineOf m ∧ 16 ≤ (s.cmds.filter (fun d => d.phase == 0 && d.cls == m.cls && (engineOf d).contains 0)).length)
    ∧ (let m := (openCore (coreR [(0x25, 1), (0x2B, 4), (0x2F, 0x80)])).recordCmd 0x20
      m.w0.toNat % 16 = 0 ∧ m.w1.toNat.testBit 63 = true ∧ inWindow (m.w1.toNat % 2 ^ 32) = true) := by
  refine ⟨by decide, by decide, by decide, by decide, by decide, by decide⟩

/-- Address registers at an own word, at a peer's and in every window. -/
def ctxA : Ctx := { ctx0 with
  a := [(1, 0x1FFF80), (2, 0x1200000), (3, 0x05000000), (4, 0x06000030), (5, 0x02000180), (6, 0x03000000), (7, 0x04000000)], qm := [7] }
def sA : State := openOf ctxA
theorem test_meets_Loads : ∃ f g h, LoadForm sA (.ldI64 .ma 0 ⟨3, 0⟩ 1 15) .ma 0x1FFFF8 8 false true f ∧ Instr.wf (.ldI64 .ma 0 ⟨3, 0⟩ 1 15) = true
    ∧ localPlace 0 0x1FFFF8 = some (0, 0x1FFFF8) ∧ ExecutesIf (.ldI64 .ma 0 ⟨3, 0⟩ 1 15) sA (AccessReady sA 0x1FFFF8 8 0 0x1FFFF8 true false ∧ True)
    ∧ LoadForm sA (.vld .mb 0 2 31 2 0) .mb 0x1200000 128 true false g ∧ Instr.wf (.vld .mb 0 2 31 2 0) = true ∧ localPlace 0 0x1200000 = some (1, 0)
    ∧ ExecutesIf (.vld .mb 0 2 31 2 0) sA (AccessReady sA 0x1200000 128 1 0 true false ∧ True)
    ∧ CheckedLoadForm sA (.vldTc .ma 0 0 9 1 0) .ma 0x1FFF80 32 true false h
        (fun c off _ => (tget (sA.core c).tags 0 (off / 4096 % 512)).toNat = (sA.sel .ma 0).toNat % 65536) none
    ∧ ExecutesIf (.vldTc .ma 0 0 9 1 0) sA (AccessReady sA 0x1FFF80 32 0 0x1FFF80 true false ∧ (tget (sA.core 0).tags 0 511).toNat = (sA.sel .ma 0).toNat % 65536) :=
  ⟨_, _, _, .i64 _ _ _ _ _, by decide, by decide, ready (by decide) (by decide) rfl rfl ⟨⟨by decide, by decide, by decide⟩, trivial⟩,
    .vld _ _ _ _ _ _, by decide, by decide, ready (by decide) (by decide) rfl rfl ⟨⟨by decide, by decide, by decide⟩, trivial⟩,
    .vtc _ _ _ _ _ _, ready (by decide) (by decide) rfl rfl ⟨⟨by decide, by decide, by decide⟩, by decide⟩⟩
/-- A not-before tick equal to the perform tick of a peer access: the least that is late enough. -/
theorem test_meets_Loads_nb : ∃ h, CheckedLoadForm (openOf { ctxA with g := [(32 + 9, 104)] }) (.ldNb .ma 0 ⟨3, 0⟩ 2 9) .ma 0x1200000 8 false true h
      (fun _ _ p => ((openOf { ctxA with g := [(32 + 9, 104)] }).sel .ma 9).toNat ≤ p) (some ((openOf { ctxA with g := [(32 + 9, 104)] }).sel .ma 9).toNat)
    ∧ ((openOf { ctxA with g := [(32 + 9, 104)] }).sel .ma 9).toNat ≤ performs (openOf { ctxA with g := [(32 + 9, 104)] }) 0x1200000 :=
  ⟨_, .nb _ _ _ _ _, by decide⟩
theorem test_meets_Stores : ∃ x, StoreForm sA (.st8 .ma 0 0 1 31) .ma 0x1FFF9F 1 0 false ∧ Instr.wf (.st8 .ma 0 0 1 31) = true ∧ localPlace 0 0x1FFF9F = some (0, 0x1FFF9F)
    ∧ ExecutesIf (.st8 .ma 0 0 1 31) sA (AccessReady sA 0x1FFF9F 1 0 0x1FFF9F false true)
    ∧ StoreForm sA (.vst .mb 0 2 31 2 1) .mb 0x1200080 128 x true ∧ Instr.wf (.vst .mb 0 2 31 2 1) = true ∧ localPlace 0 0x1200080 = some (1, 0x80)
    ∧ ExecutesIf (.vst .mb 0 2 31 2 1) sA (AccessReady sA 0x1200080 128 1 0x80 false true) :=
  ⟨_, .st8 _ _ _ _ _, by decide, by decide, ready (by decide) (by decide) rfl rfl ⟨by decide, by decide, by decide⟩,
    .vst _ _ _ _ _ _, by decide, by decide, ready (by decide) (by decide) rfl rfl ⟨by decide, by decide, by decide⟩⟩
/-- Every scratchpad of a state with one listed core is canonical when that core's is. -/
theorem canon {s : State} {k : Core} (h : s.cores = [(0, k)]) (hk : k.spad.wf = true) : ∀ c, (s.spad c).wf = true := fun c => by
  simp only [State.spad, State.core, h, tget]
  split
  · exact hk
  · rfl
theorem test_meets_AccessesPerform : (∀ c, (s0.spad c).wf = true) ∧ (∀ e ∈ (s0.core 0).timed, e.vis ≠ s0.now) ∧ (∀ e ∈ (s0.core 1).timed, e.vis ≠ s0.now)
    ∧ (20 : Nat) ≤ 24 :=
  ⟨canon rfl rfl, by decide, by decide, by decide⟩
/-- Accesses of the peer path that perform in a tick of the scrub of their bank, its first and its last, and one of the core's own scratchpad. -/
def sScrubbed (n : Nat) : State := stOf { core0 with own := [(2, 5)], scrubs := [(2, n)] }
theorem test_meets_AccessesPerform_scrub : (∀ n ∈ [101, 612], Meets (sScrubbed n) ⟨100, 96, 0, 0, false, .spad 0 0x100, .store, 8, 0, false, 0, none⟩ 0 0x100)
    ∧ ¬ Meets (sScrubbed 612) ⟨100, 99, 0, 0, false, .spad 0 0x100, .amo 3 20, 8, 0, false, 0, none⟩ 0 0x100
    ∧ ¬ Scrubbed (sScrubbed 100) 0 0x100 ∧ ¬ Scrubbed (sScrubbed 612) 0 0x180 ∧ ∀ c, ((sScrubbed 612).spad c).wf = true := by
  refine ⟨?_, fun h => absurd h.1 (by decide), fun h => absurd h (by decide), fun h => absurd h (by decide), canon rfl rfl⟩
  intro n hn
  simp only [List.mem_cons, List.not_mem_nil, or_false] at hn
  obtain rfl | rfl := hn <;> exact ⟨by decide, by decide⟩
theorem test_meets_Atomics : AmoForm sA (.amoAdd .ma 0 ⟨3, 0⟩ 1 0) .ma ⟨3, 0⟩ 0x1FFF80 0 20 ∧ Instr.wf (.amoAdd .ma 0 ⟨3, 0⟩ 1 0) = true ∧ localPlace 0 0x1FFF80 = some (0, 0x1FFF80)
    ∧ ExecutesIf (.amoAdd .ma 0 ⟨3, 0⟩ 1 0) sA (AccessReady sA 0x1FFF80 8 0 0x1FFF80 true true)
    ∧ AmoForm sA (.amoSwp .mb 0 ⟨3, 0⟩ 2 0) .mb ⟨3, 0⟩ 0x1200000 0 24 ∧ ExecutesIf (.amoSwp .mb 0 ⟨3, 0⟩ 2 0) sA (AccessReady sA 0x1200000 8 1 0 true true) :=
  ⟨.add _ _ _ _ _, by decide, by decide, ready (by decide) (by decide) rfl rfl ⟨by decide, by decide, by decide⟩,
    .swp _ _ _ _ _, ready (by decide) (by decide) rfl rfl ⟨by decide, by decide, by decide⟩⟩
/-- A visible-at store at the least tick its bank admits, with fifteen entries of the buffer taken. -/
def sV : State := openCore { core0 with ctxs := [(0, { ctxA with g := [(32 + 9, 101)] })], timed := List.replicate 15 ⟨200, 101, 99, 0, 0, false, 0x1FFF80, 8, 0⟩ }
theorem test_meets_TimedStores : TimedForm sV (.stVa .ma 0 0 1 9) .ma 0x1FFF80 8 0 101 ∧ Instr.wf (.stVa .ma 0 0 1 9) = true
    ∧ localPlace 0 0x1FFF80 = some (0, 0x1FFF80)
    ∧ ExecutesIf (.stVa .ma 0 0 1 9) sV (0x1FFF80 % 8 = 0 ∧ performs sV 0x1FFF80 ≤ 101 ∧ (0x1FFF80 < spadSize → (sV.core 0).owns 0 (bankOf 0x1FFF80) = true)
      ∧ (sV.core 0).slotTaken (bankOf 0x1FFF80) 101 true = false ∧ ((sV.core 0).timed.filter (fun e => bankOf e.addr == bankOf 0x1FFF80)).length < 16) :=
  ⟨.st _ _ _ _ _, by decide, by decide, ready (by decide) (by decide) rfl rfl ⟨by decide, by decide, by decide, by decide, by decide⟩⟩
/-- The last eight bytes of the head of QR, the head of QM, and AREC. -/
theorem test_meets_WindowLoads : ∃ f g h, LoadForm sA (.ldI64 .ma 0 ⟨3, 0⟩ 3 15) .ma (0x05000000 + 128 * 0 + 120) 8 false true f
    ∧ Instr.wf (.ldI64 .ma 0 ⟨3, 0⟩ 3 15) = true ∧ (∃ e, sA.cur.head 0 = some e) ∧ ExecutesIf (.ldI64 .ma 0 ⟨3, 0⟩ 3 15) sA ((0x05000000 + 120) % 8 = 0)
    ∧ LoadForm sA (.vld .ma 0 2 3 3 3) .ma (0x05000000 + 128 * 3 + 0) 128 true false g ∧ sA.cur.head 3 = some 7 ∧ ExecutesIf (.vld .ma 0 2 3 3 3) sA ((0x05000000 + 128 * 3) % 128 = 0)
    ∧ LoadForm sA (.ldI64 .mb 0 ⟨3, 0⟩ 4 0) .mb (0x06000000 + 0x30) 8 false true h ∧ aregOf 0x30 8 = some (0x30, 8) ∧ ExecutesIf (.ldI64 .mb 0 ⟨3, 0⟩ 4 0) sA ((0x06000000 + 0x30) % 8 = 0) :=
  ⟨_, _, _, .i64 _ _ _ _ _, by decide, ⟨_, rfl⟩, ready (by decide) (by decide) rfl rfl (by decide), .vld _ _ _ _ _ _, rfl, ready (by decide) (by decide) rfl rfl (by decide),
    .i64 _ _ _ _ _, by decide, ready (by decide) (by decide) rfl rfl (by decide)⟩
/-- The last byte of the message buffers, the first entry of the HCW window, and ARRIVED of barrier 0. -/
theorem test_meets_DeviceLoads : ∃ f g h, LoadForm sA (.ldN8 .ma 0 ⟨3, 0⟩ 5 31) .ma (0x02000000 + 0x19F) 1 false false f ∧ Instr.wf (.ldN8 .ma 0 ⟨3, 0⟩ 5 31) = true
    ∧ ExecutesIf (.ldN8 .ma 0 ⟨3, 0⟩ 5 31) sA ((0x02000000 + 0x19F) % 1 = 0) ∧ (0x19F : Nat) < 0x200
    ∧ LoadForm sA (.vld .ma 0 0 3 6 0) .ma (0x03000000 + 0) 32 true false g ∧ ExecutesIf (.vld .ma 0 0 3 6 0) sA ((0x03000000 + 0) % 32 = 0) ∧ 0 + 32 ≤ 0x10100
    ∧ LoadForm sA (.ldI64 .mb 0 ⟨3, 0⟩ 7 1) .mb (0x04000000 + 8) 8 false true h ∧ barLoadOk 8 8 = true ∧ ExecutesIf (.ldI64 .mb 0 ⟨3, 0⟩ 7 1) sA ((0x04000000 + 8) % 8 = 0) :=
  ⟨_, _, _, .n8 _ _ _ _ _, by decide, ready (by decide) (by decide) rfl rfl (by decide), by decide, .vld _ _ _ _ _ _, ready (by decide) (by decide) rfl rfl (by decide), by decide,
    .i64 _ _ _ _ _, by decide, ready (by decide) (by decide) rfl rfl (by decide)⟩
/-- Nine kinds of stores to windows: the last HCW entry, an array register, a generator, BCFG and BARR of barriers 0 and 31, a peer's BARR,
ESTAT of context 3, the release word, and a message buffer's words 14 and 15. -/
def ctxW : Ctx := { ctx0 with
  a := [(1, 0x0300FFE0), (2, 0x06000004), (3, 0x060001E0), (4, 0x040003E0), (6, 0x0400F818), (7, 0x0400F000), (8, 0x02000188)] }
def sW : State := openOf ctxW
theorem test_meets_WindowStores : ∃ x y, StoreForm sW (.vst .ma 0 0 3 1 0) .ma (0x03000000 + 0xFFE0) 32 x true ∧ Instr.wf (.vst .ma 0 0 3 1 0) = true
    ∧ ExecutesIf (.vst .ma 0 0 3 1 0) sW ((0x03000000 + 0xFFE0) % 32 = 0)
    ∧ StoreForm sW (.st32 .ma 0 0 2 0) .ma (0x06000000 + 4) 4 0 false ∧ aregOf 4 4 = some (4, 4) ∧ ExecutesIf (.st32 .ma 0 0 2 0) sW ((0x06000000 + 4) % 4 = 0 ∧ (sW.core 0).arrayOwner = some 0)
    ∧ StoreForm sW (.vst .mb 0 0 3 3 0) .mb (0x06000000 + 0x1E0) 32 y true ∧ aregOf 0x1E0 32 = some (0x1E0, 32) ∧ ExecutesIf (.vst .mb 0 0 3 3 0) sW ((0x06000000 + 0x1E0) % 32 = 0)
    ∧ StoreForm sW (.st64 .ma 0 0 4 0) .ma (0x04000000 + 32 * 31 + 0) 8 0 false ∧ StoreForm sW (.st64 .ma 0 0 4 3) .ma (0x04000000 + 32 * 31 + 24) 8 0 false
    ∧ ExecutesIf (.st64 .ma 0 0 4 0) sW True ∧ ExecutesIf (.st64 .ma 0 0 4 3) sW True
    ∧ StoreForm sW (.st64 .ma 0 0 6 0) .ma (0x0400F800 + 8 * 3) 8 0 false ∧ ExecutesIf (.st64 .ma 0 0 6 0) sW True
    ∧ StoreForm sW (.st64 .ma 0 0 8 13) .ma (0x02000000 + 128 * 3 + 112) 8 0 false ∧ ExecutesIf (.st64 .ma 0 0 8 13) sW True ∧ (0x02000000 + 128 * 3 + 112) % 8 = 0 :=
  ⟨_, _, .vst _ _ _ _ _ _, by decide, ready (by decide) (by decide) rfl rfl (by decide), .st32 _ _ _ _ _, by decide, ready (by decide) (by decide) rfl rfl ⟨by decide, by decide⟩,
    .vst _ _ _ _ _ _, by decide, ready (by decide) (by decide) rfl rfl (by decide), .st64 _ _ _ _ _, .st64 _ _ _ _ _,
    ready (by decide) (by decide) rfl rfl trivial, ready (by decide) (by decide) rfl rfl trivial, .st64 _ _ _ _ _, ready (by decide) (by decide) rfl rfl trivial,
    .st64 _ _ _ _ _, ready (by decide) (by decide) rfl rfl trivial, by decide⟩
/-- The same with a bundle already checked: a peer's BARR 31 of peer 7, the release word of context 0 and word 15 of buffer 3. -/
def sW' : State := withCtx { ctx0 with a := [(5, 0x040017F8 + 0x400 * 6), (7, 0x0400F000), (8, 0x02000188)] }
theorem test_meets_WindowStores_checked : StoreForm sW' (.st64 .ma 0 0 5 0) .ma (0x04001018 + 0x400 * 7 + 32 * 31) 8 0 false ∧ ExecutesIf (.st64 .ma 0 0 5 0) sW' True
    ∧ StoreForm sW' (.st32 .ma 0 0 7 0) .ma (0x0400F000 + 4 * 0) 4 0 false ∧ slotRuns (.st32 .ma 0 0 7 0) sW' = true ∧ sW'.iss.checked = true
    ∧ StoreForm sW' (.st64 .ma 0 0 8 14) .ma (0x02000000 + 128 * 3 + 120) 8 0 false ∧ slotRuns (.st64 .ma 0 0 8 14) sW' = true :=
  ⟨.st64 _ _ _ _ _, runsIf (by decide) rfl, .st32 _ _ _ _ _, by decide, rfl, .st64 _ _ _ _ _, by decide⟩
theorem test_meets_OrderForms : Executes (.fence .ma 0 6 3 127) s0 ∧ Executes (.arrive .mb 0 31) s0 ∧
    (let s := openOf { ctx0 with signals := List.replicate 3 ⟨0, 0, false, 90, [], false⟩ }
     ExecutesIf (.signal .ma 0 127 31) s ((s.cur.signals.filter (fun d => decide (d.issued < s.now))).length < 4)
     ∧ ExecutesIf (.signalDrain .ma 0 127 31) s ((s.cur.signals.filter (fun d => decide (d.issued < s.now))).length < 4)) :=
  ⟨runs (by decide) rfl, runs (by decide) rfl, ready (by decide) (by decide) rfl rfl (by decide), ready (by decide) (by decide) rfl rfl (by decide)⟩

/-! Landings, conditions, barriers, messages -/

/-- Results due: of a slice, of FMT, a store to the HCW window and one to the array window. -/
def flight0 (d : Dest) (src : Nat) : Flight := ⟨0, 96, 100, src, d, 5, 7, 0⟩
theorem test_meets_Landings : (∃ g ∈ ((withCtx { ctx0 with flights := [flight0 (.slice 1 15) 1] }).ctx 0 0).flights, g.land ≤ 100 ∧ g.toHcw = false ∧ g.toWindow = false)
    ∧ (∃ g ∈ ((withCtx { ctx0 with flights := [flight0 .fmt 1] }).ctx 0 0).flights, g.land ≤ 100 ∧ g.toHcw = false ∧ g.toWindow = false) := by decide
theorem test_meets_WindowLandings : (∀ y, y < 0 → ∀ g ∈ ((withCtx { ctx0 with flights := [flight0 (.hcw 3 511) 2] }).ctx 0 y).flights, g.toHcw = true → 100 < g.land)
    ∧ (∃ g ∈ ((withCtx { ctx0 with flights := [flight0 (.hcw 3 511) 2] }).ctx 0 0).flights, g.land ≤ 100 ∧ g.toHcw = true)
    ∧ (∀ b ∈ ((withCtx ctx0).core 0).barStores, b.st.isRegister = true → 100 < b.tick)
    ∧ (∃ g ∈ ((withCtx { ctx0 with flights := [flight0 (.areg 4) 2] }).ctx 0 0).flights, g.land ≤ 100 ∧ g.toWindow = true) := by decide
theorem metNone {s : State} (h1 : s.cmds = []) (h2 : s.hostWrites = []) (h3 : s.hsigs = []) (c x : Nat) (ids : List Nat) : Met s c x (.engine ids) := by
  unfold Met
  intro n _
  simp [h1, h2, h3]
/-- Waits that are met: of a barrier whose GEN has changed, of a queue, of a tick that has come, of no command; and one that is not. -/
theorem test_meets_WaitsMet : Met s0 0 0 (.barrier 31 true) ∧ Met s0 0 0 (.queue 0) ∧ Met s0 0 0 (.tick 100) ∧ Met s0 0 0 (.engine [9]) ∧ ¬ Met s0 0 0 (.tick 101)
    ∧ ((withCtx { ctx0 with status := .waiting (.tick 100) 99 false }).ctx 0 0).status = .waiting (.tick 100) 99 false ∧ ctx0.service = none ∧ ctx0.preBy = 0 :=
  ⟨by unfold Met; decide, ⟨_, rfl⟩, by unfold Met; decide, metNone rfl rfl rfl _ _ _,
    by unfold Met; decide, rfl, rfl, rfl⟩
/-- A fence of sequential consistency that holds, and one that waits for a store of the same core's context that has not performed. -/
theorem test_meets_HoldsEnd : FenceMet s0 0 0 ⟨6, 3, 127, 99, 100, []⟩
    ∧ (∃ a ∈ [(⟨101, 98, 0, 0, false, .spad 0 0, .store, 8, 0, false, 0, none⟩ : Access)], a.core = 0 ∧ a.ctx = 0 ∧ a.issued < 99 ∧ 100 < a.perform)
    ∧ ((withCtx { ctx0 with status := .draining 100 }).ctx 0 0).status = .draining 100 := by
  refine ⟨⟨by decide, metNone rfl rfl rfl _ _ _, fun _ => ⟨⟨by decide, by decide, by decide⟩, by decide, by decide, fun _ m hm => (by cases hm)⟩,
    fun _ => ⟨by decide, fun _ => by decide⟩, fun _ => ⟨by decide, by decide⟩⟩, by decide, rfl⟩
/-- A signal with every path masked and drained bytes of a context whose stop has caught a store to a window and a row, both past the tick in
which they would have left; and one that a released context has left behind. -/
def sig0 : DefSignal := ⟨31, 127, true, 99, [], false⟩
theorem test_meets_SignalsRelease : let k := { ctx0 with
      signals := [sig0], caughtAt := 97, shadow := [⟨0, 96, 3, 2, .areg 4, 5, 7, 0⟩], shadowRows := [⟨95, 2, 0, false, [], 0⟩] }
    let s := withCtx k
    Claims.Signals s 0 0 1 sig0 ∧ (∀ f ∈ k.flights, f.src = 2 → f.issued < 99 → f.land ≤ s.now) ∧ (∀ f ∈ k.shadow, f.src = 2 → f.issued < 99 → k.caughtAt + f.land ≤ s.now)
    ∧ ((s.core 0).arrayOwner = some 0 → ∀ w ∈ (s.core 0).array.rows, w.pushed < 99 → w.exit ≤ s.now) ∧ ∀ w ∈ k.shadowRows, w.pushed < 99 → k.caughtAt + w.exit ≤ s.now :=
  ⟨⟨by decide, by decide, by decide, metNone rfl rfl rfl _ _ _, fun _ => ⟨fun m hm => (by cases hm), fun m hm => (by cases hm)⟩⟩, by decide, by decide,
    fun _ => by decide, by decide⟩
theorem test_meets_SignalsRelease_late : let s := stOf { core0 with ctxs := [], lateSignals := [(1, 4, sig0), (0, 9, sig0), (0, 9, sig0)] }
    (s.core 0).lateSignals = [(1, 4, sig0)] ++ (0, 9, sig0) :: [(0, 9, sig0)] ∧ (∀ e ∈ [(1, 4, sig0)], e.1 ≠ 0) ∧ (∀ e ∈ (s.ctx 0 0).signals, e.released = true)
    ∧ (∀ p ∈ (s.core 0).saved, p.1 ≠ 0) ∧ Claims.Signals s 0 0 9 sig0 :=
  ⟨rfl, by decide, by decide, by decide, ⟨by decide, by decide, by decide, metNone rfl rfl rfl _ _ _, fun _ => ⟨fun m hm => (by cases hm), fun m hm => (by cases hm)⟩⟩⟩
theorem test_meets_Budgets : ((withCtx { ctx0 with wrapDue := true }).ctx 0 0).wrapDue = true
    ∧ ({ ctx0 with bud := 0 } : Ctx).bud = 0 ∧ ctx0.stops = [] ∧ ctx0.status ≠ .empty ∧ ctx0.status ≠ .banks ∧ ctx0.status ≠ .halted ∧ (s0.core 0).issuedAt ≠ some s0.now := by decide
theorem test_meets_TimedWrites : let s := stOf { core0 with timed := [⟨100, 90, 80, 0, 0, false, 0x1FFFF8, 8, 1⟩] }
    (∃ e ∈ (s.core 0).timed, e.vis ≤ s.now) ∧ (∀ d, (s.spad d).wf = true) ∧ NoBadWord s := ⟨by decide, canon rfl rfl, noBad rfl rfl⟩
/-- Each kind of a store to the barrier window, alone and due. -/
theorem test_meets_BarrierStores : ∀ st ∈ [BarStore.barr 31 65535, .bcfg 31 7, .estat 3 1, .release 0 0x80000001],
    let s := stOf { core0 with barStores := [⟨100, 96, 0, 0, st⟩] }
    (s.core 0).barStores = [] ++ ⟨100, 96, 0, 0, st⟩ :: [] := by decide
theorem test_meets_BarrierCompletions : let s := stOf { core0 with barriers := [(31, ⟨2, 0xFF, 2, false, 0, 0, [100]⟩)] }
    ((s.core 0).barrier 31).expect ≠ 0 ∧ ((s.core 0).barrier 31).expect.toNat ≤ ((s.core 0).barrier 31).arrived ∧ ((s.core 0).barrier 31).pend = 0
    ∧ ((s.core 0).barrier 31).doneAt ≠ s.now + 1 ∧ ((s.core 0).barrier 31).mirrorFlips = [] ++ 100 :: [] := by decide
def msg0 : Msg := ⟨0, 0, 3, 100, false, 0, 0, 0, 0, 1⟩
theorem test_meets_MessagesSent : let s := { s0 with msgs := [msg0] }
    s.msgs = [] ++ msg0 :: [] ∧ msg0.sent = false ∧ msg0.capture ≤ s.now ∧ msg0.buf < 4 ∧ msg0.core < 256 ∧ msg0.ctx < 4 :=
  ⟨rfl, rfl, by decide, by decide, by decide, by decide⟩
def msg1 : Msg := { msg0 with sent := true, deliver := 100, entry := 9 }
/-- A context with room, one with a full QM, a saved one, a saved one of the sender's launch beside another context, and none. -/
theorem test_meets_MessagesDelivered : (∃ m ∈ ({ s0 with msgs := [msg1] } : State).msgs, m.sent = true ∧ m.dcore = 0 ∧ m.dctx = 0 ∧ m.deliver ≤ 100)
    ∧ (s0.core 0).saved = [] ∧ (s0.ctx 0 0).status ≠ .empty ∧ ({ ctx0 with qm := List.replicate 15 0 } : Ctx).qm.length < 16
    ∧ ¬ ({ ctx0 with qm := List.replicate 16 0 } : Ctx).qm.length < 16
    ∧ ((stOf { core0 with ctxs := [], saved := [(0, ctx0)] }).core 0).saved = [(0, ctx0)] ∧ ((stOf { core0 with ctxs := [], saved := [(0, ctx0)] }).ctx 0 0).status = .empty
    ∧ ((stOf { core0 with saved := [(0, ctx0)] }).core 0).saved = [(0, ctx0)] ∧ ctx0.lx = msg1.lx
    ∧ ((stOf { core0 with ctxs := [] }).ctx 0 0).status = .empty ∧ (∀ p ∈ ((stOf { core0 with ctxs := [] }).core 0).saved, p.1 ≠ 0)
    ∧ s0.findLaunch msg1.lx = some launch0 ∧ launch0.phase < 3 :=
  ⟨by decide, rfl, by decide, by decide, by decide, rfl, rfl, rfl, rfl, rfl, by decide, rfl, by decide⟩
theorem test_meets_Gathers : let s := withCtx { ctx0 with aq := [⟨0x1FFF80, 128, 92, none⟩] }
    (s.ctx 0 0).aq = [] ++ ⟨0x1FFF80, 128, 92, none⟩ :: [] ∧ 92 + 8 ≤ s.now ∧ localPlace 0 0x1FFF80 = some (0, 0x1FFF80) ∧ NoBadWord s
    ∧ ((stOf { core0 with bad := [⟨0, 0, 0x1FFFF8, false⟩] }).core 0).bad = [⟨0, 0, 0x1FFFF8, false⟩] ∧ (0x1FFFF8 : Nat) < spadSize ∧ (0x1FFF80 : Nat) < 0x1FFFF8 + 8
    ∧ (0x1FFFF8 : Nat) < 0x1FFF80 + 128 ∧ (({ s with now := 116 } : State).now = 92 + 24) :=
  ⟨rfl, by decide, by decide, noBad rfl rfl, rfl, by decide, by decide, by decide, rfl⟩

/-- A met wait of a context in service, one that was met there, and a drain that is over of a context that issued and of a resumed one. -/
theorem test_meets_ConditionsMet_held : (let k := { ctx0 with status := .waiting (.tick 100) 99 false, service := some ⟨0, 0, 200, 0, 33, none⟩ }
      ((withCtx k).ctx 0 0).status = .waiting (.tick 100) 99 false ∧ k.service ≠ none ∧ Met (withCtx k) 0 0 (.tick 100))
    ∧ ({ ctx0 with status := .waiting (.tick 900) 99 true } : Ctx).status = .waiting (.tick 900) 99 true
    ∧ ({ ctx0 with status := .draining 100 } : Ctx).backAt = none ∧ Claims.GoesOn { ctx0 with status := .draining 100, backAt := some 60 } (.ready 60 0 true) :=
  ⟨⟨rfl, by decide, by unfold Met; decide⟩, rfl, rfl, ⟨fun h => (by cases h), fun n h => by injection h with h; rw [h]⟩⟩

/-! Bundles and stops -/

/-- A context about to issue word 0x10 of a window of one word: the bundle of entry 37 with the literal 5 (R73). -/
def ctxI : Ctx := { ctx0 with
  pc := 0x10, ibase := 0x10, ilim := 1, hcw := [(37, 0x00200000004C8760000000750410000000000000000000000000000000000000)] }
def sI : State := { stOf { core0 with ctxs := [(0, ctxI)], imem := [(0x10, 0x1285)] } with iss := Issue.reset }
/-- A context of a status may issue where neither a fence of its wait's bundle nor a drain or a fence of its own stands. -/
theorem mayIssue {s : State} {c x : Nat} (h : (s.ctx c x).status = .issuing) : MayIssue s c x :=
  ⟨fun n d b e => (by rw [h] at e; cases e), fun d e => (by rw [h] at e; cases e), fun f e => (by rw [h] at e; cases e)⟩
set_option exponentiation.threshold 1100 in
theorem test_meets_BundleIssues : MayIssue sI 0 0 ∧ ctxI.shadow = [] ∧ ctxI.shadowRows = [] ∧ ctxI.bcast = 0 ∧ ctxI.ibase.toNat ≤ ctxI.pc.toNat ∧ ctxI.pc.toNat < ctxI.ibase.toNat + ctxI.ilim.toNat
    ∧ ctxI.hcwValid.getLsbD ((tget (sI.core 0).imem 0 0x10).toNat / 128) = true ∧ ({ sI with iss := latchOf' sI 0 0 [] false }).bundleCheck ctxI false = []
    ∧ ({ sI with iss := latchOf' sI 0 0 [] false }).scrubFaults false = [] ∧ NoBadWord sI := by
  refine ⟨mayIssue rfl, rfl, rfl, rfl, by decide, by decide, by decide, by decide, by decide, noBad rfl rfl⟩
/-- A context in a drain, one in a fence, and one whose wait is met while its bundle's fence does not hold for one tick more, and for an access that
performs in the next. -/
theorem test_meets_EmptyTicks : (∃ d, (({ ctx0 with status := .draining 101 } : Ctx)).status = .draining d)
    ∧ (∃ fs, (({ ctx0 with status := .fencing [⟨6, 3, 127, 99, 101, []⟩] } : Ctx)).status = .fencing fs)
    ∧ (let f : FenceSt := ⟨6, 3, 127, 99, 101, []⟩
      let k := { ctx0 with status := .ready 100 0 true, fenceLater := [f] }
      ((withCtx k).ctx 0 0).status = .ready 100 0 true ∧ f ∈ k.fenceLater ∧ FenceOpen (withCtx k) 0 0 f)
    ∧ FenceOpen { s0 with accesses := [⟨101, 98, 0, 0, false, .spad 0 0, .store, 8, 0, false, 0, none⟩] } 0 0 ⟨6, 3, 127, 99, 100, []⟩ := by
  refine ⟨⟨_, rfl⟩, ⟨_, rfl⟩, ⟨rfl, List.mem_singleton.mpr rfl, .inl (by decide)⟩, .inr ⟨by decide, _, List.mem_singleton.mpr rfl, by decide⟩⟩
set_option exponentiation.threshold 1100 in
/-- An entry that is not valid, with a correctable error in its parity, and in that of its word. -/
theorem test_meets_BundleFaults_parity : ∀ b ∈ [(⟨3, 0, 2 ^ 16 + 37, true⟩ : BadWord), ⟨3, 0, 0x10, true⟩],
    let k := { ctxI with hcwValid := 0 }
    let s := { stOf { core0 with ctxs := [(0, k)], imem := [(0x10, 0x1285)], bad := [b] } with iss := Issue.reset }
    MayIssue s 0 0 ∧ k.hcwValid.getLsbD ((tget (s.core 0).imem 0 0x10).toNat / 128) = false ∧ (s.core 0).bad = [b] ∧ b.struct = 3
    ∧ (b.place = k.pc.toNat ∨ b.ctx = 0 ∧ b.place = 2 ^ 16 + (tget (s.core 0).imem 0 0x10).toNat / 128) ∧ s.secor < 2 ^ 32 - 1 := by
  intro b hb
  simp only [List.mem_cons, List.not_mem_nil, or_false] at hb
  obtain rfl | rfl := hb
  · exact ⟨mayIssue rfl, by decide, rfl, rfl, .inr (by decide), by decide⟩
  · exact ⟨mayIssue rfl, by decide, rfl, rfl, .inl (by decide), by decide⟩
set_option exponentiation.threshold 1100 in
/-- A word one past the window, an entry that is not valid, and a bundle whose load is misaligned. -/
theorem test_meets_BundleFaults : let k := { ctxI with pc := 0x11 }
    let b := { ctxI with a := [(2, 4)] }
    let s := { stOf { core0 with ctxs := [(0, b)], imem := [(0x10, 0x1285)] } with iss := Issue.reset }
    ¬ (k.ibase.toNat ≤ k.pc.toNat ∧ k.pc.toNat < k.ibase.toNat + k.ilim.toNat) ∧ ({ ctxI with hcwValid := 0 } : Ctx).hcwValid.getLsbD 37 = false
    ∧ ∃ g, g ∈ ({ s with iss := latchOf' s 0 0 [] false }).bundleCheck b false :=
  ⟨by decide, by decide, ⟨bfault 8 12 8, by decide⟩⟩
/-- A bundle that releases bank 0 of a launch with SCRUB and stores into it at a tick of the scrub, its last and the one after: on the one core
that issues. -/
def sScrub (v : Word) : State :=
  { stOf { core0 with ctxs := [(0, { ctx0 with a := [(7, 0x0400F000), (9, 0)], g := [(32, 1), (49, v)] })] } with
    launches := [{ launch0 with desc := [0x800007] }]
    iss := { u0.iss with entry := BitVec.ofNat 256 ((encode (.st32 .ma 0 0 7 0)).getD 0 * 2 ^ 148 + (encode (.stVa .mb 0 0 9 1)).getD 0 * 2 ^ 124) } }
set_option maxRecDepth 100000 in
set_option exponentiation.threshold 600 in
theorem test_meets_ScrubsFirst : (∀ d, 0 < d → (sScrub 104).selectCtx d = none) ∧ (sScrub 104).scrubFaults false ≠ [] ∧ (sScrub 615).scrubFaults false ≠ []
    ∧ (sScrub 616).scrubFaults false = [] := by
  refine ⟨fun d hd => ?_, by decide, by decide, by decide⟩
  match d, hd with
  | n + 1, _ => rfl
/-- A bundle of a push of a row and a store; a member with a word of its lead, and a lead with a member. -/
theorem test_meets_BundleIssues_checks : (∀ i ∈ [Instr.psh 0 1, .st8 .ma 0 0 1 0], ∀ t a, i ≠ .eSub t a) ∧ NoBadWord u0 := by
  refine ⟨fun i hi t a => ?_, noBad rfl rfl⟩
  simp only [List.mem_cons, List.not_mem_nil, or_false] at hi
  obtain rfl | rfl := hi <;> simp
def launchB : Launch := { launch0 with desc := [0x180007, 0, 0x100] }
def leadS : State := { s0 with
  cores := [(0, { core0 with ctxs := [(0, { ctx0 with bcast := 1 })] }), (1, { core0 with ctxs := [(0, { ctx0 with bcast := 2, rank := 1 })] })]
  launches := [launchB] }
set_option exponentiation.threshold 1100 in
theorem test_meets_BundleIssues_member : let b : BWord := ⟨100, false, 0x1285, 0x10, 5⟩
    let k := { ctxI with bcast := 2, bq := [b] }
    let s := { stOf { core0 with ctxs := [(0, k)] } with iss := Issue.reset }
    let l : Issue := ⟨0, 0, b.word, 5, tget k.hcw 0 37, 5, 0x11, [], false, none, [], none, false⟩
    MayIssue s 0 0 ∧ k.shadow = [] ∧ k.shadowRows = [] ∧ k.bcast = 2 ∧ k.bq = b :: [] ∧ k.hcwValid.getLsbD (b.word.toNat / 128) = true
    ∧ ({ s with iss := l }).bundleCheck k true = [] ∧ ({ s with iss := l }).scrubFaults true = [] ∧ NoBadWord s := by
  refine ⟨mayIssue rfl, rfl, rfl, rfl, rfl, by decide, by decide, by decide, noBad rfl rfl⟩
set_option exponentiation.threshold 1100 in
/-- A lead whose gang resumes, with a member on its module that holds its words; of a gang on one module and on two. -/
theorem test_meets_BundleIssues_resumes : ∀ w2 ∈ [(0 : Word), 0x1000000], let l : Launch := { launchB with desc := [0x180007, 0, 0x100 + w2] }
    let k := { ctxI with bcast := 1, bheld := true, caughtAt := 40 }
    let s : State := { sI with
      cores := [(0, { core0 with ctxs := [(0, k)], imem := [(0x10, 0x1285)] }), (1, { core0 with ctxs := [(0, { ctx0 with bcast := 2, bheld := true })] })], launches := [l] }
    MayIssue s 0 0 ∧ k.lx ≠ 0 ∧ k.shadow = [] ∧ k.shadowRows = [] ∧ s.findLaunch k.lx = some l ∧ l.fcore = 0 ∧ l.modix = 0 ∧ 1 ∈ l.cores ∧ (s.ctx 1 0).lx = k.lx ∧ (s.ctx 1 0).bheld = true
    ∧ ({ s with iss := latchOf' s 0 0 [] false }).bundleCheck k false = [] ∧ ({ s with iss := latchOf' s 0 0 [] false }).scrubFaults false = []
    ∧ (l.nmod = 0 ↔ w2 = 0) := by
  intro w2 hw
  simp only [List.mem_cons, List.not_mem_nil, or_false] at hw
  obtain rfl | rfl := hw <;>
    exact ⟨mayIssue rfl, by decide, rfl, rfl, rfl, by decide, by decide, by decide, rfl, rfl, by decide, by decide, by decide⟩
theorem test_meets_BundleEnds_lead : leadS.cur.bcast = 1 ∧ leadS.cur.lx ≠ 0 ∧ leadS.findLaunch leadS.cur.lx = some launchB ∧ 1 ∈ launchB.cores ∧ 1 ≠ launchB.fcore
    ∧ (leadS.ctx 1 0).lx = leadS.cur.lx ∧ launchB.nmod = 0 ∧ ({ launchB with desc := [0x180007, 0, 0x1000100] } : Launch).nmod ≠ 0 := by decide
/-- A member of a gang with a fault stops its lead. -/
theorem test_meets_StopsTaken_gang : let f : FaultRec := ⟨8, 0, 12, 8, 0⟩
    let k := { ctx0 with bcast := 2, rank := 1, stops := [(100, f)] }
    let s := { leadS with cores := [(0, { core0 with ctxs := [(0, { ctx0 with bcast := 1 })] }), (1, { core0 with ctxs := [(0, k)] })] }
    k.lx ≠ 0 ∧ k.bcast ≠ 0 ∧ k.service = none ∧ k.preBy = 0 ∧ (100, f) ∈ k.stops ∧ s.findLaunch k.lx = some launchB
    ∧ 0 ∈ launchB.cores ∧ (s.ctx 0 0).lx = k.lx ∧ (s.ctx 0 0).service = none ∧ (s.ctx 0 0).preBy = 0 ∧ (s.ctx 0 0).status ≠ .halted ∧ s.ctx 1 0 = k
    ∧ 1 ∈ launchB.cores ∧ k.bcast = 2 ∧ k.bheld = false ∧ k.status ≠ .halted :=
  ⟨by decide, by decide, rfl, rfl, by decide, by decide, by decide, rfl, rfl, rfl, by decide, rfl, by decide, rfl, rfl, by decide⟩
theorem test_meets_SkippedSlots : (slotOf (.add .sa 5 ⟨0, 0⟩ 0 0)).isSome = true ∧ tagOf (.add .sa 5 ⟨0, 0⟩ 0 0) ≠ 0 ∧ (tagOf (.add .sa 5 ⟨0, 0⟩ 0 0)).toNat ≠ ({ s0.iss with outcome := 1 } : Issue).outcome := by decide
/-- The clauses on the end of a bundle: a halt, none of these, a wait that blocks and one that does not, an engine wait, fences, and a drain. -/
theorem test_meets_BundleEnds : s0.cur.bcast = 0 ∧ hdrDrain s0.iss.entry = false ∧ s0.iss.wait = none ∧ s0.iss.fence = [] ∧ s0.iss.trap = none ∧ s0.iss.halt = false
    ∧ hdrDrain (BitVec.ofNat 256 (2 ^ 255)) = true ∧ ({ s0.iss with halt := true } : Issue).halt = true
    ∧ (let s := { s0 with iss := { s0.iss with wait := some (.cond (.tick 101)) } }
      ¬ Met s.finishBundle 0 0 (.tick 101)) ∧ (let s := { s0 with iss := { s0.iss with wait := some (.cond (.tick 100)) } }
      Met s.finishBundle 0 0 (.tick 100))
    ∧ (∃ f ∈ ({ ctx0 with flights := [{ flight0 (.v 3) 1 with land := 105 }] } : Ctx).flights, f.counted = true ∧ f.land = 105) := by
  refine ⟨rfl, by decide, rfl, rfl, rfl, rfl, by decide, rfl, ?_, ?_, by decide⟩
  · unfold Met; decide
  · unfold Met; decide
/-- A stop of code 33 (a trap, after which the context goes on), and the budget trap of a launch with refills left. -/
def launchF : Launch := { launch0 with desc := [7, 0, 0, 0, 0, 0, 0, 0, 0, 0, 0, 0, 0, 0, 0, 0, 0, 0, 9, 1] }
theorem test_meets_StopsTaken : let k := { ctx0 with stops := [(100, ⟨33, 3, 0, 255, 0⟩)] }
    k.lx ≠ 0 ∧ k.bcast = 0 ∧ k.service = none ∧ k.preBy = 0 ∧ (withCtx k).findLaunch k.lx = some launch0 ∧ (withCtx k).pauseTo ≤ 100 ∧ k.status ≠ .halted
    ∧ (∀ d, k.status ≠ .draining d) ∧ ¬ (33 = 0 ∧ 3 = 3) ∧ actionCode 33 3 = 0 ∧ actionCode 30 2 = 2 ∧ actionCode 8 0 = 1
    ∧ (((withCtx k).stream 0).evhead.toNat + 0 + 2 ^ 32 - ((withCtx k).stream 0).evtail.toNat) % 2 ^ 32 < 2 ^ ((withCtx k).stream 0).evlog
    ∧ ({ withCtx { ctx0 with stops := [(100, ⟨0, 3, 0, 0, 0⟩)] } with launches := [launchF] } : State).findLaunch 1 = some launchF ∧ 0 < launchF.word 19 % 65536 := by
  refine ⟨by decide, rfl, rfl, rfl, by decide, by decide, by decide, fun d h => (by cases h), by decide, by decide, by decide, by decide, by decide, by decide, by decide⟩
/-- Services over: a resume of a context that had a bundle to issue, of one blocked in a wait, a refill, and a kill. -/
theorem test_meets_ServiceEnds : let v : Service := ⟨0, 0, 100, 0, 33, none⟩
    let w : Service := ⟨0, 0, 100, 1, 8, none⟩
    ({ ctx0 with service := some v } : Ctx).service = some v ∧ v.endsAt ≤ 100 ∧ v.owes = none ∧ s0.findLaunch ctx0.lx = some launch0 ∧ v.action = 0 ∧ ctx0.status = .issuing
    ∧ (∃ x n b, ({ ctx0 with status := .waiting (.tick 200) 90 true } : Ctx).status = .waiting x n b) ∧ ({ v with action := 3 } : Service).action = 3
    ∧ w.action = 1 ∧ launch0.phase = 2 ∧ launch0.ctxNo = 0 ∧ 0 ∈ launch0.cores
    ∧ ctx0.stops = [] ∧ w.owes = none ∧ NoBadWord (withCtx { ctx0 with service := some v }) ∧ ctx0.shadowRows = []
    ∧ (∃ a b n, ({ ctx0 with status := .ready 90 2 true } : Ctx).status = .ready a b n) ∧ ctx0.fenceLater = [] ∧ ({ ctx0 with fenceLater := [⟨6, 3, 127, 99, 100, []⟩] } : Ctx).fenceLater ≠ [] := by
  refine ⟨rfl, by decide, rfl, by decide, rfl, rfl, ⟨_, _, _, rfl⟩, rfl, rfl, rfl, by decide, by decide, rfl, rfl, noBad rfl rfl, rfl, ⟨_, _, _, rfl⟩, rfl, by decide⟩
/-- A killed context with a command not begun, a stopped one that owes its barrier 96 bytes and one that runs, and a ring with one free place. -/
theorem test_meets_ServiceEnds_kill : let m (id phase pend : Nat) : Cmd := ⟨id, 0, 0, 1, 0x1F800, 0, 0, 0, 0x20, 0, 100, phase, none, pend, []⟩
    let s := { s0 with cmds := [m 5 0 0, m 6 3 96, m 7 1 32] }
    (∀ k ∈ s.cmds, k.core ∈ launch0.cores ∧ k.ctx = 0 ∧ k.lx = ctx0.lx) ∧ Counts (m 6 3 96) 0 31
    ∧ (s.cmds.filter (fun k => decide (k.phase = 0 ∨ k.phase = 3))).map (·.pend) = [0, 96]
    ∧ ((s.stream 0).evhead.toNat + 15 + 2 ^ 32 - (s.stream 0).evtail.toNat) % 2 ^ 32 ≠ 2 ^ (s.stream 0).evlog := by decide
/-- R166, R170, R172, R176, R182, R194, R199, R200: a bundle of one slot at the last value that each check admits, and at the first it does not:
a not-before tick at the access's, a visible-at tick there, the sixteenth entry of a bank, a tag, an engine's access in the tick before the release
acts, a packet to core 255, a fourth signal. -/
def chk (k : Core) (i : Instr) : List Nat := (bundleFaults (openCore k) [i]).map (·.code)
def chkA (x : Nat) : Core := { core0 with ctxs := [(0, { ctxA with g := [(32 + 9, BitVec.ofNat 64 x)] })] }
def chkT (n : Nat) : Core := { chkA 101 with timed := List.replicate n ⟨200, 101, 99, 0, 0, false, 0x1FFF80, 8, 0⟩ }
def chkR (t : Nat) : Core := { core0 with ctxs := [(0, { ctx0 with a := [(7, 0x0400F000)], g := [(32, 2)] })], resv := [⟨1, t, true, 5, 0, 0⟩] }
def chkM (h : Nat) : Core := { core0 with ctxs := [(0, { ctx0 with a := [(8, 0x02000070)], msgbuf := [(0, BitVec.ofNat 64 h)] })] }
def chkS (n : Nat) : Core := { core0 with ctxs := [(0, { ctx0 with signals := List.replicate n ⟨0, 0, false, 90, [], false⟩ })] }
theorem test_checks_admit : chk (chkA 104) (.ldNb .ma 0 ⟨3, 0⟩ 2 9) = [] ∧ chk (chkA 101) (.stVa .ma 0 0 1 9) = [] ∧ chk (chkT 15) (.stVa .ma 0 0 1 9) = []
    ∧ chk (chkA 0) (.vldTc .ma 0 0 9 1 9) = [] ∧ chk (chkR 103) (.st32 .ma 0 0 7 0) = [] ∧ chk (chkM 255) (.st64 .ma 0 0 8 1) = []
    ∧ chk (chkS 3) (.signal .ma 0 127 31) = [] := by decide
theorem test_checks_fail : chk (chkA 105) (.ldNb .ma 0 ⟨3, 0⟩ 2 9) = [15] ∧ chk (chkA 100) (.stVa .ma 0 0 1 9) = [16] ∧ chk (chkT 16) (.stVa .ma 0 0 1 9) = [17]
    ∧ chk (chkA 1) (.vldTc .ma 0 0 9 1 9) = [14] ∧ chk (chkR 104) (.st32 .ma 0 0 7 0) = [12] ∧ chk (chkM 1024) (.st64 .ma 0 0 8 1) = [19]
    ∧ chk (chkS 4) (.signal .ma 0 127 31) = [20] := by decide

/-! Engine commands and cellar engines -/

/-- A launch that owns channel 12, with one range over bank 3 of it (R311). -/
def launchC : Launch := { launch0 with desc := [7, 0, 0, 0, 0, 0, 0x1000], ranges := [[0x100000, 0x100000, 0x60C000000, 9]] }
/-- A command of context 0: words 0 to 3 of its record, running or not begun. -/
def cmdOf (w0 w1 w2 w3 : Word) (phase : Nat) : Cmd := ⟨5, 0, 0, 1, w0, w1, w2, w3, 0x20, 0, 100, phase, none, 0, []⟩
def sC (m : Cmd) (es : List EAct) : State := { s0 with launches := [launchC], cmds := [m], eops := es.map (fun a => ⟨100, 5, a⟩) }
def cLL : Cmd := cmdOf 0 0x8000000000000000 0x8000000000000080 1 0
def cDL : Cmd := cmdOf 0 0x100000000 0x8000000000000080 1 0
def cLD : Cmd := cmdOf 0 0x8000000000000080 0x100000000 1 0
def cDD : Cmd := cmdOf 0 0x100000000 0x100000080 1 0
theorem test_meets_CommandsBegin : BeginForm (sC cLL []) cLL (.copyCommand 5) ((sC cLL []).copyExpansion cLL) ∧ (sC cLL []).findCmd 5 = some cLL ∧ cLL.phase = 0 ∧ cLL.beginAt ≤ 100
    ∧ beginFaults (sC cLL []) cLL ((sC cLL []).copyExpansion cLL) = []
    ∧ (∃ g, g ∈ beginFaults { sC cLL [] with cores := [] } cLL (({ sC cLL [] with cores := [] } : State).copyExpansion cLL)) :=
  ⟨.copy, rfl, rfl, by decide, by decide, List.exists_mem_of_ne_nil _ (by decide)⟩
theorem test_meets_CopyTimes : rcTimed cLL.c0 = false ∧ awLocal cLL.c1 = true ∧ awLocal cLL.c2 = true ∧ cLL.len = 1 ∧ localPlace 0 (awAddr cLL.c2 + 128 * 0) = some (0, 0x80)
    ∧ awLocal cDL.c1 = false ∧ awLocal cLD.c2 = false ∧ awLocal cDD.c1 = false ∧ awLocal cDD.c2 = false
    ∧ ((sC cDL []).sectors cDL 0x100000000 4 false)[3]? = some ⟨0, 12, 3, 96, 0⟩ ∧ ((sC cLD []).sectors cLD 0x100000000 4 true)[0]? = some ⟨0, 12, 3, 0, 0⟩
    ∧ ((sC cDD []).sectors cDD 0x100000080 4 true)[3]? = some ⟨0, 12, 3, 224, 0⟩ := by decide
/-- A channel with no host window before the tick 1,000 and no refresh under way. -/
def calm : Channel := { Channel.at' 0 100 with occ := [], refAt0 := 2000, refAt1 := 2000, winAt0 := 1000, winAt1 := 1000, winEnd0 := 0, winEnd1 := 0 }
def gatherC : Cmd := cmdOf 1 0x100000000 0 1 1
/-- A channel whose state the checks of a burst read; a burst that breaks no rule on it, and one that meets another of its bank. -/
def calmB : Burst := ⟨5, 3, 0, 100, 156, 100, 0, 1, false⟩
theorem test_meets_CommandsBegin_bursts : calm.rot0 < 16 ∧ calm.rot1 < 16 ∧ 0 < calm.plan.refp ∧ 0 < calm.plan.hwp ∧ (calm.rfmAt.map (·.1)).Nodup ∧ calmB.bank < 32
    ∧ calm.breaks 0 100 calmB = 0 ∧ ({ calm with bursts := [calmB] } : Channel).breaks 0 100 calmB ≠ 0
    ∧ (∀ b ∈ [((0 : Nat), (12 : Nat), calmB), (0, 12, calmB)], b.1 < 2 ∧ b.2.1 < 256 ∧ b.2.2.bank < 32)
    ∧ (Claims.withBursts s0 ([((0 : Nat), (12 : Nat), calmB), (0, 12, calmB)].take 1) 0 12).breaks 0 100 calmB ≠ 0 := by decide
/-- A timed copy of two words whose VAT is the tick in which the first arrives, strict and not; a gather of rows of 32 bytes; sectors up to the end
of a range. -/
theorem test_meets_CopyTimes_timed : ∀ w0 ∈ [(0x100 : Word), 0x300], let m := cmdOf w0 0x8000000000000000 0x8000000000000100 0x0002000000000002 0
    rcTimed m.c0 = true ∧ awLocal m.c1 = true ∧ awLocal m.c2 = true ∧ m.len = 2 ∧ m.beginAt + m.w3.toNat / 2 ^ 48 = 102
    ∧ localPlace m.core (awAddr m.c2 + 128 * 1) = some (0, 0x180) ∧ (m.w0.toNat.testBit 9 = true ↔ w0 = 0x300) := by
  intro w0 hw
  simp only [List.mem_cons, List.not_mem_nil, or_false] at hw
  obtain rfl | rfl := hw <;> exact ⟨by decide, by decide, by decide, by decide, by decide, by decide, by decide⟩
set_option maxRecDepth 100000 in
theorem test_meets_CopyTimes_rest : (let s := sC gatherC []
      gatherC.gIdx % 4 = 0 ∧ gatherC.gDst % 128 = 0 ∧ 32 * 2 ^ (gatherC.w3.toNat / 2 ^ 16 % 8) < 128 ∧ (∃ g, (s.gatherPlan gatherC 0 1)[0]? = some g)
      ∧ localPlace 0 gatherC.gDst = some (0, gatherC.gDst))
    ∧ (let s := sC cDL []
      s.findLaunch cDL.lx = some launchC ∧ (0x100000FE0 : Nat) % 32 = 0 ∧ (s.sectors cDL 0x100000FE0 2 false).length = 1 ∧ s.hostPlace 0 = some (0, 0, 0, 0)) :=
  ⟨⟨by decide, by decide, by decide, ⟨_, rfl⟩, by decide⟩, rfl, by decide, by decide, by decide⟩
/-- A word that comes late, one that misses its deadline and an address with no place, each first of its command; and a page's records. -/
theorem test_meets_EngineMoves_stops : ∀ a ∈ [EAct.late, .missed 0x80, .badVa 0x200000000 true, .landRecords 0x4000 64 60 8 0 0], let m := { cLL with phase := 1 }
    (sC m [a]).findCmd m.id = some m ∧ (sC m [a]).eops = [] ++ ⟨100, 5, a⟩ :: [] ∧ m.lx ≠ 0 ∧ ((sC m [a]).ctx m.core m.ctx).lx = m.lx
    ∧ ∀ o ∈ ([] ++ [] : List EOp), o.cmd = m.id → o.tick ≤ 100 → o.act.isPage = true → ∃ b w i k x y, o.act = .landRecords b w i k x y := by
  intro a _
  exact ⟨rfl, rfl, by decide, rfl, fun o ho => (by cases ho)⟩
/-- A micro-operation of each kind, first of its command and due; and a command at its end tick. -/
theorem test_meets_EngineMoves : (∀ a ∈ [EAct.rdLocal 0 0x1FFF80 128 0 0, .wrLocal 0 0x1FFF80 128 0 0, .rdDram 0 12 3 0 0 96 0x100000000 0, .wrDram 0 12 3 0 32 0 0 0x100000000 0, .setTag 0 511],
      let m := { cLL with phase := 1 }
      (sC m [a]).findCmd m.id = some m ∧ (sC m [a]).eops = [] ++ ⟨100, 5, a⟩ :: [])
    ∧ MoveForm cLL (.copyCommand 5) ∧ (∀ d, ((sC cLL []).spad d).wf = true) ∧ (∀ t ch, ((sC cLL []).channel t ch).mem.wf = true)
    ∧ ((sC cLL []).core 0).bad = [] ∧ ((sC cLL []).channel 0 12).errs = [] ∧ tget ((sC cLL []).channel 0 12).modes 0 (chanAddr 0 3 0 / 32) = 0
    ∧ ({ cLL with endAt := some 100 } : Cmd).endAt = some 100 := by
  refine ⟨?_, .inl rfl, canon rfl rfl, fun _ _ => rfl, rfl, rfl, rfl, rfl⟩
  intro a _
  exact ⟨rfl, rfl⟩
/-- A write of a command into a bank that is scrubbed, one into another bank, and the same of a cellar engine and of an output. -/
theorem test_meets_EngineMoves_scrub : ∀ a ∈ [EAct.wrLocal 0 0x100 128 0 0, .ceWrite 0 0x100 8 0, .evalOut 0 0 0x100], let m := { cLL with phase := 1 }
    let s := { sC m [a] with cores := (sScrubbed 612).cores }
    s.findCmd m.id = some m ∧ s.eops = [] ++ ⟨100, 5, a⟩ :: [] ∧ Scrubbed s 0 0x100 ∧ ¬ Scrubbed s 0 0x1180 ∧ m.lx ≠ 0 ∧ (s.ctx m.core m.ctx).lx = m.lx := by
  intro a _
  exact ⟨rfl, rfl, (by decide : Scrubbed (sScrubbed 612) 0 0x100), (by decide : ¬ Scrubbed (sScrubbed 612) 0 0x1180), by decide, rfl⟩
theorem okOf {ε α : Type} {x : Except ε α} (h : x.isOk = true) : ∃ u, x = .ok u := by
  cases x with
  | ok u => exact ⟨u, rfl⟩
  | error e => cases h
set_option exponentiation.threshold 1100 in
set_option maxRecDepth 100000 in
/-- A row's index as the controllers have it, and one that is another, whose bank commands they accept. -/
theorem test_meets_EngineResults_index : let s := { sC gatherC [.index 0 0 156 1] with channels := [(12, calm)] }
    (gatherC.w1.toNat % 2 ^ 56 + gatherC.bytes (2 ^ 24) 0 4 * 32) % 2 ^ 56 % 32 = 0
    ∧ (s.sectors gatherC 0x100000000 1 false)[0]? = some ⟨0, 12, 3, 0, 0⟩
    ∧ gatherC.bytes (2 ^ 24) 0 4 = 0 ∧ ∃ u, ({ s with eops := [] } : State).acceptRow (burstsOf 5 1 false (fun i => 156 + i * 1) 0 none (s.sectors gatherC 0x100000000 1 false)) = .ok u :=
  ⟨by decide, by decide, by decide, okOf (by decide)⟩
/-- A gather of two rows of 128 bytes whose indices stand in the scratchpad. -/
def gatherT : Cmd := cmdOf 1 0x100000000 0x800000000000 0x20002 0
theorem test_meets_CopyTimes_gather : let s := sC gatherT []
    gatherT.gIdx % 4 = 0 ∧ gatherT.gDst % 128 = 0 ∧ localPlace 0 (gatherT.gIdx + 4 * 1) = some (0, gatherT.gIdx + 4)
    ∧ 128 ≤ 32 * 2 ^ (gatherT.w3.toNat / 2 ^ 16 % 8) ∧ (∃ g, (s.gatherPlan gatherT 0 2)[1]? = some g)
    ∧ localPlace 0 (gatherT.gDst + 1 * 128 + 128 * 0) = some (0, gatherT.gDst + 128) :=
  ⟨by decide, by decide, by decide, by decide, ⟨_, rfl⟩, by decide⟩
/-- An object of one step of two records, a leaf and a node on it, with its evaluate; its output; a maximum of 32-bit words; a page of records. -/
def runC : EvalRun := ⟨5, 0, [2, 0x20000000000], 0, []⟩
def gC : Circuit := { Circuit.reset with run := some runC, nodes := [(0, 0x01), (1, 0x32)], tags := [(0, 0), (1, 1)] }
def evalC : Cmd := cmdOf 2 0 0 0 1
theorem ofOneRank {s : State} {m : Cmd} {l : Launch} (e : s.launchOf m = some l) (p : (s.coePeers m).length = 1) (n : l.nmod = 0 ∧ l.modix = 0) :
    ∀ i, s.coeValues m i ≠ [] := fun i h => by
  have := congrArg List.length h
  simp [State.coeValues, e, n.1, n.2, List.range_succ, p] at this
theorem test_meets_EngineResults_combine : let m := cmdOf 3 0 0 0x170001 1
    m.w3.toNat / 2 ^ 16 % 16 = 7 ∧ 124 % 128 + 4 ≤ 128 ∧ 124 % 4 = 0 ∧ m.w3.toNat / 2 ^ 23 % 8 ≤ 3 ∧ ∀ i, (sC m []).coeValues m i ≠ [] :=
  ⟨by decide, by decide, by decide, by decide, ofOneRank rfl (by decide) (by decide)⟩
theorem test_meets_EngineResults_step : gC.run = some runC ∧ 1 ≤ 2 ∧ runC.rec' + 2 ≤ hdrNrec runC.hdr ∧ evalC.lanes ≤ 16 ∧ gC.bad = []
    ∧ (let rc (i : Nat) : Nat := (tget gC.nodes 0 (nodeAddr runC.hdr (runC.rec' + i))).toNat
      (∀ i, i < 2 → (tget gC.tags (BitVec.allOnes 20) (nodeAddr runC.hdr (runC.rec' + i))).toNat = runC.rec' + i) ∧ (rc 0).testBit 4 = false ∧ (rc 1).testBit 4 = true
      ∧ rc 0 % 16 = 1 ∧ rc 1 % 16 = 2 ∧ rc 0 / 32 % 2 ^ 13 ≠ rc 1 / 32 % 2 ^ 13)
    ∧ (evalC.lx ≠ 0 ∧ (s0.ctx evalC.core evalC.ctx).lx = evalC.lx ∧ (s0.ctx 0 0).qc.length + (s0.ctx 0 0).qcPend.length < 16)
    ∧ 16 ≤ ({ ctx0 with qc := List.replicate 16 0 } : Ctx).qc.length + 0 ∧ 1 ≤ 4 ∧ 4 ≤ 4 := by decide

/-- An evaluate of an object of two records with a staged parameter of an update that has ended, one that ends at the begin tick and one still to end;
and of no lane. -/
def sEv (w2 : Word) : State := { sC (cmdOf 2 0x100000000000 w2 0 0) [] with
  circuits := [(0, { Circuit.reset with dir := [(63, ⟨[2, 0x20000002001, 0, 0, 0, 0, 0, 0], []⟩)], staging := [(7, ⟨9, 3, 99⟩), (8, ⟨9, 4, 100⟩), (9, ⟨9, 5, 0⟩)] })] }
theorem test_meets_CommandsBegin_evaluate : (let s := sEv 0x1003F
      let m := cmdOf 2 0x100000000000 0x1003F 0 0
      s.findCmd m.id = some m ∧ m.phase = 0 ∧ m.beginAt ≤ s.now ∧ beginFaults s m (s.evalExpansion m) = [] ∧ (((s.circuit 0).staging.map (·.1)).Nodup)
      ∧ ¬ EvaluateRefused s m)
    ∧ EvaluateRefused (sEv 0x3F) (cmdOf 2 0x100000000000 0x3F 0 0) := by
  refine ⟨⟨by decide, rfl, by decide, by decide, by decide, ?_⟩, .inr (.inr (.inr (.inr (.inl (by decide)))))⟩
  rintro (h | h | h | h | h | h)
  · exact absurd rfl h
  · exact absurd h (by decide)
  · exact absurd h (by decide)
  · exact absurd (List.mem_singleton.mpr rfl) (h _)
  · exact absurd h (by decide)
  · exact absurd h (by decide)

/-- The engine of channel 0 running for command 5, with 1 in J0, a multiple of 128 in J1 and a row's address in J3. -/
def celC : Cellar := { Cellar.reset with cmd := 5, nextAt := 100, j := [(0, 1), (1, 0x1000), (3, 3)] }
def cellC : Cmd := cmdOf 4 0x100 0 0 1
def sE (e : Cellar) (m : Cmd) : State := { sC m [] with channels := [(0, { calm with cellar := e })] }
theorem test_meets_CellarRegisters : jv (sE celC cellC).cel 0 = 1 ∧ jv (sE celC cellC).cel 1 ≠ 1 ∧ (sE celC cellC).celCmd = some cellC := by decide
/-- An area of the core's own scratchpad, and one that ends with that of peer 7. -/
theorem test_meets_CellarTraffic : let s := sE celC cellC
    AreaReady s cellC 0x1000 8 (fun i => (0, 0x1000 + 128 * i)) (fun i => s.now + 2 * i) false
    ∧ AreaReady s cellC 0x1FFFC00 8 (fun i => (7, 0x1FFC00 + 128 * i)) (fun i => s.now + 2 * i) false ∧ jv s.cel 1 % 128 = 0 ∧ jv s.cel 3 < 2 ^ 21
    ∧ (s.channel 0 s.ceCh).breaks 0 s.now ⟨5, 3, 0, 100, 156, 100, 0, 1, false⟩ = 0
    ∧ AreaReady s cellC 0x1000 2 (fun i => (0, 0x1000 + 128 * i)) (fun i => s.now + 40 + 2 * i) true ∧ PendRoom s cellC 256 ∧ (5 : BitVec 3).toNat < 6 ∧ (4 : BitVec 3).toNat < 6 := by
  refine ⟨⟨by decide, by decide⟩, ⟨by decide, by decide⟩, by decide, by decide, by decide, ⟨by decide, by decide⟩,
    fun d b h => absurd h.1 (by decide), by decide, by decide⟩
/-- A row of two dot products and one of scores; results of each kind that land, two for one element, and bytes of an activation buffer. -/
def rowC (w : Nat) (bs : List (List VWord)) : CeRow := ⟨5, 132, 100, 139, 3, 9, bs, 0, 1, 0, w, 2, 61, true⟩
theorem test_meets_CellarTraffic_rows : (∀ r ∈ [rowC 0 [List.replicate 8 0, List.replicate 8 1], rowC 128 [List.replicate 8 1]],
      r.row < 2 ^ 16 ∧ r.bank < 32 ∧ (∀ b ∈ r.bufs, b.length = 8) ∧ r.bufs ≠ [] ∧ r.width ∈ [0, 32, 64, 128]
      ∧ ∀ i, i < 32 → tget (s0.channel 0 12).modes 0 ((chanAddr 0 r.bank (r.row * 1024) + 32 * i) / 32) = r.ecc)
    ∧ (s0.channel 0 12).errs = [] := by
  refine ⟨?_, rfl⟩
  intro r hr
  simp only [List.mem_cons, List.not_mem_nil, or_false] at hr
  obtain rfl | rfl := hr <;> exact ⟨by decide, by decide, by decide, by decide, by decide, fun i _ => rfl⟩
theorem test_meets_CellarTraffic_lands : (∀ h, h ≤ 3 → (⟨100, 95, h, 9, 1, 0⟩ : CePend).land ≤ 100) ∧ (⟨100, 95, 0, 9, 1, 0⟩ : CePend).start < (⟨99, 96, 1, 9, 1, 0⟩ : CePend).start
    ∧ (⟨100, 1016, 8, 5⟩ : AbPend).land ≤ 100 ∧ (⟨100, 1016, 8, 5⟩ : AbPend).pos % 128 + 8 ≤ 128 := by decide
theorem test_meets_CellarLaunches : (let m := cmdOf 4 0x10C 0 0 0
      let s := sC m []
      s.findCmd m.id = some m ∧ m.phase = 0 ∧ m.beginAt ≤ s.now ∧ s.findLaunch m.lx = some launchC ∧ m.ch + m.nch ≤ 256
      ∧ ∀ i, i < m.nch → launchC.ownsCh 0 (m.ch + i) = true ∧ (s.channel 0 (m.ch + i)).cellar.cmd = 0)
    ∧ (sE celC cellC).celCmd = some cellC ∧ cellC.id ≠ 0
    ∧ (∀ a ∈ [EAct.ceRead 12 0 0x1FFF80 128 0 164, .ceWrite 0 0x1FFF80 8 0], (sC cellC [a]).findCmd 5 = some cellC ∧ (sC cellC [a]).eops = [] ++ ⟨100, 5, a⟩ :: [] ∧ ((sC cellC [a]).core 0).bad = [])
    ∧ cellC.w0.toNat.testBit 10 = false ∧ ∀ c, ((sC cellC []).spad c).wf = true := by
  refine ⟨by decide, by decide, by decide, ?_, by decide, canon rfl rfl⟩
  intro a _
  exact ⟨rfl, rfl, rfl⟩

/-! Main memory, the host, streams and launches -/

def sD (c : Channel) : State := { s0 with channels := [(0, c)] }
/-- A channel with something due of every kind: refresh, management of bank 31, a forced refresh, a host window. -/
def busy : Channel := { calm with
  refAt1 := 100, rfmAt := [(0, 100)], plan := { calm.plan with rfm := [(0, 31, 0)] }, forced := [(1, 100)], winAt1 := 100, hostQ1 := [⟨90, 0, 16, 0, none⟩] }
theorem test_meets_DramTimeline : Claims.refreshAt ((sD busy).channel 0 0) 1 ≤ (sD busy).now ∧ ((sD busy).channel 0 0).rfmAt = [] ++ (0, 100) :: [] ∧ busy.plan.rfm[0]? = some (0, 31, 0)
    ∧ ((sD busy).channel 0 0).forced = [] ++ (1, 100) :: [] ∧ ((sD busy).channel 0 0).bursts = [] ∧ busy.dlog.length < 65535
    ∧ Claims.windowAt ((sD busy).channel 0 0) 1 ≤ 100 ∧ ((sD busy).channel 0 0).queue 1 = [⟨90, 0, 16, 0, none⟩] ∧ (∀ o ∈ busy.hostOps, o.2.bank / 16 = 1 → 100 < o.1)
    ∧ ((sD { calm with winEnd0 := 101, errs := [] }).channel 0 0).errs = [] ∧ ((sD busy).channel 0 0).late = [] ∧ 100 < ({ calm with winEnd0 := 101 } : Channel).winEnd0
    ∧ (∀ q, q < 4 → ((sD busy).stream q).en = false) := by
  refine ⟨by decide, rfl, rfl, rfl, rfl, by decide, by decide, rfl, by decide, rfl, rfl, by decide, fun _ _ => rfl⟩
/-- A forced refresh that finds its bank open, before its ACT and after; one that follows a PRE; a report of a row of an open bank; a bank
with RAA while its channel is handed over. -/
def openB (act : Nat) : Channel := { calm with bursts := [⟨5, 16 + calm.rot1, 9, act, 200, 122, 8, 8, false⟩], forced := [(1, 100)] }
theorem test_meets_DramTimeline_cuts : (∀ act ∈ [90, 110], let c := openB act
      let b : Burst := ⟨5, 16 + calm.rot1, 9, act, 200, 122, 8, 8, false⟩
      c.forced = [] ++ (1, 100) :: [] ∧ c.late = [] ∧ c.bursts = [] ++ b :: [] ∧ b.bank = 1 * 16 + Claims.rotOf c 1 ∧ 100 ≤ b.pre
      ∧ (act = 90 → b.act < 100) ∧ (act = 110 → 100 ≤ b.act ∧ b.act < 100 + 360))
    ∧ ({ calm with late := [(18, 100)] } : Channel).late = [] ++ (18, 100) :: [] ∧ 18 / 16 = 1 ∧ (openB 90).dlog.length < 65535
    ∧ ({ calm with handAt := some 90, raa := [(3, 20)] } : Channel).raa = [] ++ (3, 20) :: [] ∧ calm.rfmAt = [] ∧ calm.bursts = [] ∧ calm.occ = []
    ∧ (sC { cLL with phase := 1 } []).findCmd 5 = some { cLL with phase := 1 } ∧ ((sC cLL []).ctx cLL.core cLL.ctx).lx = cLL.lx := by
  refine ⟨?_, rfl, by decide, by decide, rfl, rfl, rfl, rfl, rfl, rfl⟩
  intro act ha
  simp only [List.mem_cons, List.not_mem_nil, or_false] at ha
  obtain rfl | rfl := ha <;> exact ⟨rfl, rfl, rfl, by decide, by decide, by decide, by decide⟩
def errC (e : BitVec 288) (mode : Nat) : Channel := { calm with errs := [(7, e)], modes := if mode = 0 then [] else [(7, mode)], winEnd0 := 101 }
set_option maxRecDepth 100000 in
set_option exponentiation.threshold 600 in
/-- Sectors with one bad symbol, with two, with bits beyond what a tolerant mode covers, and with two covered ones; and a scrub that cannot
correct, that has nothing to correct, and that corrects. -/
theorem test_meets_DramTimeline_errors : (∀ i, i < 288 → (3 : BitVec 288).getLsbD i = true → i / 8 = 0)
    ∧ (3 : BitVec 288).getLsbD 0 = true ∧ ((0x101 : BitVec 288).getLsbD 0 = true ∧ (0x101 : BitVec 288).getLsbD 8 = true)
    ∧ ¬ Claims.covers 1 2 ∧ Claims.covers 1 3 ∧ Claims.covers 2 7 ∧ ¬ Claims.covers 3 9 ∧ Claims.covers 3 255
    ∧ (errC 3 0).idle = true ∧ 100 < (errC 3 0).winEnd0 ∧ ((errC 0x101 0).decodeSector 0 0 224 0).1 = none
    ∧ ((errC 4 1).decodeSector 0 0 224 1).1 ≠ none ∧ ((errC 4 1).decodeSector 0 0 224 1).2 = false
    ∧ ((errC 3 0).decodeSector 0 0 224 0).1 ≠ none ∧ ((errC 3 0).decodeSector 0 0 224 0).2 = true ∧ (errC 3 0).cecnt < 65535
    ∧ Quiet (sD (errC 3 0)) ∧ (let s := { sD (errC 3 0) with streams := [(2, { Stream.reset 2 with en := true })] }
      (s.stream 2).en = true ∧ ∀ p, p < 4 → p ≠ 2 → (s.stream p).en = false) := by
  refine ⟨by decide, by decide, by decide, by unfold Claims.covers; decide, by unfold Claims.covers; decide, by unfold Claims.covers; decide,
    by unfold Claims.covers; decide, by unfold Claims.covers; decide, rfl, by decide, by decide, by decide, by decide, by decide, by decide, by decide,
    fun _ _ => rfl, ⟨rfl, by decide⟩⟩
set_option maxRecDepth 100000 in
/-- A line served and one with nothing behind it; a queue with room and a full one; a sector to read and one to write; a device write;
a packet word and one for a closed slot; a log with one free place and a full one. -/
theorem test_meets_HostAccesses : s0.hostPlace 0x7FC0 = some (0, 127, 0, 0xC0) ∧ s0.hostPlace 0x20000000000 = none
    ∧ (({ calm with hostQ0 := List.replicate 15 ⟨90, 0, 0, 0, none⟩ } : Channel).queue 0).length < 16 ∧ 16 ≤ (({ calm with hostQ0 := List.replicate 16 ⟨90, 0, 0, 0, none⟩ } : Channel).queue 0).length
    ∧ ({ calm with hostOps := [(100, ⟨90, 0, 31, 0, some 5⟩)] } : Channel).hostOps = [] ++ (100, ⟨90, 0, 31, 0, some 5⟩) :: [] ∧ calm.mem.wf = true
    ∧ calm.errs = [] ∧ tget calm.modes 0 (chanAddr 0 31 0 / 32) = 0
    ∧ ({ s0 with hostWrites := [⟨3, 0, 0x40, 16, 9, some 2⟩] } : State).hostWrites = [⟨3, 0, 0x40, 16, 9, some 2⟩] ∧ s0.hostMem.wf = true
    ∧ (∃ p ∈ ({ Stream.reset 0 with closed := [(7, 90)] } : Stream).closed, p.1 = 7) ∧ (∀ p ∈ (s0.stream 0).closed, p.1 ≠ 7)
    ∧ ((s0.stream 0).evhead.toNat + 15 + 2 ^ 32 - (s0.stream 0).evtail.toNat) % 2 ^ 32 ≠ 2 ^ (s0.stream 0).evlog
    ∧ ((s0.stream 0).evhead.toNat + 16 + 2 ^ 32 - (s0.stream 0).evtail.toNat) % 2 ^ 32 = 2 ^ (s0.stream 0).evlog := by
  refine ⟨by decide, by decide, by decide, by decide, rfl, by decide, rfl, rfl, rfl, by decide, by decide, by decide, by decide, by decide⟩
/-- Stream 3 of a state, with what it holds. -/
def sS (st : Stream) : State := { s0 with streams := [(3, st)], pupolOk := true }
def heldOf' (w0 w1 w2 : Word) (p : Nat) : Held := ⟨0, 90, [w0, w1, w2], 95, some 100, p, none⟩
def stOn : Stream := { Stream.reset 3 with en := true }
theorem test_meets_StreamCommands : (let st := { stOn with closed := [(7, 99)], slots := [(448, 7)] }
      ((sS st).stream 3).en = true ∧ st.ended = false ∧ st.held = none ∧ st.freeAt ≤ 100 ∧ (sS st).pauseTo ≤ 100 ∧ st.retry = [] ∧ ((sS st).stream 3).closed = (7, 99) :: []
      ∧ 1 ≤ (tget st.slots 0 448).toNat ∧ (tget st.slots 0 448).toNat ≤ 7)
    ∧ (∀ p ∈ [((2 : Word), (100 : Word)), (2, 101), (3, 9), (7, 0), (1, 0)], ((sS { stOn with held := some (heldOf' p.1 p.2 0 0) }).stream 3).held = some (heldOf' p.1 p.2 0 0)
        ∧ (heldOf' p.1 p.2 0 0).slot ≠ 8 ∧ (heldOf' p.1 p.2 0 0).word 0 % 256 = p.1.toNat)
    ∧ (∀ l ∈ (sS stOn).launches, l.stream = 3 → l.phase ≠ 1 ∧ l.phase ≠ 2)
    ∧ (let st := { Stream.reset 3 with ended := true, retry := [0x40], held := some (heldOf' 1 0 0 1) }
      st.en = false ∧ st.freeAt ≤ 100 ∧ st.retry = 0x40 :: [] ∧ (heldOf' 1 0 0 1).slot ≠ 8 ∧ (heldOf' 1 0 0 1).word 0 % 256 = 1 ∧ (heldOf' 1 0 0 1).prog ≤ 1)
    ∧ (heldOf' 2 0 0 0).word 0 % 256 = 2 ∧ (heldOf' 3 0 0 0).word 0 % 256 = 3
    ∧ ({ heldOf' 4 0 0 0 with actAt := none } : Held).word 0 % 256 = 4 ∧ ({ heldOf' 4 0 0 0 with actAt := none } : Held).actAt = none := by
  refine ⟨⟨rfl, rfl, rfl, by decide, by decide, rfl, rfl, by decide, by decide⟩, ?_, by decide, by decide⟩
  intro p hp
  refine ⟨rfl, ?_, ?_⟩
  · show (0 : Nat) ≠ 8
    decide
  · simp only [List.mem_cons, List.not_mem_nil, or_false] at hp
    obtain rfl | rfl | rfl | rfl | rfl := hp <;> rfl
/-- Word 1 of a kernel image of three words on its way, an object of two records and a plan in device memory, and zeros there, which are neither. -/
def img0 : Image := ⟨0, 0, false, [1, 2, 3], [], [], [], []⟩
def devOf (m : Memory) : State := { s0 with channels := [(0, { calm with mem := m })] }
theorem clean {s : State} {c : Channel} (h : s.channels = [(0, c)]) (he : c.errs = [] ∧ c.modes = []) : CleanDevice s := fun p hp => by
  rw [h, List.mem_singleton] at hp
  subst hp
  exact he
set_option maxRecDepth 100000 in
theorem test_meets_ObjectLoads : (let h := { heldOf' 4 0 0x100000 1 with image := some img0 }
      h.word 0 % 256 = 4 ∧ h.actAt = some 100 ∧ h.image = some img0 ∧ img0.words[h.prog]? = some 2 ∧ 1 ≤ h.prog ∧ h.word 2 / 2 ^ 10 % 2 = 0 ∧ h.prog + 1 < img0.items false)
    ∧ ((heldOf' 5 0 0x7E0 0).word 0 % 256 = 5 ∧ (heldOf' 5 0 0x7E0 0).slot ≠ 8) ∧ (heldOf' 6 0 0x100 0).word 2 / 256 % 256 = 1 := by decide
set_option synthInstance.maxSize 1024 in
set_option maxRecDepth 100000 in
theorem test_meets_ObjectLoads_object : let s := devOf [(0, 2), (8, 1), (9, 0x20), (13, 2), (64, 0x11), (72, 0x1A)]
    let hdr := s.devWords 0 8
    (s.circuit 0).retired = false ∧ ImageAdmitted (s.circuit 0) 63 hdr (s.devWords 64 (fieldOf hdr 3 0 6)) ((s.devWords 64 (fieldOf hdr 0 0 20)).map (·.toNat))
    ∧ CleanDevice s ∧ ¬ ImageAdmitted (s0.circuit 0) 63 (s0.devWords 0 8) [] [] := by
  refine ⟨rfl, ⟨by unfold HeaderAdmitted; decide, fun h => absurd h (by decide), ⟨by decide, ⟨0x1A, by decide, by decide⟩, by decide, by decide, by decide, by decide, ?_⟩,
    fun p hp => (by cases hp), fun r h => (by cases h)⟩, clean rfl ⟨rfl, rfl⟩, fun h => absurd h.1.1 (by decide)⟩
  intro o ho
  exact ⟨1, by decide, by decide, by revert o; decide, by revert o; decide⟩
set_option maxRecDepth 100000 in
theorem test_meets_ObjectLoads_plan : (let s := devOf [(0, 100), (9, 1), (17, 1), (27, 0x68)]
      BlockAdmitted 0 (s.devWords 0 (blockWords (s.devWord 16)))) ∧ ¬ BlockAdmitted 0 (s0.devWords 0 (blockWords (s0.devWord 16))) :=
  ⟨⟨by decide, by decide, by decide, by decide, by decide, by decide, by decide, by decide, by decide, by decide, by decide, fun h => absurd rfl h,
    fun k hk => by
      obtain rfl : k = 0 := Nat.lt_one_iff.mp (lt_of_lt_of_eq hk (by decide))
      decide, by decide⟩, fun h => absurd h.2.2.2.2.2.1 (by decide)⟩
/-- A launch of context 1 of core 0 as its descriptor stands at 0 of device memory: LID 7, ASAP, one word. -/
def sL (ms : Memory) (ls : List Launch) : State :=
  { devOf ms with streams := [(0, { Stream.reset 0 with en := true, held := some { heldOf' 1 0 0 1 with slot := 0 } })], launches := ls }
def descL : Memory := [(0, 7), (2, 1), (3, 1), (106, 1)]
set_option maxRecDepth 100000 in
theorem test_meets_Admissions_taken : CleanDevice (sL descL []) ∧ (sL descL []).admitDue = none ∧ ∃ x, (sL descL []).chosen = some x :=
  ⟨clean rfl ⟨rfl, rfl⟩, by decide, Option.isSome_iff_exists.mp (by decide)⟩
/-- An admission that ends with START + 512 the least a launch may have, and one that ends too late. -/
def launchA (n : Word) : Launch := { launch0 with phase := 0, admitAt := 100, desc := [0x1000007, n, 0] }
set_option maxRecDepth 100000 in
theorem test_meets_Admissions_end : ({ s0 with launches := [launchA 0x200] } : State).launches = [] ++ launchA 0x200 :: [] ∧ (launchA 0x200).phase = 0 ∧ (launchA 0x200).admitAt ≤ 100
    ∧ s0.hostBefore 0 = true ∧ refusedFor s0 (launchA 0x200) = 0 ∧ refusedFor s0 (launchA 0x1FF) ≠ 0 := by
  refine ⟨rfl, rfl, by decide, by decide, by decide, by decide⟩
set_option maxRecDepth 100000 in
theorem test_meets_Admissions_late : let s := sL [(0, 7), (106, 1)] [{ launch0 with phase := 2 }]
    ∃ l, s.waiting 0 = some l ∧ l.asap = false ∧ l.isRetry = false ∧ s.readyFor l = none ∧ l.word 1 < s.now + 1024 + l.npg + 512 :=
  ⟨_, rfl, by decide, rfl, by decide, by decide⟩
/-- A launch of a gang of two modules, started and not, with its deadline come; confirmed by the other and not. -/
def launchG (p : Nat) (cf : List Nat) : Launch := { launch0 with phase := p, start := 65636, desc := [7, 0, 0x1000000], confirmed := cf }
theorem test_meets_Admissions_gangs : ({ s0 with launches := [launchG 2 []] } : State).launches = [] ++ launchG 2 [] :: [] ∧ (launchG 2 []).nmod ≠ 0 ∧ (launchG 2 []).phase < 3
    ∧ 1 ∉ (launchG 2 []).confirmed ∧ (∀ c ∈ (launchG 2 []).cores, (s0.ctx c (launchG 2 []).ctxNo).lx = 1) ∧ (∀ c ∈ (launchG 1 []).cores, (s0.ctx c 0).preBy ≠ 1)
    ∧ (launchG 1 [1]).start ≤ 100 + 65536 ∧ (launchG 1 [1]).modix ∉ (launchG 1 [1]).confirmed
    ∧ (∀ i, i ≤ (launchG 1 [1]).nmod → i ≠ (launchG 1 [1]).modix → i ∈ (launchG 1 [1]).confirmed) ∧ ∃ i, i ≤ (launchG 1 []).nmod ∧ i ≠ (launchG 1 []).modix ∧ i ∉ (launchG 1 []).confirmed := by
  refine ⟨rfl, by decide, by decide, by decide, by decide, by decide, by decide, by decide, by decide, ⟨1, by decide, by decide, by decide⟩⟩
set_option maxRecDepth 100000 in
/-- A confirmation and an abort that come before their launch, and the launch of a gang whose abort has come. -/
theorem test_meets_Admissions_early : (∀ m ∈ s0.launches, m.lid ≠ 9 ∨ m.nmod = 0) ∧ (9, 1, false) ∉ s0.gangMsgs
    ∧ (let s := { sL [(0, 7), (2, 1), (3, 1), (19, 1), (106, 1)] [] with gangMsgs := [(7, 1, true)] }
      s.admitDue = none ∧ (s.chosen.map (fun x => (x.2.1.nmod, x.2.1.lid, x.2.1.lx != 0, x.1))) = some (1, 7, true, 0) ∧ (7, 1, true) ∈ s.gangMsgs
      ∧ (s.stream 0).held ≠ none) := by decide
/-- A staged image with two parameter lines for one register, for every rank and for another. -/
def stagedS : Staged := { newStaged img0 0 with params := [⟨15, 0x1F, true, none⟩, ⟨15, 0x10, false, some 0⟩, ⟨16, 1, true, some 1⟩] }
/-- A launch at its start tick with a staged image; a context that waits for banks that are free; one to pre-empt; a saved one. -/
def launchS : Launch := { launch0 with phase := 1, start := 100, desc := [7, 0, 0, 0, 0, 0, 0, 0, 0, 0, 0, 0, 0x80000001] }
def sB : State := { stOf { core0 with own := [], ctxs := [(0, { ctx0 with status := .banks })] } with launches := [{ launchS with phase := 2 }] }
def sP : State := { s0 with launches := [launch0, { launch0 with lx := 2, phase := 1, start := 612, victim := 1 }] }
theorem test_meets_LaunchStarts : (let s := { stOf { core0 with ctxs := [], staged := [(0, stagedS)] } with launches := [launchS] }
      s.findLaunch launchS.lx = some launchS ∧ launchS.phase = 1 ∧ launchS.start ≤ s.now ∧ 0 ≤ launchS.ncore ∧ launchS.lx ≠ 0 ∧ (s.ctx 0 0).preBy ≠ 1 ∧ s.stagedFor launchS 0 = some stagedS
      ∧ (∀ p ∈ stagedS.lines 0, p.idx < 16) ∧ CleanDevice s)
    ∧ (sB.bankWaiters 0 = [(0, 0, { launchS with phase := 2 })] ∧ ∀ b, b < 32 → tget (sB.core 0).own 0 b = 0 ∧ tget (sB.core 0).releasing 0 b = 0 ∧ tget (sB.core 0).kept 0 b = 0)
    ∧ (0 ∈ sP.preemptCores 2 ∧ (∀ d, (sP.ctx 0 0).status ≠ .draining d) ∧ (sP.ctx 0 0).bcast = 0)
    ∧ (let k := { ctx0 with preAt := 100 }
      let s := stOf { core0 with ctxs := [], saved := [(0, k)], savedBy := some 0, savedArray := some ArrayState.reset }
      (s.core 0).saved = [(0, k)] ∧ k.preBy = 0 ∧ k.preAt ≤ s.now ∧ k.service = none ∧ k.bcast = 0 ∧ k.status = .issuing ∧ k.fenceLater = [] ∧ (∀ w ∈ (s.core 0).bad, w.struct ≠ 2)
      ∧ (s.core 0).savedBy = some 0 ∧ (s.core 0).savedArray = some ArrayState.reset) := by
  refine ⟨⟨by decide, by decide, by decide, by decide, by decide, by decide, rfl, by decide, fun p hp => (by cases hp)⟩, ⟨rfl, by decide⟩,
    ⟨by decide, fun d h => (by cases h), rfl⟩, ⟨rfl, rfl, by decide, rfl, rfl, rfl, rfl, by decide, rfl, rfl⟩⟩
/-- A launch that takes a staged plan, a context in service that is pre-empted, and one that waits for bank 31. -/
theorem test_meets_LaunchStarts_more : (let l : Launch := { launchS with desc := [7, 0, 0, 0, 0, 0, 0x1000] }
      let s := { s0 with channels := [(12, { calm with staged := some calm.plan })], launches := [l] }
      l.isRetry = false ∧ l.ownsCh 0 12 = true ∧ (s.channel 0 12).staged = some calm.plan)
    ∧ (let s := { sP with cores := [(0, { core0 with ctxs := [(0, { ctx0 with service := some ⟨90, 90, 602, 0, 33, none⟩ })] })] }
      0 ∈ s.preemptCores 2 ∧ (s.ctx 0 0).service ≠ none ∧ (s.ctx 0 0).bcast = 0)
    ∧ Claims.WaitsFor sB 0 0 31 { launchS with phase := 2 } ∧ tget (sB.core 0).own 0 31 = 0 :=
  ⟨by decide, by decide, ⟨_, .inl ⟨by decide, rfl⟩, rfl, by decide, by decide⟩, by decide⟩
/-- The banks of a context with nothing left, scrubbed and not, beside one of an image killed while it was saved; and with an entry of a timed
store left in one of them. -/
theorem test_meets_Releases_banks : (let k := { core0 with releasing := [(30, 1), (31, 2), (29, 1)], kept := [(29, 1)] }
      let s := stOf k
      31 < 32 ∧ tget k.own 0 31 = 0 + 1 ∧ tget k.releasing 0 31 = 2 ∧ tget k.releasing 0 30 = 1 ∧ tget k.kept 0 31 = 0 ∧ tget k.kept 0 29 ≠ 0
      ∧ ∀ e, e < 32 ∧ tget k.own 0 e = 0 + 1 ∧ tget k.releasing 0 e ≠ 0 → Claims.IdleBank s 0 0 e)
    ∧ (let s := stOf { core0 with releasing := [(30, 1), (31, 1)], timed := [⟨100, 95, 90, 0, 0, false, 0xF00, 8, 0⟩] }
      30 < 32 ∧ tget (s.core 0).own 0 30 = 0 + 1 ∧ tget (s.core 0).releasing 0 30 ≠ 0 ∧ tget (s.core 0).kept 0 30 = 0 ∧ bankOf 0xF00 = 30 ∧ ¬ Claims.IdleBank s 0 0 30) := by
  refine ⟨⟨by decide, by decide, by decide, by decide, by decide, by decide, fun e _ => ⟨fun r hr => (by cases hr), fun r hr => (by cases hr)⟩⟩,
    by decide, by decide, by decide, by decide, by decide, fun h => ?_⟩
  exact absurd (h.2 _ (List.mem_singleton.mpr rfl) (by decide)) (by decide)
/-- A halted context with nothing left, the last of its launch. -/
theorem test_meets_Releases : let k := { ctx0 with status := .halted }
      let s := withCtx k
      k.service = none ∧ k.preBy = 0 ∧ k.flights = [] ∧ k.shadow = [] ∧ k.stops = [] ∧ k.shadowRows = [] ∧ (∀ r ∈ (s.core 0).array.rows, r.exit ≤ s.now) ∧ (∀ m ∈ s.cmds, m.core = 0 → m.ctx = 0 → m.lx = k.lx → 2 ≤ m.phase)
      ∧ s.findLaunch 1 = some launch0 ∧ launch0.phase = 2 ∧ launch0.wantRetry = false ∧ (∀ p ∈ s.cores, p.2.saved = [] ∧ ∀ q ∈ p.2.ctxs, q.2.lx = k.lx → p.1 = 0 ∧ q.1 = 0)
      ∧ (∀ d, ((s.core d).ctxs.map (·.1)).Nodup) ∧ (s.cores.map (·.1)).Nodup := by
  refine ⟨rfl, rfl, rfl, rfl, rfl, rfl, by decide, by decide, by decide, rfl, rfl, ?_, ?_, by decide⟩
  · intro p hp
    obtain rfl := List.mem_singleton.mp hp
    exact ⟨rfl, fun q hq _ => by obtain rfl := List.mem_singleton.mp hq; exact ⟨rfl, rfl⟩⟩
  · intro d
    simp only [State.core, withCtx, stOf, tget]
    split
    · exact List.nodup_cons.mpr ⟨by simp, List.nodup_nil⟩
    · exact List.nodup_nil

/-! Time, service, security -/

theorem quiet0 {s : State} (h : s.streams = []) : Quiet s := fun q hq => by
  simp only [State.stream, h, tget]
  match q, hq with
  | 0, _ => rfl
  | 1, _ => rfl
  | 2, _ => rfl
  | 3, _ => rfl
/-- A module that acquires, locked, free, with a launch live; trims at both ends of their range, and past them. -/
def sT (lock : Nat) : State := { State.reset with now := 100, booted := true, pupolOk := true, lock := lock, den := true, src := 3 }
def sF : State := { State.reset with now := 100, booted := true, pupolOk := true }
theorem test_meets_TimeRegisters : (sF.lock = 0 ∧ sF.noneLive = true ∧ sF.cexm = false ∧ sF.now < (101 : Word).toNat) ∧ (sT 2).lock ≠ 0 ∧ s0.noneLive = false
    ∧ (15 : Word).toNat % 16 ≠ 0 ∧ 9 < (15 : Word).toNat % 16 ∧ (16 : Word).toNat % 16 = 0
    ∧ (0x1C : Word).getLsbD 4 = true ∧ (0xF : Word).getLsbD 4 = false ∧ (sT 1).lock ≠ 2 ∧ (sT 1).den = true ∧ (sT 1).syncAt ≤ (sT 1).now ∧ (sT 1).src < 12 := by decide
def laterT (n : Nat) (k : State) : State := { k with now := n }
/-- Syncs within a tick and past it, within 1,024 ticks and past them with the reference ahead and behind, and within three ticks of a locked
module and past them; a good one that is the sixteenth; a module in holdover; a coarse step that waits. -/
theorem test_meets_TimeRegisters_syncs : (sT 1).lock = 1 ∧ Up (sT 1) 3 ∧ (offsetOf (sT 1) 99 0 0).natAbs ≤ 256 ∧ (sT 1).syncGood + 1 < 16
    ∧ 16 ≤ ({ sT 1 with syncGood := 15 } : State).syncGood + 1 ∧ Quiet { sT 1 with syncGood := 15 }
    ∧ 256 < (offsetOf (sT 1) 98 0 0).natAbs ∧ (offsetOf (sT 1) 1124 0 0).natAbs ≤ 1024 * 256
    ∧ 1024 * 256 < (offsetOf (sT 1) 1125 0 0).natAbs ∧ (sT 1).coarseDone = false ∧ (sT 1).now < estimateOf (sT 1) 1125 0
    ∧ 1024 * 256 < (offsetOf (laterT 2000 (sT 1)) 0 0 0).natAbs ∧ estimateOf (laterT 2000 (sT 1)) 0 0 ≤ (laterT 2000 (sT 1)).now
    ∧ roundOf (sT 1) 7 = 1792 ∧ roundOf { sT 1 with pathTrip := some 513 } 7 = 513
    ∧ (offsetOf (sT 2) 97 0 0).natAbs ≤ 3 * 256 ∧ 3 * 256 < (offsetOf (sT 2) 96 0 0).natAbs ∧ Quiet (sT 2) ∧ NoGangs (sT 2) ∧ (sT 2).lock = 2 ∧ (sT 3).lock = 3
    ∧ ({ sT 1 with coarseTo := some 1 } : State).coarseTo = some 1 ∧ 0 < 1 ∧ ({ sT 1 with coarseTo := some 1 } : State).noneLive = true := by
  refine ⟨rfl, ⟨rfl, by decide⟩, by decide, by decide, by decide, quiet0 rfl, by decide, by decide, by decide, rfl, by decide, by decide, by decide, rfl, rfl,
    by decide, by decide, quiet0 rfl, ?_, rfl, rfl, rfl, by decide, by decide⟩
  intro l hl
  cases hl
/-- One stream enabled, and a running and a confirmed gang of two modules with a command each. -/
def gangs : State := { s0 with
  lock := 2, den := true, src := 3, streams := [(1, { Stream.reset 1 with en := true })], cmds := [{ cLL with phase := 1 }]
  launches := [launchG 2 [], { launchG 1 [0] with lx := 2 }] }
theorem test_meets_TimeRegisters_lost : OnlyStream gangs 1 ∧ OnlyStream { sT 2 with streams := gangs.streams } 1 ∧ NoGangs { sT 2 with streams := gangs.streams }
    ∧ gangs.lock = 2 ∧ Numbered gangs ∧ gangs.src < 12 ∧ (8 : Word).getLsbD 4 = false
    ∧ (launchG 2 [] ∈ gangs.launches ∧ (launchG 2 []).nmod ≠ 0 ∧ (launchG 2 []).phase = 2 ∧ (launchG 2 []).lx ≠ 0 ∧ ∀ c ∈ (launchG 2 []).cores, (gangs.ctx c 0).lx = 1)
    ∧ ((launchG 1 [0]).nmod ≠ 0 ∧ (launchG 1 [0]).phase = 1 ∧ (launchG 1 [0]).modix ∈ (launchG 1 [0]).confirmed)
    ∧ ({ cLL with phase := 1 } : Cmd).phase < 2 ∧ gangs.findLaunch cLL.lx = some (launchG 2 []) := by
  refine ⟨⟨by decide, rfl, by decide⟩, ⟨by decide, rfl, by decide⟩, ?_, rfl, ⟨by decide, by decide⟩, by decide, by decide,
    ⟨List.mem_cons_self, by decide, rfl, by decide, by decide⟩, ⟨by decide, rfl, by decide⟩, by decide, rfl⟩
  intro l hl
  cases hl
/-- A window past the limit, one too hot, the sixteenth cool one in a row, and one that asks for nothing; a change come due alone, in a domain at
its tick and late, and with another asked for; a trip of a free and of a locked module, with no command. -/
theorem test_meets_StepsAndLinks : sF.stepPend = false ∧ sF.den = false ∧ Quiet sF ∧ windowRequest sF 2401 85 = some 1 ∧ windowRequest sF 2400 100 = some 3 ∧ 1 ≠ sF.stepF
    ∧ windowRequest { sF with stepF := 2, coolWins := 15 } 2160 85 = some 1 ∧ windowRequest sF 2161 94 = none
    ∧ (let s := { sF with stepPend := true, tchg := 100, stepNext := 1 }
      s.stepPend = true ∧ s.tchg.toNat ≤ s.now ∧ s.stepWant = none ∧ ({ s with stepWant := some 2 } : State).stepWant = some 2 ∧ 2 ≠ s.stepNext)
    ∧ NoGangs sF ∧ NoCommands sF ∧ sF.lock ≠ 2 ∧ sF.stepF ≠ 3 ∧ ({ sF with windowAt := 100 } : State).windowAt ≤ 100 ∧ sF.now < ({ sF with windowAt := 101 } : State).windowAt
    ∧ (let s := { sT 2 with stepPend := true, stepDom := true, tchg := 100 }
      s.lock = 2 ∧ s.src < 12 ∧ s.stepDom = true ∧ s.now = s.tchg.toNat ∧ ({ s with tchg := 99 } : State).tchg.toNat < s.now)
    ∧ gangs.stepF ≠ 3 ∧ Numbered gangs ∧ (sT 2).stepF ≠ 3 := by
  refine ⟨rfl, rfl, quiet0 rfl, by decide, by decide, by decide, by decide, by decide, by decide, ?_, ?_, by decide, by decide, by decide, by decide, by decide,
    by decide, ⟨by decide, by decide⟩, by decide⟩
  · intro l hl
    cases hl
  · intro m hm
    cases hm
set_option exponentiation.threshold 1100 in
/-- A flit of the next SEQ with its CRC, and one whose CRC is another; a port that is up, one that has asked for a replay, and one in training. -/
theorem test_meets_StepsAndLinks_flits : (let flit : BitVec 960 := 0x2
      (∃ crc, crc = Config.crc64 flit) ∧ Config.crc64 flit + 1 ≠ Config.crc64 flit
      ∧ flit.toNat / 2 ^ 10 % 2 ^ 16 = (tget sF.ports Port.reset 11).seqIn.toNat ∧ flit.toNat % 4 = 2)
    ∧ Up sF 11 ∧ ¬ Up { sF with ports := [(11, { Port.reset with until' := 101 })] } 11
    ∧ Port.reset.askUntil ≤ sF.now ∧ sF.now < ({ Port.reset with askUntil := 101 } : Port).askUntil ∧ sF.den = false := by
  refine ⟨⟨⟨_, rfl⟩, ?_, ?_, ?_⟩, ⟨rfl, by decide⟩, fun h => absurd h.2 (by decide), by decide, by decide, rfl⟩
  · generalize Config.crc64 _ = x
    bv_omega
  · rw [show (0x2 : BitVec 960).toNat = 2 from BitVec.toNat_ofNat 2 960 ▸ Nat.mod_eq_of_lt (Nat.lt_of_lt_of_le (by decide : 2 < 2 ^ 2) (Nat.pow_le_pow_right (by decide) (by decide)))]
    decide
  · rw [show (0x2 : BitVec 960).toNat = 2 from BitVec.toNat_ofNat 2 960 ▸ Nat.mod_eq_of_lt (Nat.lt_of_lt_of_le (by decide : 2 < 2 ^ 2) (Nat.pow_le_pow_right (by decide) (by decide)))]
/-- A gang of two modules and two cores that broadcasts, here as its first module, with its members running, and held since its stop; the port of
the reference, a sync it has seen, a request for a flit that is kept, for one that is not, and for one already asked for sixteen times. -/
def launchX : Launch := { launch0 with desc := [0x180007, 0, 0x1000100] }
def sX' (held : Bool) : State :=
  { sT 2 with
    cores := [(0, { core0 with ctxs := [(0, { ctx0 with bcast := 1, bheld := held })] }), (1, { core0 with ctxs := [(0, { ctx0 with bcast := 2, bheld := held })] })]
    launches := [launchX], syncSeen := some (90, 25600) }
theorem test_meets_StepsAndLinks_messages : GangHere (sX' false) launchX ∧ launchX.lid = 7 ∧ launchX.lx ≠ 0 ∧ 1 ≤ launchX.ncore ∧ launchX.bcast = true ∧ launchX.phase = 2
    ∧ (1 ∈ launchX.cores ∧ ((sX' false).ctx 1 0).lx = launchX.lx ∧ ((sX' false).ctx 1 0).service = none ∧ ((sX' false).ctx 1 0).preBy = 0
      ∧ ((sX' false).ctx 1 0).status ≠ .halted ∧ ((sX' false).ctx 1 0).bcast = 2)
    ∧ (GangHere (sX' true) launchX ∧ ((sX' true).ctx 1 0).bheld = true)
    ∧ ((sX' false).syncSeen = some (90, 25600) ∧ (sX' false).den = true ∧ (sX' false).src = 3 ∧ sF.syncSeen = none)
    ∧ (let k := { Port.reset with seqOut := 9, sent := [⟨7, ⟨0, 4, 0, none⟩, 90⟩, ⟨8, ⟨0, 5, 0, none⟩, 91⟩] }
      k.asked.1 ≠ 8 ∧ k.sent = [⟨7, ⟨0, 4, 0, none⟩, 90⟩] ++ ⟨8, ⟨0, 5, 0, none⟩, 91⟩ :: [] ∧ (∀ g ∈ [(⟨7, ⟨0, 4, 0, none⟩, 90⟩ : SentFlit)], g.seq ≠ 8)
      ∧ 6 ≠ k.seqOut ∧ (∀ g ∈ k.sent, g.seq ≠ 6) ∧ ({ k with asked := (8, 15) } : Port).asked.2 + 1 ≤ 16 ∧ ({ k with asked := (8, 16) } : Port).asked = (8, 16)) := by
  have gang : ∀ b, GangHere (sX' b) launchX := fun b => ⟨by decide, by decide, rfl, [], [], rfl, fun m hm => (by cases hm)⟩
  refine ⟨gang false, by decide, by decide, by decide, by decide, rfl, ⟨by decide, rfl, rfl, rfl, by decide, rfl⟩, ⟨gang true, rfl⟩, ⟨rfl, rfl, rfl, rfl⟩,
    by decide, rfl, ?_, by decide, ?_, by decide, rfl⟩
  · intro g hg
    obtain rfl := List.mem_singleton.mp hg
    exact (by decide : (7 : BitVec 16) ≠ 8)
  · intro g hg
    simp only [List.mem_cons, List.not_mem_nil, or_false] at hg
    obtain rfl | rfl := hg <;> simp
/-- Ports that are up: one with a flit to send again, one with flits of two classes that take turns, one with nothing; the rates of all eight lanes
and of four, which a flit takes less than a tick of; one in training. -/
theorem test_meets_StepsAndLinks_sends : (let k := { Port.reset with queue := [⟨1, 3, 0, none⟩, ⟨0, 4, 0, none⟩, ⟨0, 5, 0, none⟩] }
      k.inService = true ∧ k.until' ≤ 100 ∧ k.lanes.length < 2 ∧ k.again = [] ∧ k.lastCls < 2 ∧ k.queue = [⟨1, 3, 0, none⟩] ++ ⟨0, 4, 0, none⟩ :: [⟨0, 5, 0, none⟩]
      ∧ (∀ g ∈ ([⟨1, 3, 0, none⟩] : List FlitOut), g.cls ≠ 0) ∧ (∀ g ∈ k.queue, g.cls ≠ 2) ∧ 0 ≠ k.lastCls)
    ∧ ({ Port.reset with again := [(7, ⟨0, 4, 0, none⟩)] } : Port).again = (7, ⟨0, 4, 0, none⟩) :: [] ∧ (∀ f ∈ Port.reset.queue, 2 < f.cls)
    ∧ 128 * mhzOf sF < 400000 ∧ 200000 < 128 * mhzOf sF ∧ 100 < ({ Port.reset with until' := 101 } : Port).until'
    ∧ (∃ k, (11, k) ∈ ({ sF with ports := [(11, Port.reset)] } : State).ports) := by
  refine ⟨⟨rfl, by decide, by decide, rfl, by decide, rfl, ?_, ?_, by decide⟩, rfl, ?_, by decide, by decide, by decide, ⟨_, List.mem_singleton.mpr rfl⟩⟩
  · intro g hg
    obtain rfl := List.mem_singleton.mp hg
    exact (by decide : (1 : Nat) ≠ 0)
  · intro g hg
    simp only [List.mem_cons, List.not_mem_nil, or_false] at hg
    obtain rfl | rfl | rfl := hg <;> simp
  · intro g hg
    cases hg
set_option maxRecDepth 100000 in
/-- A port whose buffer of 256 has room, one whose oldest flit left 818 ticks ago, the time in which its replay may be asked for at 2.25 GHz, and one
where it left a tick later; a request that no other can follow, and one that another may. -/
theorem test_meets_StepsAndLinks_held : let win := 2 * (180 * mhzOf sF / 1000) + 8
    let full (n : Nat) : Port := { Port.reset with sent := ⟨9, ⟨0, 4, 0, none⟩, n⟩ :: List.replicate 255 ⟨10, ⟨0, 5, 0, none⟩, 900⟩ }
    win = 818 ∧ Room 918 win Port.reset ∧ Room 918 win (full 100) ∧ ¬ Room 918 win (full 101)
    ∧ (let k : Port := { Port.reset with asked := (9, 2), sent := [⟨9, ⟨0, 4, 0, none⟩, 100⟩] }
      (k.again = [] ∧ ∀ g ∈ k.sent, g.seq = k.asked.1 → g.left + win ≤ 918) ∧ ¬ (k.again = [] ∧ ∀ g ∈ k.sent, g.seq = k.asked.1 → g.left + win ≤ 917)) := by
  refine ⟨by decide, .inl (by decide), .inr ⟨_, _, rfl, by decide⟩, ?_, ?_, ?_⟩
  · rintro (h | ⟨g, r, h, h2⟩)
    · exact absurd h (by decide)
    · injection h with h _
      subst h
      exact absurd h2 (by decide)
  · decide
  · decide
/-- A service operation of every code, asked for and at its quiet tick, and done; a row of a bank with seven rows spared and one with eight. -/
def sVO (o : ServiceOp) : State := { sF with sbusy := true, service := some o }
theorem notHeld {s : State} (h1 : s.launches = []) (h2 : s.cores = []) (h3 : s.hostWrites = []) (h4 : s.cexm = false) (o : ServiceOp) : ¬ Holds s o := by
  unfold Holds
  simp [h1, h2, h3, h4]
theorem test_meets_ServiceOperations : ServiceForm (.retireCluster 32 0) 2 32 0 false ∧ ServiceForm (.retireALinkLane 11 8) 5 11 8 true
    ∧ (∀ o ∈ ([⟨1, 255, 0, none, 0, none, false⟩, ⟨2, 31, 0, none, 0, none, false⟩, ⟨3, 127, 1, none, 0, none, false⟩, ⟨4, 255, 0x3E, none, 0, none, false⟩, ⟨5, 11, 8, none, 0, none, false⟩,
        ⟨6, 0, 1, none, 0, none, false⟩, ⟨7, 3, 1, none, 0, none, false⟩, ⟨8, 11, 0, none, 0, none, false⟩, ⟨9, 255, 1, none, 0, none, false⟩] : List ServiceOp),
        (sVO o).service = some o ∧ o.doneAt = none ∧ 1 ≤ o.sop ∧ o.sop ≤ 9 ∧ ¬ Holds (sVO o) o)
    ∧ (tget ({ calm with spares := [(31, 7)] } : Channel).spares 0 31 < 8) ∧ 8 ≤ tget ({ calm with spares := [(31, 8)] } : Channel).spares 0 31
    ∧ (let s := { sF with cores := [(8, { Core.reset with retired := true })], ports := [(11, { Port.reset with lanes := [8] })] }
      ¬ NewInMap s ⟨1, 8, 0, none, 0, none, false⟩ ∧ NewInMap s ⟨1, 9, 0, none, 0, none, false⟩ ∧ NewInMap s ⟨2, 1, 0, none, 0, none, false⟩
      ∧ ¬ NewInMap s ⟨5, 11, 8, none, 0, none, false⟩ ∧ NewInMap s ⟨5, 11, 7, none, 0, none, false⟩) ∧ CleanDevice sF
    ∧ Holds { s0 with service := some ⟨1, 0, 0, none, 0, none, false⟩ } ⟨1, 0, 0, none, 0, none, false⟩ := by
  refine ⟨.cluster 32 0, .lane 11 8, ?_, by decide, by decide, ⟨by unfold NewInMap; decide, by unfold NewInMap; decide, .inr (.inl ⟨rfl, .inl rfl⟩),
    by unfold NewInMap; decide, by unfold NewInMap; decide⟩, fun p hp => (by cases hp), .inl ⟨launch0, List.mem_singleton.mpr rfl, by decide, .inl ⟨.inl rfl, by decide, by decide⟩⟩⟩
  intro o ho
  refine ⟨rfl, ?_, ?_, ?_, notHeld rfl rfl rfl rfl o⟩ <;> revert o <;> decide
/-- An operation that is over, with a result and without; the copy of a trace ring on its way. -/
theorem test_meets_ServiceOperations_ends : (let o : ServiceOp := ⟨1, 255, 0, some 100, 0, none, false⟩
      (sVO o).service = some o ∧ o.doneAt = some 100 ∧ 100 ≤ (sVO o).now ∧ o.sop = 1 ∧ o.result = 0)
    ∧ (let o : ServiceOp := ⟨7, 3, 1, some 100, 0, some (5, 9), false⟩
      o.sop = 7 ∧ o.image = some (5, 9) ∧ ({ o with result := 2 } : ServiceOp).result ≠ 0 ∧ Quiet (sVO o) ∧ OnlyStream { sVO o with streams := gangs.streams } 1)
    ∧ (let w : HostWrite := ⟨3, 0, 0x40, 4096, 9, none⟩
      let s := { sVO ⟨9, 255, 1, none, 0, none, false⟩ with hostWrites := [w] }
      s.hostWrites = w :: [] ∧ w.stream = none ∧ s.service = some ⟨9, 255, 1, none, 0, none, false⟩ ∧ s.hostMem.wf = true) := by
  refine ⟨⟨rfl, rfl, by decide, rfl, rfl⟩, ⟨rfl, rfl, by decide, quiet0 rfl, ⟨by decide, rfl, by decide⟩⟩, rfl, rfl, rfl, rfl⟩
/-- An image is accepted as its type, its signature and its SVN say; counters to raise, to 63 and past it; a report asked for and one that is due. -/
theorem test_meets_Security : ({ sF with svns := [(0, 9), (1, 63)] } : State).svns = [(0, 9)] ++ (1, 63) :: [] ∧ (∀ p ∈ ([(0, 9)] : List (Nat × Nat)), p.1 ≠ 1)
    ∧ (tget sF.rollback 0 1 < (63 : Word).toNat ∧ (63 : Word).toNat ≤ 63) ∧ ¬ ((64 : Word).toNat ≤ 63) ∧ sF.attStat / 2 % 2 = 0 ∧ (∀ p ∈ sF.svns, p.1 ≠ 1)
    ∧ (∀ n, sF.attDue = some n → sF.now < n) ∧ ({ sF with attStat := 2, attDue := some 100 } : State).attDue = some 100 ∧ 100 ≤ sF.now := by
  refine ⟨rfl, by decide, by decide, by decide, by decide, by decide, fun n h => (by cases h), rfl, by decide⟩
theorem test_meets_Security_image : let bs : List Byte := [0, 0, 0, 0, 1, 0, 5, 0]
    (Accepted sF 1 bs ↔ ed25519Verify Config.rootKey (bytesOf 64 (digestOf bs).toNat) (BitVec.ofNat 512 (bytesAt bs 128 64)) = true) ∧ ¬ Accepted sF 2 bs := by
  intro bs
  unfold Accepted
  generalize ed25519Verify _ _ _ = v
  exact ⟨⟨fun h => h.2.1, fun h => ⟨by decide, h, by decide⟩⟩, fun h => absurd h.1 (by decide)⟩
set_option exponentiation.threshold 600 in
set_option maxRecDepth 100000 in
/-- The digest of "abc" that FIPS 180-4's examples give, from its first byte on (log entry 6). -/
theorem test_sha512_abc : toBytes 8 (sha512 [0x61, 0x62, 0x63]).toNat = [0xdd, 0xaf, 0x35, 0xa1, 0x93, 0x61, 0x7a, 0xba] := by decide
/-- Fields of the registers the host reads, at the ends of their ranges. -/
theorem test_meets_Security_reads : sF.lock < 4 ∧ sF.stepF < 4 ∧ sF.stepNext < 4 ∧ sF.src < 16 ∧ sF.sres < 8 ∧ (sF.stream 3).prio < 4 := by decide

/-! Steps, encodings, invariants -/

/-- A bundle with three, two and one slots left; a reserved word; nothing in the latch: not booted, an input due, work of the tick, a cellar
engine due with a word and with a reserved one, nothing left; the end of a tick with a fault to take and with none. -/
def latch (l : List SlotName) (e : Entry) : State := { s0 with iss := { s0.iss with left := l, entry := e } }
def bare : State := { State.reset with now := 100, booted := true, channels := (List.range 256).map (fun c => (c, calm)) }
theorem test_meets_StepRuns_slots : ((latch [.va, .mx, .e] 0).iss.left = .va :: [.mx, .e] ∧ (decodeSlot .va (slotBits (latch [.va, .mx, .e] 0).iss.entry .va)).isOk = true)
    ∧ (latch [.mx, .e] 0).iss.left = .mx :: [.e] ∧ (latch [.e] 0).iss.left = .e :: []
    ∧ (decodeSlot .e (slotBits (latch [.e] (BitVec.allOnes 256)).iss.entry .e)).isOk = false := by decide
/-- The step of a slot that is a no-operation, from the words to the next state. -/
theorem test_meets_StepRuns_runs : decodeSlot .va (slotBits (latch [.va, .mx, .e] 0).iss.entry .va) = .ok (.nop .va)
    ∧ (∃ t, exec (.nop .va) (latch [.va, .mx, .e] 0) = .next t ∧ t.iss.left = [.va, .mx, .e]) := ⟨rfl, ⟨_, rfl, rfl⟩⟩
set_option maxRecDepth 100000 in
theorem test_meets_StepRuns_pick : State.reset.iss.left = [] ∧ State.reset.booted = false
    ∧ ({ bare with inputs := [(100, .thermalTrip)] } : State).inputNext = some (100, .thermalTrip)
    ∧ (bare.inputNext = none ∧ ({ bare with channels := [] } : State).inputNext = none) ∧ bare.counted = false
    ∧ ({ bare with counted := true } : State).counted = true := by decide
theorem test_meets_StepsKeepMemoriesCanonical : MemoriesCanonical s0 := ⟨canon rfl rfl, (by intro p hp; cases hp), rfl⟩
set_option maxRecDepth 100000 in
/-- Work of the tick, its end with a fault to take and with none, a cellar engine with a word that decodes and one that does not. -/
theorem test_meets_StepRuns_due : (let s := { s0 with iss := Issue.reset, channels := bare.channels }
      s.inputNext = none ∧ s.workNext.isSome = true ∧ s.counted = false)
    ∧ (let s := State.reset.withFetchWord 32 0x68000000
      s.inputNext = none ∧ s.workNext = none ∧ (s.cellarFirst.map (fun d => (d.2.1, d.2.2.cpc, d.2.2.count))) = some (0, 0, 0) ∧ decodeCellar 0x68000000 = .ok .ceEnd)
    ∧ (decodeCellar 0x70000000).isOk = false := by
  refine ⟨by decide, ⟨by decide, by decide, by decide, rfl⟩, by decide⟩
theorem test_meets_StepRuns_end : (let s := { s0 with iss := Issue.reset, counted := true }
      s.iss.left = [] ∧ s.counted = true ∧ (∀ p ∈ s.places, (s.ctx p.1 p.2).wrapDue = false) ∧ s.stopNext = none)
    ∧ ({ withCtx { ctx0 with stops := [(100, ⟨1, 1, 0, 0, 0⟩)] } with counted := true } : State).stopNext.isSome = true := by decide
/-- A term and its word, a word and its term, in the widest slot and of a cellar. -/
theorem test_meets_encodings : Instr.wf (.vmul .va ⟨0, 3, 0, 3, 1, 2, 0, 0⟩) = true ∧ encode (.vmul .va ⟨0, 3, 0, 3, 1, 2, 0, 0⟩) = some 0x019830880 ∧ 0x019830880 < 2 ^ slotWidth .va
    ∧ Instr.wf (.ceAld 0 2) = true ∧ encode (.ceAld 0 2) = some 0x30400000 ∧ isCellar (.ceAld 0 2) = true := by decide
/-- A context with the fault of a spoiled word to take. -/
theorem test_meets_StopsTaken_soft : let s := stOf { core0 with ctxs := [(0, { ctx0 with stops := [(100, ⟨34, 0, 0x208, 0, 0⟩)] })], bad := [⟨0, 0, 0x208, false⟩] }
    (s.ctx 0 0).lx ≠ 0 ∧ (s.ctx 0 0).bcast = 0 ∧ (s.ctx 0 0).service = none ∧ (s.ctx 0 0).preBy = 0 ∧ (s.ctx 0 0).stops = [(100, ⟨34, 0, 0x208, 0, 0⟩)]
    ∧ 100 ≤ s.now ∧ s.pauseTo ≤ s.now ∧ localPlace 0 (0x208 : Word).toNat = some (0, 0x208) ∧ ∀ e, (s.spad e).wf = true := by
  refine ⟨by decide, rfl, rfl, rfl, rfl, by decide, by decide, by decide, canon rfl rfl⟩
/-- A context with two faults to take, of which that of a spoiled word in a peer's scratchpad is not the one recorded. -/
theorem test_meets_StopsTaken_soft_other : let f : FaultRec := ⟨34, 0, 0x1200008, 0, 0⟩
    let k := { ctx0 with stops := [(100, ⟨8, 0, 12, 8, 0⟩), (100, f)] }
    k.lx ≠ 0 ∧ k.bcast = 0 ∧ k.service = none ∧ k.preBy = 0 ∧ (100, f) ∈ k.stops ∧ k.status ≠ .halted ∧ (∀ p ∈ k.stops, ¬ (p.2.code = 0 ∧ p.2.kind = 3))
    ∧ f.code = 34 ∧ f.info = 0 ∧ localPlace 0 f.addr.toNat = some (1, 8) ∧ ∀ e, ((withCtx k).spad e).wf = true :=
  ⟨by decide, rfl, rfl, rfl, by decide, by decide, by decide, rfl, rfl, by decide, canon rfl rfl⟩
/-- Types at the ends of the float types and of all types, elements of their widths; a generator register of each sort and finite parameters. -/
theorem test_meets_FloatArithmetic : ((1 : Nat) ≤ 1 ∧ (1 : Nat) ≤ 4 ∧ (4 : Nat) ≤ 4 ∧ (0 : Nat) < 1) ∧ ((12 : Nat) ≤ 12 ∧ 0xFF < 2 ^ tyWidth 0 ∧ 2 ^ 64 - 1 < 2 ^ tyWidth 12)
    ∧ (arrayType 3 = false ∧ arrayType 5 = true) ∧ (let e : BitVec 256 := BitVec.ofNat 256 (8 * 2 ^ 224); e.toNat / 2 ^ 224 % 16 ≤ 8 ∧ e.toNat / 2 ^ 230 = 0)
    ∧ (let e : BitVec 256 := BitVec.ofNat 256 (9 * 2 ^ 224); 8 < e.toNat / 2 ^ 224 % 16)
    ∧ patNaN fmtF 0x3F800000 = false ∧ patInf fmtF 0x3F800000 = false := by decide

/-! ## Values and steps that the spec works out -/

/-- R32: the worked decodes, and 0x22 and 0x11. -/
theorem test_td8_decodes : [0x00, 0x80, 0x01, 0x20, 0x40, 0x41, 0xC1, 0x5F, 0x60, 0x7E, 0x7F, 0x22, 0x11].map (fun b => fencode fmtF .rn (td8Decode b))
    = [(0, 0), (0x7FC00000, 0), (0x358637BD, flNX), (0x3DCCCCCD, flNX), (0x3F800000, 0), (0x3FA40000, 0), (0xBFA40000, 0), (0x411B8000, 0), (0x41200000, 0),
      (0x47C35000, 0), (0x49742400, 0), (0x3E200000, 0), (0x3C800000, 0)] := by decide
/-- R33: the worked encodes. -/
theorem test_td8_encodes : [(3, 1), (73, 64), (550000, 1), (-4, 10000000), (-2000000, 1)].map (fun (q : Int × Nat) => td8Encode .rn (fvOfQ ⟨q.1, q.2⟩))
    = [(0x47, flNX), (0x40, flNX), (0x7E, flNX), (0x00, flUF ||| flNX), (0xFF, flOF ||| flNX)] := by decide
/-- R42, R251: the worked word of the generated matrix, and the signs of its other rows and columns. -/
theorem test_mix : mix 2 0 34 1 = 0x1A8A6BDC ∧ (mix 2 0 0 0).getLsbD 31 = false ∧ (mix 2 0 34 0).getLsbD 31 = true ∧ (mix 2 0 0 1).getLsbD 31 = false := by decide
/-- R48 to R50: the worked column, its exact segment sum and its scaled segment. -/
theorem test_worked_column : segment [(arrDecode 0 0x60, arrDecode 0 0x41), (arrDecode 0 0x41, arrDecode 0 0x40)] = (0x41618000, 0)
    ∧ fMul fmtF .rn (fdecode fmtF 0x41618000) (fdecode fmtF (rnF (qPow10 1))) = (0x430CF000, 0) := by decide
set_option maxRecDepth 100000 in
/-- R204, R205: the worked translation, and the page past LIMITP. -/
theorem test_worked_translation : let l : Launch := { launch0 with desc := [7, 0, 0, 0, 0, 0, 0xF00], ranges := [[0x4000000, 0x40000FF, 0x100000, 0x301]] }
    (s0.xlate l 0x4000001A40 false).map (fun p => (p.tier, p.ch, p.bank, p.byte)) = some (0, 10, 6, 0x2040) ∧ (s0.xlate l 0x4000100000 false) = none := by decide
/-- The results an instruction sends on their way: when each lands, where, and its low 64 bits. -/
def sent (i : Instr) (s : State) : List (Nat × Dest × Nat) := match exec i s with
  | .next t => t.cur.flights.map (fun (f : Flight) => (f.land, f.dest, f.value.toNat % 2 ^ 64))
  | _ => []
def pushed (i : Instr) (s : State) : List Nat := match exec i s with
  | .next t => [t.cur.aqocc]
  | _ => []
/-- R18, R20, R80: the worked timing. The product of 6 and 7 lands three ticks later in the slices of SA and SB and in the latch of SA. -/
theorem test_mul_lands : sent (.mul .sa 0 ⟨3, 1⟩ 1 2) (withCtx { ctx0 with g := [(1, 6), (2, 7), (3, 10)] })
    = [(103, .slice 0x03 3, 42), (103, .latch 0, 42)] := by decide
/-- R136: the worked steps of a cadvp, that pushes two records and that pushes none. -/
def pairState (k : Word) : State := withCtx { ctx0 with g := [(65, 0x0000200000003000), (66, k)] }
theorem test_cadvp_lands : sent (.cadvp 0 ⟨1, 0⟩ 1 2) (pairState 0x0000001100000011) = [(102, .slice 0x10 1, 0x0000200800003008), (102, .latch 4, 0x0000200800003008)]
    ∧ sent (.cadvp 0 ⟨1, 0⟩ 1 2) (pairState 0x0000001100000014) = [(102, .slice 0x10 1, 0x0000200800003000), (102, .latch 4, 0x0000200800003000)] := by decide
theorem test_cadvp_pushes : pushed (.cadvp 0 ⟨1, 0⟩ 1 2) (pairState 0x0000001100000011) = [2] ∧ pushed (.cadvp 0 ⟨1, 0⟩ 1 2) (pairState 0x0000001100000014) = [0] := by decide
set_option maxRecDepth 100000 in
/-- R299 to R301: a cellar word at CPC is what the next step runs: J3 takes the offset, CPC counts on. -/
theorem test_step_cellar : (match step (State.reset.withFetchWord 32 0x0B000003) with
    | .next t => some (jv (t.channel 0 0).cellar 3, (t.channel 0 0).cellar.cpc)
    | _ => none) = some (3, 1) := by decide
set_option maxRecDepth 100000 in
/-- R54, R60: a memory word placed in the latch is what the next step runs, after which the bundle is over. -/
theorem test_step_memory : (match step (s0.withFetchWord 24 0x75041) with
    | .next t => some t.iss.left
    | _ => none) = some [] := by decide

end Sys2Proof.Tests
end

/-! Slots whose tags skip them, the destinations of a scalar result, what a step runs, and the machine at reset. -/

namespace Sys2Proof.Machine

open Sys2Proof.Claims

/-! ## Slots and their tags -/

/-- Every form that belongs to a slot answers through `guarded`, whatever its effect is. -/
theorem exec_slot_guarded (i : Instr) (s : State) (h : (slotOf i).isSome = true) : ∃ e, exec i s = guarded i s e := by
  cases i <;> cases h <;> simp only [exec] <;> exact ⟨_, rfl⟩

/-- Settles O30: every slot form answers through `guarded`, which leaves the state as it is where the tag names another outcome. -/
theorem skippedSlots : Obligations.SkippedSlots := by
  unfold Obligations.SkippedSlots
  intro i s hslot htag hout
  obtain ⟨e, he⟩ := exec_slot_guarded i s hslot
  rw [he]
  exact guarded_skips e (by simpa [slotRuns, hout] using htag)

/-! ## Where a scalar result lands (R20) -/

/-- The bits of the five slice codes. -/
theorem slices_getLsbD {j : Nat} (hj : j < 5) : sliceSA.getLsbD j = decide (j = 0) ∧ sliceSB.getLsbD j = decide (j = 1)
    ∧ sliceMA.getLsbD j = decide (j = 2) ∧ sliceMB.getLsbD j = decide (j = 3) ∧ sliceX.getLsbD j = decide (j = 4)
    ∧ (31#5).getLsbD j = true := by
  interval_cases j <;> decide

theorem ownSlice_getLsbD (u : SlotName) {j : Nat} (hj : j < 5) : (ownSlice u).getLsbD j = true ↔ ownSliceNo u = some j := by
  obtain ⟨h0, h1, h2, h3, h4, -⟩ := slices_getLsbD hj
  cases u <;> simp [ownSlice, ownSliceNo, h0, h1, h2, h3, h4, eq_comm]

/-- The slices a copy code names, bit by bit. -/
theorem copySlices_getLsbD (u : SlotName) (c : BitVec 3) {j : Nat} (hj : j < 5) :
    (copySlices (ownSlice u) c).getLsbD j = true ↔ Receives c.toNat u j := by
  obtain ⟨h0, h1, h2, h3, h4, h5⟩ := slices_getLsbD hj
  have hc : c.toNat < 8 := c.isLt
  unfold copySlices Receives
  generalize c.toNat = n at hc
  interval_cases n <;> simp only [BitVec.getLsbD_or, Bool.or_eq_true, decide_eq_true_eq, ownSlice_getLsbD u hj, h0, h1, h2, h3, h4,
    or_assoc]
  · exact or_congr_right (by omega)
  · simpa [h5] using hj
  · simp

/-- A set of slices is known by its bits. -/
theorem eq_copySlices_iff (u : SlotName) (c : BitVec 3) (sl : BitVec 5) :
    sl = copySlices (ownSlice u) c ↔ ∀ j, j < 5 → (sl.getLsbD j = true ↔ Receives c.toNat u j) := by
  constructor
  · rintro rfl j hj
    exact copySlices_getLsbD u c hj
  · intro h
    refine BitVec.eq_of_getLsbD_eq fun j hj => ?_
    rw [Bool.eq_iff_iff, h j hj, copySlices_getLsbD u c hj]

/-- The latch of a unit: that of C is 5, another's the number of its slice. -/
theorem latchOf_eq_some_iff (u : SlotName) (l : Nat) : latchOf u = some l ↔ u = .c ∧ l = 5 ∨ ownSliceNo u = some l := by
  cases u <;> simp [latchOf, ownSliceNo, eq_comm]

/-- A result in flight of a scalar value, by its fields. -/
theorem eq_flight_iff (s : State) (lat : Nat) (d : Dest) (v : Word) (f : Flight) :
    f = s.flight lat 0 d (v.setWidth 1024) (lowMask 64) 0 ↔
      f.fid = 0 ∧ f.issued = s.now ∧ f.land = s.now + lat ∧ f.src = 1 ∧ f.value = BitVec.ofNat 1024 v.toNat
      ∧ f.mask = BitVec.ofNat 1024 (2 ^ 64 - 1) ∧ f.flags = 0 ∧ f.dest = d := by
  obtain ⟨fid, issued, land, src, dest, value, mask, flags⟩ := f
  simp only [State.flight, lowMask, Flight.mk.injEq, BitVec.ofNat_toNat]
  tauto

/-- The results of a scalar form, one by one. -/
theorem mem_scalarFlights (s : State) (u : SlotName) (d : Dst) (lat : Nat) (v : Word) (f : Flight) :
    f ∈ scalarFlights s u d lat 0 v ↔ ∃ e, f = s.flight lat 0 e (v.setWidth 1024) (lowMask 64) 0 ∧
      (copySlices (ownSlice u) d.copy ≠ 0 ∧ e = .slice (copySlices (ownSlice u) d.copy) d.idx.toNat
        ∨ d.copy = 7 ∧ e = .vs ∨ ∃ l, latchOf u = some l ∧ e = .latch l) := by
  have ite_nil (p : Prop) [Decidable p] (g : Flight) : (f ∈ if p then [] else [g]) ↔ ¬ p ∧ f = g := by split <;> simp [*]
  have ite_one (p : Prop) [Decidable p] (g : Flight) : (f ∈ if p then [g] else []) ↔ p ∧ f = g := by split <;> simp [*]
  unfold scalarFlights
  simp only [List.mem_append, ite_nil, ite_one]
  cases hl : latchOf u
  case' none => simp only [List.not_mem_nil, or_false, reduceCtorEq, false_and, exists_false]
  case' some l => simp only [List.mem_singleton, Option.some.injEq, exists_eq_left']
  all_goals
    simp only [and_or_left, exists_or, and_left_comm (b := _ ≠ _), and_left_comm (b := d.copy = 7), exists_and_left, exists_eq_right, or_assoc, ne_eq]

/-- Settles O1: each result of a scalar form is one of a slice set, VS or the unit's latch, with the fields they share. -/
theorem scalarDestinations : Obligations.ScalarDestinations := by
  unfold Obligations.ScalarDestinations
  intro s u d lat v f
  rw [mem_scalarFlights]
  simp only [eq_flight_iff, latchOf_eq_some_iff]
  constructor
  · rintro ⟨e, ⟨h1, h2, h3, h4, h5, h6, h7, rfl⟩, he⟩
    refine ⟨h1, h2, h3, h4, h5, h6, h7, ?_⟩
    rcases he with ⟨h0, he⟩ | ⟨hc, he⟩ | ⟨l, hl, he⟩
    · exact .inl ⟨_, h0, he, (eq_copySlices_iff u d.copy _).mp rfl⟩
    · exact .inr (.inl ⟨hc, he⟩)
    · exact .inr (.inr ⟨l, he, hl⟩)
  · rintro ⟨h1, h2, h3, h4, h5, h6, h7, he⟩
    refine ⟨f.dest, ⟨h1, h2, h3, h4, h5, h6, h7, rfl⟩, ?_⟩
    rcases he with ⟨sl, h0, he, hj⟩ | ⟨hc, he⟩ | ⟨l, he, hl⟩
    · obtain rfl := (eq_copySlices_iff u d.copy sl).mpr hj
      exact .inl ⟨h0, he⟩
    · exact .inr (.inl ⟨hc, he⟩)
    · exact .inr (.inr ⟨l, hl, he⟩)

/-! ## What a step runs (R12, R56, R297, R308) -/

theorem step_slot {s : State} {u : SlotName} {r : List SlotName} (h : s.iss.left = u :: r) : step s = stepSlot u s := by
  simp only [step, h]

theorem step_empty {s : State} (h : s.iss.left = []) : step s = stepPick s.pick := by
  simp only [step, h]

theorem stepSlot_ok {s t : State} {u : SlotName} {i : Instr} (hd : decodeSlot u (slotBits s.iss.entry u) = .ok i)
    (he : exec i s = .next t) : stepSlot u s = .next t.retire := by
  simp [stepSlot, hd, toOpt, he]

theorem stepSlot_error {s : State} {u : SlotName} {e : Reject} (hd : decodeSlot u (slotBits s.iss.entry u) = .error e) :
    stepSlot u s = .fault .reservedSlot := by
  simp [stepSlot, hd, toOpt]

/-- With nothing else in the tick, a due cellar engine runs the word at CPC, or stops past the end of its program. -/
theorem cellarPick_cases (s : State) (m : Cmd) (ch : Nat) (e : Cellar) :
    (128 ≤ e.cpc ∨ 2 ^ 24 ≤ e.count → s.cellarPick (m, ch, e) = .event (.cellarLaunch m.id) s)
    ∧ (e.cpc < 128 → e.count < 2 ^ 24 →
      (∀ i, decodeCellar (tget e.prog 0 e.cpc).toNat = .ok i → s.cellarPick (m, ch, e) = .event i { s with ceCh := ch })
      ∧ ∀ x, decodeCellar (tget e.prog 0 e.cpc).toNat = .error x → s.cellarPick (m, ch, e) = .stuck) := by
  unfold State.cellarPick
  refine ⟨fun h => if_pos h, fun hp hc => ?_⟩
  rw [if_neg (show ¬ (128 ≤ e.cpc ∨ 2 ^ 24 ≤ e.count) by omega)]
  exact ⟨fun i hi => by rw [hi]; rfl, fun x hx => by rw [hx]; rfl⟩

section
variable {s : State} (hb : s.booted = true)
include hb

theorem pick_input (hc : s.counted = false) {p : Nat × Instr} (hi : s.inputNext = some p) :
    s.pick = .event p.2 { s with inputs := dropEq p s.inputs } := by
  simp [State.pick, hb, hc, hi]

theorem pick_early (hc : s.counted = false) (hi : s.inputNext = none) (he : s.earlyDue = true) :
    s.pick = .own (s.performWhere s.readsEarly) := by
  simp [State.pick, hb, hc, hi, he]

theorem pick_work (hc : s.counted = false) (hi : s.inputNext = none) (he : s.earlyDue = false) {i : Instr}
    (hw : s.workNext = some i) : s.pick = .event i s := by
  simp [State.pick, hb, hc, hi, he, hw]

theorem pick_cellar (hc : s.counted = false) (hi : s.inputNext = none) (he : s.earlyDue = false) (hw : s.workNext = none)
    {d : Cmd × Nat × Cellar} (hf : s.cellarFirst = some d) : s.pick = s.cellarPick d := by
  simp [State.pick, hb, hc, hi, he, hw, hf]

theorem pick_count (hc : s.counted = false) (hi : s.inputNext = none) (he : s.earlyDue = false) (hw : s.workNext = none)
    (hf : s.cellarFirst = none) : s.pick = .own s.countWaits := by
  simp [State.pick, hb, hc, hi, he, hw, hf]

theorem pick_stop (hc : s.counted = true) (hw : ∀ p ∈ s.places, (s.ctx p.1 p.2).wrapDue = false) {i : Instr}
    (hs : s.stopNext = some i) : s.pick = .event i s := by
  have hf : s.places.find? (fun p => (s.ctx p.1 p.2).wrapDue) = none := by simpa using hw
  simp [State.pick, hb, hc, hf, hs]

theorem pick_end (hc : s.counted = true) (hw : ∀ p ∈ s.places, (s.ctx p.1 p.2).wrapDue = false) (hs : s.stopNext = none) :
    s.pick = s.endNext := by
  have hf : s.places.find? (fun p => (s.ctx p.1 p.2).wrapDue) = none := by simpa using hw
  simp [State.pick, hb, hc, hf, hs]

end

/-- Settles O53: `step` unfolded along the latch, and `pick` along what the tick brings. -/
theorem stepRuns : Obligations.StepRuns := by
  unfold Obligations.StepRuns
  refine ⟨fun s t u r i hl hd he => ?_, fun s u r e hl hd => ?_, fun s hl hb => ?_, fun s hl hb hc => ?_, fun s hl hb hc hw => ?_⟩
  · rw [step_slot hl, stepSlot_ok hd he]
    refine ⟨rfl, fun h => ?_, fun a h => ?_, fun a b l h => ?_⟩ <;> simp [State.retire, h]
  · rw [step_slot hl, stepSlot_error hd]
  · rw [step_empty hl]
    simp [State.pick, hb, stepPick]
  · rw [step_empty hl]
    refine ⟨fun n i hi => by rw [pick_input hb hc hi]; rfl, fun hi he => by rw [pick_early hb hc hi he]; rfl, fun hi he => ?_⟩
    refine ⟨fun i hw => by rw [pick_work hb hc hi he hw]; rfl, fun hw m ch e hf => ?_,
      fun hw hf => by rw [pick_count hb hc hi he hw hf]; rfl⟩
    rw [pick_cellar hb hc hi he hw hf]
    obtain ⟨hstop, hrun⟩ := cellarPick_cases s m ch e
    refine ⟨fun h => by rw [hstop h]; rfl, fun hp hn => ?_⟩
    obtain ⟨hok, herr⟩ := hrun hp hn
    exact ⟨fun i hi => by rw [hok i hi]; rfl, fun x hx => by rw [herr x hx]; rfl⟩
  · rw [step_empty hl]
    exact ⟨fun i hi => by rw [pick_stop hb hc hw hi]; rfl, fun hs i t ht => by rw [pick_end hb hc hw hs, ht]; rfl,
      fun hs t ht => by rw [pick_end hb hc hw hs, ht]; rfl⟩

/-! ## Reset (R28, R45, R88, R119, R145 to R148, R157, R179, R195, R197, R255, R287 to R292, R297, R324, R338) -/

theorem reset_core (c : Nat) : State.reset.core c = Core.reset := rfl
theorem reset_ctx (c x : Nat) : State.reset.ctx c x = Ctx.reset := rfl
theorem reset_stream (q : Nat) : State.reset.stream q = Stream.reset q := rfl
theorem reset_channel (t c : Nat) : State.reset.channel t c = Channel.reset t := rfl

/-- Settles O57: at reset no core, channel or stream is listed, so that each is its reset value. -/
theorem resetValues : Obligations.ResetValues := by
  unfold Obligations.ResetValues
  refine ⟨fun c x i => ?_, fun c i => ?_, fun c => ⟨rfl, rfl, fun t => ?_⟩, fun q => ?_, ?_⟩
  · simp only [reset_ctx, Ctx.reset, tget_nil, and_self]
  · simp only [reset_core, Core.reset, ArrayState.reset, tget_nil, and_self, and_true]
    decide
  · rw [reset_channel]
    exact ⟨rfl, rfl, rfl, rfl, rfl, rfl, rfl⟩
  · rw [reset_stream]
    exact ⟨rfl, rfl, rfl, rfl, rfl, rfl⟩
  · exact ⟨rfl, rfl, rfl, rfl, rfl, rfl, rfl, rfl, rfl, rfl, rfl⟩

end Sys2Proof.Machine

namespace Sys2Proof.Machine

open Sys2Proof.Claims

/-! ## A stop of code 13 and kind 2 (R268, R269, R275) -/

/-- The launch of the counterexample: stream 0, context 0 of core 0. -/
def portLaunch : Launch where
  lx := 1
  stream := 0
  prio := 0
  descAt := 0
  desc := []
  ranges := []
  pages := []
  admitAt := 0
  start := 0
  phase := 2
  order := 0
  p15 := false
  isRetry := false
  refusal := 0
  shut := 0
  taken := 0
  wantRetry := false
  confirmed := []
  victim := 0
  plans := []

/-- The port-reservation fault that a peer store meets in a scrub, as `State.writeAccess` makes it: kind 2. -/
def portFault : FaultRec := ⟨13, 2, 0, 0, 0⟩

/-- A context whose one due stop is that fault. -/
def portCtx : Ctx := { Ctx.reset with status := .issuing, lx := 1, stops := [(0, portFault)] }

/-- The module in which it is taken. -/
def portState : State :=
  { State.reset with cores := [(0, { Core.reset with ctxs := [(0, portCtx)] })], launches := [portLaunch] }

/-- The service that follows resumes the context: `actionOf` kills on code 13 of kind 1 alone. -/
theorem portState_service : ∃ t, exec (.faultStop 0 0) portState = .next t
    ∧ (t.ctx 0 0).service = some ⟨0, 0, 512, 0, 13, none⟩ :=
  ⟨_, rfl, by decide⟩

/-- Refutes O32: of a stop of code 13 and kind 2 the statement's `actionCode` makes a kill, where the model's `actionOf` resumes. -/
theorem not_stopsTaken : ¬ Obligations.StopsTaken := by
  unfold Obligations.StopsTaken Claims.StopsTaken
  rintro ⟨⟨taken, -⟩, -⟩
  obtain ⟨t, ht, -, -, hservice, -⟩ := taken portState 0 0 0 portFault portLaunch (by decide) rfl rfl rfl rfl (Nat.le_refl 0) rfl
    (Nat.le_refl 0) (by decide) (by decide) (by decide) (by decide)
  obtain ⟨u, hu, hresumes⟩ := portState_service
  obtain rfl : t = u := Host.Outcome.next.inj (ht.symm.trans hu)
  exact absurd (hservice.symm.trans hresumes) (by decide)

end Sys2Proof.Machine

/-! Results and window stores that land: the order of landings, what one changes, and what it leaves (R18 to R23, R47, R74, R75, R146). -/

namespace Sys2Proof.Machine

open Sys2Proof.Claims

/-! ## The first of a list by an order -/

/-- One step of a search for the first element by an order `lt` among those that satisfy `ok`. -/
def keepFirst {α : Type} (lt : α → α → Prop) [DecidableRel lt] (ok : α → Prop) [DecidablePred ok] (best : Option α) (a : α) : Option α :=
  if ok a then (match best with
    | none => some a
    | some b => if lt a b then some a else some b) else best

section
variable {α : Type} {lt : α → α → Prop}

/-- An order in which not being before is transitive, and of two elements one is not before the other. -/
structure FirstOrder (lt : α → α → Prop) : Prop where
  trans : ∀ a b c, ¬ lt a b → ¬ lt b c → ¬ lt a c
  asymm : ∀ a b, lt a b → ¬ lt b a

theorem FirstOrder.irrefl (h : FirstOrder lt) (a : α) : ¬ lt a a := fun haa => h.asymm a a haa haa

variable [DecidableRel lt] {ok : α → Prop} [DecidablePred ok]

/-- A search that began with an element has one at its end. -/
theorem foldl_keepFirst_some (l : List α) (b : α) : ∃ a, l.foldl (keepFirst lt ok) (some b) = some a := by
  induction l generalizing b with
  | nil => exact ⟨b, rfl⟩
  | cons x xs ih =>
    simp only [List.foldl_cons, keepFirst]
    split
    · split <;> exact ih _
    · exact ih _

/-- A search finds an element where there is one. -/
theorem foldl_keepFirst_isSome {l : List α} (h : ∃ a ∈ l, ok a) : ∃ a, l.foldl (keepFirst lt ok) none = some a := by
  induction l with
  | nil => obtain ⟨a, ha, -⟩ := h; cases ha
  | cons x xs ih =>
    by_cases hx : ok x
    · simpa [keepFirst, hx] using foldl_keepFirst_some xs x
    · obtain ⟨a, ha, hok⟩ := h
      obtain rfl | ha := List.mem_cons.mp ha
      · exact absurd hok hx
      · simpa [keepFirst, hx] using ih ⟨a, ha, hok⟩

/-- What a search that began with `b` finds stands before all it has seen. -/
theorem foldl_keepFirst_before (h : FirstOrder lt) {l : List α} {b a : α} (e : l.foldl (keepFirst lt ok) (some b) = some a) :
    (a = b ∨ a ∈ l ∧ ok a) ∧ ¬ lt b a ∧ ∀ x ∈ l, ok x → ¬ lt x a := by
  induction l generalizing b with
  | nil =>
    obtain rfl : b = a := Option.some.inj e
    exact ⟨.inl rfl, h.irrefl b, fun x hx => by cases hx⟩
  | cons y ys ih =>
    simp only [List.foldl_cons, keepFirst] at e
    by_cases hy : ok y
    · by_cases hlt : lt y b
      · simp only [hy, hlt, if_true] at e
        obtain ⟨hmem, hya, hall⟩ := ih e
        refine ⟨.inr ?_, h.trans _ _ _ (h.asymm _ _ hlt) hya, fun x hx hok => ?_⟩
        · obtain rfl | ⟨hmem, hok⟩ := hmem
          · exact ⟨List.mem_cons_self, hy⟩
          · exact ⟨List.mem_cons_of_mem _ hmem, hok⟩
        · obtain rfl | hx := List.mem_cons.mp hx
          · exact hya
          · exact hall x hx hok
      · simp only [hy, hlt, if_true, if_false] at e
        obtain ⟨hmem, hba, hall⟩ := ih e
        refine ⟨hmem.imp_right fun ⟨hm, hok⟩ => ⟨List.mem_cons_of_mem _ hm, hok⟩, hba, fun x hx hok => ?_⟩
        obtain rfl | hx := List.mem_cons.mp hx
        · exact h.trans _ _ _ hlt hba
        · exact hall x hx hok
    · simp only [hy, if_false] at e
      obtain ⟨hmem, hba, hall⟩ := ih e
      refine ⟨hmem.imp_right fun ⟨hm, hok⟩ => ⟨List.mem_cons_of_mem _ hm, hok⟩, hba, fun x hx hok => ?_⟩
      obtain rfl | hx := List.mem_cons.mp hx
      · exact absurd hok hy
      · exact hall x hx hok

/-- What a search finds is of the list, satisfies `ok`, and nothing that does stands before it. -/
theorem foldl_keepFirst_spec (h : FirstOrder lt) {l : List α} {a : α} (e : l.foldl (keepFirst lt ok) none = some a) :
    a ∈ l ∧ ok a ∧ ∀ x ∈ l, ok x → ¬ lt x a := by
  induction l with
  | nil => cases e
  | cons y ys ih =>
    simp only [List.foldl_cons, keepFirst] at e
    by_cases hy : ok y
    · simp only [hy, if_true] at e
      obtain ⟨hmem, hya, hall⟩ := foldl_keepFirst_before h e
      refine ⟨?_, ?_, fun x hx hok => ?_⟩
      · obtain rfl | ⟨hm, -⟩ := hmem
        · exact List.mem_cons_self
        · exact List.mem_cons_of_mem _ hm
      · obtain rfl | ⟨-, hok⟩ := hmem
        · exact hy
        · exact hok
      · obtain rfl | hx := List.mem_cons.mp hx
        · exact hya
        · exact hall x hx hok
    · simp only [hy, if_false] at e
      obtain ⟨hmem, hok, hall⟩ := ih e
      refine ⟨List.mem_cons_of_mem _ hmem, hok, fun x hx hokx => ?_⟩
      obtain rfl | hx := List.mem_cons.mp hx
      · exact absurd hokx hy
      · exact hall x hx hokx

end

/-! ## The order of landings in a tick (R22, R47) -/

/-- 0 for a write of FMT, which lands before all else. -/
def fmtFirst (f : Flight) : Nat := if f.dest = .fmt then 0 else 1

theorem landBefore_iff (f g : Flight) : landBefore f g = true ↔
    fmtFirst f < fmtFirst g ∨ fmtFirst f = fmtFirst g ∧ (f.issued < g.issued ∨ f.issued = g.issued ∧ f.src < g.src) := by
  unfold landBefore
  change (if fmtFirst f ≠ fmtFirst g then decide (fmtFirst f < fmtFirst g)
    else if f.issued ≠ g.issued then decide (f.issued < g.issued) else decide (f.src < g.src)) = true ↔ _
  split
  · rw [decide_eq_true_eq]; omega
  · split <;> rw [decide_eq_true_eq] <;> omega

theorem landBefore_order : FirstOrder (fun f g => landBefore f g = true) where
  trans a b c := by simp only [landBefore_iff]; omega
  asymm a b := by simp only [landBefore_iff]; omega

/-- What does not stand after another is a write of FMT if that is one, else no later in its issue. -/
theorem fmt_or_issued_of_not_landBefore {f g : Flight} (h : ¬ landBefore g f = true) :
    (g.dest = .fmt → f.dest = .fmt) ∧ (f.dest ≠ .fmt → f.issued ≤ g.issued) := by
  rw [landBefore_iff] at h
  unfold fmtFirst at h
  split at h <;> split at h <;> simp_all

theorem firstFlight_eq (ok : Flight → Bool) (fs : List Flight) :
    firstFlight ok fs = fs.foldl (keepFirst (fun f g => landBefore f g = true) (fun f => ok f = true)) none := by
  unfold firstFlight
  congr 1
  funext best f
  cases best <;> rfl

theorem dueFlight_isSome {k : Ctx} {now : Nat} {ok : Flight → Bool} (h : ∃ g ∈ k.flights, g.land ≤ now ∧ ok g = true) :
    ∃ f, k.dueFlight now ok = some f := by
  rw [Ctx.dueFlight, firstFlight_eq]
  refine foldl_keepFirst_isSome ?_
  obtain ⟨g, hg, hl, hok⟩ := h
  exact ⟨g, hg, by simp [hl, hok]⟩

/-- The flight due that lands first. -/
theorem dueFlight_spec {k : Ctx} {now : Nat} {ok : Flight → Bool} {f : Flight} (h : k.dueFlight now ok = some f) :
    f ∈ k.flights ∧ f.land ≤ now ∧ ok f = true ∧ ∀ g ∈ k.flights, g.land ≤ now → ok g = true → ¬ landBefore g f = true := by
  rw [Ctx.dueFlight, firstFlight_eq] at h
  obtain ⟨hmem, hok, hall⟩ := foldl_keepFirst_spec landBefore_order h
  simp only [Bool.and_eq_true, decide_eq_true_eq, and_imp] at hok hall
  exact ⟨hmem, hok.1, hok.2, hall⟩

/-- One step of the search through the contexts of a core. -/
theorem dueOf_append_singleton (s : State) (c : Nat) (ok : Flight → Bool) (xs : List Nat) (x : Nat) :
    s.dueOf c ok (xs ++ [x]) = match (s.ctx c x).dueFlight s.now ok, s.dueOf c ok xs with
      | none, b => b
      | some f, none => some (x, f)
      | some f, some b => if landBefore f b.2 then some (x, f) else some b := by
  rw [State.dueOf, List.foldl_append]
  rfl

/-- Of the contexts of a core, the flight that lands first: where one is due there is one, and it is the first of all. -/
theorem dueOf_spec (s : State) (c : Nat) (ok : Flight → Bool) (xs : List Nat) :
    (s.dueOf c ok xs = none → ∀ z ∈ xs, ∀ g ∈ (s.ctx c z).flights, g.land ≤ s.now → ok g = false)
    ∧ ∀ x f, s.dueOf c ok xs = some (x, f) → x ∈ xs ∧ f ∈ (s.ctx c x).flights ∧ f.land ≤ s.now ∧ ok f = true
      ∧ ∀ z ∈ xs, ∀ g ∈ (s.ctx c z).flights, g.land ≤ s.now → ok g = true → ¬ landBefore g f = true := by
  induction xs using List.reverseRecOn with
  | nil => exact ⟨fun _ z hz => (by cases hz), fun x f h => (by cases h)⟩
  | append_singleton ys y ih =>
    obtain ⟨ihnone, ihsome⟩ := ih
    rw [dueOf_append_singleton]
    cases hy : (s.ctx c y).dueFlight s.now ok with
    | none =>
      have none_due : ∀ g ∈ (s.ctx c y).flights, g.land ≤ s.now → ok g = false := fun g hg hl => by
        by_contra hok
        obtain ⟨f, hf⟩ := dueFlight_isSome ⟨g, hg, hl, eq_true_of_ne_false hok⟩
        rw [hy] at hf
        cases hf
      simp only [List.mem_append, List.mem_singleton]
      refine ⟨fun h z hz => ?_, fun x f h => ?_⟩
      · obtain hz | rfl := hz
        · exact ihnone h z hz
        · exact none_due
      · obtain ⟨hx, hf, hl, hok, hall⟩ := ihsome x f h
        refine ⟨.inl hx, hf, hl, hok, fun z hz g hg hgl hgok => ?_⟩
        obtain hz | rfl := hz
        · exact hall z hz g hg hgl hgok
        · exact absurd hgok (by simp [none_due g hg hgl])
    | some fy =>
      obtain ⟨hfy, hly, hoky, hally⟩ := dueFlight_spec hy
      simp only [List.mem_append, List.mem_singleton]
      cases hys : s.dueOf c ok ys with
      | none =>
        refine ⟨fun h => by simp at h, fun x f h => ?_⟩
        obtain ⟨rfl, rfl⟩ := Prod.mk.inj (Option.some.inj h)
        refine ⟨.inr rfl, hfy, hly, hoky, fun z hz g hg hgl hgok => ?_⟩
        obtain hz | rfl := hz
        · exact absurd hgok (by simp [ihnone hys z hz g hg hgl])
        · exact hally g hg hgl hgok
      | some b =>
        obtain ⟨hb, hfb, hlb, hokb, hallb⟩ := ihsome b.1 b.2 hys
        refine ⟨fun h => ?_, fun x f h => ?_⟩
        · simp only at h
          split at h <;> cases h
        simp only at h
        split at h
        next hlt =>
          obtain ⟨rfl, rfl⟩ := Prod.mk.inj (Option.some.inj h)
          refine ⟨.inr rfl, hfy, hly, hoky, fun z hz g hg hgl hgok => ?_⟩
          obtain hz | rfl := hz
          · exact landBefore_order.trans _ _ _ (hallb z hz g hg hgl hgok) (landBefore_order.asymm _ _ hlt)
          · exact hally g hg hgl hgok
        next hlt =>
          obtain rfl := Option.some.inj h
          refine ⟨.inl hb, hfb, hlb, hokb, fun z hz g hg hgl hgok => ?_⟩
          obtain hz | rfl := hz
          · exact hallb z hz g hg hgl hgok
          · exact landBefore_order.trans _ _ _ (hally g hg hgl hgok) hlt

/-- In a tick with a flight due among contexts of a core, one lands, before which none comes. -/
theorem landKind_lands {s : State} {c : Nat} {ok : Flight → Bool} {xs : List Nat}
    (h : ∃ z ∈ xs, ∃ g ∈ (s.ctx c z).flights, g.land ≤ s.now ∧ ok g = true) :
    ∃ x ∈ xs, ∃ f ∈ (s.ctx c x).flights, f.land ≤ s.now ∧ ok f = true ∧ s.landKind c ok xs = s.landFlight c x f
      ∧ ∀ z ∈ xs, ∀ g ∈ (s.ctx c z).flights, g.land ≤ s.now → ok g = true → ¬ landBefore g f = true := by
  obtain ⟨hnone, hsome⟩ := dueOf_spec s c ok xs
  cases hd : s.dueOf c ok xs with
  | none =>
    obtain ⟨z, hz, g, hg, hl, hok⟩ := h
    exact absurd hok (by simp [hnone hd z hz g hg hl])
  | some b =>
    obtain ⟨hx, hf, hl, hok, hall⟩ := hsome b.1 b.2 hd
    exact ⟨b.1, hx, b.2, hf, hl, hok, by simp [State.landKind, hd], hall⟩

/-! ## What a landing changes (R18, R20, R23, R145 to R149) -/

theorem dropFlight_without {f : Flight} {fs : List Flight} (h : f ∈ fs) : Without fs (dropFlight f fs) f (fun g => g = f) := by
  induction fs with
  | nil => cases h
  | cons g r ih =>
    by_cases hg : g = f
    · subst hg
      exact ⟨[], r, rfl, by simp [dropFlight], fun x hx => by cases hx⟩
    · obtain ⟨a, b, rfl, hd, hbad⟩ := ih ((List.mem_cons.mp h).resolve_left (fun e => hg e.symm))
      refine ⟨g :: a, b, rfl, by simp [dropFlight, hg, hd], fun x hx => ?_⟩
      obtain rfl | hx := List.mem_cons.mp hx
      · exact hg
      · exact hbad x hx

theorem merge_masked {n : Nat} (old new mask : BitVec n) : Masked old new mask (merge old new mask) := by
  intro b hb
  simp only [merge, BitVec.getLsbD_or, BitVec.getLsbD_and, BitVec.getLsbD_not, hb, decide_true, Bool.true_and]
  cases mask.getLsbD b <;> simp

/-- A write of register `i` of the slices of a set, in turn. -/
theorem tget_putSlices (sl : BitVec 5) (v : Word) {i m : Nat} (hi : i < 16) (hm : m < 16) (j : Nat) (js : List Nat) (g : Table Word) :
    tget (js.foldl (fun g j => if sl.getLsbD j then tput g (16 * j + i) v else g) g) 0 (16 * j + m)
      = if j ∈ js ∧ m = i ∧ sl.getLsbD j = true then v else tget g 0 (16 * j + m) := by
  induction js generalizing g with
  | nil => simp
  | cons a as ih =>
    rw [List.foldl_cons, ih]
    by_cases hin : j ∈ as ∧ m = i ∧ sl.getLsbD j = true
    · rw [if_pos hin, if_pos ⟨List.mem_cons_of_mem _ hin.1, hin.2⟩]
    · rw [if_neg hin]
      by_cases ha : sl.getLsbD a = true
      · rw [if_pos ha, tget_tput]
        by_cases hkey : 16 * a + i = 16 * j + m
        · obtain rfl : a = j := by omega
          rw [if_pos hkey, if_pos ⟨List.mem_cons_self, by omega, ha⟩]
        · rw [if_neg hkey, if_neg]
          rintro ⟨hj, rfl, hsl⟩
          obtain rfl | hj := List.mem_cons.mp hj
          · exact hkey rfl
          · exact hin ⟨hj, rfl, hsl⟩
      · rw [if_neg ha, if_neg]
        rintro ⟨hj, hmi, hsl⟩
        obtain rfl | hj := List.mem_cons.mp hj
        · exact ha hsl
        · exact hin ⟨hj, hmi, hsl⟩

/-- The register part of a landing, for every destination. -/
theorem landReg_landed (k : Ctx) (fs : List Flight) (now : Nat) (f : Flight) :
    Landed k (({ k with flights := fs }.landReg now f).raise f.flags) f := by
  obtain ⟨fid, issued, land, src, dest, value, mask, flags⟩ := f
  cases dest with
  | slice sl i =>
    refine fun hi => ⟨_, rfl, fun j m hj hm => ?_⟩
    refine (tget_putSlices sl (value.setWidth 64) hi hm j (List.range 5) k.g).trans ?_
    simp [List.mem_range, hj]
  | v i => exact ⟨_, merge_masked _ _ _, rfl⟩
  | k i =>
    unfold Landed
    simp only
    split
    next hi => simp [Ctx.landReg, hi, Ctx.raise]
    next hi => exact ⟨_, merge_masked _ _ _, by simp [Ctx.landReg, hi, Ctx.raise]⟩
  | p => exact ⟨_, merge_masked _ _ _, rfl⟩
  | fmt => exact ⟨_, merge_masked _ _ _, rfl⟩
  | gsel => exact ⟨_, merge_masked _ _ _, rfl⟩
  | latch | vs | b | a | lc | lsw | delta | e | hcw | areg | wrow | none => rfl

/-- The array after a result has landed. -/
def ArrayState.afterLanding (a : ArrayState) (f : Flight) : ArrayState :=
  match f.dest with
  | .areg off => a.put off f.value f.mask
  | .wrow n r => { a with w := tput a.w (128 * n + r) f.value }
  | _ => a

theorem afterLanding_landed (a : ArrayState) (f : Flight) : ArrayLanded a (a.afterLanding f) f := by
  obtain ⟨fid, issued, land, src, dest, value, mask, flags⟩ := f
  cases dest with
  | areg off =>
    have all (v : BitVec 32) : v &&& 0xFFFFFFFF#32 = v := BitVec.and_allOnes
    refine ⟨?_, ?_, ?_, ?_, ?_, ?_, ?_, ?_⟩
    · rintro rfl; exact ⟨_, merge_masked _ _ _, rfl⟩
    · rintro rfl; exact ⟨_, merge_masked _ _ _, rfl⟩
    · rintro rfl; exact ⟨_, merge_masked _ _ _, rfl⟩
    · rintro rfl; exact ⟨_, merge_masked _ _ _, rfl⟩
    · rintro rfl; exact ⟨_, merge_masked _ _ _, by simp [ArrayState.afterLanding, ArrayState.put, all]⟩
    · rintro b hb rfl
      refine ⟨_, merge_masked _ _ _, ?_⟩
      interval_cases b <;> simp [ArrayState.afterLanding, ArrayState.put, all]
    · rintro rfl; rfl
    · rintro n hn rfl
      interval_cases n <;> rfl
  | wrow | slice | latch | vs | v | k | p | b | a | lc | lsw | delta | e | fmt | gsel | hcw | none => rfl

/-- A context after a result of its own has left it and landed in it. -/
def Ctx.afterLanding (k : Ctx) (now : Nat) (f : Flight) : Ctx :=
  ({ k with flights := dropFlight f k.flights }.landReg now f).raise f.flags

theorem landReg_flights (k : Ctx) (now : Nat) (f : Flight) : (k.landReg now f).flights = k.flights := by
  obtain ⟨fid, issued, land, src, dest, value, mask, flags⟩ := f
  cases dest with
  | k i => by_cases hi : i = 0 <;> simp [Ctx.landReg, hi]
  | slice | latch | vs | v | p | b | a | lc | lsw | delta | e | fmt | gsel | hcw | areg | wrow | none => rfl

theorem Ctx.afterLanding_flights (k : Ctx) (now : Nat) (f : Flight) :
    (k.afterLanding now f).flights = dropFlight f k.flights := landReg_flights _ now f

/-- A core after a result of context `x` that is no write of the HCW window has landed. -/
def Core.afterLanding (k : Core) (x now : Nat) (f : Flight) : Core :=
  { k.setCtx x ((k.ctx x).afterLanding now f) with
    array := k.array.afterLanding f, bad := k.bad.filter (fun w => !(f.heals x w)) }

theorem Core.ctx_afterLanding (k : Core) (x y now : Nat) (f : Flight) :
    (k.afterLanding x now f).ctx y = if x = y then (k.ctx x).afterLanding now f else k.ctx y := k.ctx_setCtx x y _

theorem tput_tput {α : Type} (t : Table α) (k : Nat) (v w : α) : tput (tput t k v) k w = tput t k w := by
  induction t with
  | nil => simp [tput]
  | cons p r ih =>
    obtain ⟨j, u⟩ := p
    by_cases hj : j = k
    · simp [tput, hj]
    · by_cases hlt : k < j
      · simp [tput, hj, hlt]
      · simp [tput, hj, hlt, ih]

theorem State.setCore_setCore (s : State) (c : Nat) (k l : Core) : (s.setCore c k).setCore c l = s.setCore c l := by
  simp only [State.setCore, tput_tput]

theorem Core.setCtx_setCtx (k : Core) (x : Nat) (v w : Ctx) : (k.setCtx x v).setCtx x w = k.setCtx x w := by
  simp only [Core.setCtx, tput_tput]

/-- The landing of a flight is a change of its core alone. -/
theorem landFlight_eq (s : State) (c x : Nat) (f : Flight) : s.landFlight c x f = s.setCore c
    (((s.core c).setCtx x { s.ctx c x with flights := dropFlight f (s.ctx c x).flights }).land x s.now f) := by
  simp only [State.landFlight, State.modCore, State.modCtx, State.setCtx, State.core_setCore_same, State.setCore_setCore]

theorem land_register {f : Flight} (h : f.toHcw = false) (k : Core) (x now : Nat) :
    k.land x now f = { k.setCtx x (((k.ctx x).landReg now f).raise f.flags) with
      array := k.array.afterLanding f, bad := k.bad.filter (fun w => !(f.heals x w)) } := by
  obtain ⟨fid, issued, land, src, dest, value, mask, flags⟩ := f
  cases dest with
  | hcw => cases h
  | slice | latch | vs | v | k | p | b | a | lc | lsw | delta | e | fmt | gsel | areg | wrow | none => rfl

theorem landFlight_register_eq {f : Flight} (h : f.toHcw = false) (s : State) (c x : Nat) :
    s.landFlight c x f = s.setCore c ((s.core c).afterLanding x s.now f) := by
  rw [landFlight_eq, land_register h, Core.setCtx_setCtx, Core.ctx_setCtx_same]
  rfl

/-- A core replaced by one with the same scratchpad leaves every memory as it was. -/
theorem sameMemory_setCore {s : State} {c : Nat} {k : Core} (h : k.spad = (s.core c).spad) : SameMemory s (s.setCore c k) := by
  refine ⟨fun d a => ?_, fun _ _ _ => rfl, fun _ => rfl⟩
  simp only [State.spad, State.core_setCore]
  split
  · subst_vars; rw [h]
  · rfl

theorem onlyCore_setCore (s : State) (c : Nat) (k : Core) : OnlyCore s (s.setCore c k) c k :=
  ⟨s.core_setCore_same c k, fun _ h => s.core_setCore_ne k h.symm, rfl⟩

/-- A result that is no write of the HCW window lands (R18, R20, R145 to R149). -/
theorem landFlight_register {s : State} {c x : Nat} {f : Flight} (hf : f ∈ (s.ctx c x).flights) (h : f.toHcw = false) :
    SameMemory s (s.landFlight c x f) ∧ Lands s (s.landFlight c x f) c x f (fun g => g = f) := by
  rw [landFlight_register_eq h]
  have hctx (y : Nat) : (s.setCore c ((s.core c).afterLanding x s.now f)).ctx c y
      = if x = y then (s.ctx c x).afterLanding s.now f else s.ctx c y := by
    rw [State.ctx, State.core_setCore_same, Core.ctx_afterLanding]; rfl
  refine ⟨sameMemory_setCore rfl, ?_, ?_, ?_, fun y hy => ?_, fun d hd => s.core_setCore_ne _ hd.symm, ?_, fun w hw => ?_, rfl⟩
  · rw [hctx, if_pos rfl, Ctx.afterLanding_flights]
    exact dropFlight_without hf
  · rw [hctx, if_pos rfl]
    exact landReg_landed _ _ _ _
  · rw [State.core_setCore_same]
    exact afterLanding_landed _ _
  · rw [hctx, if_neg hy.symm]
  · rw [State.core_setCore_same]
    rfl
  · rw [State.core_setCore_same] at hw
    exact List.mem_of_mem_filter hw

/-! ## A write of the HCW window (R74, R75) -/

/-- A context whose entry `i` has been written, and validated if it is valid. -/
def Ctx.withEntry (k : Ctx) (i : Nat) (e : Entry) : Ctx :=
  { k with
    hcw := tput k.hcw i e
    hcwValid := if entryValid e then k.hcwValid ||| BitVec.ofNat 512 (2 ^ i) else k.hcwValid &&& ~~~(BitVec.ofNat 512 (2 ^ i)) }

/-- Bit `i` of the validity map says whether the entry is valid, the others stay. -/
theorem Ctx.withEntry_valid (k : Ctx) (i : Nat) (e : Entry) {b : Nat} (hb : b < 512) :
    (k.withEntry i e).hcwValid.getLsbD b = if b = i then entryValid e else k.hcwValid.getLsbD b := by
  have hbit : (BitVec.ofNat 512 (2 ^ i)).getLsbD b = decide (i = b) := by
    rw [BitVec.getLsbD_ofNat, Nat.testBit_two_pow, decide_eq_true hb, Bool.true_and]
  unfold Ctx.withEntry
  by_cases hbi : b = i
  · subst hbi
    cases entryValid e <;> simp only [if_true, if_false, Bool.false_eq_true, BitVec.getLsbD_or, BitVec.getLsbD_and,
      BitVec.getLsbD_not, hbit, decide_true, Bool.or_true, Bool.not_true, Bool.and_false]
  · rw [if_neg hbi]
    cases entryValid e <;> simp only [if_true, if_false, Bool.false_eq_true, BitVec.getLsbD_or, BitVec.getLsbD_and,
      BitVec.getLsbD_not, hbit, decide_eq_false (fun h : i = b => hbi h.symm), Bool.or_false, Bool.not_false, Bool.and_true,
      decide_eq_true hb]

/-- A context of a core that has had `f` in flight, of context `x`, once `f` has left it. -/
def Core.ctxWithout (k : Core) (x : Nat) (f : Flight) (z : Nat) : Ctx :=
  if x = z then { k.ctx x with flights := dropFlight f (k.ctx x).flights } else k.ctx z

/-- Context `z` of a core in which a write of entry `i` of context `y` by context `x` has landed. -/
def Core.ctxAfterEntry (k : Core) (x y i : Nat) (f : Flight) (z : Nat) : Ctx :=
  let own := if y = z then (k.ctxWithout x f z).withEntry i (f.value.setWidth 256) else k.ctxWithout x f z
  if x = z then own.raise f.flags else own

theorem landReg_entry {f : Flight} {y i : Nat} (h : f.dest = .hcw y i) (k : Ctx) (now : Nat) : k.landReg now f = k := by
  rw [Ctx.landReg, h]

theorem land_entry {f : Flight} {y i : Nat} (h : f.dest = .hcw y i) (k : Core) (x now : Nat) :
    k.land x now f =
      let k1 := k.setCtx y ((k.ctx y).withEntry i (f.value.setWidth 256))
      { k1.setCtx x ((k1.ctx x).raise f.flags) with bad := k1.bad.filter (fun w => !(f.heals x w)) } := by
  obtain ⟨fid, issued, land, src, dest, value, mask, flags⟩ := f
  obtain rfl : dest = .hcw y i := h
  rfl

theorem ctx_landFlight_entry {f : Flight} {y i : Nat} (h : f.dest = .hcw y i) (s : State) (c x z : Nat) :
    (s.landFlight c x f).ctx c z = (s.core c).ctxAfterEntry x y i f z := by
  rw [landFlight_eq, land_entry h, State.ctx, State.core_setCore_same]
  change Core.ctx (Core.setCtx _ _ _) z = _
  simp only [Core.ctxAfterEntry, Core.ctxWithout, Core.ctx_setCtx, State.ctx]
  by_cases hx : x = z
  · subst hx
    by_cases hy : y = x <;> simp [hy]
  · by_cases hy : y = z
    · subst hy; simp [hx]
    · simp [hx, hy]

/-- What a write of the HCW window changes of the contexts of its core. -/
theorem ctxAfterEntry_hcw (k : Core) (x y i : Nat) (f : Flight) (z : Nat) :
    (k.ctxAfterEntry x y i f z).hcw = if y = z then tput (k.ctx z).hcw i (f.value.setWidth 256) else (k.ctx z).hcw := by
  unfold Core.ctxAfterEntry Core.ctxWithout
  by_cases hx : x = z
  · subst hx; split_ifs <;> rfl
  · split_ifs <;> rfl

theorem ctxAfterEntry_hcwValid (k : Core) (x y i : Nat) (f : Flight) (z : Nat) :
    (k.ctxAfterEntry x y i f z).hcwValid
      = if y = z then ((k.ctx z).withEntry i (f.value.setWidth 256)).hcwValid else (k.ctx z).hcwValid := by
  unfold Core.ctxAfterEntry Core.ctxWithout
  by_cases hx : x = z
  · subst hx; split_ifs <;> rfl
  · split_ifs <;> rfl

theorem ctxAfterEntry_flights (k : Core) (x y i : Nat) (f : Flight) (z : Nat) :
    (k.ctxAfterEntry x y i f z).flights = if x = z then dropFlight f (k.ctx z).flights else (k.ctx z).flights := by
  unfold Core.ctxAfterEntry Core.ctxWithout
  by_cases hx : x = z
  · subst hx; split_ifs <;> rfl
  · split_ifs <;> rfl

theorem ctxAfterEntry_fmt_ne (k : Core) {x y i : Nat} (f : Flight) {z : Nat} (h : x ≠ z) :
    (k.ctxAfterEntry x y i f z).fmt = (k.ctx z).fmt := by
  unfold Core.ctxAfterEntry Core.ctxWithout
  split_ifs <;> rfl

theorem ctxAfterEntry_rest (k : Core) (x y i : Nat) (f : Flight) (z : Nat) :
    { k.ctxAfterEntry x y i f z with hcw := [], hcwValid := 0, flights := [], fmt := 0 }
      = { k.ctx z with hcw := [], hcwValid := 0, flights := [], fmt := 0 } := by
  unfold Core.ctxAfterEntry Core.ctxWithout
  by_cases hx : x = z
  · subst hx; split_ifs <;> rfl
  · split_ifs <;> rfl

/-- Beside its contexts, a core in which a write of the HCW window has landed has lost only the bad words that the write heals. -/
theorem landFlight_entry_core {f : Flight} {y i : Nat} (h : f.dest = .hcw y i) (s : State) (c x : Nat) :
    ((s.landFlight c x f).core c).besidesCtxs
      = { (s.core c).besidesCtxs with bad := (s.core c).bad.filter (fun w => !(f.heals x w)) } := by
  rw [landFlight_eq, land_entry h, State.core_setCore_same]
  rfl

theorem landFlight_entry_memory {f : Flight} {y i : Nat} (h : f.dest = .hcw y i) (s : State) (c x : Nat) :
    SameMemory s (s.landFlight c x f) := by
  rw [landFlight_eq, land_entry h]
  exact sameMemory_setCore rfl

theorem landFlight_others (s : State) (c x : Nat) (f : Flight) :
    (∀ d, d ≠ c → (s.landFlight c x f).core d = s.core d) ∧ (s.landFlight c x f).besidesCores = s.besidesCores := by
  rw [landFlight_eq]
  exact ⟨fun d hd => s.core_setCore_ne _ hd.symm, rfl⟩

theorem toHcw_eq_true {f : Flight} (h : f.toHcw = true) : ∃ y i, f.dest = .hcw y i := by
  unfold Flight.toHcw at h
  split at h
  · exact ⟨_, _, by assumption⟩
  · cases h

/-- A write of the HCW window is no write of FMT. -/
theorem dest_ne_fmt_of_toHcw {f : Flight} (h : f.toHcw = true) : f.dest ≠ .fmt := by
  obtain ⟨y, i, hd⟩ := toHcw_eq_true h
  simp [hd]

/-- The contexts of a core, by number. -/
theorem mem_contexts {z : Nat} : z ∈ [0, 1, 2, 3] ↔ z < 4 := by
  simp only [List.mem_cons, List.not_mem_nil, or_false]
  omega

/-- R22, R74, R75: the first of the window writes due writes its entry. -/
theorem entryLanding (s : State) (c : Nat) (h : ∃ z, z < 4 ∧ ∃ g ∈ (s.ctx c z).flights, g.land ≤ s.now ∧ g.toHcw = true) :
    ∃ x f y i, exec (.hcwEntryWrite c) s = .next (s.landFlight c x f) ∧ x < 4 ∧ f ∈ (s.ctx c x).flights ∧ f.land ≤ s.now
      ∧ f.dest = .hcw y i
      ∧ ∀ z, z < 4 → ∀ g ∈ (s.ctx c z).flights, g.land ≤ s.now → g.toHcw = true → f.issued ≤ g.issued := by
  obtain ⟨z, hz, hdue⟩ := h
  obtain ⟨x, hx, f, hf, hl, hok, heq, hfirst⟩ := landKind_lands (c := c) (ok := Flight.toHcw) ⟨z, mem_contexts.mpr hz, hdue⟩
  obtain ⟨y, i, hd⟩ := toHcw_eq_true hok
  refine ⟨x, f, y, i, congrArg Host.Outcome.next heq, mem_contexts.mp hx, hf, hl, hd, fun z hz g hg hgl hgok => ?_⟩
  exact (fmt_or_issued_of_not_landBefore (hfirst z (mem_contexts.mpr hz) g hg hgl hgok)).2 (dest_ne_fmt_of_toHcw hok)

/-- R22, R146: where no register write of the barrier window is due, the first of the stores to the array window writes its
register. -/
theorem registerLanding (s : State) (c o : Nat) (v : Word)
    (hbar : ∀ b ∈ (s.core c).barStores, b.st.isRegister = true → s.now < b.tick)
    (h : ∃ z, z < 4 ∧ ∃ g ∈ (s.ctx c z).flights, g.land ≤ s.now ∧ g.toWindow = true) :
    ∃ x f, exec (.registerWrite false c o v) s = .next (s.landFlight c x f) ∧ x < 4 ∧ f ∈ (s.ctx c x).flights ∧ f.land ≤ s.now
      ∧ f.toWindow = true
      ∧ ∀ z, z < 4 → ∀ g ∈ (s.ctx c z).flights, g.land ≤ s.now → g.toWindow = true →
          (g.dest = .fmt → f.dest = .fmt) ∧ (f.dest ≠ .fmt → f.issued ≤ g.issued) := by
  obtain ⟨z, hz, hdue⟩ := h
  obtain ⟨x, hx, f, hf, hl, hok, heq, hfirst⟩ := landKind_lands (c := c) (ok := Flight.toWindow) ⟨z, mem_contexts.mpr hz, hdue⟩
  have none_due : (s.core c).barDue s.now BarStore.isRegister = none := by
    refine List.find?_eq_none.mpr fun b hb hdue => ?_
    simp only [Bool.and_eq_true, decide_eq_true_eq] at hdue
    exact absurd hdue.1 (Nat.not_le.mpr (hbar b hb hdue.2))
  refine ⟨x, f, ?_, mem_contexts.mp hx, hf, hl, hok, fun z hz g hg hgl hgok => ?_⟩
  · rw [← heq]
    change Host.Outcome.next (s.landRegister c) = _
    rw [State.landRegister, none_due]
  · exact fmt_or_issued_of_not_landBefore (hfirst z (mem_contexts.mpr hz) g hg hgl hgok)

theorem toHcw_eq_false_of_toWindow {f : Flight} (h : f.toWindow = true) : f.toHcw = false := by
  simp only [Flight.toWindow, Bool.and_eq_true, Bool.not_eq_true'] at h
  exact h.2

theorem windowLandings : Claims.WindowLandings := by
  constructor
  · intro s c h
    obtain ⟨x, f, y, i, heq, hx, hf, hl, hd, hfirst⟩ := entryLanding s c h
    obtain ⟨hcores, hrest⟩ := landFlight_others s c x f
    have hcore := landFlight_entry_core hd s c x
    refine ⟨_, x, f, y, i, heq, landFlight_entry_memory hd s c x, hx, hl, hd, hfirst, ?_, ?_, fun b hb => ?_, fun z hz => ?_,
      fun z hz => ?_, fun z => ?_, hcores, ?_, fun w hw => ?_, hrest⟩
    · rw [ctx_landFlight_entry hd, ctxAfterEntry_flights, if_pos rfl]
      exact dropFlight_without hf
    · rw [ctx_landFlight_entry hd, ctxAfterEntry_hcw, if_pos rfl]
      rfl
    · rw [ctx_landFlight_entry hd, ctxAfterEntry_hcwValid, if_pos rfl]
      exact Ctx.withEntry_valid _ _ _ hb
    · rw [ctx_landFlight_entry hd, ctxAfterEntry_hcw, ctxAfterEntry_hcwValid, if_neg hz.symm, if_neg hz.symm]
      exact ⟨rfl, rfl⟩
    · rw [ctx_landFlight_entry hd, ctxAfterEntry_flights, if_neg hz.symm, ctxAfterEntry_fmt_ne _ _ hz.symm]
      exact ⟨rfl, rfl⟩
    · rw [ctx_landFlight_entry hd]
      exact ctxAfterEntry_rest _ _ _ _ _ _
    · rw [hcore]
      rfl
    · have hbad := congrArg Core.bad hcore
      exact List.mem_of_mem_filter (hbad ▸ hw)
  · intro s c o v hbar h
    obtain ⟨x, f, heq, hx, hf, hl, hok, hfirst⟩ := registerLanding s c o v hbar h
    obtain ⟨hmem, hlands⟩ := landFlight_register hf (toHcw_eq_false_of_toWindow hok)
    exact ⟨_, x, f, heq, hmem, hx, hl, hok, hfirst, hlands⟩

theorem resultLandings : Claims.Landings := by
  rintro s c x ⟨g, hg, hl, hh, hw⟩
  obtain ⟨z, hz, f, hf, hfl, hfok, heq, hfirst⟩ := landKind_lands (c := c) (ok := fun f => !f.toHcw && !f.toWindow) (xs := [x])
    ⟨x, List.mem_singleton_self x, g, hg, hl, by simp [hh, hw]⟩
  obtain rfl := List.mem_singleton.mp hz
  simp only [Bool.and_eq_true, Bool.not_eq_true'] at hfok
  obtain ⟨hfh, hfw⟩ := hfok
  obtain ⟨hmem, hlands⟩ := landFlight_register hf hfh
  refine ⟨_, f, ?_, hmem, hfl, hfh, hfw, fun k hk hkl hkh hkw => ?_, hlands⟩
  · rw [← heq]; rfl
  · exact fmt_or_issued_of_not_landBefore (hfirst z hz k hk hkl (by simp [hkh, hkw]))

/-- Settles O26: the flight that lands is the first of those due in the order `landBefore`, and its landing writes its own register or
entry alone. -/
theorem landings : Obligations.Landings := by
  unfold Obligations.Landings
  exact ⟨resultLandings, windowLandings⟩

end Sys2Proof.Machine

/-! # Waits, drains, fences, signals and the budget (O27)

Each check of the model is tied once to the condition the obligation states (`condMet_iff`, `fenceOk_iff`, `signalOk_live`); the step
that the check guards is then a change of one context or of one core. -/

namespace Sys2Proof.Machine
open Sys2Proof.Claims

theorem bitAt_eq_testBit (w i : Nat) : bitAt w i = w.testBit i := by
  rw [bitAt, Nat.testBit_eq_decide_div_mod_eq]
  rfl

/-- The model writes an implication of two checks as `!a || b`. -/
theorem not_or_iff_imp (a b : Bool) : (!a || b) = true ↔ (a = true → b = true) := by
  cases a <;> simp

/-- And one whose premise is that `i` comes before `t` as `t ≤ i || b`. -/
theorem le_or_iff_imp (t i : Nat) (b : Bool) : (decide (t ≤ i) || b) = true ↔ (i < t → b = true) := by
  rw [Bool.or_eq_true, decide_eq_true_eq, or_iff_not_imp_left, Nat.not_le]

/-! ## Waits (R103 to R105) -/

theorem cmdsEnded_iff (s : State) (c x : Nat) (ids : List Nat) : s.cmdsEnded ids = true ↔ Met s c x (.engine ids) := by
  simp only [State.cmdsEnded, Met, List.all_eq_true, Bool.and_eq_true, Bool.not_eq_true', List.any_eq_false, beq_iff_eq,
    decide_eq_true_eq, not_and, Nat.not_lt, and_assoc]

theorem condMet_iff (s : State) (c x : Nat) (w : WaitCond) : s.condOf c (s.ctx c x) w = true ↔ Met s c x w := by
  cases w with
  | barrier b g0 => simp [State.condOf, Met]
  | queue q => simp [State.condOf, Met, Ctx.queueReady, Option.isSome_iff_exists]
  | tick v => simp [State.condOf, Met]
  | engine ids => exact cmdsEnded_iff s c x ids

theorem runs_iff (k : Ctx) : k.runs = true ↔ k.service = none ∧ k.preBy = 0 := by
  simp [Ctx.runs]

/-- A change of one context is the step of an instruction. -/
theorem modCtx_only {s t : State} {c x : Nat} {f : Ctx → Ctx} {v : Ctx} (h : t = s.modCtx c x f) (hv : f (s.ctx c x) = v) :
    SameMemory s t ∧ OnlyCtx s t c x v := by
  subst h hv
  exact ⟨(onlyCtx_modCtx s c x f).sameMemory, onlyCtx_modCtx s c x f⟩

theorem waitDue_iff {s : State} {c x n : Nat} {w : WaitCond} {held : Bool} (h : (s.ctx c x).status = .waiting w n held) :
    s.waitDue c x = true ↔ (s.ctx c x).runs = true ∧ n < s.now ∧ (held = true ∨ Met s c x w) := by
  simp only [State.waitDue, h, Bool.and_eq_true, Bool.or_eq_true, decide_eq_true_eq, State.condMet, condMet_iff, and_assoc]

theorem metAway_iff {s : State} {c x n : Nat} {w : WaitCond} {held : Bool} (h : (s.ctx c x).status = .waiting w n held) :
    s.metAway c false (s.ctx c x) = true ↔ (s.ctx c x).runs = false ∧ held = false ∧ n < s.now ∧ Met s c x w := by
  simp only [State.metAway, h, Bool.and_eq_true, Bool.false_or, Bool.not_eq_true', decide_eq_true_eq, condMet_iff, and_assoc]

theorem waitMet_of_due {s : State} {c x : Nat} (h : s.waitDue c x = true) :
    exec (.waitMet c x) s
      = .next (s.modCtx c x (fun k => { k with status := .ready s.now (if (s.core c).lastCtx = some x then 1 else 2) true })) :=
  congrArg Host.Outcome.next (if_pos h)

theorem waitMet_of_away {s : State} {c x : Nat} (h : ¬ s.waitDue c x = true) (ha : s.metAway c false (s.ctx c x) = true) :
    exec (.waitMet c x) s = .next (s.modCtx c x Ctx.noteMet) :=
  congrArg Host.Outcome.next ((if_neg h).trans (if_pos ha))

theorem waitMet_of_not {s : State} {c x : Nat} (h : ¬ s.waitDue c x = true) (ha : ¬ s.metAway c false (s.ctx c x) = true)
    (hs : ∀ p ∈ (s.core c).saved, p.1 ≠ x) : exec (.waitMet c x) s = .next s := by
  have none_saved : ¬ (s.core c).saved.any (fun p => p.1 == x && s.metAway c true p.2) = true := by
    simp only [List.any_eq_true, Bool.and_eq_true, beq_iff_eq, not_exists, not_and]
    exact fun p hp hx => absurd hx (hs p hp)
  exact congrArg Host.Outcome.next ((if_neg h).trans ((if_neg ha).trans (if_neg none_saved)))

theorem noteMet_waiting {k : Ctx} {w : WaitCond} {n : Nat} {held : Bool} (h : k.status = .waiting w n held) :
    k.noteMet = { k with status := .waiting w n true } := by
  rw [Ctx.noteMet, h]

theorem waitsMet : WaitsMet := by
  intro s c x n w held k hst hn
  have due := waitDue_iff hst
  have away := metAway_iff hst
  refine ⟨fun hsv hpre => ⟨fun hm => ?_, fun hheld hm hsaved => ?_⟩, fun hserv hheld hm => ?_⟩
  · have hdue := due.mpr ⟨(runs_iff k).mpr ⟨hsv, hpre⟩, hn, hm⟩
    exact ⟨_, waitMet_of_due hdue, modCtx_only rfl rfl⟩
  · refine waitMet_of_not (fun h => ?_) (fun h => ?_) hsaved
    · obtain ⟨-, -, hmet⟩ := due.mp h
      exact hmet.elim (by simp [hheld]) hm
    · exact hm (away.mp h).2.2.2
  · have hruns : k.runs = false := by
      rw [← Bool.not_eq_true, runs_iff, not_and_or]
      exact hserv
    have hdue : ¬ s.waitDue c x = true := fun h => by
      have := (due.mp h).1
      rw [hruns] at this
      cases this
    exact ⟨_, waitMet_of_away hdue (away.mpr ⟨hruns, hheld, hn, hm⟩), modCtx_only rfl (noteMet_waiting hst)⟩

/-! ## Drains and fences (R96, R183) -/

theorem goesOn_goOn (k : Ctx) : GoesOn k k.goOn := by
  refine ⟨fun h => ?_, fun n h => ?_⟩ <;> rw [Ctx.goOn, h]

theorem accessesDone_iff (s : State) (c x t : Nat) : s.accessesDone c x t = true ↔
    (∀ a ∈ s.accesses, a.core = c → a.ctx = x → a.issued < t → a.perform ≤ s.now)
    ∧ ∀ p ∈ s.cores, ∀ b ∈ p.2.barStores, b.core = c → b.ctx = x → b.issued < t → b.tick ≤ s.now := by
  simp only [State.accessesDone, Bool.and_eq_true, List.all_eq_true, not_or_iff_imp, beq_iff_eq, decide_eq_true_eq, and_imp]

theorem windowsDone_iff (k : Ctx) (t now : Nat) (caught : Flight → Bool) : k.windowsDone t now caught = true ↔
    (∀ f ∈ k.flights, f.src = 2 → f.issued < t → f.land ≤ now)
    ∧ ∀ f ∈ k.shadow, f.src = 2 → f.issued < t → caught f = true := by
  simp only [Ctx.windowsDone, Bool.and_eq_true, List.all_eq_true, not_or_iff_imp, beq_iff_eq, decide_eq_true_eq, and_imp]

/-- Pending bytes of the commands that satisfy `p`, added to `n`, are none when there were none and none is added. -/
theorem foldl_pend_eq_zero (p : Cmd → Prop) [DecidablePred p] (l : List Cmd) (n : Nat) :
    l.foldl (fun n d => if p d then n + d.pend else n) n = 0 ↔ n = 0 ∧ ∀ d ∈ l, p d → d.pend = 0 := by
  induction l generalizing n with
  | nil => simp
  | cons d r ih =>
    rw [List.foldl_cons, ih]
    by_cases h : p d
    · simp only [h, if_true, Nat.add_eq_zero_iff, List.forall_mem_cons, true_implies, and_assoc]
    · simp only [h, if_false, List.forall_mem_cons, false_implies, true_and]

theorem pendZero_iff (s : State) (c x lx mask : Nat) : s.pendZero c x lx mask = true ↔ NonePending s c x lx mask := by
  simp only [State.pendZero, NonePending, State.pendBytes, List.all_eq_true, List.mem_range, not_or_iff_imp, beq_iff_eq,
    foldl_pend_eq_zero, true_and, bitAt_eq_testBit]
  constructor
  · intro h m hm hc hx hl hcls hbit
    exact h m.cls hcls hbit m hm ⟨hc, hx, hl, rfl⟩
  · rintro h k hk hbit d hd ⟨hc, hx, hl, rfl⟩
    exact h d hd hc hx hl hk hbit

/-- What a context issued before a tick has performed, and nothing that a stop caught of it waits (R182, R183). -/
theorem coreDone_iff (s : State) (c x t : Nat) : s.coreDone c x (s.ctx c x) t = true ↔
    Performed s c x t ∧ ∀ g ∈ (s.ctx c x).shadow, g.src = 2 → t ≤ g.issued := by
  simp only [State.coreDone, Bool.and_eq_true, accessesDone_iff, windowsDone_iff, Performed, Bool.false_eq_true, imp_false, Nat.not_lt,
    and_assoc]

/-- The release half of a fence. -/
def Releases (s : State) (c x : Nat) (f : FenceSt) : Prop :=
  Performed s c x f.issued ∧ (∀ g ∈ (s.ctx c x).shadow, g.src = 2 → f.issued ≤ g.issued)
    ∧ (f.mask.testBit 2 = true → ∀ e ∈ (s.ctx c x).aq, e.pushed < f.issued → ∃ v, e.data = some v)
    ∧ (2 ≤ f.scope → NonePending s c x (s.ctx c x).lx f.mask)

/-- The acquire half of a fence. -/
def Acquires (s : State) (c x : Nat) (f : FenceSt) : Prop :=
  (∀ g ∈ (s.ctx c x).flights, g.src = 3 → g.issued < f.issued → g.land ≤ s.now) ∧ (f.mask.testBit 6 = true → s.hostDone f.issued = true)

/-- What sequential consistency adds. -/
def Sequential (s : State) (c x : Nat) (f : FenceSt) : Prop :=
  (∀ p ∈ s.cores, ∀ e ∈ p.2.timed, e.src = c → e.ctx = x → e.issued < f.issued → e.vis ≤ s.now)
    ∧ ∀ d ∈ (s.ctx c x).signals, d.issued < f.issued → d.released = true

theorem fenceMet_iff (s : State) (c x : Nat) (f : FenceSt) : FenceMet s c x f ↔
    f.notBefore ≤ s.now ∧ Met s c x (.engine f.cmds) ∧ (f.order ≠ 0 → Releases s c x f) ∧ (f.order ≠ 1 → Acquires s c x f)
      ∧ (3 ≤ f.order → Sequential s c x f) := Iff.rfl

theorem pushesRead_iff (aq : List AqEntry) (mask t : Nat) :
    (!(bitAt mask 2) || aq.all (fun e => decide (t ≤ e.pushed) || e.data.isSome)) = true
      ↔ (mask.testBit 2 = true → ∀ e ∈ aq, e.pushed < t → ∃ v, e.data = some v) := by
  simp only [not_or_iff_imp, List.all_eq_true, le_or_iff_imp, Option.isSome_iff_exists, bitAt_eq_testBit]

theorem drainedScope_iff (s : State) (c x : Nat) (f : FenceSt) :
    (decide (f.scope < 2) || s.pendZero c x (s.ctx c x).lx f.mask) = true
      ↔ (2 ≤ f.scope → NonePending s c x (s.ctx c x).lx f.mask) := by
  rw [Bool.or_eq_true, decide_eq_true_eq, pendZero_iff, or_iff_not_imp_left, Nat.not_lt]

theorem loadsLanded_iff (fs : List Flight) (t now : Nat) :
    fs.all (fun g => !(g.src == 3 && decide (g.issued < t)) || decide (g.land ≤ now)) = true
      ↔ ∀ g ∈ fs, g.src = 3 → g.issued < t → g.land ≤ now := by
  simp only [List.all_eq_true, not_or_iff_imp, Bool.and_eq_true, beq_iff_eq, decide_eq_true_eq, and_imp]

theorem sequential_iff (s : State) (c x : Nat) (f : FenceSt) :
    (s.cores.all (fun p => p.2.timed.all (fun e => !(e.src == c && e.ctx == x && decide (e.issued < f.issued)) || decide (e.vis ≤ s.now)))
      && (s.ctx c x).signals.all (fun d => decide (f.issued ≤ d.issued) || d.released)) = true ↔ Sequential s c x f := by
  simp only [Sequential, List.all_eq_true, not_or_iff_imp, le_or_iff_imp, Bool.and_eq_true, beq_iff_eq, decide_eq_true_eq, and_imp]

theorem hostReads_iff (s : State) (mask t : Nat) :
    (!(bitAt mask 6) || s.hostDone t) = true ↔ (mask.testBit 6 = true → s.hostDone t = true) := by
  rw [not_or_iff_imp, bitAt_eq_testBit]

/-- The check of a fence is the condition of R183. -/
theorem fenceOk_iff (s : State) (c x : Nat) (f : FenceSt) : s.fenceOk c x f = true ↔ FenceMet s c x f := by
  have hsc := sequential_iff s c x f
  rw [Bool.and_eq_true] at hsc
  rw [fenceMet_iff, State.fenceOk]
  split <;>
    simp only [Bool.and_eq_true, decide_eq_true_eq, coreDone_iff, cmdsEnded_iff s c x, pushesRead_iff, drainedScope_iff,
      loadsLanded_iff, hostReads_iff, hsc, Releases, Acquires]
  case h_1 _ ho => simp [ho, and_assoc]
  case h_2 _ ho => simp [ho]; tauto
  case h_3 _ ho => simp [ho]; tauto
  case h_4 _ h0 h1 h2 =>
    replace h0 : f.order ≠ 0 := h0
    replace h1 : f.order ≠ 1 := h1
    replace h2 : f.order ≠ 2 := h2
    simp [h0, h1, show 3 ≤ f.order by omega]
    tauto

theorem fencesHold_iff {s : State} {c x : Nat} {fs : List FenceSt} (h : (s.ctx c x).status = .fencing fs) :
    s.fencesHold c x = true ↔ ∀ f ∈ fs, FenceMet s c x f := by
  simp only [State.fencesHold, h, List.all_eq_true, fenceOk_iff]

theorem holdsEnd : HoldsEnd := by
  constructor
  · intro s c x d k hst hsv hpre hd
    have hdue : s.drainDue c x = true := by
      rw [State.drainDue, hst, Bool.and_eq_true, decide_eq_true_eq]
      exact ⟨(runs_iff k).mpr ⟨hsv, hpre⟩, hd⟩
    exact ⟨_, _, congrArg Host.Outcome.next (if_pos hdue), (modCtx_only rfl rfl).1, (modCtx_only rfl rfl).2, goesOn_goOn k⟩
  · intro s c x fs k hst
    refine ⟨fun h => ?_, fun f hf ho hw => ?_⟩
    · have hold := (fencesHold_iff hst).mpr h
      exact ⟨_, _, congrArg Host.Outcome.next (if_pos hold), (modCtx_only rfl rfl).1, (modCtx_only rfl rfl).2, goesOn_goOn k⟩
    · obtain ⟨a, ha, hc, hx, hi, hp⟩ := hw
      have hold : ¬ s.fencesHold c x = true := fun h => by
        obtain ⟨-, -, hrel, -⟩ := (fenceMet_iff s c x f).mp ((fencesHold_iff hst).mp h f hf)
        obtain ⟨⟨hacc, -, -⟩, -⟩ := hrel ho
        exact absurd (hacc a ha hc hx hi) (Nat.not_le.mpr hp)
      exact congrArg Host.Outcome.next (if_neg hold)

/-! ## Signals (R179, R182, R191) -/

theorem owesNow_eq_false_iff (s : State) (c x lx mask : Nat) : s.owesNow c x lx mask = false ↔
    ∀ m ∈ s.cmds, m.core = c → m.ctx = x → m.lx = lx → mask.testBit (m.cls + 1) = true → m.phase = 0 → s.now < m.beginAt := by
  simp only [State.owesNow, List.any_eq_false, Bool.and_eq_true, beq_iff_eq, decide_eq_true_eq, not_and, Nat.not_le, bitAt_eq_testBit,
    and_imp]

/-- A signal's check holds where its conditions do, its context's stores to windows have performed and its rows have left. -/
theorem signalOk_of {s : State} {c x : Nat} {k : Ctx} {saved : Bool} {d : DefSignal} (h : Signals s c x k.lx d)
    (hw : k.windowsDone d.issued s.now (fun f => decide (k.caughtAt + f.land ≤ s.now)) = true)
    (hr : d.mask.testBit 0 = true →
      (saved = false → (s.core c).arrayOwner = some x → ∀ w ∈ (s.core c).array.rows, w.pushed < d.issued → w.exit ≤ s.now)
      ∧ ∀ w ∈ k.shadowRows, w.pushed < d.issued → k.caughtAt + w.exit ≤ s.now) :
    s.signalOk c x k saved d = true := by
  obtain ⟨hi, hacc, hbar, hended, hdrained⟩ := h
  have rows (r : List RowOut) (f : RowOut → Nat) (hrow : ∀ w ∈ r, w.pushed < d.issued → f w ≤ s.now) :
      r.all (fun w => decide (d.issued ≤ w.pushed) || decide (f w ≤ s.now)) = true := by
    simpa only [List.all_eq_true, le_or_iff_imp, decide_eq_true_eq] using hrow
  simp only [State.signalOk, Bool.and_eq_true, decide_eq_true_eq, not_or_iff_imp, bitAt_eq_testBit, Bool.not_eq_true']
  refine ⟨⟨⟨⟨⟨hi, (accessesDone_iff _ _ _ _).mpr ⟨hacc, hbar⟩⟩, (cmdsEnded_iff s c x _).mpr hended⟩, hw⟩, fun hm => ⟨?_, ?_⟩⟩,
    fun hd => ⟨(pendZero_iff _ _ _ _ _).mpr (hdrained hd).1, ?_⟩⟩
  · split
    next hown => exact rows _ _ ((hr hm).1 hown.1 (by simpa using hown.2))
    next => rfl
  · exact rows _ _ (hr hm).2
  · exact (owesNow_eq_false_iff _ _ _ _ _).mpr (hdrained hd).2

theorem releaseFirst_append {l r : List DefSignal} {d : DefSignal} (hl : ∀ e ∈ l, e.released = true) (hd : d.released = false) :
    releaseFirst (l ++ d :: r) = l ++ { d with released := true } :: r := by
  induction l with
  | nil => simp [releaseFirst, hd]
  | cons e l ih =>
    obtain ⟨he, hl⟩ := List.forall_mem_cons.mp hl
    simp [releaseFirst, he, ih hl]

theorem nextSignal_append {k : Ctx} {l r : List DefSignal} {d : DefSignal} (hk : k.signals = l ++ d :: r)
    (hl : ∀ e ∈ l, e.released = true) (hd : d.released = false) : k.nextSignal = some d := by
  rw [Ctx.nextSignal, hk]
  exact List.find?_eq_some_iff_append.mpr ⟨by simp [hd], l, r, rfl, fun e he => by simp [hl e he]⟩

theorem dropEq_append {α : Type} [DecidableEq α] {l r : List α} {e : α} (h : e ∉ l) : dropEq e (l ++ e :: r) = l ++ r := by
  induction l with
  | nil => simp [dropEq]
  | cons a l ih =>
    obtain ⟨ha, hl⟩ := not_or.mp (List.mem_cons.not.mp h)
    simp [dropEq, Ne.symm ha, ih hl]

theorem arrive_one (k : Core) (b : Nat) : k.arrive b 1 = { k with barriers := arrived k b } := rfl

theorem signalRelease_of_due {s : State} {c x : Nat} {d : DefSignal} (hn : (s.ctx c x).nextSignal = some d)
    (hok : s.signalOk c x (s.ctx c x) false d = true) :
    exec (.signalRelease c x) s = .next (s.setCore c
      (((s.core c).setCtx x { s.ctx c x with signals := releaseFirst (s.ctx c x).signals }).arrive d.barrier 1)) := by
  have hdue : s.signalDue c x (s.ctx c x) false = true := by rw [State.signalDue, hn]; exact hok
  refine congrArg Host.Outcome.next ((if_pos hdue).trans ?_)
  change (match (s.ctx c x).nextSignal with | some d => _ | none => _) = _
  rw [hn]
  rfl

theorem signalRelease_of_late {s : State} {c x : Nat} {d : Nat × Nat × DefSignal} (hn : (s.ctx c x).nextSignal = none)
    (hs : ∀ p ∈ (s.core c).saved, p.1 ≠ x) (hd : s.lateDue c x = some d) :
    exec (.signalRelease c x) s
      = .next (s.setCore c ({ s.core c with lateSignals := dropEq d (s.core c).lateSignals }.arrive d.2.2.barrier 1)) := by
  have hdue : ¬ s.signalDue c x (s.ctx c x) false = true := by rw [State.signalDue, hn]; exact Bool.false_ne_true
  have none_saved : (s.core c).saved.find? (fun p => p.1 == x && s.signalDue c x p.2 true) = none :=
    List.find?_eq_none.mpr fun p hp => by simp [hs p hp]
  refine congrArg Host.Outcome.next ((if_neg hdue).trans ?_)
  rw [none_saved]
  simp only [hd]

/-- R182: the oldest signal of a context arrives at its barrier. -/
theorem ownSignalReleases {s : State} {c x : Nat} {d : DefSignal} (l r : List DefSignal) 
    (hk : (s.ctx c x).signals = l ++ d :: r) (hl : ∀ e ∈ l, e.released = true) (hd : d.released = false)
    (hok : s.signalOk c x (s.ctx c x) false d = true) :
    ∃ t, exec (.signalRelease c x) s = .next t ∧ SameMemory s t
      ∧ t.ctx c x = { s.ctx c x with signals := l ++ { d with released := true } :: r }
      ∧ (∀ e y, ¬ (e = c ∧ y = x) → t.ctx e y = s.ctx e y) ∧ (∀ e, e ≠ c → t.core e = s.core e)
      ∧ (t.core c).besidesCtxs = { (s.core c).besidesCtxs with barriers := arrived (s.core c) d.barrier }
      ∧ t.besidesCores = s.besidesCores := by
  rw [signalRelease_of_due (nextSignal_append hk hl hd) hok, hk, releaseFirst_append hl hd, arrive_one]
  refine ⟨_, rfl, sameMemory_setCore rfl, ?_, fun e y hey => ?_, fun e he => s.core_setCore_ne _ he.symm, ?_, rfl⟩
  · rw [State.ctx, State.core_setCore_same]
    exact Core.ctx_setCtx_same _ _ _
  · rw [State.ctx, State.core_setCore]
    split
    next hce =>
      subst hce
      exact Core.ctx_setCtx_ne _ _ (fun hxy => hey ⟨rfl, hxy.symm⟩)
    next => rfl
  · rw [State.core_setCore_same]
    rfl

theorem lateDue_append {s : State} {c x lx : Nat} {d : DefSignal} {l r : List (Nat × Nat × DefSignal)}
    (hk : (s.core c).lateSignals = l ++ (x, lx, d) :: r) (hl : ∀ e ∈ l, e.1 ≠ x)
    (hok : s.signalOk c x { Ctx.reset with lx := lx } true d = true) : s.lateDue c x = some (x, lx, d) := by
  have first (p : Nat × Nat × DefSignal → Bool) (hp : p (x, lx, d) = true) (hno : ∀ e, e.1 ≠ x → p e = false) :
      (l ++ (x, lx, d) :: r).find? p = some (x, lx, d) :=
    List.find?_eq_some_iff_append.mpr ⟨hp, l, r, rfl, fun e he => by simp [hno e (hl e he)]⟩
  rw [State.lateDue, hk]
  refine first _ ?_ fun e he => by simp [he]
  simp only [beq_self_eq_true, Bool.true_and, hok, Bool.and_true]
  rw [first _ (by simp) fun e he => by simp [he]]
  exact beq_self_eq_true _

theorem signalsRelease : SignalsRelease := by
  constructor
  · intro s c x d l r k hk hl hd hsig hwin hshadow hrows
    refine ownSignalReleases l r hk hl hd (signalOk_of hsig ?_ fun hm => ⟨fun _ => (hrows hm).1, (hrows hm).2⟩)
    exact (windowsDone_iff _ _ _ _).mpr ⟨hwin, by simpa only [decide_eq_true_eq] using hshadow⟩
  · intro s c x lx d l r hk hl hall hsaved hsig
    have hn : (s.ctx c x).nextSignal = none := List.find?_eq_none.mpr fun e he => by simp [hall e he]
    have hok : s.signalOk c x { Ctx.reset with lx := lx } true d = true := by
      refine signalOk_of hsig ((windowsDone_iff _ _ _ _).mpr ⟨?_, ?_⟩) fun _ => ⟨?_, ?_⟩
      · exact fun f hf => by cases hf
      · exact fun f hf => by cases hf
      · exact fun hs => by cases hs
      · exact fun w hw => by cases hw
    have notin : (x, lx, d) ∉ l := fun h => hl _ h rfl
    rw [signalRelease_of_late hn hsaved (lateDue_append hk hl hok), hk, dropEq_append notin, arrive_one]
    exact ⟨_, rfl, sameMemory_setCore rfl, onlyCore_setCore _ _ _⟩

/-! ## The budget (R106, R107) -/

theorem budgets : Budgets := by
  constructor
  · intro s c x h
    exact ⟨_, congrArg Host.Outcome.next (if_pos h), modCtx_only rfl rfl⟩
  · intro s c x k hb hsv hpre hstops hempty hbanks hhalted hissued
    have hdue : s.budgetDue c x = true := by
      simp only [State.budgetDue, Bool.and_eq_true]
      refine ⟨⟨⟨⟨beq_iff_eq.mpr hb, (runs_iff k).mpr ⟨hsv, hpre⟩⟩, ?_⟩, ?_⟩, ?_⟩
      · change (!k.stops.any _) = true
        rw [hstops]
        rfl
      · simp [hissued]
      · change (match k.status with | .empty | .banks | .halted => false | _ => true) = true
        cases hst : k.status <;> simp_all
    refine ⟨_, congrArg Host.Outcome.next (if_pos hdue), modCtx_only rfl ?_⟩
    change { k with stops := k.stops ++ _ } = _
    rw [hstops]
    rfl

/-- Settles O27: the checks of the model are the conditions of R103, R182 and R183. -/
theorem conditionsMet : Obligations.ConditionsMet := by
  unfold Obligations.ConditionsMet
  exact ⟨waitsMet, holdsEnd, signalsRelease, budgets⟩

end Sys2Proof.Machine

/-! # The end of a bundle (O31)

Its header acts first (`State.endHeader`), then the bundle's wait, fence and drain say how its context goes on (`State.endStatus`). Both
change the bundle's context and, of its core, only the first tick of the next bundle and the list of spoiled words (`OnlyBundle`). -/

namespace Sys2Proof.Machine
open Sys2Proof.Claims

/-! ## What the end of a bundle may change -/

/-- `t` is `s` but for the context of the bundle in the latch and, of its core, the next issue tick and the spoiled words. -/
structure OnlyBundle (s t : State) : Prop where
  others : ∀ d y, ¬ (d = s.iss.core ∧ y = s.iss.ctx) → t.ctx d y = s.ctx d y
  cores : ∀ d, { (t.core d).besidesCtxs with issueFrom := 0, bad := [] } = { (s.core d).besidesCtxs with issueFrom := 0, bad := [] }
  rest : t.besidesCores = s.besidesCores

namespace OnlyBundle
variable {s t u : State}

theorem refl (s : State) : OnlyBundle s s := ⟨fun _ _ _ => rfl, fun _ => rfl, rfl⟩

theorem iss (h : OnlyBundle s t) : t.iss = s.iss := (congrArg State.iss h.rest :)
theorem now (h : OnlyBundle s t) : t.now = s.now := (congrArg State.now h.rest :)
theorem cmds (h : OnlyBundle s t) : t.cmds = s.cmds := (congrArg State.cmds h.rest :)

theorem trans (h : OnlyBundle s t) (g : OnlyBundle t u) : OnlyBundle s u where
  others d y hdy := (g.others d y (h.iss.symm ▸ hdy)).trans (h.others d y hdy)
  cores d := (g.cores d).trans (h.cores d)
  rest := g.rest.trans h.rest

theorem sameMemory (h : OnlyBundle s t) : SameMemory s t := by
  have hs (d : Nat) : (t.core d).spad = (s.core d).spad := (congrArg Core.spad (h.cores d) :)
  have hc : t.channels = s.channels := (congrArg State.channels h.rest :)
  have hm : t.hostMem = s.hostMem := (congrArg State.hostMem h.rest :)
  exact ⟨fun d a => by simp only [State.spad, hs], fun tier ch a => by simp only [State.channel, hc, h.now], fun a => by rw [hm]⟩

/-- Whether a wait is met depends, of what the end of a bundle may change, on the queues of the bundle's context alone. -/
theorem met_iff (h : OnlyBundle s t) (hq : ∀ q, t.cur.head q = s.cur.head q) (w : WaitCond) :
    Met t s.iss.core s.iss.ctx w ↔ Met s s.iss.core s.iss.ctx w := by
  have hcur : t.ctx s.iss.core s.iss.ctx = t.cur := by rw [State.cur, h.iss]
  cases w with
  | barrier b g0 =>
    have : (t.core s.iss.core).barriers = (s.core s.iss.core).barriers := (congrArg Core.barriers (h.cores s.iss.core) :)
    simp only [Met, this]
  | queue q =>
    simp only [Met, hcur, hq]
    exact Iff.rfl
  | tick v => simp only [Met, h.now]
  | engine ids =>
    have hw : t.hostWrites = s.hostWrites := (congrArg State.hostWrites h.rest :)
    have hh : t.hsigs = s.hsigs := (congrArg State.hsigs h.rest :)
    simp only [Met, h.cmds, hw, hh]

end OnlyBundle

theorem onlyBundle_modCur (s : State) (f : Ctx → Ctx) : OnlyBundle s (s.modCur f) := by
  obtain ⟨-, hothers, hcores, hrest⟩ := onlyCtx_modCtx s s.iss.core s.iss.ctx f
  exact ⟨hothers, fun d => congrArg (fun k : Core => { k with issueFrom := 0, bad := [] }) (hcores d), hrest⟩

@[simp] theorem cur_modCur (s : State) (f : Ctx → Ctx) : (s.modCur f).cur = f s.cur := State.ctx_modCtx_same ..

/-- A change of the next issue tick or the spoiled words of the bundle's core is one of those allowed. -/
theorem onlyBundle_modCore (s : State) {f : Core → Core}
    (h : ∀ k, { f k with issueFrom := 0, bad := [] } = { k with issueFrom := 0, bad := [] }) : OnlyBundle s (s.modCore s.iss.core f) where
  others d y _ := by
    rw [State.ctx, State.core_modCore]
    split
    next hd => subst hd; exact (congrArg (fun k : Core => k.ctx y) (h (s.core s.iss.core)) :)
    next => rfl
  cores d := by
    rw [State.core_modCore]
    split
    next hd => subst hd; exact congrArg Core.besidesCtxs (h (s.core s.iss.core))
    next => rfl
  rest := rfl

theorem cur_modCore (s : State) {f : Core → Core}
    (h : ∀ k, { f k with issueFrom := 0, bad := [] } = { k with issueFrom := 0, bad := [] }) : (s.modCore s.iss.core f).cur = s.cur := by
  change ((s.modCore s.iss.core f).core s.iss.core).ctx s.iss.ctx = _
  rw [State.core_modCore_same]
  exact (congrArg (fun k : Core => k.ctx s.iss.ctx) (h (s.core s.iss.core)) :)

/-! ## The header: pops and loop end (R19, R99) -/

theorem pops_eq (k : Ctx) (pop : BitVec 4) :
    [0, 1, 2, 3].foldl (fun c q => if pop.getLsbD q then c.pop q else c) k = popped k pop := by
  have pop0 (c : Ctx) (b : Bool) : (if b then c.pop 0 else c)
      = { c with qrpos := if b then BitVec.ofNat 64 ((c.qrpos.toNat + 1) % 2 ^ 59) else c.qrpos } := by cases b <;> rfl
  have pop1 (c : Ctx) (b : Bool) : (if b then c.pop 1 else c)
      = { c with qg := if b then c.qg.tail else c.qg, aqocc := if b then c.aqocc - 1 else c.aqocc } := by cases b <;> rfl
  have pop2 (c : Ctx) (b : Bool) : (if b then c.pop 2 else c) = { c with qc := if b then c.qc.tail else c.qc } := by cases b <;> rfl
  have pop3 (c : Ctx) (b : Bool) : (if b then c.pop 3 else c) = { c with qm := if b then c.qm.tail else c.qm } := by cases b <;> rfl
  simp only [List.foldl_cons, List.foldl_nil, pop0, pop1, pop2, pop3]
  rfl

/-- A 32-bit value is in flight as the 1024-bit number it is. -/
theorem setWidth_eq_ofNat (v : BitVec 32) : v.setWidth 1024 = BitVec.ofNat 1024 v.toNat := by
  rw [BitVec.ofNat_toNat]

/-- The loop end of the model is the one of R99, with the word to go on at where it goes round. -/
theorem loopEnd_eq (s : State) (k : Ctx) (n : Nat) :
    loopEnd s k n = ((loopAdvance s k n).1, if (loopAdvance s k n).2 then some (tget k.lsw 0 n) else none) := by
  unfold loopEnd loopAdvance
  by_cases h : (tget k.lc 0 n).toNat ≤ 1
  · simp only [h, if_true, Bool.false_eq_true, if_false, setWidth_eq_ofNat, lowMask]
    rfl
  · have hle : (1 : BitVec 32) ≤ tget k.lc 0 n := BitVec.le_def.mpr (Nat.le_of_lt (Nat.not_le.mp h))
    simp only [h, if_true, if_false, setWidth_eq_ofNat, BitVec.toNat_add, BitVec.toNat_sub_of_le hle, lowMask]
    rfl

/-- A context once the header of its bundle has acted. -/
def State.headed (s : State) : Ctx :=
  let k := s.cur
  let e := s.iss.entry
  let adv := if hdrLend e = 0 then ([], false) else loopAdvance s k (hdrLend e - 1)
  { popped k (hdrPop e) with flights := k.flights ++ adv.1, pc := if adv.2 then tget k.lsw 0 (hdrLend e - 1) else s.iss.next }

/-- The word a bundle goes on with, and the results of its loop end. -/
def State.headEnd (s : State) : List Flight × Option (BitVec 16) :=
  if hdrLend s.iss.entry = 0 then ([], none) else loopEnd s s.cur (hdrLend s.iss.entry - 1)

/-- What the header does to the context of its bundle, all at once. -/
theorem headed_eq (s : State) : s.headed =
    { popped s.cur (hdrPop s.iss.entry) with flights := s.cur.flights ++ s.headEnd.1, pc := s.headEnd.2.getD s.iss.next } := by
  unfold State.headed State.headEnd
  by_cases hl : hdrLend s.iss.entry = 0
  · simp only [hl, if_true, Bool.false_eq_true, if_false, Option.getD_none]
  · simp only [hl, if_false, loopEnd_eq]
    cases (loopAdvance s s.cur (hdrLend s.iss.entry - 1)).2 <;> rfl

/-- The spoiled words that stay when the queues of a bundle's pop mask have been popped. -/
def State.badKept (s : State) (k : Core) : Core :=
  let gone (w : BadWord) : Bool := w.struct == 1 && w.ctx == s.iss.ctx && decide (371 ≤ w.place) && (hdrPop s.iss.entry).getLsbD (w.place - 371)
  { k with bad := k.bad.filter (fun w => !(gone w)) }

theorem endHeader_eq (s : State) : s.endHeader =
    (((s.modCur (fun c => [0, 1, 2, 3].foldl (fun c q => if (hdrPop s.iss.entry).getLsbD q then c.pop q else c) c)).modCore
      s.iss.core s.badKept).modCur (fun c => { c with flights := c.flights ++ s.headEnd.1 })).modCur
        (fun c => { c with pc := s.headEnd.2.getD s.iss.next }) := rfl

theorem endHeader_only (s : State) : OnlyBundle s s.endHeader := by
  rw [endHeader_eq]
  have popped_only := onlyBundle_modCur s fun c => [0, 1, 2, 3].foldl (fun c q => if (hdrPop s.iss.entry).getLsbD q then c.pop q else c) c
  have kept_only := popped_only.trans (onlyBundle_modCore (s.modCur _) (f := s.badKept) fun _ => rfl)
  exact (kept_only.trans (onlyBundle_modCur _ _)).trans (onlyBundle_modCur _ _)

theorem endHeader_cur (s : State) : s.endHeader.cur = s.headed := by
  have kept (f : Ctx → Ctx) : ((s.modCur f).modCore s.iss.core s.badKept).cur = f s.cur :=
    (cur_modCore (s.modCur f) (f := s.badKept) fun _ => rfl).trans (cur_modCur s f)
  rw [endHeader_eq, cur_modCur, cur_modCur, kept, pops_eq, headed_eq]
  rfl

/-! ## How the context goes on (R96, R104, R110, R183) -/

section
variable {s : State}

/-- A context that blocks or halts keeps its core from issuing for three ticks (R9). -/
def State.blockedWith (s : State) (f : Ctx → Ctx) : State :=
  (s.modCur f).modCore s.iss.core (fun k => { k with issueFrom := s.now + 3 })

theorem blockedWith_only (f : Ctx → Ctx) : OnlyBundle s (s.blockedWith f) :=
  (onlyBundle_modCur s f).trans (onlyBundle_modCore (s.modCur f) fun _ => rfl)

theorem blockedWith_cur (f : Ctx → Ctx) : (s.blockedWith f).cur = f s.cur :=
  (cur_modCore (s.modCur f) (f := fun k => { k with issueFrom := s.now + 3 }) fun _ => rfl).trans (cur_modCur s f)

theorem blockedWith_issueFrom (f : Ctx → Ctx) : ((s.blockedWith f).core s.iss.core).issueFrom = s.now + 3 :=
  congrArg Core.issueFrom (State.core_modCore_same ..)

theorem endStatus_of_halt (h : s.iss.halt = true) : s.endStatus = s.blockedWith (fun c => { c with status := .halted }) := if_pos h

theorem endStatus_of_wait {w : WaitReq} (hh : s.iss.halt = false) (hb : s.cur.bcast ≠ 2) (hw : s.iss.wait = some w)
    (hm : s.condMet s.iss.core s.iss.ctx (s.waitCond w) = false) :
    s.endStatus = s.blockedWith (fun c => { c with status := .waiting (s.waitCond w) s.now false, fenceLater := s.iss.fence }) := by
  simp only [State.endStatus, hh, hb, hw, hm, Bool.false_eq_true, if_false, Bool.not_false, if_true]
  rfl

/-- A bundle's wait does not hold its context where it has none or its condition is met. -/
def State.WaitPasses (s : State) : Prop := ∀ w, s.iss.wait = some w → s.condMet s.iss.core s.iss.ctx (s.waitCond w) = true

/-- A context that is neither halted nor blocked is held by its fences, in a drain, or issuing. -/
theorem endStatus_of_passes (hh : s.iss.halt = false) (hb : s.cur.bcast ≠ 2) (hw : s.WaitPasses) :
    s.endStatus = if s.iss.fence ≠ [] then
        s.modCur (fun c => { c with status := .fencing (s.iss.fence.map (fun f =>
          { f with notBefore := if hdrDrain s.iss.entry then drainTick s.now s.cur.flights else f.notBefore })) })
      else if hdrDrain s.iss.entry && decide (s.now + 1 < drainTick s.now s.cur.flights) then
        s.modCur (fun c => { c with status := .draining (drainTick s.now s.cur.flights) })
      else s := by
  cases hwait : s.iss.wait with
  | none => simp only [State.endStatus, hh, hb, hwait, Bool.false_eq_true, if_false]
  | some w => simp only [State.endStatus, hh, hb, hwait, hw w hwait, Bool.not_true, Bool.false_eq_true, if_false]

/-- The end of a bundle changes of its context but its status and the fences that its wait holds back. -/
theorem endStatus_only (s : State) : OnlyBundle s s.endStatus ∧ ∃ st fs, s.endStatus.cur = { s.cur with status := st, fenceLater := fs } := by
  by_cases hh : s.iss.halt = true
  · rw [endStatus_of_halt hh]
    exact ⟨blockedWith_only _, .halted, s.cur.fenceLater, blockedWith_cur _⟩
  replace hh := eq_false_of_ne_true hh
  by_cases hb : s.cur.bcast = 2
  · have : s.endStatus = s := by simp only [State.endStatus, hh, hb, Bool.false_eq_true, if_false, if_true]
    rw [this]
    exact ⟨.refl s, s.cur.status, s.cur.fenceLater, rfl⟩
  by_cases hw : s.WaitPasses
  · rw [endStatus_of_passes hh hb hw]
    split
    · exact ⟨onlyBundle_modCur s _, _, s.cur.fenceLater, cur_modCur s _⟩
    split
    · exact ⟨onlyBundle_modCur s _, _, s.cur.fenceLater, cur_modCur s _⟩
    · exact ⟨.refl s, s.cur.status, s.cur.fenceLater, rfl⟩
  · simp only [State.WaitPasses, not_forall] at hw
    obtain ⟨w, hwait, hm⟩ := hw
    rw [endStatus_of_wait hh hb hwait (eq_false_of_ne_true hm)]
    exact ⟨blockedWith_only _, _, s.iss.fence, blockedWith_cur _⟩

end

/-! ## The end of the bundle -/

/-- The stops that the trap of a bundle adds to its context, one tick later (R109). -/
def State.trapStops (s : State) : List (Nat × FaultRec) := match s.iss.trap with
  | some n => [(s.now + 1, ⟨33, 3, 0, BitVec.ofNat 64 n, BitVec.ofNat 64 s.cur.pc.toNat⟩)]
  | none => []

theorem finishBundle_of_no_trap {s : State} (hb : s.cur.bcast = 0) (h : s.iss.trap = none) :
    s.finishBundle = { s.endHeader.endStatus with iss := Issue.reset } := by
  simp only [State.finishBundle, hb, h]
  rfl

theorem finishBundle_of_trap {s : State} (hb : s.cur.bcast = 0) {n : Nat} (h : s.iss.trap = some n) : s.finishBundle =
    { s.endHeader.endStatus.addStop s.iss.core s.iss.ctx (s.now + 1) ⟨33, 3, 0, BitVec.ofNat 64 n, BitVec.ofNat 64 s.cur.pc.toNat⟩
      with iss := Issue.reset } := by
  simp only [State.finishBundle, hb, h]
  rfl

/-- The end of a bundle that no broadcast gang issues: beside the issue latch it changes what it may, and the context is left as its header
and its status leave it, with the stop of a trap. -/
theorem finishBundle_only {s : State} (hb : s.cur.bcast = 0) : ∃ t, s.finishBundle = { t with iss := Issue.reset }
    ∧ OnlyBundle s.endHeader t ∧ t.cur = { s.endHeader.endStatus.cur with stops := s.endHeader.endStatus.cur.stops ++ s.trapStops } := by
  obtain ⟨honly, -⟩ := endStatus_only s.endHeader
  have hiss : s.endHeader.endStatus.iss = s.iss := honly.iss.trans (endHeader_only s).iss
  cases htrap : s.iss.trap with
  | none =>
    refine ⟨_, finishBundle_of_no_trap hb htrap, honly, ?_⟩
    simp only [State.trapStops, htrap, List.append_nil]
  | some n =>
    refine ⟨_, finishBundle_of_trap hb htrap, ?_⟩
    rw [← hiss]
    refine ⟨honly.trans (onlyBundle_modCur _ _), (cur_modCur _ _).trans ?_⟩
    simp only [State.trapStops, htrap]

/-! ### Drains -/

theorem drainTick_append_singleton (now : Nat) (fs : List Flight) (f : Flight) :
    drainTick now (fs ++ [f]) = if f.counted then max (drainTick now fs) f.land else drainTick now fs := by
  rw [drainTick, List.foldl_append]
  rfl

theorem drainTick_spec (now : Nat) (fs : List Flight) : now + 1 ≤ drainTick now fs
    ∧ (∀ f ∈ fs, f.counted = true → f.land ≤ drainTick now fs)
    ∧ (drainTick now fs = now + 1 ∨ ∃ f ∈ fs, f.counted = true ∧ f.land = drainTick now fs) := by
  induction fs using List.reverseRecOn with
  | nil => exact ⟨le_refl _, fun f hf => (by cases hf), .inl rfl⟩
  | append_singleton fs f ih =>
    obtain ⟨hnow, hall, hreach⟩ := ih
    rw [drainTick_append_singleton]
    by_cases hc : f.counted = true
    · simp only [hc, if_true, List.mem_append, List.mem_singleton]
      refine ⟨le_max_of_le_left hnow, fun g hg hgc => ?_, ?_⟩
      · obtain hg | rfl := hg
        · exact le_max_of_le_left (hall g hg hgc)
        · exact le_max_right _ _
      · obtain hm | hm := max_choice (drainTick now fs) f.land <;> rw [hm]
        · exact hreach.imp_right fun ⟨g, hg, h⟩ => ⟨g, .inl hg, h⟩
        · exact .inr ⟨f, .inr rfl, hc, rfl⟩
    · simp only [hc, List.mem_append, List.mem_singleton, Bool.false_eq_true, if_false]
      refine ⟨hnow, fun g hg hgc => ?_, hreach.imp_right fun ⟨g, hg, h⟩ => ⟨g, .inl hg, h⟩⟩
      obtain hg | rfl := hg
      · exact hall g hg hgc
      · exact absurd hgc hc

/-- The tick at which a drain ends is the one of the model. -/
theorem drainEnd_eq {k : Ctx} {now d : Nat} (h : DrainEnd k now d) : d = drainTick now k.flights := by
  obtain ⟨hnow, hall, hreach⟩ := h
  obtain ⟨hnow', hall', hreach'⟩ := drainTick_spec now k.flights
  refine le_antisymm ?_ ?_
  · obtain rfl | ⟨f, hf, hc, rfl⟩ := hreach
    · exact hnow'
    · exact hall' f hf hc
  · obtain h' | ⟨f, hf, hc, h'⟩ := hreach'
    · exact h' ▸ hnow
    · exact h' ▸ hall f hf hc

/-! ### The clauses of `EndOfBundle` -/

section
variable {s : State}

/-- The context that a bundle leaves behind. -/
theorem finishBundle_ctx (hb : s.cur.bcast = 0) : (s.finishBundle).ctx s.iss.core s.iss.ctx
    = { s.endHeader.endStatus.cur with stops := s.endHeader.endStatus.cur.stops ++ s.trapStops } := by
  obtain ⟨t, ht, honly, hcur⟩ := finishBundle_only hb
  have hiss : t.iss = s.iss := honly.iss.trans (endHeader_only s).iss
  rw [ht, ← hcur, State.cur, hiss]
  rfl

theorem finishBundle_ctx_of_no_trap (hb : s.cur.bcast = 0) (h : s.iss.trap = none) :
    (s.finishBundle).ctx s.iss.core s.iss.ctx = s.endHeader.endStatus.cur := by
  rw [finishBundle_ctx hb]
  simp only [State.trapStops, h, List.append_nil]

/-- A wait's condition is the same at the end of its bundle as before its status is taken. -/
theorem finishBundle_met_iff (hb : s.cur.bcast = 0) (w : WaitCond) :
    Met s.finishBundle s.iss.core s.iss.ctx w ↔ s.endHeader.condMet s.iss.core s.iss.ctx w = true := by
  obtain ⟨t, ht, honly, hcur⟩ := finishBundle_only hb
  obtain ⟨-, st, fs, hst⟩ := endStatus_only s.endHeader
  have hiss := (endHeader_only s).iss
  have hmet := honly.met_iff (fun q => by rw [hcur, hst]; rfl) w
  rw [hiss] at hmet
  rw [State.condMet, condMet_iff, ← hmet, ht]
  cases w <;> rfl

theorem endHeader_passes_of_no_wait (h : s.iss.wait = none) : s.endHeader.WaitPasses := by
  intro w hw
  rw [(endHeader_only s).iss, h] at hw
  cases hw

theorem endHeader_bcast (hb : s.cur.bcast = 0) : s.endHeader.cur.bcast ≠ 2 := by
  rw [endHeader_cur, show s.headed.bcast = s.cur.bcast from rfl, hb]
  decide

/-- A context that is neither halted nor blocked, as its bundle leaves it. -/
theorem endHeader_status_of_passes (hb : s.cur.bcast = 0) (hh : s.iss.halt = false) (hw : s.endHeader.WaitPasses) :
    s.endHeader.endStatus.cur = if s.iss.fence ≠ [] then
        { s.headed with status := .fencing (s.iss.fence.map (fun f =>
          { f with notBefore := if hdrDrain s.iss.entry then drainTick s.now s.headed.flights else f.notBefore })) }
      else if hdrDrain s.iss.entry && decide (s.now + 1 < drainTick s.now s.headed.flights) then
        { s.headed with status := .draining (drainTick s.now s.headed.flights) }
      else s.headed := by
  have hiss := (endHeader_only s).iss
  rw [endStatus_of_passes (hiss ▸ hh) (endHeader_bcast hb) hw, hiss, (endHeader_only s).now, endHeader_cur]
  split_ifs <;> simp only [cur_modCur, endHeader_cur]

/-- The commands that an engine wait waits for (R103). -/
theorem endHeader_waitCond_engine (cls : Nat) : s.endHeader.waitCond (.engine cls) = .engine
    (((s.cmds.filter (fun m => m.core == s.iss.core && m.ctx == s.iss.ctx && m.lx == s.cur.lx && decide (m.phase < 2))).filter
      (fun m => m.cls == cls)).map (·.id)) := by
  have hlx : s.endHeader.cur.lx = s.cur.lx := by rw [endHeader_cur]; rfl
  simp only [State.waitCond, (endHeader_only s).iss, (endHeader_only s).cmds, hlx, List.filter_filter]
  congr 3
  funext m
  cases m.cls == cls <;> simp

/-- A context that blocks in the wait of its bundle. -/
theorem endHeader_status_of_wait (hb : s.cur.bcast = 0) (hh : s.iss.halt = false) {w : WaitReq} (hw : s.iss.wait = some w)
    (hm : ¬ s.endHeader.condMet s.iss.core s.iss.ctx (s.endHeader.waitCond w) = true) :
    s.endHeader.endStatus = s.endHeader.blockedWith (fun c =>
      { c with status := .waiting (s.endHeader.waitCond w) s.now false, fenceLater := s.iss.fence }) := by
  have hiss := (endHeader_only s).iss
  have := endStatus_of_wait (hiss ▸ hh) (endHeader_bcast hb) (hiss ▸ hw) (eq_false_of_ne_true (hiss.symm ▸ hm))
  rw [this, hiss, (endHeader_only s).now]

theorem finishBundle_halted (hb : s.cur.bcast = 0) (hh : s.iss.halt = true) (ht : s.iss.trap = none) :
    (s.finishBundle).ctx s.iss.core s.iss.ctx = { s.headed with status := .halted } := by
  rw [finishBundle_ctx_of_no_trap hb ht, endStatus_of_halt ((endHeader_only s).iss ▸ hh), blockedWith_cur, endHeader_cur]

theorem finishBundle_issuing (hb : s.cur.bcast = 0) (hh : s.iss.halt = false) (hw : s.endHeader.WaitPasses) (hf : s.iss.fence = [])
    (hd : hdrDrain s.iss.entry = false) :
    (s.finishBundle).ctx s.iss.core s.iss.ctx = { s.headed with stops := s.cur.stops ++ s.trapStops } := by
  rw [finishBundle_ctx hb, endHeader_status_of_passes hb hh hw, if_neg (not_not.mpr hf), hd, Bool.false_and, if_neg Bool.false_ne_true]
  rfl

theorem finishBundle_waiting (hb : s.cur.bcast = 0) (hh : s.iss.halt = false) (ht : s.iss.trap = none) {w : WaitReq}
    (hw : s.iss.wait = some w) (hm : ¬ s.endHeader.condMet s.iss.core s.iss.ctx (s.endHeader.waitCond w) = true) :
    (s.finishBundle).ctx s.iss.core s.iss.ctx
        = { s.headed with status := .waiting (s.endHeader.waitCond w) s.now false, fenceLater := s.iss.fence }
      ∧ ((s.finishBundle).core s.iss.core).issueFrom = s.now + 3 := by
  have hst := endHeader_status_of_wait hb hh hw hm
  constructor
  · rw [finishBundle_ctx_of_no_trap hb ht, hst, blockedWith_cur, endHeader_cur]
  · have hfrom := blockedWith_issueFrom (s := s.endHeader) (fun c =>
      { c with status := .waiting (s.endHeader.waitCond w) s.now false, fenceLater := s.iss.fence })
    rw [(endHeader_only s).iss, (endHeader_only s).now, ← hst] at hfrom
    rw [finishBundle_of_no_trap hb ht]
    exact hfrom

theorem finishBundle_fencing (hb : s.cur.bcast = 0) (hh : s.iss.halt = false) (ht : s.iss.trap = none) (hw : s.iss.wait = none)
    (hf : s.iss.fence ≠ []) : (s.finishBundle).ctx s.iss.core s.iss.ctx = { s.headed with status := .fencing (s.iss.fence.map (fun f =>
      { f with notBefore := if hdrDrain s.iss.entry then drainTick s.now s.headed.flights else f.notBefore })) } := by
  rw [finishBundle_ctx_of_no_trap hb ht, endHeader_status_of_passes hb hh (endHeader_passes_of_no_wait hw), if_pos hf]

theorem finishBundle_draining (hb : s.cur.bcast = 0) (hh : s.iss.halt = false) (ht : s.iss.trap = none) (hw : s.iss.wait = none)
    (hf : s.iss.fence = []) (hd : hdrDrain s.iss.entry = true) : (s.finishBundle).ctx s.iss.core s.iss.ctx =
      if s.now + 1 < drainTick s.now s.headed.flights then { s.headed with status := .draining (drainTick s.now s.headed.flights) }
      else s.headed := by
  rw [finishBundle_ctx_of_no_trap hb ht, endHeader_status_of_passes hb hh (endHeader_passes_of_no_wait hw), if_neg (not_not.mpr hf), hd,
    Bool.true_and]
  simp only [decide_eq_true_eq]

/-- A wait on a condition passes where it is met at the end of the bundle. -/
theorem endHeader_passes_of_met (hb : s.cur.bcast = 0) {w : WaitCond} (hw : s.iss.wait = some (.cond w))
    (hm : Met s.finishBundle s.iss.core s.iss.ctx w) : s.endHeader.WaitPasses := by
  intro w' hw'
  rw [(endHeader_only s).iss, hw] at hw'
  obtain rfl := Option.some.inj hw'
  rw [(endHeader_only s).iss]
  exact (finishBundle_met_iff hb w).mp hm

/-- An engine wait blocks while a command of its set has not ended. -/
theorem endHeader_engine_blocks {cls : Nat} {m : Cmd} (hm : m ∈ s.cmds.filter (fun m => m.core == s.iss.core && m.ctx == s.iss.ctx
      && m.lx == s.cur.lx && decide (m.phase < 2))) (hc : m.cls = cls) :
    ¬ s.endHeader.condMet s.iss.core s.iss.ctx (s.endHeader.waitCond (.engine cls)) = true := by
  rw [endHeader_waitCond_engine, State.condMet, condMet_iff]
  intro h
  obtain ⟨hmem, hp⟩ := List.mem_filter.mp hm
  simp only [Bool.and_eq_true, decide_eq_true_eq] at hp
  have hin := List.mem_map_of_mem (f := Cmd.id) (List.mem_filter (p := fun m => m.cls == cls) |>.mpr ⟨hm, beq_iff_eq.mpr hc⟩)
  have hend := (h m.id hin).1 m ((endHeader_only s).cmds ▸ hmem) rfl
  omega

end

/-- What the end of a bundle leaves as it was. -/
theorem finishBundle_frame {s : State} (hb : s.cur.bcast = 0) : s.finishBundle.iss = Issue.reset ∧ SameMemory s s.finishBundle
    ∧ { s.finishBundle.besidesCores with iss := s.iss } = s.besidesCores
    ∧ (∀ d y, ¬ (d = s.iss.core ∧ y = s.iss.ctx) → s.finishBundle.ctx d y = s.ctx d y)
    ∧ ∀ d, { (s.finishBundle.core d).besidesCtxs with issueFrom := 0, bad := [] }
      = { (s.core d).besidesCtxs with issueFrom := 0, bad := [] } := by
  obtain ⟨t, ht, honly, -⟩ := finishBundle_only hb
  have hall := (endHeader_only s).trans honly
  rw [ht]
  exact ⟨rfl, hall.sameMemory, (congrArg (fun r : State => { r with iss := s.iss }) hall.rest :), hall.others, hall.cores⟩

theorem endOfBundle : EndOfBundle := by
  intro s k e adv k1 t u ids hb
  obtain ⟨hlatch, hmem, hrest, hothers, hcores⟩ := finishBundle_frame hb
  have hhead : s.headed = k1 := rfl
  refine ⟨hlatch, hmem, hrest, hothers, hcores, fun hh ht => ?_, fun hh hw hf hd => ?_, fun hh ht w hw => ⟨fun hm => ?_, fun hm hf hd => ?_⟩,
    fun hh ht cls hw hids => ?_, fun hh ht hw hf => ⟨fun hd => ?_, fun hd d hend => ?_⟩, fun hh ht hw hf hd d hend => ?_⟩
  · rw [← hhead]
    exact finishBundle_halted hb hh ht
  · rw [← hhead]
    exact finishBundle_issuing hb hh (endHeader_passes_of_no_wait hw) hf hd
  · rw [← hhead]
    exact finishBundle_waiting hb hh ht hw (mt (finishBundle_met_iff hb w).mpr hm)
  · rw [← hhead]
    refine (finishBundle_issuing hb hh (endHeader_passes_of_met hb hw hm) hf hd).trans ?_
    simp only [State.trapStops, ht, List.append_nil]
    rfl
  · rw [← hhead]
    obtain ⟨m, hm, hc⟩ := hids
    have hwait := (finishBundle_waiting hb hh ht hw (endHeader_engine_blocks hm hc)).1
    rw [endHeader_waitCond_engine] at hwait
    exact hwait
  · rw [← hhead]
    refine (finishBundle_fencing hb hh ht hw hf).trans ?_
    simp only [show hdrDrain s.iss.entry = false from hd, Bool.false_eq_true, if_false, List.map_id']
  · rw [← hhead] at hend ⊢
    refine (finishBundle_fencing hb hh ht hw hf).trans ?_
    simp only [show hdrDrain s.iss.entry = true from hd, if_true, drainEnd_eq hend]
  · rw [← hhead] at hend ⊢
    rw [drainEnd_eq hend]
    exact finishBundle_draining hb hh ht hw hf hd

/-! ## The words of a lead (R263) -/

theorem modOwner_core_ne (s : State) {c d : Nat} (x lx : Nat) (f : Ctx → Ctx) (h : c ≠ d) : (s.modOwner c x lx f).core d = s.core d := by
  unfold State.modOwner
  split
  · rfl
  split
  · exact s.core_setCore_ne _ h
  · exact s.core_setCore_ne _ h

theorem modOwner_ctx_same {s : State} {c x lx : Nat} (f : Ctx → Ctx) (h : lx ≠ 0) (ho : (s.ctx c x).lx = lx) :
    (s.modOwner c x lx f).ctx c x = f (s.ctx c x) := by
  rw [State.modOwner, if_neg h, if_pos ho, State.ctx_modCtx_same]

theorem modOwner_rest (s : State) (c x lx : Nat) (f : Ctx → Ctx) : (s.modOwner c x lx f).besidesCores = s.besidesCores := by
  unfold State.modOwner
  split
  · rfl
  split
  · rfl
  · rfl

/-- A member takes the word of its lead, as many ticks later as `m` says. -/
def State.hand (s : State) (x lx at' : Nat) (b : BWord) (m : Nat × Nat) : State :=
  s.modOwner m.1 x lx (fun c => { c with bq := c.bq ++ [{ b with tick := at' + m.2 }] })

theorem handOut_eq (s : State) (x lx at' : Nat) (b : BWord) :
    s.handOut x lx at' b = (s.members lx).foldl (fun s m => s.hand x lx at' b m) s := rfl

section
variable {x lx at' : Nat} {b : BWord}

theorem hands_rest (ms : List (Nat × Nat)) (s : State) : (ms.foldl (fun s m => s.hand x lx at' b m) s).besidesCores = s.besidesCores := by
  induction ms generalizing s with
  | nil => rfl
  | cons m ms ih => exact (ih _).trans (modOwner_rest ..)

theorem hands_ctx_ne (ms : List (Nat × Nat)) (s : State) {d : Nat} (h : ∀ m ∈ ms, m.1 ≠ d) (y : Nat) :
    (ms.foldl (fun s m => s.hand x lx at' b m) s).ctx d y = s.ctx d y := by
  induction ms generalizing s with
  | nil => rfl
  | cons m ms ih =>
    obtain ⟨hm, hms⟩ := List.forall_mem_cons.mp h
    exact (ih _ hms).trans (congrArg (fun k : Core => k.ctx y) (modOwner_core_ne s x lx _ hm))

/-- Of members with cores of their own, each takes the word once. -/
theorem hands_ctx (ms : List (Nat × Nat)) (s : State) {d k : Nat} (hn : (ms.map Prod.fst).Nodup) (hd : (d, k) ∈ ms) (hlx : lx ≠ 0)
    (ho : (s.ctx d x).lx = lx) : (ms.foldl (fun s m => s.hand x lx at' b m) s).ctx d x
      = { s.ctx d x with bq := (s.ctx d x).bq ++ [{ b with tick := at' + k }] } := by
  induction ms generalizing s with
  | nil => cases hd
  | cons m ms ih =>
    obtain ⟨hm, hn⟩ := List.nodup_cons.mp hn
    obtain rfl | hd := List.mem_cons.mp hd
    · refine (hands_ctx_ne ms _ (fun m hmem he => hm (List.mem_map.mpr ⟨m, hmem, he⟩)) x).trans ?_
      exact modOwner_ctx_same _ hlx ho
    · have hne : m.1 ≠ d := fun he => hm (he ▸ List.mem_map_of_mem (f := Prod.fst) hd)
      have hkeep : (s.hand x lx at' b m).ctx d x = s.ctx d x := congrArg (fun k : Core => k.ctx x) (modOwner_core_ne s x lx _ hne)
      have := ih (s.hand x lx at' b m) hn hd (by rw [hkeep]; exact ho)
      rw [hkeep] at this
      exact this

end

theorem members_nodup (s : State) (lx : Nat) : ((s.members lx).map Prod.fst).Nodup := by
  unfold State.members
  split
  next l _ =>
    refine List.Nodup.sublist (List.Sublist.map _ List.filter_sublist) ?_
    rw [List.map_map]
    exact List.nodup_range.map fun i j hij => Nat.add_left_cancel hij
  next => exact List.nodup_nil

theorem mem_members {s : State} {lx : Nat} {l : Launch} {d : Nat} (hl : s.findLaunch lx = some l) (hd : d ∈ l.cores)
    (hlead : d ≠ l.fcore ∨ l.modix ≠ 0) : (d, (l.modix * (l.ncore + 1) + (d - l.fcore)) * l.skew) ∈ s.members lx := by
  obtain ⟨i, hi, rfl⟩ := List.mem_map.mp hd
  rw [State.members, hl, Nat.add_sub_cancel_left]
  refine List.mem_filter.mpr ⟨List.mem_map.mpr ⟨i, hi, rfl⟩, ?_⟩
  simpa using hlead

/-- A state without its ports and its outputs, all that a message changes. -/
def State.besidesSent (s : State) : State := { s with ports := [], outputs := [] }

/-- Flits that wait at ports change the ports alone. -/
theorem enqueues_rest {α : Type} (l : List α) (p : α → Nat) (f : α → FlitOut) (s : State) :
    { l.foldl (fun s r => s.enqueue (p r) (f r)) s with ports := [] } = { s with ports := [] } := by
  induction l generalizing s with
  | nil => rfl
  | cons r l ih => exact (ih _).trans rfl

theorem tell_outputs (s : State) (port kind : Nat) (v : Word) :
    (s.tell port kind v).outputs = s.outputs ++ [.message s.now port kind v] :=
  (congrArg State.outputs (enqueues_rest _ Prod.fst _ _) :)

theorem tell_rest (s : State) (port kind : Nat) (v : Word) : (s.tell port kind v).besidesSent = s.besidesSent :=
  (congrArg (fun t : State => { t with outputs := [] }) (enqueues_rest _ Prod.fst _ _) :)

/-- The word that the lead hands to its gang at the end of its bundle. -/
def State.leadWordOut (s : State) : BWord := ⟨0, false, s.iss.word, s.cur.pc, s.iss.outcome⟩

theorem broadcast_of_alone {s : State} {x lx : Nat} {l : Launch} (b : BWord) (hl : s.findLaunch lx = some l) (h : l.nmod = 0) :
    s.broadcast x lx b = s.handOut x lx s.now b := by
  simp only [State.broadcast, hl, h, if_true]

theorem broadcast_of_modules {s : State} {x lx : Nat} {l : Launch} (b : BWord) (hl : s.findLaunch lx = some l) (h : l.nmod ≠ 0) :
    s.broadcast x lx b = (s.handOut x lx s.now b).tell 15 5 (b.packed s.now l.lid) := by
  simp only [State.broadcast, hl, h, if_false]

theorem handOut_rest (s : State) (x lx at' : Nat) (b : BWord) : (s.handOut x lx at' b).besidesCores = s.besidesCores :=
  hands_rest _ s

/-- The lead's message goes out beside what its own module does: it changes no core, nor the latch. -/
theorem broadcast_cores {s : State} {x lx : Nat} {l : Launch} (b : BWord) (hl : s.findLaunch lx = some l) :
    (s.broadcast x lx b).cores = (s.handOut x lx s.now b).cores ∧ (s.broadcast x lx b).iss = s.iss := by
  have hiss : (s.handOut x lx s.now b).iss = s.iss := (congrArg State.iss (handOut_rest s x lx s.now b) :)
  by_cases h : l.nmod = 0
  · rw [broadcast_of_alone b hl h]
    exact ⟨rfl, hiss⟩
  · rw [broadcast_of_modules b hl h]
    have hrest := tell_rest (s.handOut x lx s.now b) 15 5 (b.packed s.now l.lid)
    exact ⟨(congrArg State.cores hrest :), (congrArg State.iss hrest :).trans hiss⟩

theorem onlyBundle_bq {s t : State} (h : OnlyBundle s t) (hcur : t.cur.bq = s.cur.bq) (d y : Nat) :
    (t.ctx d y).bq = (s.ctx d y).bq := by
  by_cases hdy : d = s.iss.core ∧ y = s.iss.ctx
  · obtain ⟨rfl, rfl⟩ := hdy
    rw [State.cur, h.iss] at hcur
    exact hcur
  · rw [h.others d y hdy]

/-- The header and the status of a bundle leave the words of every context as they were, and so does the stop of a trap. -/
theorem endStatus_words (s : State) : OnlyBundle s s.endHeader.endStatus ∧ s.endHeader.endStatus.cur.bq = s.cur.bq := by
  obtain ⟨honly, st, fs, hst⟩ := endStatus_only s.endHeader
  refine ⟨(endHeader_only s).trans honly, ?_⟩
  rw [hst, endHeader_cur]
  rfl

theorem onlyBundle_addStop {s : State} {c x : Nat} (hc : c = s.iss.core) (hx : x = s.iss.ctx) (tick : Nat) (f : FaultRec) :
    OnlyBundle s (s.addStop c x tick f) ∧ (s.addStop c x tick f).cur.bq = s.cur.bq := by
  subst hc hx
  exact ⟨onlyBundle_modCur s _, (congrArg Ctx.bq (cur_modCur s fun k => { k with stops := k.stops ++ [(tick, f)] }) :)⟩

/-- The end of a lead's bundle is one of its own, after it has handed its word out: words and outputs stay as they are then. -/
theorem finishBundle_lead {s : State} (hb : s.cur.bcast = 1) (hi : (s.broadcast s.iss.ctx s.cur.lx s.leadWordOut).iss = s.iss) :
    ∃ t, s.finishBundle = { t with iss := Issue.reset } ∧ OnlyBundle (s.broadcast s.iss.ctx s.cur.lx s.leadWordOut) t
      ∧ t.cur.bq = (s.broadcast s.iss.ctx s.cur.lx s.leadWordOut).cur.bq := by
  obtain ⟨honly, hbq⟩ := endStatus_words (s.broadcast s.iss.ctx s.cur.lx s.leadWordOut)
  have hiss := honly.iss.trans hi
  cases htrap : s.iss.trap with
  | none =>
    refine ⟨_, ?_, honly, hbq⟩
    simp only [State.finishBundle, hb, htrap]
    rfl
  | some n =>
    obtain ⟨hstop, hstopq⟩ := onlyBundle_addStop (congrArg Issue.core hiss.symm) (congrArg Issue.ctx hiss.symm) (s.now + 1)
      ⟨33, 3, 0, BitVec.ofNat 64 n, BitVec.ofNat 64 s.cur.pc.toNat⟩
    refine ⟨_, ?_, honly.trans hstop, hstopq.trans hbq⟩
    simp only [State.finishBundle, hb, htrap]
    rfl

theorem packed_of_word {b : BWord} (h : b.wait = false) (t lid : Nat) : b.packed t lid = BitVec.ofNat 64 (b.word.toNat + b.pc.toNat * 2 ^ 16
    + b.outcome % 8 * 2 ^ 32 + t % 2 ^ 12 * 2 ^ 36 + lid % 2 ^ 16 * 2 ^ 48) := by
  rw [BWord.packed, h, if_neg Bool.false_ne_true, Nat.add_zero]

theorem leadHands : LeadHands := by
  intro s l d x hb hlx hl
  obtain ⟨hcores, hiss⟩ := broadcast_cores (x := x) s.leadWordOut hl
  obtain ⟨t, ht, honly, hbq⟩ := finishBundle_lead hb hiss
  have hout : t.outputs = (s.broadcast x s.cur.lx s.leadWordOut).outputs := (congrArg State.outputs honly.rest :)
  have hhand : (s.handOut x s.cur.lx s.now s.leadWordOut).outputs = s.outputs := (congrArg State.outputs (handOut_rest s x s.cur.lx s.now _) :)
  rw [ht]
  refine ⟨fun hd hlead ho => ?_, fun h => ?_, fun h => ?_⟩
  · have hctx : (s.broadcast x s.cur.lx s.leadWordOut).ctx d x = (s.handOut x s.cur.lx s.now s.leadWordOut).ctx d x := by
      simp only [State.ctx, State.core, hcores]
    change (t.ctx d x).bq = _
    rw [onlyBundle_bq honly hbq, hctx, handOut_eq, hands_ctx _ _ (members_nodup _ _) (mem_members hl hd hlead) hlx ho]
    rfl
  · change t.outputs = _
    rw [hout, broadcast_of_alone _ hl h, hhand]
  · have hnow : (s.handOut x s.cur.lx s.now s.leadWordOut).now = s.now := (congrArg State.now (handOut_rest s x s.cur.lx s.now _) :)
    change t.outputs = _
    rw [hout, broadcast_of_modules _ hl h, tell_outputs, hnow, hhand, packed_of_word rfl]
    rfl

/-- Settles O31: the end of a bundle as its header, its status and its trap make it, after a lead has handed its word out. -/
theorem bundleEnds : Obligations.BundleEnds := by
  unfold Obligations.BundleEnds
  exact ⟨endOfBundle, leadHands⟩

end Sys2Proof.Machine

/-! # The checks of a bundle (O34)

R179 has the word ESTAT of a context stored to as a whole, at `0x0400F800` plus 8 times its number, and the statement says that every
other store to those words takes the window fault (code 10). The model's `barStoreOf` takes each 8-byte store whose first byte lies in
them, aligned or not: a misaligned one has the alignment fault (code 8) and no window fault. -/

namespace Sys2Proof.Machine
open Sys2Proof.Claims

/-- A context whose A0 names the second byte of the ESTAT word of context 0. -/
def estatCtx : Ctx := { Ctx.reset with status := .issuing, lx := 1, a := [(0, 0x0400F801)] }

/-- The module in which it stores there. -/
def estatState : State := { State.reset with cores := [(0, { Core.reset with ctxs := [(0, estatCtx)] })] }

/-- The store: eight bytes from that address. -/
def estatStore : Instr := .st64 .ma 0 0 0 0

/-- What it asks of the memory. -/
def estatReq : MReq := ⟨.ma, .store, false, 8, 0x0400F801, 0, (estatState.sel (memSlot .ma) 0).setWidth 1024⟩

theorem estatStore_asks : memReq estatState estatStore = some estatReq := by
  have haddr : estatState.plainAddr 0 0 8 = 0x0400F801 := by decide
  rw [estatStore, memReq, haddr, estatReq]

theorem estatState_noBadWord : NoBadWord estatState := by
  intro c
  by_cases hc : 0 = c
  · subst hc; rfl
  · simp only [State.core, estatState, tget, hc, if_false]
    rfl

/-- The barrier window admits 8-byte stores to its registers alone, none of which begins at that address. -/
theorem estatReq_not_admitted : Window estatReq.addr ∧ ¬ Admitted 0 estatReq := by
  refine ⟨.inr (by decide), ?_⟩
  simp only [Admitted, estatReq]
  rintro (⟨h, -⟩ | ⟨-, h, -⟩ | ⟨-, -, ⟨h, -⟩ | ⟨-, -, ⟨b, hb, h⟩ | ⟨p, b, hp, hb, h⟩ | ⟨y, hy, h⟩⟩ | ⟨-, h, -⟩⟩ | ⟨h, -⟩
    | ⟨o, w, -, ⟨h, -⟩ | ⟨-, -, h, -⟩⟩)
  · omega
  · omega
  · cases h
  · omega
  · omega
  · omega
  · omega
  · cases h
  · cases h
  · omega

/-- All its faults: the alignment fault. -/
theorem estatStore_faults : bundleFaults estatState [estatStore] = [bfault 8 0x0400F801 8] := by decide

/-- Refutes O34: of a misaligned store to ESTAT the statement has the window fault, which the model does not make. -/
theorem not_bundleIssues : ¬ Obligations.BundleIssues := by
  unfold Obligations.BundleIssues Claims.ChecksFail
  rintro ⟨-, -, checks, -⟩
  obtain ⟨-, -, -, -, -, -, window, -⟩ := checks estatState [estatStore] (by simp [estatStore]) estatState_noBadWord
  obtain ⟨hwin, hadm⟩ := estatReq_not_admitted
  obtain ⟨f, hf, hcode⟩ := window.mpr ⟨estatReq, ⟨estatStore, List.mem_singleton_self _, estatStore_asks⟩, hwin, hadm⟩
  rw [estatStore_faults, List.mem_singleton] at hf
  subst hf
  exact absurd hcode (by decide)

end Sys2Proof.Machine

/-! # Words and instructions (O54, O55, O56)

A word is a row of fields, each of a width and a value (R54, R57 to R69, R299). `eq_iff_hasFields` says once that a sum of shifted fields
is a word exactly when the word holds these fields; every layout's lemma, and so both round trips, follow from it. -/

namespace Sys2Proof

open Sys2Proof.Machine Sys2Proof.Claims

/-! ## Fields of a word -/

@[simp] theorem toNat_bv (n w lo : Nat) : (bv n w lo).toNat = bitsAt w lo n := BitVec.toNat_ofNat ..

theorem bv_eq_iff {n : Nat} (w lo : Nat) (x : BitVec n) : bv n w lo = x ↔ bitsAt w lo n = x.toNat := by
  rw [← BitVec.toNat_inj, toNat_bv]

/-- A field of a word: its width and its bits. -/
abbrev Field := (n : Nat) × BitVec n

/-- Fields side by side, the lowest first. -/
def packFields : List Field → Nat
  | [] => 0
  | ⟨n, v⟩ :: r => v.toNat + 2 ^ n * packFields r

/-- From bit `lo` up a word holds these fields, and nothing above them. -/
def HasFields (w lo : Nat) : List Field → Prop
  | [] => w < 2 ^ lo
  | ⟨n, v⟩ :: r => bv n w lo = v ∧ HasFields w (lo + n) r

theorem packFields_eq_div_iff (fs : List Field) (w lo : Nat) : packFields fs = w / 2 ^ lo ↔ HasFields w lo fs := by
  induction fs generalizing lo with
  | nil => simp [packFields, HasFields, eq_comm (a := 0), Nat.div_eq_zero_iff]
  | cons f r ih =>
    obtain ⟨n, v⟩ := f
    have hdiv := Nat.div_mod_unique (a := w / 2 ^ lo) (c := v.toNat) (d := packFields r) (Nat.two_pow_pos n)
    rw [and_iff_left v.isLt, Nat.div_div_eq_div_mul, ← Nat.pow_add, eq_comm, ih, and_comm] at hdiv
    rw [packFields, HasFields, bv_eq_iff]
    exact hdiv.symm

/-- A word that is made of fields is known by them. -/
theorem eq_iff_hasFields {x w : Nat} (fs : List Field) (hx : x = packFields fs) : x = w ↔ HasFields w 0 fs := by
  rw [hx, ← packFields_eq_div_iff]
  simp

/-! ## The layouts that several operations share -/

theorem bv_eq_ofNat_iff {n w lo v : Nat} (hv : v < 2 ^ n) : bv n w lo = BitVec.ofNat n v ↔ bitsAt w lo n = v := by
  rw [bv_eq_iff, BitVec.toNat_ofNat, Nat.mod_eq_of_lt hv]

theorem enc3_eq_iff {op : Nat} (hop : op < 2 ^ 5) {w : Nat} {t : BitVec 3} {d : Dst} {a b : BitVec 5} : enc3 op t d a b = w ↔
    bv 5 w 0 = b ∧ bv 5 w 5 = a ∧ bv 3 w 10 = d.copy ∧ bv 4 w 13 = d.idx ∧ bitsAt w 17 5 = op ∧ bv 3 w 22 = t ∧ w < 2 ^ 25 := by
  rw [← bv_eq_ofNat_iff hop]
  exact eq_iff_hasFields [⟨5, b⟩, ⟨5, a⟩, ⟨3, d.copy⟩, ⟨4, d.idx⟩, ⟨5, BitVec.ofNat 5 op⟩, ⟨3, t⟩]
    (by simp only [enc3, packFields, BitVec.toNat_ofNat]; omega)

theorem encV_eq_iff {op : Nat} (hop : op < 2 ^ 5) {w : Nat} {f : VecFields} : encV op f = w ↔
    (⟨bv 3 w 32, bv 4 w 23, bv 2 w 21, bv 5 w 16, bv 5 w 11, bv 5 w 6, bv 3 w 3, bv 3 w 0⟩ : VecFields) = f
    ∧ bitsAt w 27 5 = op ∧ w < 2 ^ 35 := by
  rw [← bv_eq_ofNat_iff hop, eq_iff_hasFields [⟨3, f.md⟩, ⟨3, f.km⟩, ⟨5, f.vb⟩, ⟨5, f.va⟩, ⟨5, f.vd⟩, ⟨2, f.w⟩, ⟨4, f.ty⟩,
    ⟨5, BitVec.ofNat 5 op⟩, ⟨3, f.tag⟩] (by simp only [encV, packFields, BitVec.toNat_ofNat]; omega)]
  obtain ⟨t, ty, wd, vd, va, vb, km, md⟩ := f
  simp only [HasFields, VecFields.mk.injEq]
  tauto

theorem encMD_eq_iff {op : Nat} (hop : op < 2 ^ 5) {w : Nat} {t : BitVec 3} {d : Dst} {a : BitVec 4} {o : BitVec 5} :
    encMD op t d a o = w ↔ bv 5 w 0 = o ∧ bv 4 w 5 = a ∧ bv 3 w 9 = d.copy ∧ bv 4 w 12 = d.idx ∧ bitsAt w 16 5 = op ∧ bv 3 w 21 = t
      ∧ w < 2 ^ 24 := by
  rw [← bv_eq_ofNat_iff hop]
  exact eq_iff_hasFields [⟨5, o⟩, ⟨4, a⟩, ⟨3, d.copy⟩, ⟨4, d.idx⟩, ⟨5, BitVec.ofNat 5 op⟩, ⟨3, t⟩]
    (by simp only [encMD, packFields, BitVec.toNat_ofNat]; omega)

theorem encMV_eq_iff {op n : Nat} (hop : op < 2 ^ 5) (hn : n < 2 ^ 2) {w : Nat} {t : BitVec 3} {v : BitVec 5} {a : BitVec 4} {o : BitVec 5} :
    encMV op t n v a o = w ↔ bv 5 w 0 = o ∧ bv 4 w 5 = a ∧ bv 5 w 9 = v ∧ bitsAt w 14 2 = n ∧ bitsAt w 16 5 = op ∧ bv 3 w 21 = t
      ∧ w < 2 ^ 24 := by
  rw [← bv_eq_ofNat_iff hop, ← bv_eq_ofNat_iff hn]
  exact eq_iff_hasFields [⟨5, o⟩, ⟨4, a⟩, ⟨5, v⟩, ⟨2, BitVec.ofNat 2 n⟩, ⟨5, BitVec.ofNat 5 op⟩, ⟨3, t⟩]
    (by simp only [encMV, packFields, BitVec.toNat_ofNat]; omega)

/-- The fields of a word written out, given its value. -/
theorem hasFields_of_eq {x w : Nat} (h : x = w) (fs : List Field)
    (hx : x = packFields fs := by
      simp only [encMD, enc3, encMX, encE, encCe, packFields, BitVec.ofNat_eq_ofNat, BitVec.toNat_ofNat]
      omega) : HasFields w 0 fs :=
  (eq_iff_hasFields fs hx).mp h

/-! ## A guarded decoding -/

theorem need_eq_ok {b : Bool} {e : Reject} {r : Except Reject Instr} {i : Instr} : need b e r = .ok i ↔ b = true ∧ r = .ok i := by
  cases b <;> simp [need]

theorem need_ok_eq_ok {b : Bool} {e : Reject} {j i : Instr} : need b e (.ok j) = .ok i ↔ b = true ∧ j = i := by
  rw [need_eq_ok, Except.ok.injEq]

theorem need_need_eq_ok {b c : Bool} {e f : Reject} {j i : Instr} :
    need b e (need c f (.ok j)) = .ok i ↔ b = true ∧ c = true ∧ j = i := by
  rw [need_eq_ok, need_ok_eq_ok]

theorem bitsAt_append (w lo m n : Nat) : bitsAt w lo (m + n) = bitsAt w lo m + 2 ^ m * bitsAt w (lo + m) n := by
  simp only [bitsAt, Nat.pow_add, Nat.mod_mul, ← Nat.div_div_eq_div_mul]

theorem bitsAt_append_eq_zero {w lo m n : Nat} : bitsAt w lo (m + n) = 0 ↔ bitsAt w lo m = 0 ∧ bitsAt w (lo + m) n = 0 := by
  simp [bitsAt_append]

theorem bv_eq_zero_iff {n w lo : Nat} : bv n w lo = 0 ↔ (bitsAt w lo n == 0) = true := by
  rw [bv_eq_iff, beq_iff_eq, BitVec.ofNat_eq_ofNat, BitVec.toNat_ofNat, Nat.zero_mod]

/-! ## What a word decodes to (R56) -/

/-- An instruction is well formed, belongs to a slot, and has this word there. -/
structure Faithful (u : SlotName) (w : Nat) (i : Instr) : Prop where
  wf : i.wf = true
  slot : slotOf i = some u
  word : encode i = some w

theorem vecInstr_ok {u : VecUnit} {op : Nat} {f : VecFields} {i : Instr} (h : vecInstr u op f = .ok i) :
    i.wf = vecOk op f ∧ slotOf i = some (vecSlot u) ∧ encode i = some (encV op f) := by
  unfold vecInstr at h
  split at h <;> cases h <;> exact ⟨rfl, rfl, rfl⟩

theorem nop_faithful {u : SlotName} {n w : Nat} (hw : w < 2 ^ n) (h : (w % 2 ^ n == 0) = true) (ha : u ≠ .ma) (hb : u ≠ .mb) :
    Faithful u w (.nop u) := by
  rw [beq_iff_eq, Nat.mod_eq_of_lt hw] at h
  subst h
  exact ⟨by simp [Instr.wf, ha, hb], rfl, rfl⟩

theorem decodeScalar_faithful {u : ScalarUnit} {w : Nat} {i : Instr} (hw : w < 2 ^ 25) (h : decodeScalar u w = .ok i) :
    Faithful (scalarSlot u) w i := by
  simp only [decodeScalar, need_eq_ok] at h
  obtain ⟨ht, h⟩ := h
  split at h
  case h_1 => -- nop
    obtain ⟨h0, rfl⟩ := need_ok_eq_ok.mp h
    cases u <;> exact nop_faithful hw h0 (by decide) (by decide)
  case h_22 hop | h_23 hop | h_24 hop => -- clz, ctz, pcnt
    obtain ⟨h0, rfl⟩ := need_ok_eq_ok.mp h
    exact ⟨ht, rfl, congrArg some ((enc3_eq_iff (by decide)).mpr ⟨bv_eq_zero_iff.mpr h0, rfl, rfl, rfl, hop, rfl, hw⟩)⟩
  case h_28 hop => -- prd
    obtain ⟨h0, rfl⟩ := need_ok_eq_ok.mp h
    obtain ⟨hb, ha⟩ := bitsAt_append_eq_zero (m := 5) (n := 5).mp (beq_iff_eq.mp h0)
    exact ⟨ht, rfl, congrArg some ((enc3_eq_iff (by decide)).mpr ⟨(bv_eq_iff ..).mpr hb, (bv_eq_iff ..).mpr ha, rfl, rfl, hop, rfl, hw⟩)⟩
  case h_29 hop => -- pwr
    obtain ⟨h0, rfl⟩ := need_ok_eq_ok.mp h
    obtain ⟨hd, hb⟩ := Bool.and_eq_true_iff.mp h0
    obtain ⟨hc, hi⟩ := bitsAt_append_eq_zero (m := 3) (n := 4).mp (beq_iff_eq.mp hd)
    exact ⟨ht, rfl, congrArg some ((enc3_eq_iff (by decide)).mpr
      ⟨bv_eq_zero_iff.mpr hb, rfl, (bv_eq_iff ..).mpr hc, (bv_eq_iff ..).mpr hi, hop, rfl, hw⟩)⟩
  case h_30 => cases h
  all_goals
    rename_i hop
    cases h
    exact ⟨ht, rfl, congrArg some ((enc3_eq_iff (by decide)).mpr ⟨rfl, rfl, rfl, rfl, hop, rfl, hw⟩)⟩

theorem decodeX_faithful {w : Nat} {i : Instr} (hw : w < 2 ^ 25) (h : decodeX w = .ok i) : Faithful .x w i := by
  simp only [decodeX, need_eq_ok] at h
  obtain ⟨ht, h⟩ := h
  split at h
  case h_1 => -- nop
    obtain ⟨h0, rfl⟩ := need_ok_eq_ok.mp h
    exact nop_faithful hw h0 (by decide) (by decide)
  case h_12 hop => -- xpcnt
    obtain ⟨h0, rfl⟩ := need_ok_eq_ok.mp h
    exact ⟨ht, rfl, congrArg some ((enc3_eq_iff (by decide)).mpr ⟨bv_eq_zero_iff.mpr h0, rfl, rfl, rfl, hop, rfl, hw⟩)⟩
  case h_13 hop => -- aqp
    obtain ⟨h0, rfl⟩ := need_ok_eq_ok.mp h
    obtain ⟨hc, hi⟩ := bitsAt_append_eq_zero (m := 3) (n := 4).mp (beq_iff_eq.mp h0)
    exact ⟨ht, rfl, congrArg some ((enc3_eq_iff (by decide)).mpr ⟨rfl, rfl, (bv_eq_iff ..).mpr hc, (bv_eq_iff ..).mpr hi, hop, rfl, hw⟩)⟩
  case h_14 hop => -- aqfree
    obtain ⟨h0, rfl⟩ := need_ok_eq_ok.mp h
    obtain ⟨hb, ha⟩ := bitsAt_append_eq_zero (m := 5) (n := 5).mp (beq_iff_eq.mp h0)
    exact ⟨ht, rfl, congrArg some ((enc3_eq_iff (by decide)).mpr ⟨(bv_eq_iff ..).mpr hb, (bv_eq_iff ..).mpr ha, rfl, rfl, hop, rfl, hw⟩)⟩
  case h_15 => cases h
  all_goals
    rename_i hop
    cases h
    exact ⟨ht, rfl, congrArg some ((enc3_eq_iff (by decide)).mpr ⟨rfl, rfl, rfl, rfl, hop, rfl, hw⟩)⟩

theorem decodeVec_faithful {u : VecUnit} {w : Nat} {i : Instr} (hw : w < 2 ^ 35) (h : decodeVec u w = .ok i) :
    Faithful (vecSlot u) w i := by
  simp only [decodeVec] at h
  split at h
  · obtain ⟨h0, rfl⟩ := need_ok_eq_ok.mp h
    cases u <;> exact nop_faithful hw h0 (by decide) (by decide)
  · simp only [need_eq_ok] at h
    obtain ⟨hop, hok, h⟩ := h
    obtain ⟨hwf, hslot, hword⟩ := vecInstr_ok h
    have hlt : bitsAt w 27 5 < 2 ^ 5 := Nat.mod_lt _ (by decide)
    exact ⟨hwf.trans hok, hslot, hword.trans (congrArg some ((encV_eq_iff hlt).mpr ⟨rfl, rfl, hw⟩))⟩

theorem decodeMem_faithful {u : MemUnit} {w : Nat} {i : Instr} (hw : w < 2 ^ 24) (h : decodeMem u w = .ok i) :
    Faithful (memSlot u) w i := by
  simp only [decodeMem, need_eq_ok] at h
  obtain ⟨ht, h⟩ := h
  split at h
  case h_1 => -- nop
    obtain ⟨h0, rfl⟩ := need_ok_eq_ok.mp h
    rw [beq_iff_eq, Nat.mod_eq_of_lt hw] at h0
    subst h0
    exact ⟨rfl, rfl, rfl⟩
  case h_9 hop | h_10 hop | h_11 hop | h_12 hop | h_19 hop => -- scalar stores
    obtain ⟨h0, rfl⟩ := need_ok_eq_ok.mp h
    exact ⟨ht, rfl, congrArg some ((encMV_eq_iff (by decide) (by decide)).mpr ⟨rfl, rfl, rfl, beq_iff_eq.mp h0, hop, rfl, hw⟩)⟩
  case h_13 hop | h_14 hop | h_16 hop | h_18 hop | h_20 hop => -- vector loads and stores
    obtain ⟨h0, rfl⟩ := need_ok_eq_ok.mp h
    exact ⟨Bool.and_eq_true_iff.mpr ⟨ht, by rw [toNat_bv]; exact h0⟩, rfl, congrArg some
      ((encMV_eq_iff (by decide) (BitVec.isLt _)).mpr ⟨rfl, rfl, rfl, (toNat_bv ..).symm, hop, rfl, hw⟩)⟩
  case h_26 hop => -- fence
    obtain ⟨h0, h1, rfl⟩ := need_need_eq_ok.mp h
    refine ⟨Bool.and_eq_true_iff.mpr ⟨ht, by rw [toNat_bv]; exact h1⟩, rfl, congrArg some ?_⟩
    simp only [beq_iff_eq, toNat_bv, bitsAt] at *
    omega
  case h_27 hop => -- arrive
    obtain ⟨h0, rfl⟩ := need_ok_eq_ok.mp h
    refine ⟨ht, rfl, congrArg some ?_⟩
    simp only [beq_iff_eq, toNat_bv, bitsAt] at *
    omega
  case h_28 hop => -- signal, with or without a drain
    obtain ⟨h0, h⟩ := need_eq_ok.mp h
    split at h <;> cases h <;> refine ⟨ht, rfl, congrArg some ?_⟩
    · simp only [beq_iff_eq, toNat_bv, bitsAt] at *
      omega
    · simp only [beq_iff_eq, toNat_bv, bitsAt] at *
      omega
  case h_29 hop => -- drain
    obtain ⟨hu, h1, rfl⟩ := need_need_eq_ok.mp h
    obtain rfl : u = .mb := beq_iff_eq.mp hu
    refine ⟨Bool.and_eq_true_iff.mpr ⟨ht, ?_⟩, rfl, congrArg some ?_⟩
    · simpa [bv_eq_iff] using h1
    · simp only [beq_iff_eq, toNat_bv, bitsAt] at *
      omega
  case h_30 hop => -- lda
    obtain ⟨h0, rfl⟩ := need_ok_eq_ok.mp h
    refine ⟨ht, rfl, congrArg some ?_⟩
    simp only [Bool.and_eq_true, beq_iff_eq, toNat_bv, bitsAt] at *
    omega
  case h_31 hop => -- rda
    obtain ⟨h0, rfl⟩ := need_ok_eq_ok.mp h
    exact ⟨ht, rfl, congrArg some ((encMD_eq_iff (by decide)).mpr ⟨bv_eq_zero_iff.mpr h0, rfl, rfl, rfl, hop, rfl, hw⟩)⟩
  case h_32 => cases h
  all_goals
    rename_i hop
    cases h
    exact ⟨ht, rfl, congrArg some ((encMD_eq_iff (by decide)).mpr ⟨rfl, rfl, rfl, rfl, hop, rfl, hw⟩)⟩

theorem decodeMX_faithful {w : Nat} {i : Instr} (hw : w < 2 ^ 17) (h : decodeMX w = .ok i) : Faithful .mx w i := by
  simp only [decodeMX, need_eq_ok] at h
  obtain ⟨ht, h⟩ := h
  split at h
  case h_1 => -- nop
    obtain ⟨h0, rfl⟩ := need_ok_eq_ok.mp h
    exact nop_faithful hw h0 (by decide) (by decide)
  case h_8 h1 h2 h3 h4 h5 h6 h7 => -- pal, the operation code that is left
    cases h
    refine ⟨ht, rfl, congrArg some ?_⟩
    simp only [encMX, imp_false, toNat_bv, bitsAt] at *
    omega
  all_goals
    rename_i hop
    obtain ⟨h0, rfl⟩ := need_ok_eq_ok.mp h
    refine ⟨ht, rfl, congrArg some ?_⟩
    simp only [encMX, Bool.and_eq_true, beq_iff_eq, toNat_bv, bitsAt] at *
    omega

theorem decodeE_faithful {w : Nat} {i : Instr} (hw : w < 2 ^ 12) (h : decodeE w = .ok i) : Faithful .e w i := by
  simp only [decodeE, need_eq_ok] at h
  obtain ⟨ht, h⟩ := h
  split at h
  case h_1 => -- nop
    obtain ⟨h0, rfl⟩ := need_ok_eq_ok.mp h
    exact nop_faithful hw h0 (by decide) (by decide)
  case h_4 hop | h_5 hop | h_6 hop => -- rmode, afmt, bfmt
    obtain ⟨h0, h1, rfl⟩ := need_need_eq_ok.mp h
    refine ⟨Bool.and_eq_true_iff.mpr ⟨ht, by simpa only [toNat_bv] using h1⟩, rfl, congrArg some ?_⟩
    simp only [encE, beq_iff_eq, toNat_bv, bitsAt] at *
    omega
  case h_2 hop | h_8 hop => -- fmtw, fclr
    cases h
    refine ⟨ht, rfl, congrArg some ?_⟩
    simp only [encE, toNat_bv, bitsAt] at *
    omega
  case h_13 => cases h
  all_goals
    rename_i hop
    obtain ⟨h0, rfl⟩ := need_ok_eq_ok.mp h
    refine ⟨ht, rfl, congrArg some ?_⟩
    simp only [encE, beq_iff_eq, toNat_bv, bitsAt] at *
    omega

theorem decodeC_faithful {w : Nat} {i : Instr} (hw : w < 2 ^ 22) (h : decodeC w = .ok i) : Faithful .c w i := by
  simp only [decodeC, need_eq_ok] at h
  obtain ⟨ht, h⟩ := h
  have htag : w < 2 ^ 19 := by
    simp only [beq_iff_eq, bitsAt] at ht
    omega
  split at h
  case h_1 hop => -- nop
    obtain ⟨h0, rfl⟩ := need_ok_eq_ok.mp h
    refine ⟨rfl, rfl, congrArg some ?_⟩
    simp only [beq_iff_eq, bitsAt] at h0 hop
    omega
  case h_2 hop => -- prep
    cases h
    refine ⟨rfl, rfl, congrArg some ?_⟩
    simp only [toNat_bv, bitsAt] at *
    omega
  case h_4 hop => -- xfer
    obtain ⟨h0, h⟩ := need_eq_ok.mp h
    obtain ⟨h1, h2, rfl⟩ := need_need_eq_ok.mp h
    refine ⟨Bool.and_eq_true_iff.mpr ⟨by simpa only [toNat_bv] using h1, by simpa only [toNat_bv] using h2⟩, rfl, congrArg some ?_⟩
    simp only [beq_iff_eq, toNat_bv, bitsAt] at *
    omega
  case h_9 hop => -- the four waits
    obtain ⟨h0, h⟩ := need_eq_ok.mp h
    split at h
    case h_1 hk | h_3 hk =>
      cases h
      refine ⟨rfl, rfl, congrArg some ?_⟩
      simp only [beq_iff_eq, toNat_bv, bitsAt] at *
      omega
    case h_2 hk =>
      obtain ⟨h1, rfl⟩ := need_ok_eq_ok.mp h
      refine ⟨rfl, rfl, congrArg some ?_⟩
      simp only [beq_iff_eq, toNat_bv, bitsAt] at *
      omega
    case h_4 hk =>
      obtain ⟨h1, h2, rfl⟩ := need_need_eq_ok.mp h
      refine ⟨by simpa only [Instr.wf, toNat_bv] using h2, rfl, congrArg some ?_⟩
      simp only [beq_iff_eq, toNat_bv, bitsAt] at *
      omega
    case h_5 => cases h
  case h_13 hop => -- tmark, hsig
    obtain ⟨h0, h⟩ := need_eq_ok.mp h
    split at h
    case h_3 => cases h
    all_goals
      cases h
      refine ⟨rfl, rfl, congrArg some ?_⟩
      simp only [beq_iff_eq, toNat_bv, bitsAt] at *
      omega
  case h_14 => cases h
  all_goals
    rename_i hop
    obtain ⟨h0, rfl⟩ := need_ok_eq_ok.mp h
    refine ⟨rfl, rfl, congrArg some ?_⟩
    simp only [beq_iff_eq, toNat_bv, bitsAt] at *
    omega

theorem decodeCellar_faithful {w : Nat} {i : Instr} (hw : w < 2 ^ 32) (h : decodeCellar w = .ok i) :
    i.wf = true ∧ isCellar i = true ∧ encode i = some w := by
  simp only [decodeCellar] at h
  split at h
  case h_2 hop | h_3 hop => -- jset, jadd
    cases h
    refine ⟨rfl, rfl, congrArg some ?_⟩
    simp only [toNat_bv, bitsAt] at *
    omega
  case h_6 hop | h_10 hop | h_13 hop => -- cfmt, psc, out
    obtain ⟨h0, h1, rfl⟩ := need_need_eq_ok.mp h
    refine ⟨by simpa only [Instr.wf, toNat_bv] using h1, rfl, congrArg some ?_⟩
    simp only [encCe, beq_iff_eq, toNat_bv, bitsAt] at *
    omega
  case h_9 hop => -- wdot
    obtain ⟨h0, h⟩ := need_eq_ok.mp h
    split at h
    all_goals
      cases h
      refine ⟨rfl, rfl, congrArg some ?_⟩
      simp only [encCe, beq_iff_eq, toNat_bv, bitsAt] at *
      omega
  case h_15 => cases h
  all_goals
    rename_i hop
    obtain ⟨h0, rfl⟩ := need_ok_eq_ok.mp h
    refine ⟨rfl, rfl, congrArg some ?_⟩
    simp only [encCe, beq_iff_eq, toNat_bv, bitsAt] at *
    omega

theorem decodeSlot_faithful {u : SlotName} {w : Nat} {i : Instr} (hw : w < 2 ^ slotWidth u) (h : decodeSlot u w = .ok i) :
    Faithful u w i := by
  cases u with
  | c => exact decodeC_faithful hw h
  | sa => exact decodeScalar_faithful (u := .sa) hw h
  | sb => exact decodeScalar_faithful (u := .sb) hw h
  | ma => exact decodeMem_faithful (u := .ma) hw h
  | mb => exact decodeMem_faithful (u := .mb) hw h
  | x => exact decodeX_faithful hw h
  | va => exact decodeVec_faithful (u := .va) hw h
  | vb => exact decodeVec_faithful (u := .vb) hw h
  | mx => exact decodeMX_faithful hw h
  | e => exact decodeE_faithful hw h

/-- Settles O56: slot by slot, the guards of the decoder are the fields that the encoder leaves 0 or bounds. -/
theorem encodeOfDecode : Obligations.EncodeOfDecode := by
  unfold Obligations.EncodeOfDecode
  refine ⟨fun u w i hw h => ?_, fun w i hw h => decodeCellar_faithful hw h⟩
  obtain ⟨hwf, hslot, hword⟩ := decodeSlot_faithful hw h
  exact ⟨hwf, hslot, hword⟩

/-! ## What an instruction's word decodes to -/

theorem decodeFor_slot {i : Instr} {u : SlotName} {w : Nat} (hs : slotOf i = some u) (h : decodeSlot u w = .ok i) : decodeFor i w = some i := by
  simp only [decodeFor, hs, h, toOpt]

theorem decodeSlot_scalar (u : ScalarUnit) (w : Nat) : decodeSlot (scalarSlot u) w = decodeScalar u w := by cases u <;> rfl
theorem decodeSlot_mem (u : MemUnit) (w : Nat) : decodeSlot (memSlot u) w = decodeMem u w := by cases u <;> rfl
theorem decodeSlot_vec (u : VecUnit) (w : Nat) : decodeSlot (vecSlot u) w = decodeVec u w := by cases u <;> rfl

theorem decodeFor_vec {u : VecUnit} {op : Nat} {f : VecFields} {i : Instr} {w : Nat} (h : encV op f = w) (hi : vecInstr u op f = .ok i)
    (h0 : op ≠ 0) (h30 : op ≤ 30) (hwf : i.wf = true) : decodeFor i w = some i := by
  obtain ⟨hok, hslot, -⟩ := vecInstr_ok hi
  obtain ⟨hf, hop, -⟩ := (encV_eq_iff (by omega)).mp h
  refine decodeFor_slot hslot ?_
  rw [decodeSlot_vec]
  simp only [decodeVec, hop, hf, h0, if_false, h30, ← hok, hwf, decide_true, need, if_true, hi]

theorem decodeFor_scalar {u : ScalarUnit} {i : Instr} {w : Nat} (hs : slotOf i = some (scalarSlot u)) (h : decodeScalar u w = .ok i) :
    decodeFor i w = some i :=
  decodeFor_slot hs ((decodeSlot_scalar u w).trans h)

theorem decodeFor_mem {u : MemUnit} {i : Instr} {w : Nat} (hs : slotOf i = some (memSlot u)) (h : decodeMem u w = .ok i) :
    decodeFor i w = some i :=
  decodeFor_slot hs ((decodeSlot_mem u w).trans h)

theorem decodeCellar_encode {i : Instr} {w : Nat} (hc : CellarWord i) (hwf : i.wf = true) (h : encode i = some w) : decodeCellar w = .ok i := by
  cases hc
  case' nop n => have hf := hasFields_of_eq (Option.some.inj h) [⟨12, n⟩, ⟨15, 0⟩, ⟨5, 0⟩]
  case' jset d imm => have hf := hasFields_of_eq (Option.some.inj h) [⟨24, imm⟩, ⟨3, d⟩, ⟨5, 1⟩]
  case' jadd d a imm => have hf := hasFields_of_eq (Option.some.inj h) [⟨21, imm⟩, ⟨3, a⟩, ⟨3, d⟩, ⟨5, 2⟩]
  case' bnz d l => have hf := hasFields_of_eq (Option.some.inj h) [⟨7, l⟩, ⟨17, 0⟩, ⟨3, d⟩, ⟨5, 3⟩]
  case' wait a => have hf := hasFields_of_eq (Option.some.inj h) [⟨24, 0⟩, ⟨3, a⟩, ⟨5, 4⟩]
  case' cfmt wty aty ecc => have hf := hasFields_of_eq (Option.some.inj h) [⟨2, wty⟩, ⟨2, aty⟩, ⟨2, ecc⟩, ⟨21, 0⟩, ⟨5, 5⟩]
  case' ald b a => have hf := hasFields_of_eq (Option.some.inj h) [⟨21, 0⟩, ⟨3, a⟩, ⟨3, b⟩, ⟨5, 6⟩]
  case' clr m => have hf := hasFields_of_eq (Option.some.inj h) [⟨8, m⟩, ⟨19, 0⟩, ⟨5, 7⟩]
  case' wdot a b k e => have hf := hasFields_of_eq (Option.some.inj h) [⟨11, 0⟩, ⟨1, 0⟩, ⟨6, e⟩, ⟨3, k⟩, ⟨3, b⟩, ⟨3, a⟩, ⟨5, 8⟩]
  case' wdotAdd a b k e => have hf := hasFields_of_eq (Option.some.inj h) [⟨11, 0⟩, ⟨1, 1⟩, ⟨6, e⟩, ⟨3, k⟩, ⟨3, b⟩, ⟨3, a⟩, ⟨5, 8⟩]
  case' psc a b c e n => have hf := hasFields_of_eq (Option.some.inj h) [⟨10, 0⟩, ⟨2, n⟩, ⟨6, e⟩, ⟨3, c⟩, ⟨3, b⟩, ⟨3, a⟩, ⟨5, 9⟩]
  case' scl a m => have hf := hasFields_of_eq (Option.some.inj h) [⟨8, m⟩, ⟨16, 0⟩, ⟨3, a⟩, ⟨5, 10⟩]
  case' ptop c k d f => have hf := hasFields_of_eq (Option.some.inj h) [⟨12, 0⟩, ⟨3, f⟩, ⟨3, d⟩, ⟨6, k⟩, ⟨3, c⟩, ⟨5, 11⟩]
  case' out c f ty z => have hf := hasFields_of_eq (Option.some.inj h) [⟨17, 0⟩, ⟨1, z⟩, ⟨3, ty⟩, ⟨3, f⟩, ⟨3, c⟩, ⟨5, 12⟩]
  case' stop => have hf := hasFields_of_eq (Option.some.inj h) [⟨27, 0⟩, ⟨5, 13⟩]
  all_goals
    simp only [Instr.wf, Bool.and_eq_true, decide_eq_true_eq] at hwf
    simp only [HasFields, bv_eq_iff] at hf
    simp [decodeCellar, need, bv_eq_iff, hf, hwf]

theorem decodeFor_cellar {i : Instr} {w : Nat} (hc : CellarWord i) (hwf : i.wf = true) (h : encode i = some w) : decodeFor i w = some i := by
  have hs : slotOf i = none := by cases hc <;> rfl
  simp only [decodeFor, isCellar, hs, h, decodeCellar_encode hc hwf h, toOpt, Option.isNone_none, Option.isSome_some, Bool.and_self, if_true]

theorem decodeFor_encode {i : Instr} {w : Nat} (hwf : i.wf = true) (h : encode i = some w) : decodeFor i w = some i := by
  cases i
  case nop u =>
    obtain rfl : 0 = w := Option.some.inj h
    cases u
    case ma | mb => cases hwf
    all_goals rfl
  case memNop u =>
    obtain rfl : 0 = w := Option.some.inj h
    cases u <;> rfl
  -- control slot
  case' prep b disp => have hf := hasFields_of_eq (Option.some.inj h) [⟨12, disp⟩, ⟨3, b⟩, ⟨4, 1⟩, ⟨3, 0⟩]
  case' prepr b q => have hf := hasFields_of_eq (Option.some.inj h) [⟨7, 0⟩, ⟨5, q⟩, ⟨3, b⟩, ⟨4, 2⟩, ⟨3, 0⟩]
  case' xfer bt n1 pb pol => have hf := hasFields_of_eq (Option.some.inj h) [⟨2, 0⟩, ⟨4, pol⟩, ⟨4, pb⟩, ⟨2, n1⟩, ⟨3, bt⟩, ⟨4, 3⟩, ⟨3, 0⟩]
  case' go b => have hf := hasFields_of_eq (Option.some.inj h) [⟨12, 0⟩, ⟨3, b⟩, ⟨4, 4⟩, ⟨3, 0⟩]
  case' loop n q => have hf := hasFields_of_eq (Option.some.inj h) [⟨8, 0⟩, ⟨5, q⟩, ⟨2, n⟩, ⟨4, 5⟩, ⟨3, 0⟩]
  case' ldelta n a q => have hf := hasFields_of_eq (Option.some.inj h) [⟨4, 0⟩, ⟨5, q⟩, ⟨4, a⟩, ⟨2, n⟩, ⟨4, 6⟩, ⟨3, 0⟩]
  case' ldk k q half => have hf := hasFields_of_eq (Option.some.inj h) [⟨6, 0⟩, ⟨1, half⟩, ⟨5, q⟩, ⟨3, k⟩, ⟨4, 7⟩, ⟨3, 0⟩]
  case' waitBarrier b => have hf := hasFields_of_eq (Option.some.inj h) [⟨7, 0⟩, ⟨5, b⟩, ⟨3, 0⟩, ⟨4, 8⟩, ⟨3, 0⟩]
  case' waitQueue q => have hf := hasFields_of_eq (Option.some.inj h) [⟨7, 0⟩, ⟨2, q⟩, ⟨3, 0⟩, ⟨3, 1⟩, ⟨4, 8⟩, ⟨3, 0⟩]
  case' waitTick q => have hf := hasFields_of_eq (Option.some.inj h) [⟨7, 0⟩, ⟨5, q⟩, ⟨3, 2⟩, ⟨4, 8⟩, ⟨3, 0⟩]
  case' waitEngine c => have hf := hasFields_of_eq (Option.some.inj h) [⟨7, 0⟩, ⟨3, c⟩, ⟨2, 0⟩, ⟨3, 3⟩, ⟨4, 8⟩, ⟨3, 0⟩]
  case' budr d => have hf := hasFields_of_eq (Option.some.inj h) [⟨8, 0⟩, ⟨3, d.copy⟩, ⟨4, d.idx⟩, ⟨4, 9⟩, ⟨3, 0⟩]
  case' trap code => have hf := hasFields_of_eq (Option.some.inj h) [⟨8, code⟩, ⟨7, 0⟩, ⟨4, 10⟩, ⟨3, 0⟩]
  case' halt => have hf := hasFields_of_eq (Option.some.inj h) [⟨15, 0⟩, ⟨4, 11⟩, ⟨3, 0⟩]
  case' tmark q => have hf := hasFields_of_eq (Option.some.inj h) [⟨5, 0⟩, ⟨5, q⟩, ⟨5, 0⟩, ⟨4, 12⟩, ⟨3, 0⟩]
  case' hsig q => have hf := hasFields_of_eq (Option.some.inj h) [⟨5, 0⟩, ⟨5, q⟩, ⟨5, 1⟩, ⟨4, 12⟩, ⟨3, 0⟩]
  case prep | prepr | xfer | go | loop | ldelta | ldk | waitBarrier | waitQueue | waitTick | waitEngine | budr | trap | halt | tmark | hsig =>
    refine decodeFor_slot rfl ?_
    have hg := hf
    simp only [Instr.wf, Bool.and_eq_true, decide_eq_true_eq] at hwf
    simp only [HasFields] at hf
    simp only [HasFields, bv_eq_iff] at hg
    simp [decodeSlot, decodeC, need, hf, hg, hwf]
  -- scalar and index slots
  case add u t d a b | sub u t d a b | and u t d a b | or u t d a b | xor u t d a b | andn u t d a b | shl u t d a b | shr u t d a b
    | sar u t d a b | rol u t d a b | min u t d a b | max u t d a b | minu u t d a b | maxu u t d a b | mul u t d a b | mulh u t d a b
    | mulhu u t d a b | sext u t d a b | zext u t d a b | cat7 u t d a b | cmp u t p c a b | cmpa u t p c a b | cmpo u t p c a b =>
    obtain ⟨hb, ha, hc, hi, hop, ht, -⟩ := (enc3_eq_iff (by decide)).mp (Option.some.inj h)
    refine decodeFor_scalar rfl ?_
    simp only [decodeScalar, hop, ht, hi, hc, ha, hb, need, show tagOk t = true from hwf, if_true]
  case' clz u t d a => have hf := hasFields_of_eq (Option.some.inj h) [⟨5, 0⟩, ⟨5, a⟩, ⟨3, d.copy⟩, ⟨4, d.idx⟩, ⟨5, 18⟩, ⟨3, t⟩]
  case' ctz u t d a => have hf := hasFields_of_eq (Option.some.inj h) [⟨5, 0⟩, ⟨5, a⟩, ⟨3, d.copy⟩, ⟨4, d.idx⟩, ⟨5, 19⟩, ⟨3, t⟩]
  case' pcnt u t d a => have hf := hasFields_of_eq (Option.some.inj h) [⟨5, 0⟩, ⟨5, a⟩, ⟨3, d.copy⟩, ⟨4, d.idx⟩, ⟨5, 20⟩, ⟨3, t⟩]
  case' prd u t d => have hf := hasFields_of_eq (Option.some.inj h) [⟨10, 0⟩, ⟨3, d.copy⟩, ⟨4, d.idx⟩, ⟨5, 27⟩, ⟨3, t⟩]
  case' pwr u t a => have hf := hasFields_of_eq (Option.some.inj h) [⟨5, 0⟩, ⟨5, a⟩, ⟨7, 0⟩, ⟨5, 28⟩, ⟨3, t⟩]
  case clz | ctz | pcnt | prd | pwr =>
    refine decodeFor_scalar rfl ?_
    have hg := hf
    simp only [HasFields] at hf
    simp only [HasFields, bv_eq_iff] at hg
    simp [decodeScalar, need, hf, hg, show tagOk t = true from hwf]
  case xadd t d a b | xsub t d a b | xshl t d a b | xshr t d a b | xand t d a b | cadv t d a b | cadvp t d a b | xlea t d a b
    | xmin t d a b | xmax t d a b =>
    obtain ⟨hb, ha, hc, hi, hop, ht, -⟩ := (enc3_eq_iff (by decide)).mp (Option.some.inj h)
    refine decodeFor_slot rfl ?_
    simp only [decodeSlot, decodeX, hop, ht, hi, hc, ha, hb, need, show tagOk t = true from hwf, if_true]
  case' xpcnt t d a => have hf := hasFields_of_eq (Option.some.inj h) [⟨5, 0⟩, ⟨5, a⟩, ⟨3, d.copy⟩, ⟨4, d.idx⟩, ⟨5, 6⟩, ⟨3, t⟩]
  case' aqp t a b => have hf := hasFields_of_eq (Option.some.inj h) [⟨5, b⟩, ⟨5, a⟩, ⟨7, 0⟩, ⟨5, 9⟩, ⟨3, t⟩]
  case' aqfree t d => have hf := hasFields_of_eq (Option.some.inj h) [⟨10, 0⟩, ⟨3, d.copy⟩, ⟨4, d.idx⟩, ⟨5, 13⟩, ⟨3, t⟩]
  case xpcnt | aqp | aqfree =>
    refine decodeFor_slot rfl ?_
    have hg := hf
    simp only [HasFields] at hf
    simp only [HasFields, bv_eq_iff] at hg
    simp [decodeSlot, decodeX, need, hf, hg, show tagOk t = true from hwf]
  -- vector slots
  case vadd | vsub | vmul | vfma | vmin | vmax | vexp2 | vrsqrt | vrecip | vcvt | vcmp | vsel | vrot | vshuf | vscan | vscanx | vred
    | vredx | vredn | vcx | vclmul | vpcnt | vand | vor | vxor | vshl | vshr | vbc | vabs | vneg =>
    exact decodeFor_vec (Option.some.inj h) rfl (by decide) (by decide) hwf
  -- matrix slot
  case' lsh t lw la => have hf := hasFields_of_eq (Option.some.inj h) [⟨3, la⟩, ⟨2, lw⟩, ⟨6, 0⟩, ⟨3, 1⟩, ⟨3, t⟩]
  case' acc t b => have hf := hasFields_of_eq (Option.some.inj h) [⟨5, 0⟩, ⟨2, b⟩, ⟨4, 0⟩, ⟨3, 2⟩, ⟨3, t⟩]
  case' acl t b lw la => have hf := hasFields_of_eq (Option.some.inj h) [⟨3, la⟩, ⟨2, lw⟩, ⟨2, b⟩, ⟨4, 0⟩, ⟨3, 3⟩, ⟨3, t⟩]
  case' psh t pa => have hf := hasFields_of_eq (Option.some.inj h) [⟨7, 0⟩, ⟨4, pa⟩, ⟨3, 4⟩, ⟨3, t⟩]
  case' psl t pa lw la => have hf := hasFields_of_eq (Option.some.inj h) [⟨3, la⟩, ⟨2, lw⟩, ⟨2, 0⟩, ⟨4, pa⟩, ⟨3, 5⟩, ⟨3, t⟩]
  case' pac t pa b => have hf := hasFields_of_eq (Option.some.inj h) [⟨5, 0⟩, ⟨2, b⟩, ⟨4, pa⟩, ⟨3, 6⟩, ⟨3, t⟩]
  case' pal t pa b lw la => have hf := hasFields_of_eq (Option.some.inj h) [⟨3, la⟩, ⟨2, lw⟩, ⟨2, b⟩, ⟨4, pa⟩, ⟨3, 7⟩, ⟨3, t⟩]
  case lsh | acc | acl | psh | psl | pac | pal =>
    refine decodeFor_slot rfl ?_
    have hg := hf
    simp only [HasFields] at hf
    simp only [HasFields, bv_eq_iff] at hg
    simp [decodeSlot, decodeMX, need, hf, hg, show tagOk t = true from hwf]
  -- format and engine slot
  case' fmtw t q => have hf := hasFields_of_eq (Option.some.inj h) [⟨5, q⟩, ⟨4, 1⟩, ⟨3, t⟩]
  case' fmtr t g => have hf := hasFields_of_eq (Option.some.inj h) [⟨4, g⟩, ⟨1, 0⟩, ⟨4, 2⟩, ⟨3, t⟩]
  case' rmode t m => have hf := hasFields_of_eq (Option.some.inj h) [⟨3, m⟩, ⟨2, 0⟩, ⟨4, 3⟩, ⟨3, t⟩]
  case' afmt t ty => have hf := hasFields_of_eq (Option.some.inj h) [⟨4, ty⟩, ⟨1, 0⟩, ⟨4, 4⟩, ⟨3, t⟩]
  case' bfmt t ty => have hf := hasFields_of_eq (Option.some.inj h) [⟨4, ty⟩, ⟨1, 0⟩, ⟨4, 5⟩, ⟨3, t⟩]
  case' scal t v => have hf := hasFields_of_eq (Option.some.inj h) [⟨1, v⟩, ⟨4, 0⟩, ⟨4, 6⟩, ⟨3, t⟩]
  case' fclr t m => have hf := hasFields_of_eq (Option.some.inj h) [⟨5, m⟩, ⟨4, 7⟩, ⟨3, t⟩]
  case' gpsh t e => have hf := hasFields_of_eq (Option.some.inj h) [⟨3, e⟩, ⟨2, 0⟩, ⟨4, 8⟩, ⟨3, t⟩]
  case' glat t e => have hf := hasFields_of_eq (Option.some.inj h) [⟨3, e⟩, ⟨2, 0⟩, ⟨4, 9⟩, ⟨3, t⟩]
  case' gsr t e => have hf := hasFields_of_eq (Option.some.inj h) [⟨3, e⟩, ⟨2, 0⟩, ⟨4, 10⟩, ⟨3, t⟩]
  case' eSub t a => have hf := hasFields_of_eq (Option.some.inj h) [⟨4, a⟩, ⟨1, 0⟩, ⟨4, 11⟩, ⟨3, t⟩]
  case afmt | bfmt =>
    obtain ⟨htag, hty⟩ := Bool.and_eq_true_iff.mp hwf
    refine decodeFor_slot rfl ?_
    have hg := hf
    simp only [HasFields] at hf
    simp only [HasFields, bv_eq_iff] at hg
    simp only [decodeSlot, decodeE, need, hf, hg, htag, if_true, BitVec.ofNat_eq_ofNat, BitVec.toNat_ofNat, Nat.reducePow,
      Nat.reduceMod, beq_self_eq_true]
    exact if_pos hty
  case fmtw | fmtr | rmode | scal | fclr | gpsh | glat | gsr | eSub =>
    refine decodeFor_slot rfl ?_
    have hg := hf
    simp only [Instr.wf, tagOf, Bool.and_eq_true, decide_eq_true_eq] at hwf
    simp only [HasFields] at hf
    simp only [HasFields, bv_eq_iff] at hg
    simp [decodeSlot, decodeE, need, hf, hg, hwf]
  -- memory slots
  case ldI8 u t d a o | ldN8 u t d a o | ldI16 u t d a o | ldN16 u t d a o | ldI32 u t d a o | ldN32 u t d a o | ldI64 u t d a o
    | ldTc u t d a o | ldNb u t d a o | amoAdd u t d a o | amoAnd u t d a o | amoOr u t d a o | amoMax u t d a o | amoSwp u t d a o =>
    obtain ⟨ho, ha, hc, hi, hop, ht, -⟩ := (encMD_eq_iff (by decide)).mp (Option.some.inj h)
    refine decodeFor_mem rfl ?_
    simp only [decodeMem, hop, ht, hi, hc, ha, ho, need, show tagOk t = true from hwf, if_true]
  case st8 u t x a o | st16 u t x a o | st32 u t x a o | st64 u t x a o | stVa u t x a o =>
    obtain ⟨ho, ha, hx, hn, hop, ht, -⟩ := (encMV_eq_iff (by decide) (by decide)).mp (Option.some.inj h)
    refine decodeFor_mem rfl ?_
    simp only [decodeMem, hop, ht, hx, hn, ha, ho, need, show tagOk t = true from hwf, if_true, beq_self_eq_true]
  case vld u t n v a o | vst u t n v a o | vldTc u t n v a o | vldNb u t n v a o | vstVa u t n v a o =>
    obtain ⟨ho, ha, hv, hn, hop, ht, -⟩ := (encMV_eq_iff (by decide) n.isLt).mp (Option.some.inj h)
    obtain ⟨htag, hwide⟩ := Bool.and_eq_true_iff.mp hwf
    refine decodeFor_mem rfl ?_
    simp only [decodeMem, hop, ht, hv, hn, (bv_eq_iff ..).mpr hn, ha, ho, need, htag, hwide, if_true]
  case' fence u t sc o m => have hf := hasFields_of_eq (Option.some.inj h) [⟨4, 0⟩, ⟨7, m⟩, ⟨2, o⟩, ⟨3, sc⟩, ⟨5, 25⟩, ⟨3, t⟩]
  case' arrive u t b => have hf := hasFields_of_eq (Option.some.inj h) [⟨5, b⟩, ⟨11, 0⟩, ⟨5, 26⟩, ⟨3, t⟩]
  case' signal u t m b => have hf := hasFields_of_eq (Option.some.inj h) [⟨5, b⟩, ⟨3, 0⟩, ⟨1, 0⟩, ⟨7, m⟩, ⟨5, 27⟩, ⟨3, t⟩]
  case' signalDrain u t m b => have hf := hasFields_of_eq (Option.some.inj h) [⟨5, b⟩, ⟨3, 0⟩, ⟨1, 1⟩, ⟨7, m⟩, ⟨5, 27⟩, ⟨3, t⟩]
  case' lda u t n q => have hf := hasFields_of_eq (Option.some.inj h) [⟨5, q⟩, ⟨4, 0⟩, ⟨4, n⟩, ⟨3, 0⟩, ⟨5, 29⟩, ⟨3, t⟩]
  case' rda u t d a => have hf := hasFields_of_eq (Option.some.inj h) [⟨5, 0⟩, ⟨4, a⟩, ⟨3, d.copy⟩, ⟨4, d.idx⟩, ⟨5, 30⟩, ⟨3, t⟩]
  case fence | arrive | signal | signalDrain | lda | rda =>
    refine decodeFor_mem rfl ?_
    have hg := hf
    simp only [Instr.wf, tagOf, Bool.and_eq_true, decide_eq_true_eq] at hwf
    simp only [HasFields] at hf
    simp only [HasFields, bv_eq_iff] at hg
    simp [decodeMem, need, hf, hg, hwf]
  case drain t b ty z a o =>
    have hf := hasFields_of_eq (Option.some.inj h) [⟨5, o⟩, ⟨4, a⟩, ⟨1, z⟩, ⟨4, ty⟩, ⟨2, b⟩, ⟨5, 28⟩, ⟨3, t⟩]
    have hg := hf
    obtain ⟨htag, hty⟩ := Bool.and_eq_true_iff.mp hwf
    have hty : ((((ty.toNat = 0 ∨ ty.toNat = 1) ∨ ty.toNat = 2) ∨ ty.toNat = 3) ∨ ty.toNat = 5) ∨ ty.toNat = 7 := by
      simpa [← BitVec.toNat_inj] using hty
    simp only [HasFields] at hf
    simp only [HasFields, bv_eq_iff] at hg
    refine decodeFor_mem (u := .mb) rfl ?_
    simp [decodeMem, need, hf, hg, htag, if_pos hty]
  case ceNop | ceJset | ceJadd | ceBnz | ceWait | ceCfmt | ceAld | ceClr | ceWdot | ceWdotAdd | cePsc | ceScl | cePtop | ceOut | ceEnd =>
    exact decodeFor_cellar (by constructor) hwf h
  all_goals cases h

/-! ## Widths of words (R54, R299) -/

theorem slotWidth_scalar (v : ScalarUnit) : slotWidth (scalarSlot v) = 25 := by cases v <;> rfl
theorem slotWidth_mem (v : MemUnit) : slotWidth (memSlot v) = 24 := by cases v <;> rfl
theorem slotWidth_vec (v : VecUnit) : slotWidth (vecSlot v) = 35 := by cases v <;> rfl

theorem enc3_lt {op : Nat} (hop : op < 2 ^ 5) (t : BitVec 3) (d : Dst) (a b : BitVec 5) : enc3 op t d a b < 2 ^ 25 := by
  unfold enc3
  omega

theorem encV_lt {op : Nat} (hop : op < 2 ^ 5) (f : VecFields) : encV op f < 2 ^ 35 := by
  unfold encV
  omega

theorem encMD_lt {op : Nat} (hop : op < 2 ^ 5) (t : BitVec 3) (d : Dst) (a : BitVec 4) (o : BitVec 5) : encMD op t d a o < 2 ^ 24 := by
  unfold encMD
  omega

theorem encMV_lt {op n : Nat} (hop : op < 2 ^ 5) (hn : n < 2 ^ 2) (t : BitVec 3) (v : BitVec 5) (a : BitVec 4) (o : BitVec 5) :
    encMV op t n v a o < 2 ^ 24 := by
  unfold encMV
  omega

theorem exists_word {i : Instr} {u : SlotName} (h : slotOf i = some u) : ∃ w, encode i = some w ∧ w < 2 ^ slotWidth u := by
  cases i
  case nop | memNop => exact ⟨0, rfl, Nat.two_pow_pos _⟩
  case prep | prepr | xfer | go | loop | ldelta | ldk | waitBarrier | waitQueue | waitTick | waitEngine | budr | trap | halt | tmark | hsig =>
    cases h
    exact ⟨_, rfl, by simp only [slotWidth]; omega⟩
  case add v _ _ _ _ | sub v _ _ _ _ | and v _ _ _ _ | or v _ _ _ _ | xor v _ _ _ _ | andn v _ _ _ _ | shl v _ _ _ _ | shr v _ _ _ _
    | sar v _ _ _ _ | rol v _ _ _ _ | min v _ _ _ _ | max v _ _ _ _ | minu v _ _ _ _ | maxu v _ _ _ _ | mul v _ _ _ _ | mulh v _ _ _ _
    | mulhu v _ _ _ _ | sext v _ _ _ _ | zext v _ _ _ _ | cat7 v _ _ _ _ | cmp v _ _ _ _ _ | cmpa v _ _ _ _ _ | cmpo v _ _ _ _ _
    | clz v _ _ _ | ctz v _ _ _ | pcnt v _ _ _ | prd v _ _ | pwr v _ _ =>
    obtain rfl : scalarSlot v = u := Option.some.inj h
    exact ⟨_, rfl, by rw [slotWidth_scalar]; exact enc3_lt (by decide) ..⟩
  case xadd | xsub | xshl | xshr | xand | cadv | cadvp | xlea | xmin | xmax | xpcnt | aqp | aqfree =>
    cases h
    exact ⟨_, rfl, enc3_lt (by decide) ..⟩
  case vadd v _ | vsub v _ | vmul v _ | vfma v _ | vmin v _ | vmax v _ | vexp2 v _ | vrsqrt v _ | vrecip v _ | vcvt v _ | vcmp v _
    | vsel v _ | vrot v _ | vshuf v _ | vscan v _ | vscanx v _ | vred v _ | vredx v _ | vredn v _ | vcx v _ | vclmul v _ | vpcnt v _
    | vand v _ | vor v _ | vxor v _ | vshl v _ | vshr v _ | vbc v _ | vabs v _ | vneg v _ =>
    obtain rfl : vecSlot v = u := Option.some.inj h
    exact ⟨_, rfl, by rw [slotWidth_vec]; exact encV_lt (by decide) ..⟩
  case lsh | acc | acl | psh | psl | pac | pal =>
    cases h
    exact ⟨_, rfl, by simp only [slotWidth, encMX]; omega⟩
  case fmtw | fmtr | rmode | afmt | bfmt | scal | fclr | gpsh | glat | gsr | eSub =>
    cases h
    exact ⟨_, rfl, by simp only [slotWidth, encE]; omega⟩
  case ldI8 v _ _ _ _ | ldN8 v _ _ _ _ | ldI16 v _ _ _ _ | ldN16 v _ _ _ _ | ldI32 v _ _ _ _ | ldN32 v _ _ _ _ | ldI64 v _ _ _ _
    | ldTc v _ _ _ _ | ldNb v _ _ _ _ | amoAdd v _ _ _ _ | amoAnd v _ _ _ _ | amoOr v _ _ _ _ | amoMax v _ _ _ _ | amoSwp v _ _ _ _
    | rda v _ _ _ =>
    obtain rfl : memSlot v = u := Option.some.inj h
    exact ⟨_, rfl, by rw [slotWidth_mem]; exact encMD_lt (by decide) ..⟩
  case st8 v _ _ _ _ | st16 v _ _ _ _ | st32 v _ _ _ _ | st64 v _ _ _ _ | stVa v _ _ _ _ =>
    obtain rfl : memSlot v = u := Option.some.inj h
    exact ⟨_, rfl, by rw [slotWidth_mem]; exact encMV_lt (by decide) (by decide) ..⟩
  case vld v _ n _ _ _ | vst v _ n _ _ _ | vldTc v _ n _ _ _ | vldNb v _ n _ _ _ | vstVa v _ n _ _ _ =>
    obtain rfl : memSlot v = u := Option.some.inj h
    exact ⟨_, rfl, by rw [slotWidth_mem]; exact encMV_lt (by decide) n.isLt ..⟩
  case fence v _ _ _ _ | arrive v _ _ | signal v _ _ _ | signalDrain v _ _ _ | lda v _ _ _ =>
    obtain rfl : memSlot v = u := Option.some.inj h
    exact ⟨_, rfl, by rw [slotWidth_mem]; omega⟩
  case drain =>
    cases h
    exact ⟨_, rfl, by simp only [slotWidth]; omega⟩
  all_goals cases h

theorem exists_cellarWord {i : Instr} (h : CellarWord i) : ∃ w, encode i = some w ∧ w < 2 ^ 32 := by
  cases h
  case jset | jadd | ptop => exact ⟨_, rfl, by omega⟩
  all_goals exact ⟨_, rfl, by simp only [encCe]; omega⟩

theorem isCellar_iff (i : Instr) : isCellar i = true ↔ CellarWord i := by
  constructor
  · intro h
    cases i
    case ceNop | ceJset | ceJadd | ceBnz | ceWait | ceCfmt | ceAld | ceClr | ceWdot | ceWdotAdd | cePsc | ceScl | cePtop | ceOut | ceEnd =>
      constructor
    all_goals cases h
  · intro h
    cases h <;> rfl

/-- Settles O55: a word holds the fields it was made of, and the decoder reads them back. -/
theorem decodeOfEncode : Obligations.DecodeOfEncode := by
  unfold Obligations.DecodeOfEncode
  exact ⟨fun _ _ hwf h => decodeFor_encode hwf h, fun _ _ h => exists_word h, fun _ h => exists_cellarWord h, isCellar_iff⟩

/-- Settles O54, by decoding the words. -/
theorem decodeWords : Obligations.DecodeWords := by
  unfold Obligations.DecodeWords
  decide

end Sys2Proof

/-! # Scalar compares, and requests of the control slot (O2, O6) -/

namespace Sys2Proof.Machine

open Sys2Proof.Claims

/-! ## Compares (R59, R113) -/

theorem scalarCond_iff (code : Nat) (a b : Word) : scalarCond code a b = true ↔ scalarHolds code a b := by
  unfold scalarCond scalarHolds
  split <;> simp [BitVec.slt, BitVec.ult]

/-- A predicate put into flight, as a value 0 or 1 at the place of the predicate. -/
theorem setPred_puts (s : State) (p : BitVec 4) {b : Bool} {v : Nat} (hv : v ≤ 1) (hb : v = 1 ↔ b = true) :
    Puts s (s.setPred p b) [landing s 1 .p (v * 2 ^ p.toNat) (2 ^ p.toNat) 0] := by
  have hval : (if b then BitVec.ofNat 1024 (2 ^ p.toNat) else 0) = BitVec.ofNat 1024 (v * 2 ^ p.toNat) := by
    cases b
    · obtain rfl : v = 0 := by simp at hb; omega
      simp
    · obtain rfl : v = 1 := hb.mpr rfl
      simp
  rw [State.setPred, hval]
  exact puts_fly ..

/-- The same as `Executes.guarded`, of the instruction's arm. -/
theorem Executes.exec_eq {i : Instr} {s e : State} (h : Executes i s) (he : exec i s = Machine.guarded i s e) (hm : memReq s i = none)
    (ha : aqPushes s i = []) (hx : mxReads s i = []) (hu : coreUses s i = []) (hk : slotChecks s i = []) : exec i s = .next e :=
  he.trans (h.guarded e hm ha hx hu hk)

/-- Settles O2: each compare is guarded by its selectors alone and lands the predicate that its kind makes of the condition. -/
theorem compares : Obligations.Compares := by
  unfold Obligations.Compares
  intro s u t p c a b v holds old i hi hv hex
  have done {k : CmpKind} (he : exec i s = guarded i s (s.setPred p (cmpResult k (s.cur.p.getLsbD p.toNat)
        (scalarCond c.toNat (s.sel (scalarSlot u) a) (s.sel (scalarSlot u) b)))))
      (hm : memReq s i = none) (ha : aqPushes s i = []) (hx : mxReads s i = []) (hu : coreUses s i = []) (hk : slotChecks s i = [])
      (hb : v = 1 ↔ cmpResult k (s.cur.p.getLsbD p.toNat) (scalarCond c.toNat (s.sel (scalarSlot u) a) (s.sel (scalarSlot u) b)) = true) :
      ∃ s', exec i s = .next s' ∧ Puts s s' [landing s 1 .p (v * 2 ^ p.toNat) (2 ^ p.toNat) 0] ∧ SameMemory s s' := by
    have hp := setPred_puts s p hv hb
    exact ⟨_, hex.exec_eq he hm ha hx hu hk, hp, hp.sameMemory⟩
  rcases hi with ⟨rfl, h⟩ | ⟨rfl, h⟩ | ⟨rfl, h⟩
  · exact done (k := .set) rfl rfl rfl rfl rfl rfl (h.trans (scalarCond_iff ..).symm)
  · exact done (k := .and) rfl rfl rfl rfl rfl rfl (by rw [h, cmpResult, Bool.and_eq_true, scalarCond_iff])
  · exact done (k := .or) rfl rfl rfl rfl rfl rfl (by rw [h, cmpResult, Bool.or_eq_true, scalarCond_iff])

/-! ## Requests of the control slot (R56, R103, R108 to R111) -/

/-- A form that reads no register and no memory meets no soft error. -/
theorem softWords_of_no_reads {s : State} {i : Instr} (hr : regReads i = []) (hs : sideReads s i = []) (ht : (transferOf s.cur i).2 = none)
    (ha : arrayReads s i = []) (he : areaReads s i = []) (hm : memReq s i = none) : softWords s i = [] := by
  simp [softWords, hr, hs, ht, ha, he, hm]

/-- A nop makes no check, in any state. -/
theorem bundleFaults_nop {s : State} {i : Instr} (hi : (∃ u, i = .nop u) ∨ ∃ u, i = .memNop u) : bundleFaults s [i] = [] := by
  obtain ⟨hsel, hm, ha, hx, hu, hk, hsoft⟩ : selsOf i = [] ∧ memReq s i = none ∧ aqPushes s i = [] ∧ mxReads s i = [] ∧ coreUses s i = []
      ∧ slotChecks s i = [] ∧ softWords s i = [] := by
    rcases hi with ⟨u, rfl⟩ | ⟨u, rfl⟩
    all_goals exact ⟨rfl, rfl, rfl, rfl, rfl, rfl, softWords_of_no_reads rfl rfl rfl rfl rfl rfl⟩
  have hf : slotFaults s i = [] := by simp [slotFaults, selFault, hsel, hm, softFaults, hsoft, hk]
  simp [bundleFaults, hm, hf, bankFaults, hx, hu, portFaults, portReqs, pushPorts, ha, timedFaults, messageFaults]

theorem exec_nop (s : State) (u : SlotName) : exec (.nop u) s = .next s :=
  guarded_runs s rfl (.inr (bundleFaults_nop (.inl ⟨u, rfl⟩)))

theorem exec_memNop (s : State) (u : MemUnit) : exec (.memNop u) s = .next s :=
  guarded_runs s rfl (.inr (bundleFaults_nop (.inr ⟨u, rfl⟩)))

theorem latchRequests : LatchRequests :=
  ⟨exec_nop, exec_memNop,
    fun _ _ h => h.exec_eq rfl rfl rfl rfl rfl rfl,
    fun _ _ h => h.exec_eq rfl rfl rfl rfl rfl rfl,
    fun _ _ h => h.exec_eq rfl rfl rfl rfl rfl rfl,
    fun _ _ h => h.exec_eq rfl rfl rfl rfl rfl rfl,
    fun _ _ h => h.exec_eq rfl rfl rfl rfl rfl rfl,
    fun _ h => h.exec_eq rfl rfl rfl rfl rfl rfl⟩

/-- The fields of a trace record (R111). -/
theorem toNat_traceRecord (now x : Nat) (v : Word) :
    (traceRecord now x v).toNat = now % 2 ^ 64 * 2 ^ 64 + x % 4 * 2 ^ 62 + v.toNat % 2 ^ 48 := by
  rw [traceRecord, BitVec.toNat_ofNat]
  omega

theorem systemCalls : SystemCalls := by
  constructor
  · intro s q h
    refine ⟨_, traceRecord s.now s.iss.ctx (s.sel .c q), h.exec_eq rfl rfl rfl rfl rfl rfl, ?_, ?_⟩
    · have := onlyCore_modCore s s.iss.core (fun k => { k with
        trace := (k.trace ++ [traceRecord s.now s.iss.ctx (s.sel .c q)]).drop ((k.trace ++ [traceRecord s.now s.iss.ctx (s.sel .c q)]).length - 256) })
      simpa only [List.length_append, List.length_singleton] using this
    · rw [toNat_traceRecord]
      omega
  · exact fun _ _ h => h.exec_eq rfl rfl rfl rfl rfl rfl

/-- Settles O6: each request is guarded by its selectors alone, and stands in the latch, the trace ring or the host signals. -/
theorem systemRequests : Obligations.SystemRequests := by
  unfold Obligations.SystemRequests
  exact ⟨latchRequests, systemCalls⟩

end Sys2Proof.Machine

/-! # Loads and stores of the windows (O18, O23) -/

namespace Sys2Proof.Machine

open Sys2Proof.Claims

/-! ## An access of a window (R73, R142, R146, R165, R175, R179) -/

theorem localPlace_window (c : Nat) {a : Nat} (h : 0x02000000 ≤ a) : localPlace c a = none := by
  unfold localPlace spadSize
  rw [if_neg (by omega), if_neg (by omega)]

theorem memPorts_window {s : State} {r : MReq} (h : 0x02000000 ≤ r.addr) : memPorts s r = [] := by
  simp only [memPorts, localPlace_window _ h]

/-- A plain access of a window is judged by its alignment and its region alone. -/
theorem memFaults_window {s : State} {r : MReq} (h : 0x02000000 ≤ r.addr) (hf : r.form = .load ∨ r.form = .store)
    (ha : r.addr % r.size = 0) (hr : regionFault s r = []) : memFaults s r = [] := by
  have hp : localPlace s.iss.core r.addr = none := localPlace_window _ h
  rcases hf with hf | hf <;> simp [memFaults, hp, hf, ha, hr]

/-- A plain access of a window that executes has its effect. -/
theorem guarded_window {s : State} {i : Instr} {r : MReq} {ok : Prop} (e : State) (h : ExecutesIf i s ok) (hm : memReq s i = some r)
    (hx : mxReads s i = []) (hk : slotChecks s i = []) (hw : 0x02000000 ≤ r.addr) (hf : r.form = .load ∨ r.form = .store)
    (ha : ok → r.addr % r.size = 0) (hr : ok → regionFault s r = [])
    (hn : ∀ p x m, barStoreOf s.iss.ctx r ≠ some (p, .release x m)) (hc : r.closes = false) : guarded i s e = .next e :=
  guarded_access e h hm hx hk (fun ho => memFaults_window hw hf (ha ho) (hr ho)) (fun _ => releaseFault_none hn)
    (fun _ => by simp [memPorts_window hw])
    (fun _ => timedFaults_plain (by rcases hf with hf | hf <;> simp [hf])) (fun _ => messageFaults_open hc)

/-! ## Loads -/

/-- The access of a plain load. -/
def loadReq (u : MemUnit) (a n : Nat) (vec : Bool) : MReq := ⟨u, .load, vec, n, a, 0, 0⟩

/-- What a plain load is: its access, and its effect with the flights `fl`. -/
structure IsLoad (s : State) (i : Instr) (u : MemUnit) (a n : Nat) (vec sext : Bool) (fl : Nat → Nat → VWord → List Flight) : Prop where
  req : memReq s i = some (loadReq u a n vec)
  reads : mxReads s i = []
  checks : slotChecks s i = []
  pos : 0 < n
  effect : ∃ fl', (∀ lat fid v, (fl' lat fid v).map (fun f => { f with src := 3 }) = fl lat fid v)
    ∧ exec i s = guarded i s (s.issueLoad (loadReq u a n vec) sext fl')

theorem isLoad {s : State} {i : Instr} {u : MemUnit} {a n : Nat} {vec sext : Bool} {fl : Nat → Nat → VWord → List Flight}
    (h : LoadForm s i u a n vec sext fl) : IsLoad s i u a n vec sext fl := by
  cases h
  case vld => exact ⟨rfl, rfl, rfl, by simp [vBytes], _, fun _ _ _ => rfl, rfl⟩
  all_goals exact ⟨rfl, rfl, rfl, by decide, _, fun _ _ _ => rfl, rfl⟩

/-- A plain load of a window that executes issues its access. -/
theorem IsLoad.exec_window {s : State} {i : Instr} {u : MemUnit} {a n : Nat} {vec sext : Bool} {fl : Nat → Nat → VWord → List Flight}
    (h : IsLoad s i u a n vec sext fl) (he : ExecutesIf i s (a % n = 0)) (hw : 0x02000000 ≤ a)
    (hr : regionFault s (loadReq u a n vec) = []) :
    ∃ fl', (∀ lat fid v, (fl' lat fid v).map (fun f => { f with src := 3 }) = fl lat fid v)
      ∧ exec i s = .next (s.issueLoad (loadReq u a n vec) sext fl') := by
  obtain ⟨fl', hfl, hx⟩ := h.effect
  exact ⟨fl', hfl, hx.trans (guarded_window _ he h.req h.reads h.checks hw (.inl rfl) id (fun _ => hr)
    (fun p x m => by simp [barStoreOf, loadReq]) rfl)⟩

/-! ### Where a window admits a load -/

theorem regionFault_load_message {s : State} {r : MReq} (hf : r.form = .load) (h : 0x02000000 ≤ r.addr ∧ r.addr < 0x02000200) :
    regionFault s r = [] := by
  simp only [regionFault, localPlace_window _ h.1, hf]
  rw [if_neg (by simp), if_pos h]

theorem regionFault_load_hcw {s : State} {r : MReq} (hf : r.form = .load) (h : 0x03000000 ≤ r.addr) (hn : 0 < r.size)
    (h' : r.addr - 0x03000000 + r.size ≤ 0x10100) : regionFault s r = [] := by
  simp only [regionFault, localPlace_window _ (show 0x02000000 ≤ r.addr by omega), hf]
  rw [if_neg (by simp), if_neg (by omega), if_pos (by omega), if_pos h']

theorem regionFault_load_barrier {s : State} {r : MReq} (hf : r.form = .load) (h : 0x04000000 ≤ r.addr ∧ r.addr < 0x05000000)
    (h' : barLoadOk (r.addr - 0x04000000) r.size = true) : regionFault s r = [] := by
  simp only [regionFault, localPlace_window _ (show 0x02000000 ≤ r.addr by omega), hf]
  rw [if_neg (by simp), if_neg (by omega), if_neg (by omega), if_pos h, if_pos h']

theorem regionFault_load_queue {s : State} {r : MReq} (hf : r.form = .load) {q b : Nat} (ha : r.addr = 0x05000000 + 128 * q + b)
    (hq : q < 4) (hn : 0 < r.size) (hb : b + r.size ≤ 128) (he : s.cur.queueReady q = true) : regionFault s r = [] := by
  have hd : (r.addr - 0x05000000) / 128 = q := by omega
  have hnone : (s.cur).emptyFault q = none := by simp [Ctx.emptyFault, he]
  simp only [regionFault, localPlace_window _ (show 0x02000000 ≤ r.addr by omega), hf, hd]
  rw [if_neg (by simp), if_neg (by omega), if_neg (by omega), if_neg (by omega), if_pos (by omega), if_pos (by omega)]
  exact congrArg (fun o : Option FaultRec => match o with | some f => [f] | none => []) hnone

theorem regionFault_load_array {s : State} {r : MReq} (hf : r.form = .load) (h : 0x06000000 ≤ r.addr ∧ r.addr < 0x07000000) {p : Nat × Nat}
    (hp : aregOf (r.addr - 0x06000000) r.size = some p) : regionFault s r = [] := by
  simp only [regionFault, localPlace_window _ (show 0x02000000 ≤ r.addr by omega), hf, hp]
  rw [if_neg (by simp), if_neg (by omega), if_neg (by omega), if_neg (by omega), if_neg (by omega), if_pos h]

/-! ### What a load of a window does -/

theorem issueLoad_queue (s : State) {r : MReq} (sext : Bool) (fl : Nat → Nat → VWord → List Flight) {q b : Nat} {e : VWord}
    (ha : r.addr = 0x05000000 + 128 * q + b) (hq : q < 4) (hb : b < 128) (he : s.cur.head q = some e) :
    s.issueLoad r sext fl = s.flyLoad (fl 4 0 (extendLoad r.vec sext r.size (bitsAt e.toNat (8 * b) (8 * r.size)))) := by
  have hd : (r.addr - 0x05000000) / 128 = q := by omega
  have hm : (r.addr - 0x05000000) % 128 = b := by omega
  simp only [State.issueLoad]
  rw [if_pos (by omega), hd, hm, he, Option.getD_some]

theorem issueLoad_array (s : State) {r : MReq} (sext : Bool) (fl : Nat → Nat → VWord → List Flight) {o b w : Nat}
    (ha : r.addr = 0x06000000 + o) (ho : o < 0x1000000) (h : aregOf o r.size = some (b, w)) :
    s.issueLoad r sext fl
      = s.flyLoad (fl 4 0 (extendLoad r.vec sext r.size
          (bitsAt (aregValue (s.core s.iss.core) s.cur b) (8 * (o - b)) (8 * r.size)))) := by
  have hd : r.addr - 0x06000000 = o := by omega
  simp only [State.issueLoad]
  rw [if_neg (by omega), if_pos (by omega), hd, h]

/-- The access that a load of a device's window issues. -/
def deviceAccess (s : State) (u : MemUnit) (tg : Target) (n : Nat) (vec sext : Bool) : Access :=
  ⟨s.now + 1, s.now, s.iss.core, s.iss.ctx, u == .mb, tg, .load s.nextId sext, n, 0, vec, 0, none⟩

theorem issueLoad_device (s : State) {r : MReq} (sext : Bool) (fl : Nat → Nat → VWord → List Flight) (hf : r.form = .load)
    (h : 0x02000000 ≤ r.addr) (h' : r.addr < 0x05000000) :
    s.issueLoad r sext fl = { s.flyLoad (fl 4 s.nextId 0) with
      nextId := s.nextId + 1, accesses := s.accesses ++ [deviceAccess s r.u (targetOf s.iss.core r.addr) r.size r.vec sext] } := by
  have hp : performTick s.now r.addr = s.now + 1 := if_neg (by omega)
  have hl : loadLat r.addr = 4 := if_neg (by omega)
  simp only [State.issueLoad]
  rw [if_neg (by omega), if_neg (by omega), memPorts_window h, hp, hl, hf]
  rfl

theorem targetOf_message (c : Nat) {o : Nat} (h : o < 0x1000000) : targetOf c (0x02000000 + o) = .msg o := by
  simp only [targetOf, localPlace_window c (show 0x02000000 ≤ 0x02000000 + o by omega)]
  rw [if_pos (by omega), Nat.add_sub_cancel_left]

theorem targetOf_hcw (c : Nat) {o : Nat} (h : o < 0x1000000) : targetOf c (0x03000000 + o) = .hcw o := by
  simp only [targetOf, localPlace_window c (show 0x02000000 ≤ 0x03000000 + o by omega)]
  rw [if_neg (by omega), if_pos (by omega), Nat.add_sub_cancel_left]

theorem targetOf_barrier (c o : Nat) : targetOf c (0x04000000 + o) = .bar o := by
  simp only [targetOf, localPlace_window c (show 0x02000000 ≤ 0x04000000 + o by omega)]
  rw [if_neg (by omega), if_neg (by omega), Nat.add_sub_cancel_left]

/-! ### The loads -/

/-- Results put into flight, in the form that a load's are. -/
theorem puts_flyLoad (s : State) {fs gs : List Flight} (h : fs.map (fun f => { f with src := 3 }) = gs) : Puts s (s.flyLoad fs) gs :=
  h ▸ puts_fly ..

/-- R142: a load of a queue's head. -/
theorem IsLoad.queue {s : State} {i : Instr} {u : MemUnit} {n q b : Nat} {vec sext : Bool} {fl : Nat → Nat → VWord → List Flight}
    (h : IsLoad s i u (0x05000000 + 128 * q + b) n vec sext fl) (hq : q < 4) (hb : b + n ≤ 128) {e : VWord} (he : s.cur.head q = some e)
    (hx : ExecutesIf i s ((0x05000000 + 128 * q + b) % n = 0)) :
    ∃ t, exec i s = .next t ∧ Puts s t (fl 4 0 (extendLoad vec sext n (bitsAt e.toNat (8 * b) (8 * n)))) := by
  have hpos := h.pos
  obtain ⟨fl', hfl, hexec⟩ := h.exec_window hx (by omega)
    (regionFault_load_queue rfl rfl hq hpos hb (by simp [Ctx.queueReady, he]))
  rw [issueLoad_queue s sext fl' rfl hq (by omega) he] at hexec
  exact ⟨_, hexec, puts_flyLoad s (hfl ..)⟩

/-- R146: a load of the array window. -/
theorem IsLoad.array {s : State} {i : Instr} {u : MemUnit} {n o b w : Nat} {vec sext : Bool} {fl : Nat → Nat → VWord → List Flight}
    (h : IsLoad s i u (0x06000000 + o) n vec sext fl) (ho : o < 0x1000000) (hr : aregOf o n = some (b, w))
    (hx : ExecutesIf i s ((0x06000000 + o) % n = 0)) :
    ∃ t, exec i s = .next t
      ∧ Puts s t (fl 4 0 (extendLoad vec sext n (bitsAt (aregValue (s.core s.iss.core) s.cur b) (8 * (o - b)) (8 * n)))) := by
  have hd : 0x06000000 + o - 0x06000000 = o := by omega
  obtain ⟨fl', hfl, hexec⟩ := h.exec_window hx (by omega)
    (regionFault_load_array rfl (by simp only [loadReq]; omega) (p := (b, w)) (by simp only [loadReq, hd, hr]))
  rw [issueLoad_array s sext fl' rfl ho hr] at hexec
  exact ⟨_, hexec, puts_flyLoad s (hfl ..)⟩

/-- Where the windows of devices admit a load, and what it reads there (R73, R175, R179). -/
inductive DeviceLoad (n : Nat) : Nat → Target → Prop
  | msg {o : Nat} (h : o < 0x200) : DeviceLoad n (0x02000000 + o) (.msg o)
  | hcw {o : Nat} (h : o + n ≤ 0x10100) : DeviceLoad n (0x03000000 + o) (.hcw o)
  | bar {o : Nat} (h : o < 0x1000000) (ok : barLoadOk o n = true) : DeviceLoad n (0x04000000 + o) (.bar o)

theorem DeviceLoad.range {n a : Nat} {tg : Target} (h : DeviceLoad n a tg) : 0x02000000 ≤ a ∧ a < 0x05000000 := by
  cases h <;> omega

theorem DeviceLoad.targetOf {n a : Nat} {tg : Target} (h : DeviceLoad n a tg) (c : Nat) : targetOf c a = tg := by
  cases h with
  | msg h => exact targetOf_message c (by omega)
  | hcw h => exact targetOf_hcw c (by omega)
  | bar => exact targetOf_barrier ..

theorem DeviceLoad.regionFault {n a : Nat} {tg : Target} (h : DeviceLoad n a tg) (hn : 0 < n) (s : State) (u : MemUnit) (vec : Bool) :
    regionFault s (loadReq u a n vec) = [] := by
  cases h with
  | msg h => exact regionFault_load_message rfl (by simp only [loadReq]; omega)
  | hcw h => exact regionFault_load_hcw rfl (by simp only [loadReq]; omega) hn (by simp only [loadReq]; omega)
  | bar h ok =>
    refine regionFault_load_barrier rfl (by simp only [loadReq]; omega) ?_
    simp only [loadReq, Nat.add_sub_cancel_left, ok]

/-- R73, R175, R179: a load of a device's window. -/
theorem IsLoad.device {s : State} {i : Instr} {u : MemUnit} {a n : Nat} {vec sext : Bool} {fl : Nat → Nat → VWord → List Flight} {tg : Target}
    (h : IsLoad s i u a n vec sext fl) (hd : DeviceLoad n a tg) (hx : ExecutesIf i s (a % n = 0)) :
    ∃ t, exec i s = .next t ∧ SameMemory s t ∧ t.nextId = s.nextId + 1 ∧ t.accesses = s.accesses ++ [deviceAccess s u tg n vec sext]
      ∧ OnlyCtx { s with accesses := t.accesses, nextId := t.nextId } t s.iss.core s.iss.ctx
          { s.cur with flights := s.cur.flights ++ fl 4 s.nextId 0 } := by
  obtain ⟨fl', hfl, hexec⟩ := h.exec_window hx hd.range.1 (hd.regionFault h.pos s u vec)
  rw [issueLoad_device s sext fl' rfl hd.range.1 hd.range.2, loadReq, hd.targetOf] at hexec
  have hfly : Puts s _ _ := puts_flyLoad s (hfl 4 s.nextId 0)
  obtain ⟨h1, h2, h3, h4⟩ := hfly
  refine ⟨_, hexec, (puts_flyLoad s (hfl 4 s.nextId 0)).sameMemory, rfl, rfl, h1, h2, h3, ?_⟩
  rfl

/-- Settles O23: a load of a queue or of the array takes its value at issue, one of a device's window issues an access. -/
theorem windowLoads : Obligations.WindowLoads := by
  unfold Obligations.WindowLoads
  refine ⟨fun i s u a n vec sext fl h _ => ⟨?_, ?_⟩, fun i s u a n vec sext fl tg h _ ho hx => ?_⟩
  · rintro q b rfl hq hb e he hx
    obtain ⟨t, ht, hp⟩ := (isLoad h).queue hq hb he hx
    exact ⟨t, ht, hp.sameMemory, hp⟩
  · rintro o b w rfl ho hr hx
    obtain ⟨t, ht, hp⟩ := (isLoad h).array ho hr hx
    exact ⟨t, ht, hp.sameMemory, hp⟩
  · have hd : DeviceLoad n a tg := by
      obtain ⟨o, ⟨rfl, h1, rfl⟩ | ⟨rfl, h1, rfl⟩ | ⟨rfl, h1, h2, rfl⟩⟩ := ho
      · exact .msg h1
      · exact .hcw h1
      · exact .bar h1 h2
    exact (isLoad h).device hd hx

end Sys2Proof.Machine

/-! ## Stores -/

namespace Sys2Proof.Machine

open Sys2Proof.Claims

/-- The access of a plain store. -/
def storeReq (u : MemUnit) (a n data : Nat) (vec : Bool) : MReq := ⟨u, .store, vec, n, a, 0, BitVec.ofNat 1024 data⟩

/-- What a plain store is: its access, and the sizes it may have. -/
structure IsStore (s : State) (i : Instr) (u : MemUnit) (a n data : Nat) (vec : Bool) : Prop where
  req : memReq s i = some (storeReq u a n data vec)
  reads : mxReads s i = []
  checks : slotChecks s i = []
  effect : exec i s = guarded i s (s.issueStore (storeReq u a n data vec))
  scalar : vec = false → n ≤ 8
  vector : vec = true → n = 32 ∨ n = 64 ∨ n = 128 ∨ n = 256

theorem storePlain_of_memReq {s : State} {i : Instr} {r : MReq} (h : memReq s i = some r) : s.storePlain i = s.issueStore r := by
  simp only [State.storePlain, h]

theorem vBytes_cases (w : BitVec 2) : vBytes w = 32 ∨ vBytes w = 64 ∨ vBytes w = 128 ∨ vBytes w = 256 := by
  revert w; decide

theorem isStore {s : State} {i : Instr} {u : MemUnit} {a n data : Nat} {vec : Bool} (h : StoreForm s i u a n data vec) :
    IsStore s i u a n data vec := by
  have hreq : memReq s i = some (storeReq u a n data vec) := by
    cases h
    case vst => rfl
    all_goals simp only [storeReq, BitVec.ofNat_toNat]; rfl
  have hexec : exec i s = guarded i s (s.storePlain i) := by cases h <;> rfl
  rw [storePlain_of_memReq hreq] at hexec
  cases h
  case vst => exact ⟨hreq, rfl, rfl, hexec, by simp, fun _ => vBytes_cases _⟩
  all_goals exact ⟨hreq, rfl, rfl, hexec, fun _ => by decide, by simp⟩

/-! ### Where a window admits a store -/

theorem regionFault_store_message {s : State} {r : MReq} (hf : r.form = .store) (h : 0x02000000 ≤ r.addr ∧ r.addr < 0x02000200)
    (hv : r.vec = true ∨ r.size = 8) : regionFault s r = [] := by
  simp only [regionFault, localPlace_window _ h.1, hf]
  rw [if_neg (by simp), if_pos h, if_pos (by simpa using hv)]

theorem regionFault_store_hcw {s : State} {r : MReq} (hf : r.form = .store) (h : 0x03000000 ≤ r.addr) (h' : r.addr < 0x03010000)
    (hv : r.vec = true) (hn : r.size = 32) : regionFault s r = [] := by
  simp only [regionFault, localPlace_window _ (show 0x02000000 ≤ r.addr by omega), hf]
  rw [if_neg (by simp), if_neg (by omega), if_pos (by omega), if_pos (by simp [hv, hn]; omega)]

theorem regionFault_store_barrier {s : State} {r : MReq} (hf : r.form = .store) (h : 0x04000000 ≤ r.addr ∧ r.addr < 0x05000000)
    (hb : (barStoreOf s.iss.ctx r).isSome = true) : regionFault s r = [] := by
  simp only [regionFault, localPlace_window _ (show 0x02000000 ≤ r.addr by omega), hf]
  rw [if_neg (by simp), if_neg (by omega), if_neg (by omega), if_pos h, if_pos hb]

theorem regionFault_store_array {s : State} {r : MReq} (hf : r.form = .store) {o : Nat} (ha : r.addr = 0x06000000 + o) (h : o < 0x200)
    (hr : aregOf o r.size = some (o, r.size)) (hv : r.vec = true ↔ r.size = 32)
    (hown : o < 0x100 → (s.core s.iss.core).arrayOwner = some s.iss.ctx) : regionFault s r = [] := by
  have ho : r.addr - 0x06000000 = o := by omega
  simp only [regionFault, localPlace_window _ (show 0x02000000 ≤ r.addr by omega), hf, ho, hr]
  rw [if_neg (by simp), if_neg (by omega), if_neg (by omega), if_neg (by omega), if_neg (by omega), if_pos (by omega),
    if_pos ⟨trivial, trivial, h, hv⟩, if_neg (fun hx => hx.2 (hown hx.1))]

/-! ### What a store to the barrier window does (R179) -/

section
variable {x : Nat} {r : MReq}

theorem barStoreOf_release_addr {p : Option Nat} {y : Nat} {m : BitVec 32} (h : barStoreOf x r = some (p, .release y m)) :
    r.size = 4 ∧ r.addr = 0x0400F000 + 4 * x := by
  unfold barStoreOf at h
  simp only at h
  split at h
  · cases h
  · split at h
    · split at h
      · split at h
        · cases h
        · split at h <;> cases h
      · split at h
        · split at h <;> cases h
        · split at h <;> cases h
    · split at h
      · rename_i ha
        omega
      · cases h

theorem barStoreOf_bcfg {u : MemUnit} {b data : Nat} (hb : b < 32) :
    barStoreOf x (storeReq u (0x04000000 + 32 * b) 8 data false) = some (none, .bcfg b (BitVec.ofNat 64 data)) := by
  have ho : 0x04000000 + 32 * b - 0x04000000 = 32 * b := by omega
  have hd : 32 * b / 32 = b := by omega
  simp only [barStoreOf, storeReq, ho, hd]
  rw [if_neg (by decide), if_pos trivial, if_pos (by omega), if_pos (by omega), BitVec.setWidth_ofNat_of_le (by decide)]

theorem bitsAt_setWidth_64 (data : Nat) : bitsAt ((BitVec.ofNat 1024 data).setWidth 64).toNat 0 16 = data % 65536 := by
  rw [BitVec.setWidth_ofNat_of_le (by decide)]
  simp only [bitsAt, BitVec.toNat_ofNat, Nat.pow_zero, Nat.div_one]
  exact Nat.mod_mod_of_dvd _ (by decide)

theorem barStoreOf_barr {u : MemUnit} {b data : Nat} (hb : b < 32) :
    barStoreOf x (storeReq u (0x04000000 + 32 * b + 24) 8 data false) = some (none, .barr b (data % 65536)) := by
  have ho : 0x04000000 + 32 * b + 24 - 0x04000000 = 32 * b + 24 := by omega
  have hd : (32 * b + 24) / 32 = b := by omega
  simp only [barStoreOf, storeReq, ho, hd, bitsAt_setWidth_64]
  rw [if_neg (by decide), if_pos trivial, if_pos (by omega), if_neg (by omega), if_pos (by omega)]

theorem barStoreOf_peer {u : MemUnit} {p b data : Nat} (hp : p < 8) (hb : b < 32) :
    barStoreOf x (storeReq u (0x04001018 + 0x400 * p + 32 * b) 8 data false) = some (some p, .barr b (data % 65536)) := by
  have ho : 0x04001018 + 0x400 * p + 32 * b - 0x04000000 = 0x1018 + 0x400 * p + 32 * b := by omega
  have hd : (0x1018 + 0x400 * p + 32 * b - 0x1000) / 0x400 = p := by omega
  have hm : (0x1018 + 0x400 * p + 32 * b - 0x1000) % 0x400 / 32 = b := by omega
  simp only [barStoreOf, storeReq, ho, hd, hm, bitsAt_setWidth_64]
  rw [if_neg (by decide), if_pos trivial, if_neg (by omega), if_pos (by omega), if_pos (by omega)]

theorem barStoreOf_estat {u : MemUnit} {y data : Nat} (hy : y < 4) :
    barStoreOf x (storeReq u (0x0400F800 + 8 * y) 8 data false) = some (none, .estat y (BitVec.ofNat 64 data)) := by
  have ho : 0x0400F800 + 8 * y - 0x04000000 = 0xF800 + 8 * y := by omega
  have hd : (0xF800 + 8 * y - 0xF800) / 8 = y := by omega
  simp only [barStoreOf, storeReq, ho, hd]
  rw [if_neg (by decide), if_pos trivial, if_neg (by omega), if_neg (by omega), if_pos (by omega), BitVec.setWidth_ofNat_of_le (by decide)]

theorem barStoreOf_release {u : MemUnit} {data : Nat} :
    barStoreOf x (storeReq u (0x0400F000 + 4 * x) 4 data false) = some (none, .release x (BitVec.ofNat 32 data)) := by
  have ho : 0x0400F000 + 4 * x - 0x04000000 = 0xF000 + 4 * x := by omega
  simp only [barStoreOf, storeReq, ho]
  rw [if_neg (by decide), if_neg (by decide), if_pos ⟨trivial, trivial⟩, BitVec.setWidth_ofNat_of_le (by decide)]

end

/-! ### What a store to a window does -/

section
variable (s : State) {r : MReq}

theorem issueStore_hcw {o : Nat} (ha : r.addr = 0x03000000 + o) (ho : o < 0x1000000) :
    s.issueStore r = s.fly [⟨0, s.now, s.now + 4, 2, .hcw (o / 0x4000) (o % 0x4000 / 32), r.data, lowMask 256, 0⟩] := by
  have hd : r.addr - 0x03000000 = o := by omega
  simp only [State.issueStore]
  rw [if_pos (by omega), hd]

theorem issueStore_areg {o : Nat} (ha : r.addr = 0x06000000 + o) (ho : o < 0x100) :
    s.issueStore r = s.fly [⟨0, s.now, s.now + 4, 2, .areg o, r.data, lowMask (8 * r.size), 0⟩] := by
  have hd : r.addr - 0x06000000 = o := by omega
  simp only [State.issueStore]
  rw [if_neg (by omega), if_neg (by omega), if_pos (by omega), hd, if_neg (by omega)]

theorem issueStore_e {o : Nat} (ha : r.addr = 0x06000000 + o) (ho : 0x100 ≤ o) (ho' : o < 0x200) :
    s.issueStore r = s.fly [⟨0, s.now, s.now + 4, 2, .e ((o - 0x100) / 32), r.data, lowMask 256, 0⟩] := by
  have hd : r.addr - 0x06000000 = o := by omega
  simp only [State.issueStore]
  rw [if_neg (by omega), if_neg (by omega), if_pos (by omega), hd, if_pos ho]

/-- A core with one more store to its barrier window, due at `t`. -/
def Core.addBarStore (k : Core) (s : State) (t : Nat) (b : BarStore) : Core :=
  { k with barStores := k.barStores ++ [⟨t, s.now, s.iss.core, s.iss.ctx, b⟩] }

theorem issueStore_barrier_own {b : BarStore} (h : 0x04000000 ≤ r.addr ∧ r.addr < 0x05000000)
    (hb : barStoreOf s.iss.ctx r = some (none, b)) (hr : ∀ x m, b ≠ .release x m) :
    s.issueStore r = s.modCore s.iss.core (fun k => k.addBarStore s (s.now + 4) b) := by
  simp only [State.issueStore]
  rw [if_neg (by omega), if_pos h, hb]
  cases b with
  | release x m => exact absurd rfl (hr x m)
  | bcfg | barr | estat => simp only [Core.planScrubs, List.map_nil, List.append_nil]; rfl

theorem issueStore_barrier_peer {b : BarStore} {p : Nat} (h : 0x04000000 ≤ r.addr ∧ r.addr < 0x05000000)
    (hb : barStoreOf s.iss.ctx r = some (some p, b)) :
    s.issueStore r = s.modCore (s.iss.core / 8 * 8 + p) (fun k => k.addBarStore s (s.now + 8) b) := by
  simp only [State.issueStore]
  rw [if_neg (by omega), if_pos h, hb]
  rfl

/-- The banks that a release names: with a scrub, those of the mask that the context owns (R202). -/
def scrubBanks (k : Core) (x : Nat) (scrub : Bool) (m : Nat → Bool) : List Nat :=
  if scrub then (List.range 32).filter (fun b => m b && k.owns x b) else []

theorem issueStore_release {x : Nat} {m : BitVec 32} (h : 0x04000000 ≤ r.addr ∧ r.addr < 0x05000000)
    (hb : barStoreOf s.iss.ctx r = some (none, .release x m)) :
    s.issueStore r = s.modCore s.iss.core (fun k =>
      (k.planScrubs (scrubBanks k x (s.scrubs s.iss.core x) m.getLsbD) (s.now + 4)).addBarStore s (s.now + 4) (.release x m)) := by
  simp only [State.issueStore]
  rw [if_neg (by omega), if_pos h, hb]
  rfl

theorem issueStore_message (h : 0x02000000 ≤ r.addr) (h' : r.addr < 0x02000200) :
    s.issueStore r = { s with
      accesses := s.accesses ++ [⟨s.now + 1, s.now, s.iss.core, s.iss.ctx, r.u == .mb, .msg (r.addr - 0x02000000), .store, r.size, r.data,
        r.vec, 0, none⟩]
      msgs := if r.closes then s.msgs ++ [⟨s.iss.core, s.iss.ctx, (r.addr - 0x02000000) / 128, s.now + 1, false, 0, 0, 0, 0, s.cur.lx⟩]
        else s.msgs } := by
  have hp : performTick s.now r.addr = s.now + 1 := if_neg (by omega)
  have ht : targetOf s.iss.core r.addr = .msg (r.addr - 0x02000000) := by
    simp only [targetOf, localPlace_window _ h]
    rw [if_pos (by omega)]
  simp only [State.issueStore]
  rw [if_neg (by omega), if_neg (by omega), if_neg (by omega), memPorts_window h, hp, ht]
  rfl

end

/-! ### The stores -/

theorem closes_of_le {r : MReq} (h : 0x02000200 ≤ r.addr) : r.closes = false := by
  have hr : ¬ (0x02000000 ≤ r.addr ∧ r.addr < 0x02000200) := by omega
  simp only [MReq.closes, decide_eq_false hr, Bool.and_false, Bool.false_and]

/-- Where a store writes word 15 of a message buffer (R175). -/
theorem closes_message {r : MReq} {k o : Nat} (hf : r.form = .store) (ha : r.addr = 0x02000000 + 128 * k + o) (hk : k < 4) (ho : o < 128)
    (hv : r.vec = true ∨ r.size = 8) : r.closes = decide (0x78 < o + r.size) := by
  have hm : r.addr % 128 = o := by omega
  have hr : 0x02000000 ≤ r.addr ∧ r.addr < 0x02000200 := by omega
  have hv' : (r.vec || r.size == 8) = true := by simpa using hv
  simp only [MReq.closes, hf, hm, hv', decide_eq_true hr]
  rfl

theorem onlyCore_addBarStore (s : State) (c t : Nat) (b : BarStore) :
    SameMemory s (s.modCore c (fun k => k.addBarStore s t b)) ∧ OnlyCore s (s.modCore c (fun k => k.addBarStore s t b)) c
      ((s.core c).addBarStore s t b) :=
  ⟨sameMemory_setCore rfl, onlyCore_modCore ..⟩

section
variable {s : State} {i : Instr} {u : MemUnit} {a n data : Nat} {vec : Bool}

/-- A plain store to a window that executes issues its access. -/
theorem IsStore.exec_window {ok : Prop} (h : IsStore s i u a n data vec) (he : ExecutesIf i s ok) (hw : 0x02000000 ≤ a)
    (ha : ok → a % n = 0) (hr : ok → regionFault s (storeReq u a n data vec) = []) (hx : n = 4 → a ≠ 0x0400F000 + 4 * s.iss.ctx)
    (hc : (storeReq u a n data vec).closes = false) : exec i s = .next (s.issueStore (storeReq u a n data vec)) :=
  h.effect.trans (guarded_window _ he h.req h.reads h.checks hw (.inr rfl) ha hr
    (fun _ _ _ hb => hx (barStoreOf_release_addr hb).1 (barStoreOf_release_addr hb).2) hc)

/-- A plain store of a bundle whose checks are made issues its access. -/
theorem IsStore.exec_checked (h : IsStore s i u a n data vec) (hs : slotRuns i s = true) (hc : s.iss.checked = true) :
    exec i s = .next (s.issueStore (storeReq u a n data vec)) :=
  h.effect.trans (guarded_runs _ hs (.inl hc))

/-- R75: a store of an entry of the HCW table. -/
theorem IsStore.hcw {o : Nat} (h : IsStore s i u (0x03000000 + o) 32 data true) (ho : o < 0x10000)
    (he : ExecutesIf i s ((0x03000000 + o) % 32 = 0)) :
    ∃ t, exec i s = .next t ∧ Puts s t [⟨0, s.now, s.now + 4, 2, .hcw (o / 0x4000) (o % 0x4000 / 32), BitVec.ofNat 1024 data,
      BitVec.ofNat 1024 (2 ^ 256 - 1), 0⟩] := by
  have hexec := h.exec_window he (by omega) id
    (fun _ => regionFault_store_hcw rfl (by simp only [storeReq]; omega) (by simp only [storeReq]; omega) rfl rfl)
    (by omega) (closes_of_le (by simp only [storeReq]; omega))
  rw [issueStore_hcw s rfl (by omega)] at hexec
  exact ⟨_, hexec, puts_fly ..⟩

/-- R146: a store of a register of the array that its owner may write. -/
theorem IsStore.areg {o : Nat} (hctx : s.iss.ctx < 4) (h : IsStore s i u (0x06000000 + o) n data false) (ho : o < 0x100) (hr : aregOf o n = some (o, n))
    (he : ExecutesIf i s ((0x06000000 + o) % n = 0 ∧ (s.core s.iss.core).arrayOwner = some s.iss.ctx)) :
    ∃ t, exec i s = .next t ∧ Puts s t [⟨0, s.now, s.now + 4, 2, .areg o, BitVec.ofNat 1024 data, BitVec.ofNat 1024 (2 ^ (8 * n) - 1), 0⟩] := by
  have hn := h.scalar rfl
  have hexec := h.exec_window he (by omega) And.left
    (fun hown => regionFault_store_array rfl rfl (by omega) hr (by simp [storeReq]; omega) (fun _ => hown.2))
    (by omega) (closes_of_le (by simp only [storeReq]; omega))
  rw [issueStore_areg s rfl ho] at hexec
  exact ⟨_, hexec, puts_fly ..⟩

/-- The registers E of the array window are 32 bytes wide. -/
theorem aregOf_e {o b w : Nat} (h : 0x100 ≤ o) (h' : o < 0x200) (hr : aregOf o n = some (b, w)) : w = 32 := by
  simp only [aregOf] at hr
  rw [if_neg (by omega), if_neg (by omega), if_neg (by omega), if_neg (by omega), if_pos ⟨h, h'⟩] at hr
  simp only [Option.ite_none_right_eq_some, Option.some.injEq, Prod.mk.injEq] at hr
  exact hr.2.2.symm

/-- R146: a store of a register E. -/
theorem IsStore.e {o : Nat} (h : IsStore s i u (0x06000000 + o) n data true) (ho : 0x100 ≤ o) (ho' : o < 0x200)
    (hr : aregOf o n = some (o, n)) (he : ExecutesIf i s ((0x06000000 + o) % n = 0)) :
    ∃ t, exec i s = .next t ∧ Puts s t [⟨0, s.now, s.now + 4, 2, .e ((o - 0x100) / 32), BitVec.ofNat 1024 data,
      BitVec.ofNat 1024 (2 ^ 256 - 1), 0⟩] := by
  have hn : n = 32 := aregOf_e ho ho' hr
  have hexec := h.exec_window he (by omega) id
    (fun _ => regionFault_store_array rfl rfl ho' hr (by simp [storeReq, hn]) (fun _ => by omega))
    (by omega) (closes_of_le (by simp only [storeReq]; omega))
  rw [issueStore_e s rfl ho ho'] at hexec
  exact ⟨_, hexec, puts_fly ..⟩

/-- A store to the barrier window, other than a release, is admitted where the window says what it does. -/
theorem IsStore.exec_barrier (h : IsStore s i u a 8 data false) (ha : 0x04000000 ≤ a ∧ a < 0x05000000) (h8 : a % 8 = 0)
    {p : Option Nat × BarStore} (hb : barStoreOf s.iss.ctx (storeReq u a 8 data false) = some p)
    (he : ExecutesIf i s True) : exec i s = .next (s.issueStore (storeReq u a 8 data false)) :=
  h.exec_window he (by omega) (fun _ => h8) (fun _ => regionFault_store_barrier rfl ha (by simp [hb])) (by omega) (closes_of_le (by simp only [storeReq]; omega))

/-- R179: a store to a barrier register of the context's own core. -/
theorem IsStore.barrier_own (h : IsStore s i u a 8 data false) (ha : 0x04000000 ≤ a ∧ a < 0x05000000) (h8 : a % 8 = 0)
    {b : BarStore} (hb : barStoreOf s.iss.ctx (storeReq u a 8 data false) = some (none, b))
    (hr : ∀ x m, b ≠ .release x m) (he : ExecutesIf i s True) :
    ∃ t, exec i s = .next t ∧ SameMemory s t ∧ OnlyCore s t s.iss.core ((s.core s.iss.core).addBarStore s (s.now + 4) b) := by
  have hexec := h.exec_barrier ha h8 hb he
  rw [issueStore_barrier_own s ha hb hr] at hexec
  exact ⟨_, hexec, onlyCore_addBarStore ..⟩

/-- R179: a store to a barrier of a core of the same die. -/
theorem IsStore.barrier_peer {p b : Nat} (h : IsStore s i u (0x04001018 + 0x400 * p + 32 * b) 8 data false) (hp : p < 8) (hb : b < 32)
    (he : ExecutesIf i s True) :
    ∃ t, exec i s = .next t ∧ SameMemory s t ∧ OnlyCore s t (s.iss.core / 8 * 8 + p)
      ((s.core (s.iss.core / 8 * 8 + p)).addBarStore s (s.now + 8) (.barr b (data % 65536))) := by
  have hexec := h.exec_barrier (by omega) (by omega) (barStoreOf_peer hp hb) he
  rw [issueStore_barrier_peer s (by simp only [storeReq]; omega) (barStoreOf_peer hp hb)] at hexec
  exact ⟨_, hexec, onlyCore_addBarStore ..⟩

/-- R200, R202: the banks of the mask, by the bits of the data. -/
theorem scrubBanks_ofNat (k : Core) (x : Nat) (scrub : Bool) (data : Nat) :
    scrubBanks k x scrub (BitVec.ofNat 32 data).getLsbD = scrubBanks k x scrub data.testBit := by
  unfold scrubBanks
  congr 1
  refine List.filter_congr fun b hb => ?_
  rw [BitVec.getLsbD_ofNat, decide_eq_true (List.mem_range.mp hb), Bool.true_and]

/-- R200, R202: a store to the release word. -/
theorem IsStore.release (h : IsStore s i u (0x0400F000 + 4 * s.iss.ctx) 4 data false) (hx : s.iss.ctx < 4)
    (hs : slotRuns i s = true) (hc : s.iss.checked = true) :
    ∃ t, exec i s = .next t ∧ SameMemory s t ∧ OnlyCore s t s.iss.core
      (((s.core s.iss.core).planScrubs (scrubBanks (s.core s.iss.core) s.iss.ctx (s.scrubs s.iss.core s.iss.ctx) data.testBit)
        (s.now + 4)).addBarStore s (s.now + 4) (.release s.iss.ctx (BitVec.ofNat 32 data))) := by
  have hexec := h.exec_checked hs hc
  rw [issueStore_release s (by simp only [storeReq]; omega) barStoreOf_release] at hexec
  simp only [scrubBanks_ofNat] at hexec
  exact ⟨_, hexec, sameMemory_setCore rfl, onlyCore_modCore ..⟩

theorem IsStore.message_size (h : IsStore s i u a n data vec) (hv : vec = true ∨ n = 8) : n = 8 ∨ n = 32 ∨ n = 64 ∨ n = 128 ∨ n = 256 :=
  hv.elim (fun hv => .inr (h.vector hv)) .inl

/-- An aligned store that ends before the end of a message buffer leaves its word 15. -/
theorem IsStore.leaves_word15 {k o : Nat} (h : IsStore s i u a n data vec) (ha : (0x02000000 + 128 * k + o) % n = 0)
    (hv : vec = true ∨ n = 8) (ho : o + n < 128) : ¬ 0x78 < o + n := by
  rcases h.message_size hv with rfl | rfl | rfl | rfl | rfl <;> omega

/-- R175: a store to a message buffer that leaves its word 15. -/
theorem IsStore.message_open {k o : Nat} (h : IsStore s i u (0x02000000 + 128 * k + o) n data vec) (hk : k < 4) (ho : o + n < 128)
    (hv : vec = true ∨ n = 8) (ha : (0x02000000 + 128 * k + o) % n = 0) (he : ExecutesIf i s True) :
    exec i s = .next { s with accesses := s.accesses ++ [⟨s.now + 1, s.now, s.iss.core, s.iss.ctx, u == .mb, .msg (128 * k + o), .store, n,
      BitVec.ofNat 1024 data, vec, 0, none⟩] } := by
  have hopen : (storeReq u (0x02000000 + 128 * k + o) n data vec).closes = false := by
    rw [closes_message rfl rfl hk (by omega) hv]
    exact decide_eq_false (h.leaves_word15 ha hv ho)
  have hd : 0x02000000 + 128 * k + o - 0x02000000 = 128 * k + o := by omega
  rw [h.exec_window he (by omega) (fun _ => ha) (fun _ => regionFault_store_message rfl (by simp only [storeReq]; omega) hv) (by omega) hopen,
    issueStore_message s (by simp only [storeReq]; omega) (by simp only [storeReq]; omega), hopen]
  simp only [storeReq, hd]
  rfl

/-- R175, R176: a store that writes word 15 of a message buffer closes the packet. -/
theorem IsStore.message_closed {k o : Nat} (h : IsStore s i u (0x02000000 + 128 * k + o) n data vec) (hk : k < 4) (ho : o + n = 128)
    (hv : vec = true ∨ n = 8) (hs : slotRuns i s = true) (hc : s.iss.checked = true) :
    exec i s = .next { s with
      accesses := s.accesses ++ [⟨s.now + 1, s.now, s.iss.core, s.iss.ctx, u == .mb, .msg (128 * k + o), .store, n,
        BitVec.ofNat 1024 data, vec, 0, none⟩]
      msgs := s.msgs ++ [⟨s.iss.core, s.iss.ctx, k, s.now + 1, false, 0, 0, 0, 0, s.cur.lx⟩] } := by
  have hn := h.message_size hv
  have hclosed : (storeReq u (0x02000000 + 128 * k + o) n data vec).closes = true := by
    rw [closes_message rfl rfl hk (by omega) hv]
    exact decide_eq_true (by simp only [storeReq]; omega)
  have hd : 0x02000000 + 128 * k + o - 0x02000000 = 128 * k + o := by omega
  have hq : (128 * k + o) / 128 = k := by omega
  rw [h.exec_checked hs hc, issueStore_message s (by simp only [storeReq]; omega) (by simp only [storeReq]; omega), hclosed]
  simp only [storeReq, hd, hq]
  rfl

end

/-! ## A store to the array from a context that no core has

A core has the contexts 0 to 3. A state of the model may issue for any number, and the number 8373248 puts the release word of its context,
`0x0400F000 + 4 * x`, at the first byte of the array window. A `st32` to ACTL is then judged as a release too (R200). The lemmas above say what each clause of O18 says
of such a store; `IsStore.areg` alone needs that the context is one of the four. -/

/-- The context whose release word lies at the first byte of the array window. -/
def farCtx : Nat := (0x06000000 - 0x0400F000) / 4

/-- A state that issues for that context: it owns the array and bank 0, which a command of its own is still to access. -/
def farState : State := { State.reset with
  iss := { Issue.reset with ctx := farCtx }
  cores := [(0, { Core.reset with
    ctxs := [(farCtx, { Ctx.reset with a := [(1, 0x06000000)], g := [(41, 1)] })]
    arrayOwner := some farCtx, own := [(0, farCtx + 1)], resv := [⟨0, 4, false, 1, 0, farCtx⟩] })] }

/-- A store of 1 to ACTL. -/
def farStore : Instr := .st32 .ma 0 9 1 0

theorem storeForm_farStore : StoreForm farState farStore .ma (0x06000000 + 0) 4 1 false := StoreForm.st32 .ma 0 9 1 0

theorem noBadWord_farState : NoBadWord farState := by
  intro c
  simp only [State.core, farState, tget]
  split <;> rfl

theorem executes_farStore :
    ExecutesIf farStore farState ((0x06000000 + 0) % 4 = 0 ∧ (farState.core farState.iss.core).arrayOwner = some farState.iss.ctx) :=
  ⟨by decide, .inr ⟨fun q hq => by revert q; decide, noBadWord_farState, by decide⟩⟩

/-- The store takes the bank-release fault. -/
theorem exec_farStore : exec farStore farState = .next (farState.bundleFault (bfault 12 0 1)) :=
  (isStore storeForm_farStore).effect.trans (guarded_faults _ (by decide) rfl (by decide))

/-- Refutes O18: for a context whose release word lies in the array window, a store to ACTL takes the bank-release fault and lands nothing. -/
theorem not_windowStores : ¬ Obligations.WindowStores := by
  unfold Obligations.WindowStores
  intro h
  obtain ⟨-, hareg, -⟩ := h farStore farState .ma _ 4 1 false storeForm_farStore (by decide)
  obtain ⟨t, ht, -, hp, -⟩ := hareg 0 rfl (by decide) (by decide) rfl executes_farStore
  obtain rfl : farState.bundleFault (bfault 12 0 1) = t := by
    rw [exec_farStore] at ht
    injection ht
  have hnone : (((farState.bundleFault (bfault 12 0 1)).ctx farState.iss.core farState.iss.ctx).flights).length = 0 := by decide
  rw [hp] at hnone
  exact absurd hnone (by simp)

end Sys2Proof.Machine
